-- ==== Sys2Proof/Word.lean ====
section
/-! DEFINITION. The word types of the machine (00_scope.md rule R12): byte, halfword, word, doubleword and
quadword, and the 4-bit register numbers of an instruction (30_encoding.md rule R142). -/

namespace Sys2Proof

/-- A byte, 8 bits, the unit of addressing (20_memory.md rule R71, PRESUMED). -/
abbrev Byte := BitVec 8

/-- A halfword, 2 bytes (rule R12). -/
abbrev Half := BitVec 16

/-- A word, 4 bytes (rule R12). -/
abbrev Word := BitVec 32

/-- A doubleword, 8 bytes: the width of general and control registers and of every address. -/
abbrev DWord := BitVec 64

/-- A quadword, 16 bytes: the width of the PSW (10_state.md rule R20). -/
abbrev Quad := BitVec 128

/-- A 4-bit register number of an instruction field (30_encoding.md rule R142). -/
abbrev Reg := BitVec 4

end Sys2Proof
end

