-- ==== Sys2Proof/Machine/Bits.lean ====
section
/-! DEFINITION. Bit fields in the spec's numbering (00_scope.md rules R7 and R9: bit 0 is the leftmost) and the
big-endian byte order (20_memory.md rule R72, decision D1; log 5). -/

namespace Sys2Proof

/-- The n bits of v that begin at bit a, numbered from the left: the spec's v<a..a+n-1> (00_scope.md rule R9). -/
def bits {w : Nat} (v : BitVec w) (a n : Nat) : BitVec n :=
  v.extractLsb' (w - a - n) n

/-- v with the bits that begin at bit a, numbered from the left, replaced by x: the spec's v<a..> <- x (rule R9). -/
def setBits {w n : Nat} (v : BitVec w) (a : Nat) (x : BitVec n) : BitVec w :=
  (v &&& ~~~((BitVec.allOnes n).setWidth w <<< (w - a - n))) ||| (x.setWidth w <<< (w - a - n))

/-- Bit a of v, numbered from the left: the spec's v<a> (rule R9). -/
abbrev bit {w : Nat} (v : BitVec w) (a : Nat) : Bool := v.getMsbD a

/-- The n low-order bytes of v, the most significant first (20_memory.md rule R72). -/
def toBytes : Nat → Nat → List Byte
  | 0, _ => []
  | n + 1, v => BitVec.ofNat 8 (v / 256 ^ n) :: toBytes n v

/-- The number whose bytes are bs, the most significant first (20_memory.md rule R72). The byte is the second factor: an
evaluation that meets a free value there stops at once. -/
def ofBytes : List Byte → Nat
  | [] => 0
  | b :: bs => 256 ^ bs.length * b.toNat + ofBytes bs

end Sys2Proof
end

