-- ==== Sys2Proof/Syntax.lean ====
section
/-! DEFINITION. The instructions: one constructor per row of the opcode table (30_encoding.md rule R149).

Register fields are 4-bit numbers. A 12-bit displacement is a natural number and a 20-bit displacement an integer
(rules R142, R147); WellFormed.lean states their ranges. Fields that the machine ignores (rule R143) are not kept. -/

namespace Sys2Proof

inductive Instr where
  -- 40_psw_instructions.md
  | lpsw (b2 : Reg) (d2 : Nat)
  | lpswe (b2 : Reg) (d2 : Nat)
  | epsw (r1 r2 : Reg)
  | sam24
  | sam31
  | sam64
  -- 41_translation_instructions.md
  | lra (r1 x2 b2 : Reg) (d2 : Nat)
  | lrag (r1 x2 b2 : Reg) (d2 : Int)
  | strag (b1 : Reg) (d1 : Nat) (b2 : Reg) (d2 : Nat)
  | tprot (b1 : Reg) (d1 : Nat) (b2 : Reg) (d2 : Nat)
  | lurag (r1 r2 : Reg)
  | sturg (r1 r2 : Reg)
  -- 42_control_instructions.md
  | lctl (r1 r3 b2 : Reg) (d2 : Nat)
  | stctl (r1 r3 b2 : Reg) (d2 : Nat)
  | lctlg (r1 r3 b2 : Reg) (d2 : Int)
  | stctg (r1 r3 b2 : Reg) (d2 : Int)
  | esea (r1 : Reg)
  | spx (b2 : Reg) (d2 : Nat)
  | stfl
  | sigp (r1 r3 b2 : Reg) (d2 : Nat)
  -- 43_linkage_instructions.md
  | pc (b2 : Reg) (d2 : Nat)
  | bakr (r1 r2 : Reg)
  | pr
  | esta (r1 r2 : Reg)
  | ereg (r1 r2 : Reg)
  | eregg (r1 r2 : Reg)
  | balr (r1 r2 : Reg)
  | basr (r1 r2 : Reg)
  | bassm (r1 r2 : Reg)
  | bsm (r1 r2 : Reg)
  | bsa (r1 r2 : Reg)
  | bsg (r1 r2 : Reg)
  | rp (b2 : Reg) (d2 : Nat)
  -- 44_trace_trap_monitor.md
  | trace (r1 r3 b2 : Reg) (d2 : Nat)
  | tracg (r1 r3 b2 : Reg) (d2 : Int)
  | trap2
  | trap4 (b2 : Reg) (d2 : Nat)
  | mc (b1 : Reg) (d1 : Nat) (i2 : Byte)
  -- 45_move_and_consistency.md
  | mvcp (r1 r3 b1 : Reg) (d1 : Nat) (b2 : Reg) (d2 : Nat)
  | mvcs (r1 r3 b1 : Reg) (d1 : Nat) (b2 : Reg) (d2 : Nat)
  | mvck (r1 r3 b1 : Reg) (d1 : Nat) (b2 : Reg) (d2 : Nat)
  | lpq (r1 x2 b2 : Reg) (d2 : Int)
  | stpq (r1 x2 b2 : Reg) (d2 : Int)
  | cdsg (r1 r3 b2 : Reg) (d2 : Int)
  | plo (r1 r3 b2 : Reg) (d2 : Nat) (b4 : Reg) (d4 : Nat)
  | mvpg (r1 r2 : Reg)
  | iesbe (r1 r2 : Reg)
  deriving DecidableEq, Repr

end Sys2Proof
end

