-- ==== Sys2Proof/WellFormed.lean ====
section
/-! DEFINITION. Which instructions are well formed: every displacement lies in the range its format can hold
(30_encoding.md rules R142 and R147). -/

namespace Sys2Proof

/-- A 12-bit unsigned displacement, 0 to 4095 (30_encoding.md rule R142). -/
abbrev shortDisp (d : Nat) : Bool := decide (d < 4096)

/-- A 20-bit signed displacement, -524288 to 524287 (30_encoding.md rule R147). -/
abbrev longDisp (d : Int) : Bool := decide (-524288 ≤ d ∧ d ≤ 524287)

/-- Every displacement of the instruction is in range. -/
def Instr.wf : Instr → Bool
  | .lpsw _ d2 => shortDisp d2
  | .lpswe _ d2 => shortDisp d2
  | .epsw _ _ => true
  | .sam24 => true
  | .sam31 => true
  | .sam64 => true
  | .lra _ _ _ d2 => shortDisp d2
  | .lrag _ _ _ d2 => longDisp d2
  | .strag _ d1 _ d2 => shortDisp d1 && shortDisp d2
  | .tprot _ d1 _ d2 => shortDisp d1 && shortDisp d2
  | .lurag _ _ => true
  | .sturg _ _ => true
  | .lctl _ _ _ d2 => shortDisp d2
  | .stctl _ _ _ d2 => shortDisp d2
  | .lctlg _ _ _ d2 => longDisp d2
  | .stctg _ _ _ d2 => longDisp d2
  | .esea _ => true
  | .spx _ d2 => shortDisp d2
  | .stfl => true
  | .sigp _ _ _ d2 => shortDisp d2
  | .pc _ d2 => shortDisp d2
  | .bakr _ _ => true
  | .pr => true
  | .esta _ _ => true
  | .ereg _ _ => true
  | .eregg _ _ => true
  | .balr _ _ => true
  | .basr _ _ => true
  | .bassm _ _ => true
  | .bsm _ _ => true
  | .bsa _ _ => true
  | .bsg _ _ => true
  | .rp _ d2 => shortDisp d2
  | .trace _ _ _ d2 => shortDisp d2
  | .tracg _ _ _ d2 => longDisp d2
  | .trap2 => true
  | .trap4 _ d2 => shortDisp d2
  | .mc _ d1 _ => shortDisp d1
  | .mvcp _ _ _ d1 _ d2 => shortDisp d1 && shortDisp d2
  | .mvcs _ _ _ d1 _ d2 => shortDisp d1 && shortDisp d2
  | .mvck _ _ _ d1 _ d2 => shortDisp d1 && shortDisp d2
  | .lpq _ _ _ d2 => longDisp d2
  | .stpq _ _ _ d2 => longDisp d2
  | .cdsg _ _ _ d2 => longDisp d2
  | .plo _ _ _ d2 _ d4 => shortDisp d2 && shortDisp d4
  | .mvpg _ _ => true
  | .iesbe _ _ => true

end Sys2Proof
end

