-- ==== Sys2Proof/Decode.lean ====
section
/-! DEFINITION. The decoder, total on any bytes, and the encoder (30_encoding.md rules R140 to R149, decision D9).
Every opcode and format is general knowledge the spec adopts (PRESUMED, log 22). -/

namespace Sys2Proof

/-- Why bytes are no instruction of the opcode table. -/
inductive DecodeError where
  /-- Fewer bytes than the length that the first byte gives (rule R140). -/
  | truncated
  /-- No row of the opcode table matches (rule R150). -/
  | unknown
  deriving DecidableEq, Repr

/-- The instruction's length in bytes, from bits 0-1 of its first byte (rule R140). -/
def instrLength (b : Byte) : Nat :=
  if b.toNat < 64 then 2 else if b.toNat < 192 then 4 else 6

/-- The n bits that begin at bit a, numbered from the left, of an instruction of len bytes held as a number
(rule R141). -/
def fieldOf (len w a n : Nat) : Nat := w / 2 ^ (8 * len - a - n) % 2 ^ n

/-- A 4-bit register field (rule R142). -/
def regField (len w a : Nat) : Reg := BitVec.ofNat 4 (fieldOf len w a 4)

/-- The 20-bit signed displacement DH2 ‖ DL2 of the RXY and RSY formats (rule R147). -/
def longDispField (w : Nat) : Int :=
  let u := fieldOf 6 w 32 8 * 4096 + fieldOf 6 w 20 12
  if u < 524288 then (u : Int) else (u : Int) - 1048576

/-- A 2-byte instruction: formats E and RR (rules R141, R149). -/
def decode2 (w : Nat) : Option Instr :=
  let r1 := regField 2 w 8
  let r2 := regField 2 w 12
  match fieldOf 2 w 0 8 with
  | 0x01 =>
    match fieldOf 2 w 8 8 with
    | 0x01 => some .pr
    | 0x0C => some .sam24
    | 0x0D => some .sam31
    | 0x0E => some .sam64
    | 0xFF => some .trap2
    | _ => none
  | 0x05 => some (.balr r1 r2)
  | 0x0B => some (.bsm r1 r2)
  | 0x0C => some (.bassm r1 r2)
  | 0x0D => some (.basr r1 r2)
  | _ => none

/-- A 4-byte instruction of format RRE or S, whose operation code is bits 0-15 (rules R141, R149). -/
def decode4Long (w : Nat) : Option Instr :=
  let b2 := regField 4 w 16
  let d2 := fieldOf 4 w 20 12
  let r1 := regField 4 w 24
  let r2 := regField 4 w 28
  match fieldOf 4 w 0 16 with
  | 0xB210 => some (.spx b2 d2)
  | 0xB218 => some (.pc b2 d2)
  | 0xB240 => some (.bakr r1 r2)
  | 0xB249 => some (.ereg r1 r2)
  | 0xB24A => some (.esta r1 r2)
  | 0xB254 => some (.mvpg r1 r2)
  | 0xB258 => some (.bsg r1 r2)
  | 0xB259 => some (.iesbe r1 r2)
  | 0xB25A => some (.bsa r1 r2)
  | 0xB277 => some (.rp b2 d2)
  | 0xB2B1 => some .stfl
  | 0xB2B2 => some (.lpswe b2 d2)
  | 0xB2FF => some (.trap4 b2 d2)
  | 0xB905 => some (.lurag r1 r2)
  | 0xB90E => some (.eregg r1 r2)
  | 0xB925 => some (.sturg r1 r2)
  | 0xB98D => some (.epsw r1 r2)
  | 0xB99D => some (.esea r1)
  | _ => none

/-- A 4-byte instruction: formats RX, RS and SI by their first byte, else RRE or S (rules R141, R149). -/
def decode4 (w : Nat) : Option Instr :=
  let r1 := regField 4 w 8
  let r3 := regField 4 w 12
  let b2 := regField 4 w 16
  let d2 := fieldOf 4 w 20 12
  match fieldOf 4 w 0 8 with
  | 0x82 => some (.lpsw b2 d2)
  | 0x99 => some (.trace r1 r3 b2 d2)
  | 0xAE => some (.sigp r1 r3 b2 d2)
  | 0xAF => some (.mc b2 d2 (BitVec.ofNat 8 (fieldOf 4 w 8 8)))
  | 0xB1 => some (.lra r1 r3 b2 d2)
  | 0xB6 => some (.stctl r1 r3 b2 d2)
  | 0xB7 => some (.lctl r1 r3 b2 d2)
  | _ => decode4Long w

/-- A 6-byte instruction: formats RXY, RSY, SSE, SS-d and SS-e (rules R141, R149). -/
def decode6 (w : Nat) : Option Instr :=
  let r1 := regField 6 w 8
  let r3 := regField 6 w 12
  let b1 := regField 6 w 16
  let d1 := fieldOf 6 w 20 12
  let b2 := regField 6 w 32
  let d2 := fieldOf 6 w 36 12
  let dl := longDispField w
  match fieldOf 6 w 0 8 with
  | 0xD9 => some (.mvck r1 r3 b1 d1 b2 d2)
  | 0xDA => some (.mvcp r1 r3 b1 d1 b2 d2)
  | 0xDB => some (.mvcs r1 r3 b1 d1 b2 d2)
  | 0xE3 =>
    match fieldOf 6 w 40 8 with
    | 0x03 => some (.lrag r1 r3 b1 dl)
    | 0x8E => some (.stpq r1 r3 b1 dl)
    | 0x8F => some (.lpq r1 r3 b1 dl)
    | _ => none
  | 0xE5 =>
    match fieldOf 6 w 8 8 with
    | 0x01 => some (.tprot b1 d1 b2 d2)
    | 0x02 => some (.strag b1 d1 b2 d2)
    | _ => none
  | 0xEB =>
    match fieldOf 6 w 40 8 with
    | 0x0F => some (.tracg r1 r3 b1 dl)
    | 0x25 => some (.stctg r1 r3 b1 dl)
    | 0x2F => some (.lctlg r1 r3 b1 dl)
    | 0x3E => some (.cdsg r1 r3 b1 dl)
    | _ => none
  | 0xEE => some (.plo r1 r3 b1 d1 b2 d2)
  | _ => none

/-- The instruction of len bytes whose bits are the number w. -/
def decodeNumber (len w : Nat) : Option Instr :=
  match len with
  | 2 => decode2 w
  | 4 => decode4 w
  | _ => decode6 w

/-- The instruction at the head of the bytes and the bytes after it (rules R140 and R150). -/
def decode (bs : List Byte) : Except DecodeError (Instr × List Byte) :=
  match bs with
  | [] => .error .truncated
  | b :: _ =>
    let n := instrLength b
    if bs.length < n then .error .truncated
    else
      match decodeNumber n (ofBytes (bs.take n)) with
      | some i => .ok (i, bs.drop n)
      | none => .error .unknown

/-- Format RR. -/
def formRR (op : Nat) (r1 r2 : Reg) : List Byte :=
  toBytes 2 (op * 256 + r1.toNat * 16 + r2.toNat)

/-- Format RRE, with zeros in the unused bits 16-23 (rule R143). -/
def formRRE (op : Nat) (r1 r2 : Reg) : List Byte :=
  toBytes 4 (op * 65536 + r1.toNat * 16 + r2.toNat)

/-- Format S. -/
def formS (op : Nat) (b2 : Reg) (d2 : Nat) : List Byte :=
  toBytes 4 (op * 65536 + b2.toNat * 4096 + d2)

/-- Formats RX, RS and SI: an 8-bit opcode, the 8 bits after it, a base and a displacement. -/
def formRS (op mid : Nat) (b2 : Reg) (d2 : Nat) : List Byte :=
  toBytes 4 (op * 16777216 + mid * 65536 + b2.toNat * 4096 + d2)

/-- The 20-bit two's complement form of a displacement (rule R147). -/
def longDispNumber (d : Int) : Nat := (if d < 0 then d + 1048576 else d).toNat

/-- Formats RXY and RSY: DL2 in bits 20-31, DH2 in bits 32-39. -/
def formRSY (op1 op2 : Nat) (r1 r3 b2 : Reg) (d2 : Int) : List Byte :=
  let u := longDispNumber d2
  toBytes 6 (op1 * 1099511627776 + r1.toNat * 68719476736 + r3.toNat * 4294967296 + b2.toNat * 268435456
    + (u % 4096) * 65536 + (u / 4096) * 256 + op2)

/-- Formats SSE, SS-d and SS-e: an opcode with the 8 bits after it, then two bases with displacements. -/
def formSS (op mid : Nat) (b1 : Reg) (d1 : Nat) (b2 : Reg) (d2 : Nat) : List Byte :=
  toBytes 6 (op * 1099511627776 + mid * 4294967296 + b1.toNat * 268435456 + d1 * 65536 + b2.toNat * 4096 + d2)

/-- The bytes of a well-formed instruction, by the same rows of rule R149; ignored fields are zeros (rule R143). -/
def encode : Instr → List Byte
  | .lpsw b2 d2 => formRS 0x82 0 b2 d2
  | .lpswe b2 d2 => formS 0xB2B2 b2 d2
  | .epsw r1 r2 => formRRE 0xB98D r1 r2
  | .sam24 => toBytes 2 0x010C
  | .sam31 => toBytes 2 0x010D
  | .sam64 => toBytes 2 0x010E
  | .lra r1 x2 b2 d2 => formRS 0xB1 (r1.toNat * 16 + x2.toNat) b2 d2
  | .lrag r1 x2 b2 d2 => formRSY 0xE3 0x03 r1 x2 b2 d2
  | .strag b1 d1 b2 d2 => formSS 0xE5 0x02 b1 d1 b2 d2
  | .tprot b1 d1 b2 d2 => formSS 0xE5 0x01 b1 d1 b2 d2
  | .lurag r1 r2 => formRRE 0xB905 r1 r2
  | .sturg r1 r2 => formRRE 0xB925 r1 r2
  | .lctl r1 r3 b2 d2 => formRS 0xB7 (r1.toNat * 16 + r3.toNat) b2 d2
  | .stctl r1 r3 b2 d2 => formRS 0xB6 (r1.toNat * 16 + r3.toNat) b2 d2
  | .lctlg r1 r3 b2 d2 => formRSY 0xEB 0x2F r1 r3 b2 d2
  | .stctg r1 r3 b2 d2 => formRSY 0xEB 0x25 r1 r3 b2 d2
  | .esea r1 => formRRE 0xB99D r1 0
  | .spx b2 d2 => formS 0xB210 b2 d2
  | .stfl => formS 0xB2B1 0 0
  | .sigp r1 r3 b2 d2 => formRS 0xAE (r1.toNat * 16 + r3.toNat) b2 d2
  | .pc b2 d2 => formS 0xB218 b2 d2
  | .bakr r1 r2 => formRRE 0xB240 r1 r2
  | .pr => toBytes 2 0x0101
  | .esta r1 r2 => formRRE 0xB24A r1 r2
  | .ereg r1 r2 => formRRE 0xB249 r1 r2
  | .eregg r1 r2 => formRRE 0xB90E r1 r2
  | .balr r1 r2 => formRR 0x05 r1 r2
  | .basr r1 r2 => formRR 0x0D r1 r2
  | .bassm r1 r2 => formRR 0x0C r1 r2
  | .bsm r1 r2 => formRR 0x0B r1 r2
  | .bsa r1 r2 => formRRE 0xB25A r1 r2
  | .bsg r1 r2 => formRRE 0xB258 r1 r2
  | .rp b2 d2 => formS 0xB277 b2 d2
  | .trace r1 r3 b2 d2 => formRS 0x99 (r1.toNat * 16 + r3.toNat) b2 d2
  | .tracg r1 r3 b2 d2 => formRSY 0xEB 0x0F r1 r3 b2 d2
  | .trap2 => toBytes 2 0x01FF
  | .trap4 b2 d2 => formS 0xB2FF b2 d2
  | .mc b1 d1 i2 => formRS 0xAF i2.toNat b1 d1
  | .mvcp r1 r3 b1 d1 b2 d2 => formSS 0xDA (r1.toNat * 16 + r3.toNat) b1 d1 b2 d2
  | .mvcs r1 r3 b1 d1 b2 d2 => formSS 0xDB (r1.toNat * 16 + r3.toNat) b1 d1 b2 d2
  | .mvck r1 r3 b1 d1 b2 d2 => formSS 0xD9 (r1.toNat * 16 + r3.toNat) b1 d1 b2 d2
  | .lpq r1 x2 b2 d2 => formRSY 0xE3 0x8F r1 x2 b2 d2
  | .stpq r1 x2 b2 d2 => formRSY 0xE3 0x8E r1 x2 b2 d2
  | .cdsg r1 r3 b2 d2 => formRSY 0xEB 0x3E r1 r3 b2 d2
  | .plo r1 r3 b2 d2 b4 d4 => formSS 0xEE (r1.toNat * 16 + r3.toNat) b2 d2 b4 d4
  | .mvpg r1 r2 => formRRE 0xB254 r1 r2
  | .iesbe r1 r2 => formRRE 0xB259 r1 r2

/-- The instruction's length in bytes (rule R140). -/
def instrBytes (i : Instr) : Nat := (encode i).length

/-- The 20-bit displacement of the RXY and RSY formats (rule R147), if the instruction has one. -/
def longDisplacementOf : Instr → Option Int
  | .lrag _ _ _ d => some d
  | .lctlg _ _ _ d => some d
  | .stctg _ _ _ d => some d
  | .tracg _ _ _ d => some d
  | .lpq _ _ _ d => some d
  | .stpq _ _ _ d => some d
  | .cdsg _ _ _ d => some d
  | _ => none

/-- The instruction's DH2 field is not zero, that is, its displacement is outside 0 to 4095 (rule R147). -/
def needsLongDisplacement (i : Instr) : Bool :=
  match longDisplacementOf i with
  | some d => decide (d < 0 ∨ 4096 ≤ d)
  | none => false

/-- The bytes of a word of the opcode table: nbits bits as one number, its most significant byte first, and zeros
after it up to six bytes. -/
def tableBytes (nbits w : Nat) : List Byte :=
  toBytes (nbits / 8) w ++ List.replicate (6 - nbits / 8) 0

/-- The instruction the decoder reads from a word of the opcode table. -/
def decodeTableWord (nbits w : Nat) : Option Instr :=
  match decode (tableBytes nbits w) with
  | .ok (i, _) => some i
  | .error _ => none

end Sys2Proof
end

