-- ==== Sys2Proof/Config.lean ====
section
/-! DEFINITION. What an implementation fixes (00_scope.md rule R6) and the free values the spec leaves open.

The parameters are plain data, held in the machine's state and changed by nothing; each OPEN parameter of the spec has
the value `unsettled`, under which the model stops where the spec says that a model faults. The free values are opaque:
nothing can be proved of which value one is. -/

namespace Sys2Proof

/-- TABLE_ADDRESS_KIND (20_memory.md rule R108, decision D12; log 12). -/
inductive TableAddressKind where
  /-- The parameter is open: a table fetch in real 0-8191 or in the area at the prefix register faults. -/
  | unsettled
  | real
  | absolute
  deriving DecidableEq, Repr

/-- STE_PTO_LAST_BIT (20_memory.md rule R92, decision D15, 90_conflicts.md C7; log 15). -/
inductive PtoLastBit where
  /-- The parameter is open: a segment-table entry with bit 52 one faults. -/
  | unsettled
  | bit51
  | bit52
  deriving DecidableEq, Repr

/-- LPSW_BIT12_ZERO_OPERAND (40_psw_instructions.md rule R170, decision D6, 90_conflicts.md C12; log 35). -/
inductive LpswBit12 where
  /-- The parameter is open: an operand with bit 12 zero faults. -/
  | unsettled
  /-- The source's words: PSW bit 12 is set to 0 and the load goes on. -/
  | load
  /-- The general-knowledge reading: bit 12 is inverted, so the loaded PSW is invalid. -/
  | invert
  deriving DecidableEq, Repr

/-- What an invalid PSW that becomes current does (10_state.md rule R26, decision D7; log 7). -/
inductive InvalidPsw where
  /-- The spec's treatment: the model faults and does not continue from it. -/
  | stop
  /-- The general-knowledge passage of rule R26: an early specification exception is taken. -/
  | earlySpecification
  deriving DecidableEq, Repr

/-- RESTART_NEW_PSW_LOC (20_memory.md rule R79, decision D28, 90_conflicts.md C6; log 34). -/
inductive RestartPsw where
  | unsettled
  /-- An 8-byte PSW in the short format at real 0-7. -/
  | shortAt0
  /-- A 16-byte PSW at real 416-431. -/
  | longAt416
  deriving DecidableEq, Repr

/-- What a fetch of an instruction from a place that the program has stored into does (20_memory.md rule R120, decision
D24, 93_implementation_defined.md U22; log 62). -/
inductive StreamStores where
  /-- The spec's treatment of the open point: such a program is refused. -/
  | unsettled
  /-- The general-knowledge passage of rule R120: the CPU observes its own stores. -/
  | seen
  deriving DecidableEq, Repr

/-- Which bits of control register 12 are the trace controls and the trace-entry address (10_state.md rule R38,
decision D37): masks over the 64-bit register (log 46). -/
structure TraceControls where
  branch : DWord
  mode : DWord
  explicit : DWord
  address : DWord
  deriving DecidableEq, Repr

/-- The implementation parameters of 00_scope.md rule R6 that are not fixed by the source. -/
structure Params where
  /-- STORAGE_SIZE, bytes of absolute storage (60_exceptions.md rule R324; log 20). -/
  storageSize : Nat
  /-- FAC, the 32 facility bits of STFL (42_control_instructions.md rule R224; log 60). -/
  fac : Word
  tableAddressKind : TableAddressKind
  ptoLastBit : PtoLastBit
  lpswBit12 : LpswBit12
  invalidPsw : InvalidPsw
  restartPsw : RestartPsw
  streamStores : StreamStores
  trace : TraceControls
  /-- The secondary-space control within control register 0, a mask (45_move_and_consistency.md rule R290; log 57). -/
  secondarySpaceControl : DWord
  /-- The long-displacement facility (30_encoding.md rule R147, decision D9; log 23). -/
  longDisplacement : Bool
  deriving DecidableEq, Repr

/-- FREE VALUE: what the byte of storage at an absolute address holds while nothing is listed or stored there
(70_reset_and_hazards.md rule R362, 93_implementation_defined.md U21; log 3). -/
opaque Config.unlistedByte : Nat → Byte

/-- FREE VALUE: bits 0-79 of the TOD clock at a read (10_state.md rule R49, decision D45; log 49). -/
opaque Config.todClock : Nat → BitVec 80

/-- FREE VALUE: bits 52-61 of the translation-exception identification, "unpredictable or zero"
(60_exceptions.md rule R327; log 27). -/
opaque Config.identificationBits : Nat → BitVec 10

/-- FREE VALUE: which of the three instruction-length codes is stored when no instruction length is known
(60_exceptions.md rule R327; log 28). -/
opaque Config.lengthCode : Nat → BitVec 2

/-- FREE VALUE: the program interruption code of the stack exception (43_linkage_instructions.md rule R236; log 41). -/
opaque Config.stackExceptionCode : Half

/-- FREE VALUE: whether the stack exception is nullifying (else suppressing); the spec does not say (log 41). -/
opaque Config.stackExceptionNullifies : Bool

/-- FREE VALUE: the SIGP status "incorrect state" (42_control_instructions.md rule R226; log 55). -/
opaque Config.sigpIncorrectState : Word

/-- FREE VALUE: the SIGP status "invalid parameter" (42_control_instructions.md rule R226; log 55). -/
opaque Config.sigpInvalidParameter : Word

/-- FREE VALUE: the first byte of a TRACG entry whose register count is the argument plus one (TRACG_FIRST_BYTE,
44_trace_trap_monitor.md rule R268, 90_conflicts.md C9; log 47). -/
opaque Config.tracgFirstByte : Nat → Byte

/-- FREE VALUE: bits 32-39 of the link information of BALR in 24-bit mode (43_linkage_instructions.md rule R240;
log 37). -/
opaque Config.linkByte : Nat → Byte

/-- FREE VALUE: the two words that ESTA codes 0, 2 and 3 extract (43_linkage_instructions.md rule R236; log 42). -/
opaque Config.extractedState : Nat → Byte → DWord

/-- FREE VALUE: a general register after PROGRAM CALL (43_linkage_instructions.md rule R230; log 44). -/
opaque Config.calledRegister : Nat → Reg → DWord

/-- FREE VALUE: the condition code after PROGRAM CALL (43_linkage_instructions.md rule R230; log 44). -/
opaque Config.calledCc : Nat → BitVec 2

/-- FREE VALUE: the entry-table entry of a PC number that the state lists no entry for is PCstacking
(43_linkage_instructions.md rule R230; log 44). -/
opaque Config.entryStacks : DWord → Bool

/-- FREE VALUE: the G bit of such an entry (43_linkage_instructions.md rule R231; log 44). -/
opaque Config.entryG : DWord → Bool

/-- FREE VALUE: such an entry enters its routine in 31-bit mode if not in 64-bit mode (log 44). -/
opaque Config.entryMode31 : DWord → Bool

/-- FREE VALUE: such an entry enters its routine in the problem state (log 44). -/
opaque Config.entryProblem : DWord → Bool

/-- FREE VALUE: the address of the routine of such an entry (log 44). -/
opaque Config.entryAddress : DWord → DWord

/-- FREE VALUE: the addressing mode after RESUME PROGRAM (43_linkage_instructions.md rule R246; log 68). -/
opaque Config.resumedMode : Nat → BitVec 2

/-- FREE VALUE: the instruction address after RESUME PROGRAM (43_linkage_instructions.md rule R246; log 68). -/
opaque Config.resumedAddress : Nat → DWord

/-- FREE VALUE: PSW bits 16-23 after RESUME PROGRAM (43_linkage_instructions.md rule R246; log 68). -/
opaque Config.resumedFields : Nat → Byte

/-- FREE VALUE: a general register after RESUME PROGRAM (43_linkage_instructions.md rule R246; log 68). -/
opaque Config.resumedGpr : Nat → Reg → DWord

/-- FREE VALUE: an access register after RESUME PROGRAM (43_linkage_instructions.md rule R246; log 68). -/
opaque Config.resumedAr : Nat → Reg → Word

/-- FREE VALUE: the flag for 64-bit general registers of trap areas that the state does not list
(44_trace_trap_monitor.md rule R270; log 45). -/
opaque Config.trapRegisters64 : Bool

/-- FREE VALUE: the flag for the 128-bit PSW of such trap areas (log 45). -/
opaque Config.trapPsw128 : Bool

/-- FREE VALUE: the address of the trap routine of such trap areas (log 45). -/
opaque Config.trapRoutine : DWord

/-- FREE VALUE: a general register at entry to a trap routine (44_trace_trap_monitor.md rule R270; log 45). -/
opaque Config.trapRegister : Nat → Reg → DWord

/-- FREE VALUE: where a new entry of the linkage stack lies, which control register 15 then designates in its bits 0-60
(10_state.md rule R39; log 40). -/
opaque Config.stackDesignator : Nat → DWord

/-- FREE VALUE: the condition code after PROGRAM RETURN (43_linkage_instructions.md rule R234; log 39). -/
opaque Config.returnedCc : Nat → BitVec 2

/-- FREE VALUE: the condition code after MOVE PAGE (10_state.md rule R28; log 59). -/
opaque Config.movePageCc : Nat → BitVec 2

end Sys2Proof
end

