-- ==== Sys2Proof/Machine/State.lean ====
section
/-! DEFINITION. The machine's state as plain data, the reasons a step can stop, and the launch state.

INVENTORY.md lists each field with the rule of the spec that names it. -/

namespace Sys2Proof.Machine

open Sys2Proof

/-- Architectural mode of the configuration (10_state.md rule R47). -/
inductive ArchMode where
  | esa390
  | zArch
  deriving DecidableEq, Repr

/-- State of a CPU (10_state.md rule R48). -/
inductive CpuStatus where
  | operating
  | stopped
  | load
  | checkStop
  deriving DecidableEq, Repr

/-- Interruption classes (60_exceptions.md rule R325). -/
inductive InterruptClass where
  | restart
  | external
  | supervisorCall
  | program
  | machineCheck
  | inputOutput
  deriving DecidableEq, Repr

/-- The access-control spaces of PSW bits 16-17 (10_state.md rule R23). -/
inductive Space where
  | primary
  | accessRegister
  | secondary
  | home
  deriving DecidableEq, Repr

/-- The translation exceptions (20_memory.md rule R105). -/
inductive TranslationKind where
  | segment
  | page
  | asceType
  | regionFirst
  | regionSecond
  | regionThird
  deriving DecidableEq, Repr

/-- The program exceptions (60_exceptions.md rule R310), with what an interruption stores of them (rule R327). -/
inductive ProgException where
  | operation
  | privileged
  /-- Protection; the address and space are known for page protection only (rule R327). -/
  | protection (page : Option (DWord × Space))
  | addressing
  | specification
  | translation (kind : TranslationKind) (va : DWord) (space : Space)
  | translationSpecification
  | specialOperation
  | traceTable
  /-- The stack exception of 43_linkage_instructions.md rule R236; its code is a free value (log 41). -/
  | stack
  | monitorEvent (number : BitVec 4) (code : DWord)
  deriving DecidableEq, Repr

/-- A pending interruption: its class, and for a program interruption the exception that is to be stored (10_state.md
rule R53, 60_exceptions.md rules R325, R327; log 33). -/
inductive PendingInterruption where
  | restart
  | external
  | supervisorCall
  | program (e : ProgException)
  | machineCheck
  | inputOutput
  deriving DecidableEq, Repr

/-- Which instruction made a linkage-stack state entry (43_linkage_instructions.md rules R233, R236). -/
inductive EntryKind where
  | branch
  | programCall
  deriving DecidableEq, Repr

/-- A linkage-stack state entry as the abstract record of 43_linkage_instructions.md rule R235 (log 40). -/
structure StackEntry where
  /-- The contents of control register 15 that designate this entry (10_state.md rule R39). -/
  designator : DWord
  /-- The designator of the entry before this one. -/
  previous : DWord
  kind : EntryKind
  gr : Vector DWord 16
  ar : Vector Word 16
  psw : Quad
  deriving DecidableEq, Repr

/-- An entry-table entry as an abstract record: its storage format is not in the spec (43_linkage_instructions.md rules
R230 to R232; log 44). -/
structure EntryTableEntry where
  /-- The PC number that selects this entry (rule R230). -/
  number : DWord
  /-- PCstacking or PCbasic (rule R230). -/
  stacking : Bool
  /-- The G bit: entry in 64-bit mode (rules R231, R232). -/
  g : Bool
  /-- With G zero: entry in 31-bit mode, else in 24-bit mode (rule R231). -/
  mode31 : Bool
  /-- Entry in the problem state (60_exceptions.md rule R330). -/
  problem : Bool
  /-- The address at which the called routine is entered. -/
  address : DWord
  deriving DecidableEq, Repr

/-- The general registers a trap stores: low-order halves ("compatible") or 64 bits (44_trace_trap_monitor.md
rule R270). -/
inductive SavedRegisters where
  | low (v : Vector Word 16)
  | full (v : Vector DWord 16)
  deriving DecidableEq, Repr

/-- The PSW a trap stores: the 64-bit short form ("compatible") or 128 bits (44_trace_trap_monitor.md rule R270). -/
inductive SavedPsw where
  | short (v : DWord)
  | full (v : Quad)
  deriving DecidableEq, Repr

/-- What a trap stores in its save area (44_trace_trap_monitor.md rules R270, R272). -/
structure TrapStatus where
  registers : SavedRegisters
  psw : SavedPsw
  /-- The second-operand address of TRAP4. -/
  operand : Option DWord
  deriving DecidableEq, Repr

/-- The trap areas as an abstract record: their storage formats are not in the spec (44_trace_trap_monitor.md rule
R270; log 45). -/
structure TrapArea where
  /-- The flag for 64-bit general registers. -/
  registers64 : Bool
  /-- The flag for the 128-bit PSW. -/
  psw128 : Bool
  /-- The address of the trap routine. -/
  routine : DWord
  saved : Option TrapStatus
  deriving DecidableEq, Repr

/-- Absolute storage: the bytes that a load or a store has placed, by strictly rising address; a byte that is not listed
is a free value (20_memory.md rules R70, R71; log 3). -/
abbrev Memory := List Host.Cell

/-- Why the machine stops. -/
inductive Fault where
  /-- An invalid PSW became current (10_state.md rule R26, decision D7). Raised by a PSW load, an interruption or a
  step. Safe: the spec's own treatment. -/
  | invalidPsw
  /-- LPSW with operand bit 12 zero while LPSW_BIT12_ZERO_OPERAND is open (40_psw_instructions.md rule R170, decision
  D6). Safe. -/
  | lpswBit12Unsettled
  /-- A table fetch in real 0-8191 or in the area at the prefix register while TABLE_ADDRESS_KIND is open
  (20_memory.md rule R108, decision D12). Raised by translation. Safe. -/
  | tableAddressUnsettled
  /-- A segment-table entry with bit 52 one while STE_PTO_LAST_BIT is open (20_memory.md rule R100, decision D15).
  Raised by translation. Safe. -/
  | pageTableOriginUnsettled
  /-- A carry out of bit 0 in the address of a table entry (20_memory.md rule R100, decision D13). Raised by
  translation. Safe. -/
  | tableAddressCarry
  /-- The wait state: a PSW with bit 14 one is current and no enabled interruption is pending (60_exceptions.md rule
  R339, decision D29). Raised by a step. Safe: the end of the run. -/
  | waitState
  /-- The CPU is in the stopped, load or check-stop state (10_state.md rule R48). Raised by a step. Safe. -/
  | notOperating
  /-- The prefix area lies outside configured storage, so an interruption has nowhere to store (60_exceptions.md rule
  R326; log 20). Raised by an interruption. Safe. -/
  | interruptionAreaAbsent
  deriving DecidableEq, Repr

/-- Why the machine gives an instruction no meaning. -/
inductive Refusal where
  /-- The instruction has no meaning yet. Safe. -/
  | notModelled (mnemonic : String)
  /-- The bytes match no row of the opcode table (30_encoding.md rule R150, decision D38). Raised by a step. Safe. -/
  | unknownInstruction
  /-- DH2 is not zero and the long-displacement facility is not installed (30_encoding.md rule R147, decision D9).
  Raised by a step. Safe. -/
  | longDisplacement
  /-- An operand would be translated by access-register translation (10_state.md rule R32, decision D18). Safe. -/
  | accessRegisterTranslation
  /-- PSW bit 1 is one: PER events are not in the spec (60_exceptions.md rule R338, decision D42). Raised by a step.
  Safe. -/
  | perEnabled
  /-- ESA/390 mode is outside the spec but for the switch out of it (00_scope.md rule R5, decision D46). Safe. -/
  | esa390Mode
  /-- A SIGP order other than Set Architecture (42_control_instructions.md rule R226, decision D38). Safe. -/
  | sigpOrder
  /-- A SIGP Set-Architecture order to ESA/390 mode (42_control_instructions.md rule R226, decision D46). Safe. -/
  | switchToEsa390
  /-- A restart interruption while RESTART_NEW_PSW_LOC is open (20_memory.md rule R79, decision D28). Safe. -/
  | restartPswUnsettled
  /-- A fetch of an instruction from a place that the program has stored into, while that point is open (20_memory.md
  rule R120, decision D24). Raised by a step. Safe: the spec's own treatment. -/
  | storeIntoInstructionStream
  /-- BRANCH AND SET AUTHORITY: the spec gives no effect (43_linkage_instructions.md rule R244, decision D38). Safe. -/
  | branchAndSetAuthority
  /-- BRANCH IN SUBSPACE GROUP: the spec gives no effect (43_linkage_instructions.md rule R245, decision D38). Safe. -/
  | branchInSubspaceGroup
  /-- PERFORM LOCKED OPERATION: the spec gives no operation (45_move_and_consistency.md rule R296, decision D38).
  Safe. -/
  | performLockedOperation
  /-- MOVE PAGE with options in general register 0, which the spec names and does not describe
  (45_move_and_consistency.md rule R297, decision D38). Safe. -/
  | movePageOptions
  deriving DecidableEq, Repr

/-- Everything the spec gives the machine, and the model's counter of free values. -/
structure State where
  /-- The program status word (10_state.md rules R20 to R28). -/
  psw : Quad
  /-- General registers (10_state.md rule R30). -/
  gprs : Vector DWord 16
  /-- Access registers (10_state.md rule R32). -/
  ars : Vector Word 16
  /-- Control registers (10_state.md rules R35 to R42). -/
  crs : Vector DWord 16
  /-- The prefix register (10_state.md rule R45). -/
  pfx : DWord
  /-- Architectural mode (10_state.md rule R47). -/
  archMode : ArchMode
  /-- This CPU's state (10_state.md rule R48). -/
  cpuStatus : CpuStatus
  /-- The states of the other CPUs of the configuration (42_control_instructions.md rule R226; log 63). -/
  otherCpus : List CpuStatus
  /-- Absolute storage (20_memory.md rule R70). -/
  mem : Memory
  /-- The state entries of the linkage stacks, the newest first; control register 15 designates the current one
  (43_linkage_instructions.md rule R235, 10_state.md rule R39; log 40). -/
  linkageStack : List StackEntry
  /-- The entry table (43_linkage_instructions.md rule R230). -/
  entryTable : List EntryTableEntry
  /-- The trap areas (44_trace_trap_monitor.md rule R270). -/
  trapArea : Option TrapArea
  /-- Pending interruptions (10_state.md rule R53, 60_exceptions.md rule R325). -/
  pending : List PendingInterruption
  /-- The model's own: the absolute addresses that steps have stored into, rising, for decision D24 (20_memory.md rule
  R120; log 62). -/
  stored : List Nat
  /-- The implementation parameters (00_scope.md rule R6). -/
  params : Params
  /-- The model's own: how many free values have been taken (log 66). -/
  draws : Nat
  deriving DecidableEq, Repr

/-- The parameters of the launch state (logs 7, 12, 15, 20, 23, 34, 35, 46, 57, 60, 62). -/
def Params.atReset : Params where
  storageSize := 2 ^ 64
  fac := 0xE0008000#32
  tableAddressKind := .unsettled
  ptoLastBit := .unsettled
  lpswBit12 := .unsettled
  invalidPsw := .stop
  restartPsw := .unsettled
  streamStores := .unsettled
  trace :=
    { branch := 0x8000000000000000#64
      mode := 0x4000000000000000#64
      explicit := 0x0000000000000001#64
      address := 0x3FFFFFFFFFFFFFFC#64 }
  secondarySpaceControl := 0x0000000004000000#64
  longDisplacement := false

/-- The launch state: z/Architecture mode (70_reset_and_hazards.md rule R362, decision D29), with the common start
state of 95_test_vectors.md section 9 where the spec gives no value (logs 1, 2, 3). DESIGN CHOICE: the spec gives no
contents of the linkage stack (log 40), the entry table (log 44), the trap areas (log 45) and the list of pending
interruptions (log 33) at launch, and each starts empty. -/
def State.reset : State where
  psw := 0x00000001800000000000000000002000#128
  gprs := Vector.replicate 16 0#64
  ars := Vector.replicate 16 0#32
  crs := Vector.replicate 16 0#64
  pfx := 0#64
  archMode := .zArch
  cpuStatus := .operating
  otherCpus := []
  mem := []
  linkageStack := []
  entryTable := []
  trapArea := none
  pending := []
  stored := []
  params := Params.atReset
  draws := 0

/-- The state that Initial Program Load leaves before the switch to z/Architecture mode (70_reset_and_hazards.md rule
R360): ESA/390 mode. DESIGN CHOICE: its PSW, with 31-bit mode and instruction address 2000 hexadecimal, is the model's;
10_state.md rule R55 leaves it unspecified, and its general knowledge takes it from the 8 bytes at absolute 0-7, which
nothing has loaded here (log 1). -/
def State.afterIpl : State :=
  { State.reset with archMode := .esa390, psw := 0x00000000800000000000000000002000#128 }

end Sys2Proof.Machine
end

