-- ==== Sys2Proof/Machine/Memory.lean ====
section
/-! DEFINITION. Reading and writing bytes of absolute storage, and its canonical form (20_memory.md rules R70 to
R72, R122). -/

namespace Sys2Proof.Machine

open Sys2Proof

/-- The byte at an absolute address; one that is not listed is a free value (70_reset_and_hazards.md rule R362; log
3). -/
def readByte : Memory → Nat → Byte
  | [], a => Config.unlistedByte a
  | (k, b) :: m, a => if k = a then b else readByte m a

/-- Storage with the byte at an absolute address replaced. -/
def writeByte : Memory → Nat → Byte → Memory
  | [], a, v => [(a, v)]
  | (k, b) :: m, a, v =>
    if a < k then (a, v) :: (k, b) :: m
    else if a = k then (a, v) :: m
    else (k, b) :: writeByte m a v

/-- The n bytes from an absolute address on, in ascending addresses (20_memory.md rule R72). -/
def readBytes (m : Memory) (a : Nat) : Nat → List Byte
  | 0 => []
  | n + 1 => readByte m a :: readBytes m (a + 1) n

/-- Storage with bytes stored from an absolute address on, in ascending addresses (20_memory.md rule R72). -/
def writeBytes (m : Memory) (a : Nat) : List Byte → Memory
  | [] => m
  | b :: bs => writeBytes (writeByte m a b) (a + 1) bs

/-- Every address listed is at least lo, and addresses rise strictly. -/
def listedFrom (lo : Nat) : Memory → Bool
  | [] => true
  | (k, _) :: m => decide (lo ≤ k) && listedFrom (k + 1) m

/-- The canonical form of storage: the same bytes listed are equal lists. An unlisted address holds no value of the state
(log 3), so no entry equals what it reads as. -/
def Memory.wf (m : Memory) : Bool := listedFrom 0 m

/-- A rising list of places with n more, from a on. -/
def addPlaces (a n : Nat) (l : List Nat) : List Nat :=
  l.filter (fun x => decide (x < a)) ++ List.range' a n ++ l.filter fun x => decide (a + n ≤ x)

end Sys2Proof.Machine
end

