-- ==== Sys2Proof/Machine/Psw.lean ====
section
/-! DEFINITION. The program status word: its fields, the addressing mode, validity, the short format and the
instruction address (10_state.md rules R20 to R28; the layout is PRESUMED, log 6). -/

namespace Sys2Proof.Machine

open Sys2Proof

/-- The addressing modes (10_state.md rule R24). -/
inductive AMode where
  | a24
  | a31
  | a64
  deriving DecidableEq, Repr

/-- 64-bit mode, against "24/31-bit mode" (10_state.md rule R24). -/
def AMode.is64 : AMode → Bool
  | .a64 => true
  | _ => false

/-- An address as the addressing mode presents it: bits 0-39 or 0-32 zero outside 64-bit mode (20_memory.md rule
R74). -/
def AMode.trunc : AMode → DWord → DWord
  | .a24, v => v &&& 0x0000000000FFFFFF#64
  | .a31, v => v &&& 0x000000007FFFFFFF#64
  | .a64, v => v

/-- PSW bits 31-32 for a mode (10_state.md rule R22). -/
def AMode.code : AMode → BitVec 2
  | .a24 => 0b00#2
  | .a31 => 0b01#2
  | .a64 => 0b11#2

/-- The addressing mode of a PSW (10_state.md rule R24). Bit 31 alone distinguishes 64-bit mode, so the invalid pair 10
reads as 64-bit mode here; a PSW with that pair never becomes current (log 9). -/
def pswMode (p : Quad) : AMode :=
  if bit p 31 then .a64 else if bit p 32 then .a31 else .a24

/-- The instruction address, PSW bits 64-127 (10_state.md rule R21). -/
def pswAddress (p : Quad) : DWord := bits p 64 64

/-- A PSW with another instruction address. -/
def pswWithAddress (p : Quad) (a : DWord) : Quad := setBits p 64 a

/-- A PSW with another addressing mode. -/
def pswWithMode (p : Quad) (m : AMode) : Quad := setBits p 31 m.code

/-- The instruction address fits the addressing mode: bits 64-103 zero in 24-bit mode, bits 64-96 zero in 31-bit mode
(10_state.md rule R26). -/
def AMode.fits (m : AMode) (a : DWord) : Bool := m.trunc a == a

/-- The conditions of 10_state.md rule R26: zeros where the layout has zeros, bit 12 zero, a listed addressing mode, and
an instruction address that fits it. -/
def pswValid (p : Quad) : Bool :=
  bits p 0 1 == 0 && bits p 2 3 == 0 && bits p 12 1 == 0 && bits p 24 7 == 0 && bits p 33 31 == 0
    && !(bits p 31 2 == 0b10#2) && (pswMode p).fits (pswAddress p)

/-- The short format of a PSW: bits 33-96 removed and bit 12 one (10_state.md rule R25). -/
def shorten (p : Quad) : DWord := bits p 0 12 ++ 1#1 ++ bits p 13 20 ++ bits p 97 31

/-- The 128-bit PSW of a short-format PSW: 64 zeros inserted and bit 12 zero (10_state.md rule R25, decision D5). -/
def expand (v : DWord) : Quad := bits v 0 12 ++ 0#1 ++ bits v 13 20 ++ 0#64 ++ bits v 33 31

/-- The instruction address of the machine. -/
def State.ia (s : State) : DWord := pswAddress s.psw

/-- The addressing mode of the machine. -/
def State.amode (s : State) : AMode := pswMode s.psw

/-- The machine with another PSW. -/
def State.withPsw (s : State) (p : Quad) : State := { s with psw := p }

/-- The machine with another instruction address. -/
def State.withIa (s : State) (a : DWord) : State := s.withPsw (pswWithAddress s.psw a)

/-- The problem state, PSW bit 15 (60_exceptions.md rule R330). -/
def State.problem (s : State) : Bool := bit s.psw 15

/-- DAT mode, PSW bit 5 (10_state.md rule R23). -/
def State.dat (s : State) : Bool := bit s.psw 5

/-- The condition code, PSW bits 18-19 (10_state.md rule R28). -/
def State.cc (s : State) : BitVec 2 := bits s.psw 18 2

/-- An address k bytes after a, in the addressing mode (10_state.md rule R27, 30_encoding.md rule R146, decision D8;
log 8). -/
def State.offset (s : State) (a : DWord) (k : Nat) : DWord := s.amode.trunc (a + BitVec.ofNat 64 k)

/-- The machine with the instruction address moved past an instruction of len bytes: the updated instruction address
(10_state.md rule R27). -/
def State.advance (s : State) (len : Nat) : State := s.withIa (s.offset s.ia len)

end Sys2Proof.Machine
end

