-- ==== Sys2Proof/Machine/Ops.lean ====
section
/-! DEFINITION. The named operations over registers and real storage, taking an exception, and the load of a new
PSW, which is also the return from one (10_state.md, 20_memory.md rules R76 to R82, 60_exceptions.md). -/

namespace Sys2Proof.Machine

open Sys2Proof

/-- The three outcomes of a step of this machine. -/
abbrev Result := Host.Outcome State Fault Refusal

/-! ## Registers -/

/-- General register r (10_state.md rule R30). -/
def State.gpr (s : State) (r : Reg) : DWord := s.gprs.get r.toFin

/-- Replace general register r: all 64 bits. -/
def State.setGpr (s : State) (r : Reg) (v : DWord) : State := { s with gprs := s.gprs.set r.toNat v r.isLt }

/-- Replace the low-order half of general register r; the high-order half is unchanged (10_state.md rule R31, decision
D32; log 64). -/
def State.setGprLow (s : State) (r : Reg) (v : Word) : State := s.setGpr r (setBits (s.gpr r) 32 v)

/-- Access register r (10_state.md rule R32). -/
def State.ar (s : State) (r : Reg) : Word := s.ars.get r.toFin

/-- Replace access register r. -/
def State.setAr (s : State) (r : Reg) (v : Word) : State := { s with ars := s.ars.set r.toNat v r.isLt }

/-- Control register r (10_state.md rule R35). -/
def State.cr (s : State) (r : Reg) : DWord := s.crs.get r.toFin

/-- Replace control register r; every bit is retained (93_implementation_defined.md U5; log 61). -/
def State.setCr (s : State) (r : Reg) (v : DWord) : State := { s with crs := s.crs.set r.toNat v r.isLt }

/-- The machine after one more free value has been taken (log 66). -/
def State.drawn (s : State) : State := { s with draws := s.draws + 1 }

/-- The facility list that STFL stores: bit 2 reports the architectural mode, and z/Architecture mode is then installed
(10_state.md rules R47, R55, 42_control_instructions.md rule R224). -/
def State.facilities (s : State) : Word :=
  match s.archMode with
  | .zArch => s.params.fac ||| 0x60000000#32
  | .esa390 => s.params.fac &&& 0xDFFFFFFF#32

/-! ## Prefixing and real storage -/

/-- The two-way swap of the first block of real addresses with the block at p; mask has ones for the address bits within
a block (20_memory.md rule R78, decision D11; log 10). -/
def swapBlock (mask p r : DWord) : DWord :=
  if r &&& ~~~mask = 0#64 then p ||| (r &&& mask)
  else if r &&& ~~~mask = p then r &&& mask
  else r

/-- The absolute address of the 8K prefix area (20_memory.md rule R77). -/
def prefixArea (pfx : DWord) : DWord := pfx &&& 0x000000007FFFE000#64

/-- The absolute address of the 4K prefix area of ESA/390 mode: prefix bits 33-51 (10_state.md rule R45, 20_memory.md
rule R76; log 11). -/
def prefixArea390 (pfx : DWord) : DWord := pfx &&& 0x000000007FFFF000#64

/-- The absolute address of a real address (20_memory.md rule R78). -/
def State.toAbsolute (s : State) (r : DWord) : DWord :=
  match s.archMode with
  | .zArch => swapBlock 0x0000000000001FFF#64 (prefixArea s.pfx) r
  | .esa390 => swapBlock 0x0000000000000FFF#64 (prefixArea390 s.pfx) r

/-- The address-space indication of 60_exceptions.md rule R327. -/
def Space.code : Space → BitVec 2
  | .primary => 0b00#2
  | .accessRegister => 0b01#2
  | .secondary => 0b10#2
  | .home => 0b11#2

/-- The address-space control of the PSW (10_state.md rule R23). -/
def State.space (s : State) : Space :=
  match bit s.psw 16, bit s.psw 17 with
  | false, false => .primary
  | false, true => .accessRegister
  | true, false => .secondary
  | true, true => .home

/-! ## Program exceptions -/

/-- The program interruption codes of the translation exceptions (20_memory.md rule R105). -/
def TranslationKind.code : TranslationKind → Half
  | .segment => 0x0010#16
  | .page => 0x0011#16
  | .asceType => 0x0038#16
  | .regionFirst => 0x0039#16
  | .regionSecond => 0x003A#16
  | .regionThird => 0x003B#16

/-- The program interruption code (60_exceptions.md rule R310, decision D26; log 26). -/
def ProgException.code : ProgException → Half
  | .operation => 0x0001#16
  | .privileged => 0x0002#16
  | .protection _ => 0x0004#16
  | .addressing => 0x0005#16
  | .specification => 0x0006#16
  | .translation k _ _ => k.code
  | .translationSpecification => 0x0012#16
  | .specialOperation => 0x0013#16
  | .traceTable => 0x0016#16
  | .stack => Config.stackExceptionCode
  | .monitorEvent _ _ => 0x0040#16

/-- A nullifying exception: the old PSW addresses the instruction itself (60_exceptions.md rule R310). -/
def ProgException.nullifies : ProgException → Bool
  | .translation _ _ _ => true
  | .traceTable => true
  | .stack => Config.stackExceptionNullifies
  | _ => false

/-- The failing virtual address and its space, where rule R327 has a translation-exception identification stored. -/
def ProgException.failing : ProgException → Option (DWord × Space)
  | .translation _ va sp => some (va, sp)
  | .protection page => page
  | _ => none

/-- The monitor-class number and the monitor code, where rule R327 has them stored. -/
def ProgException.monitor : ProgException → Option (BitVec 4 × DWord)
  | .monitorEvent number code => some (number, code)
  | _ => none

/-- Why the body of an instruction does not complete. -/
inductive Stop where
  | exception (e : ProgException)
  | fault (f : Fault)
  | refused (r : Refusal)
  deriving DecidableEq, Repr

/-- A computation that may not complete; nothing is changed then (60_exceptions.md rule R310, decision D27; log 30). -/
abbrev Res (α : Type) := Except Stop α

/-- Raise the exception unless the condition holds. -/
def require (c : Bool) (e : ProgException) : Res Unit := if c then .ok () else .error (.exception e)

/-- The privileged-instruction check (60_exceptions.md rule R331). -/
def State.requireSupervisor (s : State) : Res Unit := require (!s.problem) .privileged

/-- The absolute address of n bytes at a real address; outside configured storage, an addressing exception
(60_exceptions.md rule R324; log 20). The n bytes lie in one block of prefixing. -/
def State.realAddress (s : State) (r : DWord) (n : Nat) : Res Nat :=
  if (s.toAbsolute r).toNat + n ≤ s.params.storageSize then .ok (s.toAbsolute r).toNat
  else .error (.exception .addressing)

/-- The machine with bytes stored at an absolute address. The places stored into go on record, whatever stood there
(20_memory.md rule R120, decision D24; log 62). -/
def State.storeAbsolute (s : State) (a : Nat) (bs : List Byte) : State :=
  { s with mem := writeBytes s.mem a bs, stored := addPlaces a bs.length s.stored }

/-- RealRead (00_scope.md rule R11). -/
def State.realRead (s : State) (r : DWord) (n : Nat) : Res (List Byte) := do
  let a ← s.realAddress r n
  .ok (readBytes s.mem a n)

/-- RealWrite (00_scope.md rule R11). -/
def State.realWrite (s : State) (r : DWord) (bs : List Byte) : Res State := do
  let a ← s.realAddress r bs.length
  .ok (s.storeAbsolute a bs)

/-! ## Interruptions -/

/-- The real address of a class's old PSW (20_memory.md rule R79, decision D25; log 26). -/
def InterruptClass.oldPsw : InterruptClass → DWord
  | .restart => 288#64
  | .external => 304#64
  | .supervisorCall => 320#64
  | .program => 336#64
  | .machineCheck => 352#64
  | .inputOutput => 368#64

/-- The real address of a class's new PSW (20_memory.md rule R79, decision D25; log 26). -/
def InterruptClass.newPsw : InterruptClass → DWord
  | .restart => 416#64
  | .external => 432#64
  | .supervisorCall => 448#64
  | .program => 464#64
  | .machineCheck => 480#64
  | .inputOutput => 496#64

/-- The 16 bytes at a real address of the prefix area, as a PSW. -/
def State.pswAt (s : State) (r : DWord) : Quad :=
  BitVec.ofNat 128 (ofBytes (readBytes s.mem (s.toAbsolute r).toNat 16))

/-- The new PSW of a class; that of restart is at the parameter's place (90_conflicts.md C6; log 34). DESIGN CHOICE: an
8-byte restart new PSW with bit 12 zero, of which the spec says nothing, is expanded as one with bit 12 one is (log
34). -/
def State.newPswOf (s : State) (c : InterruptClass) : Res Quad :=
  match c, s.params.restartPsw with
  | .restart, .unsettled => .error (.refused .restartPswUnsettled)
  | .restart, .shortAt0 =>
    .ok (expand (BitVec.ofNat 64 (ofBytes (readBytes s.mem (s.toAbsolute 0#64).toNat 8))))
  | c, _ => .ok (s.pswAt c.newPsw)

/-- The machine with bytes stored at a real address of the prefix area, as an interruption stores them: without
protection or translation (60_exceptions.md rule R326). -/
def State.storeAssigned (s : State) (r : DWord) (bs : List Byte) : State :=
  s.storeAbsolute (s.toAbsolute r).toNat bs

/-- The prefix area lies in configured storage. -/
def State.prefixAreaPresent (s : State) : Bool :=
  decide ((prefixArea s.pfx).toNat + 8192 ≤ s.params.storageSize)

/-- The interruption of a class: old is stored as the old PSW after info has stored what identifies the interruption,
and the new PSW becomes current (60_exceptions.md rule R326). The new PSW is fetched from other locations than the ones
stored, so its value is that from before the stores. An invalid new PSW faults (60_exceptions.md rule R332; log 7). -/
def State.interrupt (s : State) (c : InterruptClass) (old : Quad) (info : State → State) : Result :=
  match s.archMode with
  | .esa390 => .refused .esa390Mode
  | .zArch =>
    if s.prefixAreaPresent then
      match s.newPswOf c with
      | .ok p =>
        if pswValid p then .next (((info s).storeAssigned c.oldPsw (toBytes 16 old.toNat)).withPsw p)
        else .fault .invalidPsw
      | .error (.refused r) => .refused r
      | .error (.fault f) => .fault f
      | .error (.exception _) => .fault .invalidPsw
    else .fault .interruptionAreaAbsent

/-- Real 140-143: zero, the instruction-length code in bits 5-6 of byte 141, the program interruption code
(60_exceptions.md rule R327). -/
def identificationBytes (ilc : BitVec 2) (code : Half) : List Byte :=
  [0#8, 0#5 ++ ilc ++ 0#1, bits code 0 8, bits code 8 8]

/-- Real 168-175: bits 0-51 of the failing address, ten unpredictable bits, the address-space indication
(60_exceptions.md rule R327; log 27). -/
def translationIdentification (n : Nat) (va : DWord) (sp : Space) : DWord :=
  bits va 0 52 ++ Config.identificationBits n ++ sp.code

/-- The interruption information of a program exception (60_exceptions.md rule R327). -/
def storeProgramInformation (e : ProgException) (ilc : BitVec 2) (s : State) : State :=
  let s1 := s.storeAssigned 140#64 (identificationBytes ilc e.code)
  let s2 :=
    match e.failing with
    | some (va, sp) =>
      (s1.storeAssigned 168#64 (toBytes 8 (translationIdentification s1.draws va sp).toNat)).drawn
    | none => s1
  match e.monitor with
  | some (number, code) =>
    (s2.storeAssigned 148#64 [0#8, 0#4 ++ number]).storeAssigned 176#64 (toBytes 8 code.toNat)
  | none => s2

/-- TAKING A PROGRAM EXCEPTION (60_exceptions.md rules R326, R327): identification and old PSW are stored in the prefix
area and the program new PSW becomes current. -/
def State.programInterruption (s : State) (e : ProgException) (ilc : BitVec 2) (oldIa : DWord) : Result :=
  s.interrupt .program (pswWithAddress s.psw oldIa) (storeProgramInformation e ilc)

/-- The address of the instruction of len bytes whose updated instruction address the PSW holds. -/
def State.instructionAddress (s : State) (len : Nat) : DWord := s.amode.trunc (s.ia - BitVec.ofNat 64 len)

/-- The old instruction address by the kind of ending (60_exceptions.md rule R310): the instruction itself when
nullifying, the next instruction when suppressing or completing. -/
def State.oldAddress (s : State) (e : ProgException) (len : Nat) : DWord :=
  if e.nullifies then s.instructionAddress len else s.ia

/-- The instruction of len bytes that runs in s takes the exception. -/
def State.raise (s : State) (len : Nat) (e : ProgException) : Result :=
  s.programInterruption e (BitVec.ofNat 2 (len / 2)) (s.oldAddress e len)

/-- The outcome of an instruction of len bytes: what it computes from the state at its beginning, continued by k. -/
def State.runThen {α : Type} (s : State) (len : Nat) (r : Res α) (k : α → Result) : Result :=
  match r with
  | .ok v => k v
  | .error (.exception e) => s.raise len e
  | .error (.fault f) => .fault f
  | .error (.refused r) => .refused r

/-- The outcome of an instruction of len bytes whose body computes the next state. -/
def State.run (s : State) (len : Nat) (r : Res State) : Result := s.runThen len r .next

/-- One of the three instruction-length codes, where no length is known (log 28). -/
def anyLengthCode (n : Nat) : BitVec 2 := BitVec.ofNat 2 (1 + (Config.lengthCode n).toNat % 3)

/-- A PSW becomes current (40_psw_instructions.md rules R170, R171, 60_exceptions.md rule R329): RETURNING from an
interruption is this operation on the old PSW. An invalid PSW has the treatment of the parameter (10_state.md rule R26,
decision D7; log 7). -/
def State.loadPsw (s : State) (p : Quad) : Result :=
  if pswValid p then .next (s.withPsw p)
  else
    match s.params.invalidPsw with
    | .stop => .fault .invalidPsw
    | .earlySpecification =>
      ((s.withPsw p).drawn).programInterruption .specification (anyLengthCode s.draws) (pswAddress p)

end Sys2Proof.Machine
end

