-- ==== Sys2Proof/Machine/Translate.lean ====
section
/-! DEFINITION. Dynamic address translation and the logical storage accesses MemRead and MemWrite (20_memory.md rules
R82 to R108, 00_scope.md rule R11, 41_translation_instructions.md rule R196). Tables are walked afresh for every access
(rule R109; log 17). -/

namespace Sys2Proof.Machine

open Sys2Proof

/-! ## The table walk -/

/-- What a walk of the tables finds (41_translation_instructions.md rule R196). -/
inductive Walk where
  /-- The real address, and whether the page is protected (20_memory.md rule R107). -/
  | available (real : DWord) (isProtected : Bool)
  /-- The segment-table entry is invalid; its address. -/
  | segmentInvalid (entry : DWord)
  /-- The page-table entry is invalid; its address. -/
  | pageInvalid (entry : DWord)
  /-- Any other translation exception: rule R196's Other(code). -/
  | other (kind : TranslationKind)
  deriving DecidableEq, Repr

/-- The exception that a walk which is not available stands for, if any (20_memory.md rule R105). -/
def Walk.exception : Walk → Option TranslationKind
  | .available _ _ => none
  | .segmentInvalid _ => some .segment
  | .pageInvalid _ => some .page
  | .other k => some k

/-- What a lookup in a region or segment table gives. -/
inductive TableWalk where
  /-- A valid entry; of the whole walk, the segment-table entry. -/
  | entry (e : DWord)
  /-- The walk ends here. -/
  | stopped (w : Walk)
  deriving DecidableEq, Repr

/-- The index of a virtual address for a level: RFX, RSX, RTX or SX (20_memory.md rules R85 and R100 step 5). -/
def tableIndex (va : DWord) (level : Nat) : BitVec 11 :=
  match level with
  | 0 => bits va 33 11
  | 1 => bits va 22 11
  | 2 => bits va 11 11
  | _ => bits va 0 11

/-- The exception of a level: Exc(level) of 20_memory.md rule R100. -/
def levelException (level : Nat) : TranslationKind :=
  match level with
  | 0 => .segment
  | 1 => .regionThird
  | 2 => .regionSecond
  | _ => .regionFirst

/-- The address of entry number index of a table; a carry out of bit 0 faults (20_memory.md rule R100, decision D13;
log 13). -/
def entryAddress (origin : DWord) (index : Nat) : Res DWord :=
  if origin.toNat + index * 8 < 2 ^ 64 then .ok (origin + BitVec.ofNat 64 (index * 8))
  else .error (.fault .tableAddressCarry)

/-- A real and an absolute reading of this address differ: it lies in 0-8191 or in the area at the prefix register
(20_memory.md rule R108). -/
def State.inPrefixBlocks (s : State) (a : DWord) : Bool :=
  a &&& 0xFFFFFFFFFFFFE000#64 == 0#64 || a &&& 0xFFFFFFFFFFFFE000#64 == prefixArea s.pfx

/-- TableRead(a, 8) (20_memory.md rule R108, decision D12; log 12). -/
def State.tableRead (s : State) (a : DWord) : Res DWord := do
  let abs ←
    match s.params.tableAddressKind with
    | .real => s.realAddress a 8
    | .absolute => if a.toNat + 8 ≤ s.params.storageSize then .ok a.toNat else .error (.exception .addressing)
    | .unsettled =>
      if s.inPrefixBlocks a then .error (.fault .tableAddressUnsettled) else s.realAddress a 8
  .ok (BitVec.ofNat 64 (ofBytes (readBytes s.mem abs 8)))

/-- The origin field of an ASCE or a region-table entry as a 64-bit address (20_memory.md rules R86, R91). -/
def originOf (e : DWord) : DWord := bits e 0 52 ++ 0#12

/-- One round of step 5 of 20_memory.md rule R100: the lookup in the table of a level. -/
def State.lookup (s : State) (va : DWord) (level : Nat) (origin : DWord) (tf tl : BitVec 2) : Res TableWalk := do
  let index := tableIndex va level
  if tl < bits index 0 2 ∨ bits index 0 2 < tf then
    .ok (.stopped (.other (levelException level)))
  else
    let ea ← entryAddress origin index.toNat
    let e ← s.tableRead ea
    if bit e 58 then
      .ok (.stopped (if level = 0 then .segmentInvalid ea else .other (levelException level)))
    else if bits e 60 2 ≠ BitVec.ofNat 2 level then
      .error (.exception .translationSpecification)
    else .ok (.entry e)

/-- Step 5 of 20_memory.md rule R100: the region and segment tables from a level down. -/
def State.walkTables (s : State) (va : DWord) : Nat → DWord → BitVec 2 → BitVec 2 → Res TableWalk
  | 0, origin, tf, tl => s.lookup va 0 origin tf tl
  | level + 1, origin, tf, tl => do
    match ← s.lookup va (level + 1) origin tf tl with
    | .stopped w => .ok (.stopped w)
    | .entry e => s.walkTables va level (originOf e) (bits e 56 2) (bits e 62 2)

/-- Step 6 of 20_memory.md rule R100: the address of the page table (decision D15, 90_conflicts.md C7; log 15). -/
def State.pageTableOrigin (s : State) (ste : DWord) : Res DWord :=
  match s.params.ptoLastBit with
  | .bit51 => .ok (bits ste 0 52 ++ 0#12)
  | .bit52 => .ok (bits ste 0 53 ++ 0#11)
  | .unsettled => if bit ste 52 then .error (.fault .pageTableOriginUnsettled) else .ok (bits ste 0 53 ++ 0#11)

/-- Steps 6, 7 and 9 of 20_memory.md rule R100: the page table; bits 52 and 55 of a valid entry must be zero (decisions
D14, D16; log 14). The protection bits of both entries are ORed (rule R107). -/
def State.walkPage (s : State) (va ste : DWord) : Res Walk := do
  let origin ← s.pageTableOrigin ste
  let ea ← entryAddress origin (bits va 44 8).toNat
  let pte ← s.tableRead ea
  if bit pte 53 then .ok (.pageInvalid ea)
  else if bit pte 52 || bit pte 55 then .error (.exception .translationSpecification)
  else .ok (.available (bits pte 0 52 ++ bits va 52 12) (bit ste 54 || bit pte 54))

/-- The virtual address has a nonzero bit in an index above the designated table (20_memory.md rule R101). -/
def asceTypeViolation (va asce : DWord) : Bool :=
  match (bits asce 60 2).toNat with
  | 0 => bits va 0 33 != 0
  | 1 => bits va 0 22 != 0
  | 2 => bits va 0 11 != 0
  | _ => false

/-- Steps 1 to 7 and 9 of Translate (20_memory.md rule R100): the real space, the ASCE type, then the tables. -/
def State.walk (s : State) (va asce : DWord) : Res Walk :=
  if bit asce 58 then .ok (.available va false)
  else if asceTypeViolation va asce then .ok (.other .asceType)
  else do
    match ← s.walkTables va (bits asce 60 2).toNat (originOf asce) 0#2 (bits asce 62 2) with
    | .stopped w => .ok w
    | .entry ste => s.walkPage va ste

/-- The ASCE of a space (20_memory.md rules R87, R99); that of access-register mode is not in the spec (10_state.md
rule R32; log 16). -/
def State.asceOf (s : State) : Space → Res DWord
  | .primary => .ok (s.cr 1#4)
  | .secondary => .ok (s.cr 7#4)
  | .home => .ok (s.cr 13#4)
  | .accessRegister => .error (.refused .accessRegisterTranslation)

/-- The walk for a virtual address of a space. -/
def State.walkSpace (s : State) (sp : Space) (va : DWord) : Res Walk := do
  let asce ← s.asceOf sp
  s.walk va asce

/-- The kinds of access that Translate distinguishes (00_scope.md rule R11); LRA, LRAG and STRAG use the walk itself. -/
inductive Access where
  | fetch
  | store
  deriving DecidableEq, Repr

/-- Translate(va, asce, acc) for a fetch or a store (20_memory.md rules R100, R105, R107). -/
def State.translate (s : State) (acc : Access) (sp : Space) (va : DWord) : Res DWord := do
  match ← s.walkSpace sp va with
  | .available real isProtected =>
    if acc = .store ∧ isProtected then .error (.exception (.protection (some (va, sp)))) else .ok real
  | .segmentInvalid _ => .error (.exception (.translation .segment va sp))
  | .pageInvalid _ => .error (.exception (.translation .page va sp))
  | .other k => .error (.exception (.translation k va sp))

/-! ## Logical accesses -/

/-- The space of an operand's logical address: none with DAT off, when the address is real (20_memory.md rules R70,
R99). -/
def State.operandSpace (s : State) : Option Space := if s.dat then some s.space else none

/-- The space of the instruction address (20_memory.md rule R99): primary but for the home-space mode. -/
def State.fetchSpace (s : State) : Option Space :=
  if s.dat then some (match s.space with | .home => .home | _ => .primary) else none

/-- The n bytes at an effective address touch 0-511 or 4096-4607 (20_memory.md rule R82). -/
def lowAddress (a : DWord) (n : Nat) : Bool :=
  decide (a.toNat < 512) || decide (a.toNat < 4608 ∧ 4096 < a.toNat + n)

/-- Low-address protection forbids a store of n bytes at an effective address: control register 0 bit 35 is one and the
ASCE used, if any, has no private-space bit (20_memory.md rule R82, decision D44; log 18). -/
def State.lowProtected (s : State) (sp : Option Space) (a : DWord) (n : Nat) : Res Bool :=
  if bit (s.cr 0#4) 35 && lowAddress a n then
    match sp with
    | none => .ok true
    | some sp => do
      let asce ← s.asceOf sp
      .ok (!bit asce 55)
  else .ok false

/-- The absolute address at which n bytes are fetched; the n bytes lie in one page. -/
def State.fetchAddress (s : State) (sp : Option Space) (a : DWord) (n : Nat) : Res Nat := do
  let real ←
    match sp with
    | none => .ok a
    | some sp => s.translate .fetch sp a
  s.realAddress real n

/-- The absolute address at which n bytes are stored; the n bytes lie in one page. Low-address protection tests the
effective address before translation (20_memory.md rule R82), page protection follows translation (rule R107). -/
def State.storeAddress (s : State) (sp : Option Space) (a : DWord) (n : Nat) : Res Nat := do
  let low ← s.lowProtected sp a n
  require (!low) (.protection none)
  let real ←
    match sp with
    | none => .ok a
    | some sp => s.translate .store sp a
  s.realAddress real n

/-- MemRead (00_scope.md rule R11) of an operand: its bytes. -/
def State.memRead (s : State) (a : DWord) (n : Nat) : Res (List Byte) := do
  let abs ← s.fetchAddress s.operandSpace a n
  .ok (readBytes s.mem abs n)

/-- MemRead of an operand as a number. -/
def State.memValue (s : State) (a : DWord) (n : Nat) : Res Nat := do
  let bs ← s.memRead a n
  .ok (ofBytes bs)

/-- MemWrite (00_scope.md rule R11) of an operand. -/
def State.memWrite (s : State) (a : DWord) (bs : List Byte) : Res State := do
  let abs ← s.storeAddress s.operandSpace a bs.length
  .ok (s.storeAbsolute abs bs)

/-- TranslateOperand of 41_translation_instructions.md rule R196: the address is virtual whatever PSW bit 5 is, the space
is that of PSW bits 16-17, and page protection is ignored (decision D31; log 52). -/
def State.translateOperand (s : State) (va : DWord) : Res Walk := s.walkSpace s.space va

end Sys2Proof.Machine
end

