-- ==== Sys2Proof/Machine/Operands.lean ====
section
/-! DEFINITION. Operand forms: effective addresses, register ranges and pairs, addresses in registers, alignment, and
the true length of the moves (30_encoding.md rules R146 to R148, 20_memory.md rule R73). -/

namespace Sys2Proof.Machine

open Sys2Proof

/-- The contribution of a base or index field: zero for field value 0, else the register (30_encoding.md rule R146). -/
def State.baseValue (s : State) (b : Reg) : DWord := if b = 0#4 then 0#64 else s.gpr b

/-- EA(B, X, D) of 30_encoding.md rule R146. -/
def State.indexedAddress (s : State) (b x : Reg) (d : Int) : DWord :=
  s.amode.trunc (s.baseValue b + s.baseValue x + BitVec.ofInt 64 d)

/-- EA(B, 0, D) of 30_encoding.md rule R146. -/
def State.address (s : State) (b : Reg) (d : Int) : DWord := s.indexedAddress b 0#4 d

/-- The address in a general register, truncated to the addressing mode; register 0 is an ordinary register here
(41_translation_instructions.md rule R194). -/
def State.registerAddress (s : State) (r : Reg) : DWord := s.amode.trunc (s.gpr r)

/-- An address is a multiple of n (20_memory.md rule R73). -/
def aligned (a : DWord) (n : Nat) : Bool := a.toNat % n == 0

/-- Raise specification unless the address is a multiple of n (20_memory.md rule R73, decision D22; log 21). -/
def requireAligned (a : DWord) (n : Nat) : Res Unit := require (aligned a n) .specification

/-- Raise specification unless the register is the even one of a pair (30_encoding.md rule R148). -/
def requireEven (r : Reg) : Res Unit := require (!r.getLsbD 0) .specification

/-- How many registers the range r1 to r3 has, 1 to 16 (30_encoding.md rule R148). -/
def rangeCount (r1 r3 : Reg) : Nat := (r3 - r1).toNat + 1

/-- n registers from r on, wrapping from 15 to 0. -/
def registersFrom (r : Reg) : Nat → List Reg
  | 0 => []
  | n + 1 => r :: registersFrom (r + 1#4) n

/-- The register range r1 to r3 (30_encoding.md rule R148). -/
def registerRange (r1 r3 : Reg) : List Reg := registersFrom r1 (rangeCount r1 r3)

/-- The even/odd pair at r as 128 bits (10_state.md rule R31). -/
def State.pair (s : State) (r : Reg) : Quad := s.gpr r ++ s.gpr (r + 1#4)

/-- The even register receives the leftmost 64 bits, the odd one the rest (45_move_and_consistency.md rule R293,
decision D41; log 58). -/
def State.setPair (s : State) (r : Reg) (q : Quad) : State :=
  (s.setGpr r (bits q 0 64)).setGpr (r + 1#4) (bits q 64 64)

/-- The true length: 32 bits of the register in 24/31-bit mode, 64 bits in 64-bit mode (45_move_and_consistency.md
rule R290). -/
def State.trueLength (s : State) (r : Reg) : Nat :=
  if s.amode.is64 then (s.gpr r).toNat else (bits (s.gpr r) 32 32).toNat

/-- How many bytes a move with a true length moves (45_move_and_consistency.md rule R290, decision D40). -/
def moveCount (length : Nat) : Nat := min length 256

/-- The addressing mode an address register selects: bit 63 selects 64-bit mode, else bit 32 31- or 24-bit mode
(43_linkage_instructions.md rule R242; log 37). -/
def modeOfRegister (v : DWord) : AMode :=
  if bit v 63 then .a64 else if bit v 32 then .a31 else .a24

/-- The address that goes with modeOfRegister: without the mode bits (43_linkage_instructions.md rule R242; log 37). -/
def addressOfRegister (v : DWord) : DWord := (modeOfRegister v).trunc (v &&& 0xFFFFFFFFFFFFFFFE#64)

/-- The n operands of size bytes each at consecutive addresses from a on, from operand number k, as numbers; addresses
wrap in the addressing mode (42_control_instructions.md rules R210, R212). -/
def State.readUnits (s : State) (a : DWord) (size : Nat) : Nat → Nat → Res (List Nat)
  | 0, _ => .ok []
  | n + 1, k => do
    let v ← s.memValue (s.offset a (k * size)) size
    let vs ← s.readUnits a size n (k + 1)
    .ok (v :: vs)

/-- Store units of bytes at consecutive addresses of size bytes each from a on, from unit number k
(42_control_instructions.md rules R211, R213). -/
def State.writeUnits (s : State) (a : DWord) (size : Nat) : List (List Byte) → Nat → Res State
  | [], _ => .ok s
  | u :: us, k => do
    let t ← s.memWrite (s.offset a (k * size)) u
    t.writeUnits a size us (k + 1)

end Sys2Proof.Machine
end

