-- ==== Sys2Proof/Machine/Flags.lean ====
section
/-! DEFINITION. The condition code, the only flag in scope: how it is set and every value an instruction gives it
(10_state.md rule R28). -/

namespace Sys2Proof.Machine

open Sys2Proof

/-- The machine with another condition code, PSW bits 18-19 (10_state.md rule R28). -/
def State.setCc (s : State) (c : BitVec 2) : State := s.withPsw (setBits s.psw 18 c)

/-- The condition code of MVCP, MVCS and MVCK: 0 if the true length is at most 256, else 3
(45_move_and_consistency.md rule R290, decision D40). -/
def moveCc (length : Nat) : BitVec 2 := if length ≤ 256 then 0#2 else 3#2

/-- The condition code of CDSG: 0 if equal, 1 if not (45_move_and_consistency.md rule R295). -/
def compareCc (equal : Bool) : BitVec 2 := if equal then 0#2 else 1#2

/-- The condition code of LRAG, and of LRA in 64-bit mode (41_translation_instructions.md rules R190, R191). -/
def walkCc : Walk → BitVec 2
  | .available _ _ => 0#2
  | .segmentInvalid _ => 1#2
  | .pageInvalid _ => 2#2
  | .other _ => 3#2

/-- An address fits in 31 bits: bits 0-32 are zero (41_translation_instructions.md rule R190). -/
def fits31 (a : DWord) : Bool := bits a 0 33 == 0

/-- The condition code of LRA in 24/31-bit mode: 3 rather than 1 or 2 if the entry's address does not fit in 31 bits
(41_translation_instructions.md rule R190). -/
def narrowWalkCc : Walk → BitVec 2
  | .available _ _ => 0#2
  | .segmentInvalid e => if fits31 e then 1#2 else 3#2
  | .pageInvalid e => if fits31 e then 2#2 else 3#2
  | .other _ => 3#2

/-- The condition code of TPROT when the translation is available: 0 if fetches and stores are permitted, 1 if fetches
only (41_translation_instructions.md rule R193; log 53). -/
def protectionCc (storeForbidden : Bool) : BitVec 2 := if storeForbidden then 1#2 else 0#2

/-- The condition code of TPROT when the translation is not available (41_translation_instructions.md rule R193). -/
def notAvailableCc : BitVec 2 := 3#2

/-- The condition code of ESTA: 0 for a branch state entry, 1 for a program-call state entry
(43_linkage_instructions.md rule R236). -/
def entryCc : EntryKind → BitVec 2
  | .branch => 0#2
  | .programCall => 1#2

/-- The condition code of SIGP: 0 if the order is carried out, 1 if a status is stored (42_control_instructions.md
rule R226, decision D36). -/
def orderCc (accepted : Bool) : BitVec 2 := if accepted then 0#2 else 1#2

end Sys2Proof.Machine
end

