-- ==== Sys2Proof/Machine/Trace.lean ====
section
/-! DEFINITION. The trace facility: the controls in control register 12, the trace entries, and which entry an
instruction makes (44_trace_trap_monitor.md rules R260 to R268; logs 46, 47, 48). -/

namespace Sys2Proof.Machine

open Sys2Proof

/-- Branch tracing is on (44_trace_trap_monitor.md rule R261). -/
def State.branchTraceOn (s : State) : Bool := s.cr 12#4 &&& s.params.trace.branch != 0#64

/-- Mode tracing is on (44_trace_trap_monitor.md rule R261). -/
def State.modeTraceOn (s : State) : Bool := s.cr 12#4 &&& s.params.trace.mode != 0#64

/-- Explicit tracing is on (44_trace_trap_monitor.md rule R261). -/
def State.explicitTraceOn (s : State) : Bool := s.cr 12#4 &&& s.params.trace.explicit != 0#64

/-- The real address of the next trace entry (10_state.md rule R38). -/
def State.traceAddress (s : State) : DWord := s.cr 12#4 &&& s.params.trace.address

/-- Control register 12 with the trace-entry address moved past an entry of n bytes (44_trace_trap_monitor.md rule
R261). -/
def State.advancedTrace (s : State) (n : Nat) : DWord :=
  (s.cr 12#4 &&& ~~~s.params.trace.address)
    ||| ((s.traceAddress + BitVec.ofNat 64 n) &&& s.params.trace.address)

/-- Store a trace entry and advance the trace-entry address; an entry that would cross a 4K boundary raises the
trace-table exception (44_trace_trap_monitor.md rule R261, 60_exceptions.md rule R310; log 48). -/
def State.appendTrace (s : State) (entry : List Byte) : Res State := do
  require (decide (s.traceAddress.toNat % 4096 + entry.length ≤ 4096)) .traceTable
  let t ← s.realWrite s.traceAddress entry
  .ok (t.setCr 12#4 (s.advancedTrace entry.length))

/-! ## Entries -/

/-- The branch entry for a target address in an addressing mode: 24-bit, 31-bit or 64-bit form
(44_trace_trap_monitor.md rule R262). -/
def branchEntry (m : AMode) (t : DWord) : List Byte :=
  match m with
  | .a24 => toBytes 4 (0#8 ++ bits t 40 24).toNat
  | .a31 => toBytes 4 (1#1 ++ bits t 33 31).toNat
  | .a64 =>
    if fits31 t then toBytes 4 (1#1 ++ bits t 33 31).toNat
    else toBytes 12 (0x52#8 ++ 0xC#4 ++ 0#20 ++ t).toNat

/-- Whether a change of addressing mode is one between 24/31-bit and 64-bit mode (44_trace_trap_monitor.md rules R263,
R265). -/
def switches64 (old new : AMode) : Bool := old.is64 != new.is64

/-- The A bit: 1 for 31-bit mode (44_trace_trap_monitor.md rules R263, R264). -/
def modeBit (m : AMode) : BitVec 1 :=
  match m with
  | .a24 => 0#1
  | _ => 1#1

/-- The mode-switch entry for the updated instruction address u (44_trace_trap_monitor.md rule R263). -/
def modeSwitchEntry (old : AMode) (u : DWord) : List Byte :=
  match old with
  | .a64 =>
    if bits u 0 32 = 0#32 then toBytes 8 (0x51#8 ++ 0x2#4 ++ 0#20 ++ bits u 32 32).toNat
    else toBytes 12 (0x52#8 ++ 0x6#4 ++ 0#20 ++ u).toNat
  | m => toBytes 8 (0x51#8 ++ 0x3#4 ++ 0#20 ++ modeBit m ++ bits u 33 31).toNat

/-- The mode-switching-branch entry for the branch address b (44_trace_trap_monitor.md rule R264). -/
def modeSwitchingBranchEntry (new : AMode) (b : DWord) : List Byte :=
  match new with
  | .a64 =>
    if bits b 0 32 = 0#32 then toBytes 8 (0x51#8 ++ 0xB#4 ++ 0#20 ++ bits b 32 32).toNat
    else toBytes 12 (0x52#8 ++ 0xF#4 ++ 0#20 ++ b).toNat
  | m => toBytes 8 (0x51#8 ++ 0xA#4 ++ 0#20 ++ modeBit m ++ bits b 33 31).toNat

/-- The TRACE entry for registers and an operand word (44_trace_trap_monitor.md rule R266); tod is bits 0-79 of the
clock. -/
def traceEntry (tod : BitVec 80) (operand : Word) (regs : List DWord) : List Byte :=
  toBytes 8 (0x7#4 ++ BitVec.ofNat 4 (regs.length - 1) ++ 0#8 ++ bits tod 16 48).toNat ++ toBytes 4 operand.toNat
    ++ regs.flatMap (fun v => toBytes 4 (bits v 32 32).toNat)

/-- The TRACG entry (44_trace_trap_monitor.md rule R268); its first byte is a free value (90_conflicts.md C9; log
47). -/
def tracgEntry (tod : BitVec 80) (operand : Word) (regs : List DWord) : List Byte :=
  Config.tracgFirstByte (regs.length - 1) :: 0x80#8 :: toBytes 10 tod.toNat ++ toBytes 4 operand.toNat
    ++ regs.flatMap (fun v => toBytes 8 v.toNat)

/-! ## Which entry an instruction makes (44_trace_trap_monitor.md rule R265) -/

/-- A branch of the class `B`: a branch entry when branch tracing is on. -/
def State.traceBranch (s : State) (m : AMode) (target : DWord) : Res State :=
  if s.branchTraceOn then s.appendTrace (branchEntry m target) else .ok s

/-- A mode setter of the class `MS`: a mode-switch entry when mode tracing is on and the mode changes between 24/31-bit
and 64-bit mode. -/
def State.traceModeSwitch (s : State) (new : AMode) : Res State :=
  if s.modeTraceOn && switches64 s.amode new then s.appendTrace (modeSwitchEntry s.amode s.ia) else .ok s

/-- BASSM: a branch entry, a mode-switch entry, or with both kinds on the entry of the table's footnote 1. -/
def State.traceModeBranch (s : State) (new : AMode) (target : DWord) : Res State :=
  if s.branchTraceOn then
    if s.modeTraceOn && switches64 s.amode new then s.appendTrace (modeSwitchingBranchEntry new target)
    else s.appendTrace (branchEntry new target)
  else s.traceModeSwitch new

end Sys2Proof.Machine
end

