-- ==== Sys2Proof/Machine/ControlInstructions.lean ====
section
/-! DEFINITION. LCTL, STCTL, LCTLG, STCTG, ESEA, SPX, STFL, SIGP (42_control_instructions.md). -/

namespace Sys2Proof.Machine

open Sys2Proof

/-- Replace the low-order half of a control register (42_control_instructions.md rule R210). -/
def State.setCrLow (s : State) (r : Reg) (v : Word) : State := s.setCr r (setBits (s.cr r) 32 v)

/-- Load registers of a range from the words fetched for them (42_control_instructions.md rule R210). -/
def State.setCrsLow (s : State) : List (Reg × Nat) → State
  | [] => s
  | (r, v) :: rest => (s.setCrLow r (BitVec.ofNat 32 v)).setCrsLow rest

/-- Load registers of a range from the doublewords fetched for them (42_control_instructions.md rule R212). -/
def State.setCrs (s : State) : List (Reg × Nat) → State
  | [] => s
  | (r, v) :: rest => (s.setCr r (BitVec.ofNat 64 v)).setCrs rest

/-- LCTL (42_control_instructions.md rule R210): all words are fetched before any register changes (decision D27). -/
def execLctl (r1 r3 b2 : Reg) (d2 : Nat) (s : State) : Result :=
  s.run 4 do
    s.requireSupervisor
    let a := s.address b2 d2
    requireAligned a 4
    let vs ← s.readUnits a 4 (rangeCount r1 r3) 0
    .ok (s.setCrsLow ((registerRange r1 r3).zip vs))

/-- STCTL (42_control_instructions.md rule R211). -/
def execStctl (r1 r3 b2 : Reg) (d2 : Nat) (s : State) : Result :=
  s.run 4 do
    s.requireSupervisor
    let a := s.address b2 d2
    requireAligned a 4
    s.writeUnits a 4 ((registerRange r1 r3).map fun r => toBytes 4 (bits (s.cr r) 32 32).toNat) 0

/-- LCTLG (42_control_instructions.md rule R212). -/
def execLctlg (r1 r3 b2 : Reg) (d2 : Int) (s : State) : Result :=
  s.run 6 do
    s.requireSupervisor
    let a := s.address b2 d2
    requireAligned a 8
    let vs ← s.readUnits a 8 (rangeCount r1 r3) 0
    .ok (s.setCrs ((registerRange r1 r3).zip vs))

/-- STCTG (42_control_instructions.md rule R213). -/
def execStctg (r1 r3 b2 : Reg) (d2 : Int) (s : State) : Result :=
  s.run 6 do
    s.requireSupervisor
    let a := s.address b2 d2
    requireAligned a 8
    s.writeUnits a 8 ((registerRange r1 r3).map fun r => toBytes 8 (s.cr r).toNat) 0

/-- ESEA (42_control_instructions.md rule R214): the EAX goes to bits 32-47 of R1, bits 48-63 of R1 become the EAX. -/
def execEsea (r1 : Reg) (s : State) : Result :=
  s.run 4 do
    s.requireSupervisor
    let old := bits (s.cr 8#4) 32 16
    let new := bits (s.gpr r1) 48 16
    .ok ((s.setGpr r1 (setBits (s.gpr r1) 32 old)).setCr 8#4 (setBits (s.cr 8#4) 32 new))

/-- The prefix register for a prefix word: bits 33-50 from bits 1-18, all others zero (42_control_instructions.md rule
R220). -/
def prefixOfWord (w : Word) : DWord := 0#33 ++ bits w 1 18 ++ 0#13

/-- SPX (42_control_instructions.md rule R220): addressing if the new prefix area is not in storage (log 67). -/
def execSpx (b2 : Reg) (d2 : Nat) (s : State) : Result :=
  s.run 4 do
    s.requireSupervisor
    let a := s.address b2 d2
    requireAligned a 4
    let w ← s.memValue a 4
    let p := prefixOfWord (BitVec.ofNat 32 w)
    require (decide (p.toNat + 8192 ≤ s.params.storageSize)) .addressing
    .ok { s with pfx := p }

/-- The "new ESA/390 (N3) instructions" are installed: facility bit 0 (00_scope.md rule R3, 42_control_instructions.md rule
R224). -/
def State.n3Installed (s : State) : Bool := bit s.params.fac 0

/-- STFL (42_control_instructions.md rule R224): an N3 instruction, so without N3 it takes the operation exception
(30_encoding.md rule R150), before the privileged-operation exception (60_exceptions.md rule R328); low-address protection
does not apply. -/
def execStfl (s : State) : Result :=
  s.run 4 do
    require s.n3Installed .operation
    s.requireSupervisor
    s.realWrite 200#64 (toBytes 4 s.facilities.toNat)

/-- The parameter of a SIGP order: the odd one of R1 and R1+1 (42_control_instructions.md rule R226). -/
def State.orderParameter (s : State) (r1 : Reg) : Byte :=
  bits (s.gpr (if r1.getLsbD 0 then r1 else r1 + 1#4)) 56 8

/-- A CPU that is not running (42_control_instructions.md rule R226). -/
def CpuStatus.atRest : CpuStatus → Bool
  | .stopped => true
  | .checkStop => true
  | _ => false

/-- The switch of the configuration to z/Architecture mode: prefix bit 51 becomes zero, the PSW is expanded, bits 0-31
of the control registers become zero (42_control_instructions.md rule R226, 10_state.md rule R55; logs 11, 55). DESIGN
CHOICE: the access registers and the pending interruptions, which rule R55 leaves unspecified, are unchanged (log
55). -/
def State.switchToZ (s : State) : State :=
  { s with
    archMode := .zArch
    psw := expand (shorten s.psw)
    pfx := prefixArea s.pfx
    crs := s.crs.map (fun c => c &&& 0x00000000FFFFFFFF#64) }

/-- A SIGP order that ends with a status in the low-order half of R1 (42_control_instructions.md rule R226). -/
def State.orderStatus (s : State) (r1 : Reg) (status : Word) : State :=
  (s.setGprLow r1 status).setCc (orderCc false)

/-- The Set-Architecture order (42_control_instructions.md rule R226, decision D36): parameter 0 is ESA/390 mode, 1 is
z/Architecture mode. The switch to ESA/390 mode is refused (decision D46). -/
def State.setArchitecture (s : State) (r1 : Reg) : Res State :=
  if s.otherCpus.all CpuStatus.atRest then
    match (s.orderParameter r1).toNat, s.archMode with
    | 1, .esa390 => .ok (s.switchToZ.setCc (orderCc true))
    | 0, .zArch => .error (.refused .switchToEsa390)
    | _, _ => .ok (s.orderStatus r1 Config.sigpInvalidParameter)
  else .ok (s.orderStatus r1 Config.sigpIncorrectState)

/-- The SIGP order code, bits 56-63 of the second-operand address (42_control_instructions.md rule R226). -/
def State.orderCode (s : State) (b2 : Reg) (d2 : Nat) : Byte := bits (s.address b2 d2) 56 8

/-- SIGP (42_control_instructions.md rule R226): the Set-Architecture order is 12 hexadecimal, other orders are refused
(decision D38). DESIGN CHOICE: it never raises the special-operation exception; rule R317's place in the table of rule
R310 (60_exceptions.md) names general-knowledge causes in SIGP without giving one, and rule R226 has none (log 55). -/
def execSigp (r1 _r3 b2 : Reg) (d2 : Nat) (s : State) : Result :=
  s.run 4 do
    s.requireSupervisor
    if s.orderCode b2 d2 = 0x12#8 then s.setArchitecture r1
    else .error (.refused .sigpOrder)

end Sys2Proof.Machine
end

