-- ==== Sys2Proof/Machine/LinkageInstructions.lean ====
section
/-! DEFINITION. PC, BAKR, PR, ESTA, EREG, EREGG, BALR, BASR, BASSM, BSM, BSA, BSG, RP (43_linkage_instructions.md).
A linkage-stack state entry is the abstract record of rule R235, which control register 15 designates (10_state.md rule
R39; log 40); the entry table is an abstract list (log 44). -/

namespace Sys2Proof.Machine

open Sys2Proof

/-! ## The linkage stack -/

/-- The linkage-stack designator in a control register's contents: bits 0-60, with zeros in bits 61-63 (10_state.md rule
R39). -/
def designatorOf (v : DWord) : DWord := v &&& 0xFFFFFFFFFFFFFFF8#64

/-- A new state entry that holds all general and access registers and a PSW (43_linkage_instructions.md rule R235); where
it lies the spec does not give (log 40). -/
def State.newEntry (s : State) (kind : EntryKind) (p : Quad) : StackEntry where
  designator := designatorOf (Config.stackDesignator s.draws)
  previous := designatorOf (s.cr 15#4)
  kind := kind
  gr := s.gprs
  ar := s.ars
  psw := p

/-- Add a new state entry, which control register 15 then designates (43_linkage_instructions.md rule R235). -/
def State.pushEntry (s : State) (kind : EntryKind) (p : Quad) : State :=
  ({ s with linkageStack := s.newEntry kind p :: s.linkageStack }.setCr 15#4 (s.newEntry kind p).designator).drawn

/-- Remove a state entry; control register 15 then designates the entry before it (43_linkage_instructions.md rule R234;
log 40). -/
def State.popEntry (s : State) (e : StackEntry) : State :=
  { s with linkageStack := s.linkageStack.erase e }.setCr 15#4 e.previous

/-- The state entry that control register 15 designates; where it designates none, the stack exception
(43_linkage_instructions.md rules R235 to R237, 10_state.md rule R39; logs 40, 41). -/
def State.currentEntry (s : State) : Res StackEntry :=
  match s.linkageStack.find? (fun e => e.designator == designatorOf (s.cr 15#4)) with
  | none => .error (.exception .stack)
  | some e => .ok e

/-- Load general registers with all 64 saved bits (43_linkage_instructions.md rules R234, R238). -/
def State.restoreGprs (s : State) (e : StackEntry) : List Reg → State
  | [] => s
  | r :: rs => (s.setGpr r (e.gr.get r.toFin)).restoreGprs e rs

/-- Load the low-order halves of general registers (43_linkage_instructions.md rule R237). -/
def State.restoreGprsLow (s : State) (e : StackEntry) : List Reg → State
  | [] => s
  | r :: rs => (s.setGprLow r (bits (e.gr.get r.toFin) 32 32)).restoreGprsLow e rs

/-- Load access registers (43_linkage_instructions.md rules R234, R237). -/
def State.restoreArs (s : State) (e : StackEntry) : List Reg → State
  | [] => s
  | r :: rs => (s.setAr r (e.ar.get r.toFin)).restoreArs e rs

/-! ## PC, BAKR, PR -/

/-- The addressing mode in which an entry-table entry has its routine entered (43_linkage_instructions.md rule R231). -/
def EntryTableEntry.mode (e : EntryTableEntry) : AMode :=
  if e.g then .a64 else if e.mode31 then .a31 else .a24

/-- Every general register holds a free value (43_linkage_instructions.md rule R230; log 44). -/
def State.freeRegisters (s : State) : State :=
  { s with gprs := Vector.ofFn fun i => Config.calledRegister s.draws (BitVec.ofFin i) }.drawn

/-- Enter the routine of an entry-table entry: its mode, state and address. DESIGN CHOICE: the access registers and the
PSW's other fields, which the spec does not give after PC, are unchanged; and with the G bit zero PCbasic, like PCstacking,
takes 24-bit or 31-bit mode from the entry, so that it can change the basic-addressing-mode bit, of which rule R232 says
nothing (log 44). -/
def State.enterRoutine (s : State) (e : EntryTableEntry) : State :=
  let p := pswWithMode (pswWithAddress s.psw (e.mode.trunc e.address)) e.mode
  (((s.withPsw (setBits p 15 (BitVec.ofBool e.problem))).setCc (Config.calledCc s.draws)).drawn).freeRegisters

/-- The entry-table entry of a PC number that the state lists no entry for: free values (43_linkage_instructions.md rule
R230; log 44). -/
def unlistedEntry (number : DWord) : EntryTableEntry where
  number := number
  stacking := Config.entryStacks number
  g := Config.entryG number
  mode31 := Config.entryMode31 number
  problem := Config.entryProblem number
  address := Config.entryAddress number

/-- The entry-table entry that a PC number selects (43_linkage_instructions.md rule R230; log 44). -/
def State.findEntry (s : State) (number : DWord) : EntryTableEntry :=
  (s.entryTable.find? (fun e => e.number == number)).getD (unlistedEntry number)

/-- PC (43_linkage_instructions.md rules R230 to R232): PCstacking makes a program-call state entry; PCbasic raises
special operation if the G bit differs from PSW bit 31 (decision D34; log 44). -/
def execPc (b2 : Reg) (d2 : Nat) (s : State) : Result :=
  s.run 4 do
    let e := s.findEntry (s.address b2 d2)
    require (e.stacking || e.g == s.amode.is64) .specialOperation
    let t ← s.traceModeSwitch e.mode
    .ok ((if e.stacking then t.pushEntry .programCall s.psw else t).enterRoutine e)

/-- The PSW that BAKR saves: address and addressing mode from R1, or the current ones if the R1 field is 0
(43_linkage_instructions.md rule R233). DESIGN CHOICE: the bits of R1 that give the mode, which rule R233 does not name,
are those of rule R242 (log 38). -/
def State.stackedPsw (s : State) (r1 : Reg) : Quad :=
  if r1 = 0#4 then s.psw
  else pswWithMode (pswWithAddress s.psw (addressOfRegister (s.gpr r1))) (modeOfRegister (s.gpr r1))

/-- A branch of trace class `B` to the address in R2, unless the R2 field is 0 (44_trace_trap_monitor.md rule R265). -/
def State.traceRegisterBranch (s : State) (r2 : Reg) : Res State :=
  if r2 = 0#4 then .ok s else s.traceBranch s.amode (s.registerAddress r2)

/-- The instruction address becomes the address in R2, unless the R2 field is 0. -/
def State.takeBranch (t : State) (r2 : Reg) (target : DWord) : State :=
  if r2 = 0#4 then t else t.withIa target

/-- BAKR (43_linkage_instructions.md rule R233; log 38). -/
def execBakr (r1 r2 : Reg) (s : State) : Result :=
  s.run 4 do
    let t ← s.traceRegisterBranch r2
    .ok ((t.pushEntry .branch (s.stackedPsw r1)).takeBranch r2 (s.registerAddress r2))

/-- The PSW that PR restores: the saved one with the current PER mask and a free condition code
(43_linkage_instructions.md rule R234; log 39). -/
def State.returnedPsw (s : State) (e : StackEntry) : Quad :=
  setBits (setBits e.psw 1 (bits s.psw 1 1)) 18 (Config.returnedCc s.draws)

/-- PR (43_linkage_instructions.md rule R234): general registers 2-14 with all 64 bits, access registers 2-14, the PSW;
the entry is removed. -/
def execPr (s : State) : Result :=
  s.runThen 2
    (do
      let e ← s.currentEntry
      let t ← s.traceModeSwitch (pswMode e.psw)
      let u := (((t.restoreGprs e (registerRange 2#4 14#4)).restoreArs e (registerRange 2#4 14#4)).drawn).popEntry e
      .ok (u, s.returnedPsw e))
    (fun (u, p) => u.loadPsw p)

/-! ## ESTA, EREG, EREGG -/

/-- The low-order halves of an even/odd pair from two words. -/
def State.setPairLow (s : State) (r : Reg) (even odd : Word) : State :=
  (s.setGprLow r even).setGprLow (r + 1#4) odd

/-- The second word of ESTA code 1: with an instruction address of 2^31 or more its last bit is 1 as an indication that
the address is not true (43_linkage_instructions.md rule R236, decision D33, 90_conflicts.md C5). -/
def compatibleSecondWord (p : Quad) : Word :=
  if bits p 64 33 = 0#33 then bits p 32 1 ++ bits p 97 31 else bits p 32 1 ++ bits p 97 30 ++ 1#1

/-- What ESTA extracts for a code (43_linkage_instructions.md rule R236): codes 0, 2 and 3 extract words that the spec
does not give (log 42). -/
def State.extractState (s : State) (r1 : Reg) (code : Byte) (e : StackEntry) : State :=
  if code = 1#8 then s.setPairLow r1 (bits e.psw 0 32) (compatibleSecondWord e.psw)
  else if code = 4#8 then s.setPair r1 e.psw
  else
    (s.setPairLow r1 (bits (Config.extractedState s.draws code) 0 32)
      (bits (Config.extractedState s.draws code) 32 32)).drawn

/-- ESTA (43_linkage_instructions.md rule R236): specification for an odd R1 or a code above 4. -/
def execEsta (r1 r2 : Reg) (s : State) : Result :=
  s.run 4 do
    requireEven r1
    let code := bits (s.gpr r2) 56 8
    require (decide (code.toNat ≤ 4)) .specification
    let e ← s.currentEntry
    .ok ((s.extractState r1 code e).setCc (entryCc e.kind))

/-- EREG (43_linkage_instructions.md rule R237; log 43). -/
def execEreg (r1 r2 : Reg) (s : State) : Result :=
  s.run 4 do
    let e ← s.currentEntry
    .ok ((s.restoreGprsLow e (registerRange r1 r2)).restoreArs e (registerRange r1 r2))

/-- EREGG (43_linkage_instructions.md rule R238; log 43). -/
def execEregg (r1 r2 : Reg) (s : State) : Result :=
  s.run 4 do
    let e ← s.currentEntry
    .ok ((s.restoreGprs e (registerRange r1 r2)).restoreArs e (registerRange r1 r2))

/-! ## Branches -/

/-- The link information of BASR and BASSM: all 64 bits of the updated instruction address in 64-bit mode, else the
basic-addressing-mode bit and a 31-bit address in the low-order half (43_linkage_instructions.md rule R241; log 37). -/
def State.saveLink (s : State) (r1 : Reg) : State :=
  if s.amode.is64 then s.setGpr r1 s.ia else s.setGprLow r1 (bits s.psw 32 1 ++ bits s.ia 33 31)

/-- The link information of BALR (43_linkage_instructions.md rule R240), which the spec does not describe. DESIGN CHOICE:
in 31-bit and 64-bit mode it is that of BASR, and in 24-bit mode bits 32-39 are a free value (log 37). -/
def State.saveLinkInformation (s : State) (r1 : Reg) : State :=
  match s.amode with
  | .a24 => (s.setGprLow r1 (Config.linkByte s.draws ++ bits s.ia 40 24)).drawn
  | _ => s.saveLink r1

/-- BALR (43_linkage_instructions.md rule R240). -/
def execBalr (r1 r2 : Reg) (s : State) : Result :=
  s.run 2 do
    let t ← s.traceRegisterBranch r2
    .ok ((t.saveLinkInformation r1).takeBranch r2 (s.registerAddress r2))

/-- BASR (43_linkage_instructions.md rule R241). -/
def execBasr (r1 r2 : Reg) (s : State) : Result :=
  s.run 2 do
    let t ← s.traceRegisterBranch r2
    .ok ((t.saveLink r1).takeBranch r2 (s.registerAddress r2))

/-- The addressing mode and the instruction address become those of an address register, unless its field is 0
(43_linkage_instructions.md rules R242, R243). -/
def State.takeModeBranch (t : State) (r2 : Reg) (v : DWord) : State :=
  if r2 = 0#4 then t
  else t.withPsw (pswWithMode (pswWithAddress t.psw (addressOfRegister v)) (modeOfRegister v))

/-- BASSM (43_linkage_instructions.md rule R242). -/
def execBassm (r1 r2 : Reg) (s : State) : Result :=
  s.run 2 do
    let v := s.gpr r2
    let t ← if r2 = 0#4 then .ok s else s.traceModeBranch (modeOfRegister v) (addressOfRegister v)
    .ok ((t.saveLink r1).takeModeBranch r2 v)

/-- The current addressing mode into a register (43_linkage_instructions.md rule R243). DESIGN CHOICE: the rule does not
say which bits hold it; here bit 63 becomes one in 64-bit mode, else the basic-addressing-mode bit goes into bit 32, and
every other bit, bit 63 then too, is unchanged (log 37). -/
def State.saveMode (s : State) (r1 : Reg) : State :=
  if s.amode.is64 then s.setGpr r1 (setBits (s.gpr r1) 63 1#1)
  else s.setGpr r1 (setBits (s.gpr r1) 32 (bits s.psw 32 1))

/-- BSM (43_linkage_instructions.md rule R243). -/
def execBsm (r1 r2 : Reg) (s : State) : Result :=
  s.run 2 do
    let v := s.gpr r2
    let t ← if r2 = 0#4 then .ok s else s.traceModeSwitch (modeOfRegister v)
    .ok ((t.saveMode r1).takeModeBranch r2 v)

/-! ## Named without an effect (log 65) -/

/-- BSA (43_linkage_instructions.md rule R244): the spec gives no effect. -/
def execBsa (_r1 _r2 : Reg) (_s : State) : Result := .refused .branchAndSetAuthority

/-- BSG (43_linkage_instructions.md rule R245): the spec gives no effect. -/
def execBsg (_r1 _r2 : Reg) (_s : State) : Result := .refused .branchInSubspaceGroup

/-- The addressing mode of a two-bit choice: one of the three (10_state.md rule R22). -/
def modeOfChoice (c : BitVec 2) : AMode :=
  if c = 0b00#2 then .a24 else if c = 0b01#2 then .a31 else .a64

/-- The addressing mode in which RP resumes, a free value (43_linkage_instructions.md rule R246; log 68). -/
def State.resumedMode (s : State) : AMode := modeOfChoice (Config.resumedMode s.draws)

/-- The address at which RP resumes, a free value that fits the mode (43_linkage_instructions.md rule R246; log 68). -/
def State.resumedAddress (s : State) : DWord := s.resumedMode.trunc (Config.resumedAddress s.draws)

/-- What RP loads from its parameter list: PSW bits 16-23, the addressing mode and the instruction address, general and
access registers, all free values (43_linkage_instructions.md rule R246; log 68). -/
def State.resume (s : State) : State :=
  { s.withPsw (setBits (pswWithMode (pswWithAddress s.psw s.resumedAddress) s.resumedMode) 16
      (Config.resumedFields s.draws)) with
    gprs := Vector.ofFn fun i => Config.resumedGpr s.draws (BitVec.ofFin i)
    ars := Vector.ofFn fun i => Config.resumedAr s.draws (BitVec.ofFin i) }.drawn

/-- RP (43_linkage_instructions.md rule R246): the parameter list it loads from is not in the spec, so what it loads is
a free value; traced as BASSM is (44_trace_trap_monitor.md rule R265; log 68). -/
def execRp (_b2 : Reg) (_d2 : Nat) (s : State) : Result :=
  s.run 4 do
    let t ← s.traceModeBranch s.resumedMode s.resumedAddress
    .ok t.resume

end Sys2Proof.Machine
end

