-- ==== Sys2Proof/Machine/MonitorInstructions.lean ====
section
/-! DEFINITION. TRACE, TRACG, TRAP2, TRAP4, MC (44_trace_trap_monitor.md). The trap areas are an abstract record (log
45). -/

namespace Sys2Proof.Machine

open Sys2Proof

/-- The contents of a register range, in order. -/
def State.rangeValues (s : State) (r1 r3 : Reg) : List DWord := (registerRange r1 r3).map s.gpr

/-- Explicit tracing with an operand word: an entry is stored if explicit tracing is on and bit 0 of the word is zero
(44_trace_trap_monitor.md rules R266, R267). -/
def State.traceExplicit (s : State) (operand : Word) (entry : List Byte) : Res State :=
  if s.explicitTraceOn && !bit operand 0 then do
    let t ← s.appendTrace entry
    .ok t.drawn
  else .ok s

/-- TRACE (44_trace_trap_monitor.md rule R266; logs 49, 50). -/
def execTrace (r1 r3 b2 : Reg) (d2 : Nat) (s : State) : Result :=
  s.run 4 do
    s.requireSupervisor
    let a := s.address b2 d2
    requireAligned a 4
    let w ← s.memValue a 4
    let operand := BitVec.ofNat 32 w
    s.traceExplicit operand (traceEntry (Config.todClock s.draws) operand (s.rangeValues r1 r3))

/-- TRACG (44_trace_trap_monitor.md rules R267, R268; logs 47, 49, 50). -/
def execTracg (r1 r3 b2 : Reg) (d2 : Int) (s : State) : Result :=
  s.run 6 do
    s.requireSupervisor
    let a := s.address b2 d2
    requireAligned a 4
    let w ← s.memValue a 4
    let operand := BitVec.ofNat 32 w
    s.traceExplicit operand (tracgEntry (Config.todClock s.draws) operand (s.rangeValues r1 r3))

/-- The trap areas: those of the state, else free values, as how the areas are located is not in the spec
(44_trace_trap_monitor.md rule R270; log 45). -/
def State.currentTrapArea (s : State) : TrapArea :=
  s.trapArea.getD
    { registers64 := Config.trapRegisters64, psw128 := Config.trapPsw128, routine := Config.trapRoutine, saved := none }

/-- The status a trap stores: compatible forms where a flag is 0, full forms where it is 1
(44_trace_trap_monitor.md rule R270). -/
def State.trapStatus (s : State) (area : TrapArea) (operand : Option DWord) : TrapStatus where
  registers := if area.registers64 then .full s.gprs else .low (s.gprs.map fun v => bits v 32 32)
  psw := if area.psw128 then .full s.psw else .short (shorten s.psw)
  operand := operand

/-- Every general register holds a free value at entry to the trap routine (44_trace_trap_monitor.md rule R270; log
45). -/
def State.freeTrapRegisters (s : State) : State :=
  { s with gprs := Vector.ofFn fun i => Config.trapRegister s.draws (BitVec.ofFin i) }.drawn

/-- A trap: status into the save area, control to the trap routine in 31-bit mode, a branch-trace entry where one is due
(44_trace_trap_monitor.md rules R265, R270). DESIGN CHOICE: the PSW's other fields and the access registers at entry to
the routine, which the spec does not give, are unchanged (log 45). -/
def State.trap (s : State) (operand : Option DWord) : Res State := do
  let area := s.currentTrapArea
  let target := AMode.a31.trunc area.routine
  let t ← s.traceBranch .a31 target
  .ok ({ t with trapArea := some { area with saved := some (s.trapStatus area operand) } }.withPsw
    (pswWithMode (pswWithAddress s.psw target) .a31)).freeTrapRegisters

/-- TRAP2 (44_trace_trap_monitor.md rule R271). -/
def execTrap2 (s : State) : Result := s.run 2 (s.trap none)

/-- TRAP4 (44_trace_trap_monitor.md rule R272): the second-operand address is stored for the routine's use. -/
def execTrap4 (b2 : Reg) (d2 : Nat) (s : State) : Result := s.run 4 (s.trap (some (s.address b2 d2)))

/-- The monitor-mask bit of a class, control register 8 bit 48 + class (44_trace_trap_monitor.md rule R275, decision
D39; log 56). -/
def State.monitorOn (s : State) (number : BitVec 4) : Bool := bit (s.cr 8#4) (48 + number.toNat)

/-- MC (44_trace_trap_monitor.md rule R275): the first-operand address is the monitor code; with the class masked off,
no operation. -/
def execMc (b1 : Reg) (d1 : Nat) (i2 : Byte) (s : State) : Result :=
  s.run 4 do
    require (bits i2 0 4 == 0#4) .specification
    if s.monitorOn (bits i2 4 4) then
      .error (.exception (.monitorEvent (bits i2 4 4) (s.address b1 d1)))
    else .ok s

end Sys2Proof.Machine
end

