-- ==== Sys2Proof/Machine/MoveInstructions.lean ====
section
/-! DEFINITION. MVCP, MVCS, MVCK, LPQ, STPQ, CDSG, PLO, MVPG, IESBE (45_move_and_consistency.md). -/

namespace Sys2Proof.Machine

open Sys2Proof

/-! ## Modal moves -/

/-- The n bytes from a on, from byte number k, can be fetched; all are checked before the first store
(60_exceptions.md rule R328, decision D27). -/
def State.checkFetch (s : State) (sp : Option Space) (a : DWord) : Nat → Nat → Res Unit
  | 0, _ => .ok ()
  | n + 1, k => do
    let _ ← s.fetchAddress sp (s.offset a k) 1
    s.checkFetch sp a n (k + 1)

/-- Move n bytes, from byte number k, one byte at a time from left to right (45_move_and_consistency.md rule R290). -/
def State.moveBytes (s : State) (dest source : Option Space) (a1 a2 : DWord) : Nat → Nat → Res State
  | 0, _ => .ok s
  | n + 1, k => do
    let src ← s.fetchAddress source (s.offset a2 k) 1
    let dst ← s.storeAddress dest (s.offset a1 k) 1
    (s.storeAbsolute dst [readByte s.mem src]).moveBytes dest source a1 a2 n (k + 1)

/-- A move of the true length in R1, at most 256 bytes, and its condition code (45_move_and_consistency.md rule
R290). -/
def State.move (s : State) (dest source : Option Space) (r1 : Reg) (a1 a2 : DWord) : Res State := do
  let n := moveCount (s.trueLength r1)
  s.checkFetch source a2 n 0
  let t ← s.moveBytes dest source a1 a2 n 0
  .ok (t.setCc (moveCc (s.trueLength r1)))

/-- What MVCP and MVCS require: DAT on, primary-space or secondary-space mode, the secondary-space control
(45_move_and_consistency.md rule R290; log 57). -/
def State.twoSpaces (s : State) : Bool :=
  s.dat && (s.space == .primary || s.space == .secondary)
    && (s.cr 0#4 &&& s.params.secondarySpaceControl != 0#64)

/-- MVCP (45_move_and_consistency.md rule R290, decisions D40, D47): the key in R3 is ignored (log 19). -/
def execMvcp (r1 _r3 b1 : Reg) (d1 : Nat) (b2 : Reg) (d2 : Nat) (s : State) : Result :=
  s.run 6 do
    s.requireSupervisor
    require s.twoSpaces .specialOperation
    s.move (some .primary) (some .secondary) r1 (s.address b1 d1) (s.address b2 d2)

/-- MVCS (45_move_and_consistency.md rule R291). -/
def execMvcs (r1 _r3 b1 : Reg) (d1 : Nat) (b2 : Reg) (d2 : Nat) (s : State) : Result :=
  s.run 6 do
    s.requireSupervisor
    require s.twoSpaces .specialOperation
    s.move (some .secondary) (some .primary) r1 (s.address b1 d1) (s.address b2 d2)

/-- MVCK (45_move_and_consistency.md rule R292). -/
def execMvck (r1 _r3 b1 : Reg) (d1 : Nat) (b2 : Reg) (d2 : Nat) (s : State) : Result :=
  s.run 6 do
    s.requireSupervisor
    s.move s.operandSpace s.operandSpace r1 (s.address b1 d1) (s.address b2 d2)

/-! ## Quadwords -/

/-- LPQ (45_move_and_consistency.md rule R293). -/
def execLpq (r1 x2 b2 : Reg) (d2 : Int) (s : State) : Result :=
  s.run 6 do
    requireEven r1
    let a := s.indexedAddress b2 x2 d2
    requireAligned a 16
    let q ← s.memValue a 16
    .ok (s.setPair r1 (BitVec.ofNat 128 q))

/-- STPQ (45_move_and_consistency.md rule R294). -/
def execStpq (r1 x2 b2 : Reg) (d2 : Int) (s : State) : Result :=
  s.run 6 do
    requireEven r1
    let a := s.indexedAddress b2 x2 d2
    requireAligned a 16
    s.memWrite a (toBytes 16 (s.pair r1).toNat)

/-- The quadword at an absolute address. -/
def State.quadAt (s : State) (a : Nat) : Quad := BitVec.ofNat 128 (ofBytes (readBytes s.mem a 16))

/-- CDSG (45_move_and_consistency.md rule R295): the fetch and its exceptions come first (60_exceptions.md rule R328);
store access is tested even when nothing is stored. -/
def execCdsg (r1 r3 b2 : Reg) (d2 : Int) (s : State) : Result :=
  s.run 6 do
    requireEven r1
    requireEven r3
    let a := s.address b2 d2
    requireAligned a 16
    let _ ← s.fetchAddress s.operandSpace a 16
    let abs ← s.storeAddress s.operandSpace a 16
    if s.quadAt abs = s.pair r1 then
      .ok ((s.storeAbsolute abs (toBytes 16 (s.pair r3).toNat)).setCc (compareCc true))
    else .ok ((s.setPair r1 (s.quadAt abs)).setCc (compareCc false))

/-- PLO (45_move_and_consistency.md rule R296): the spec gives no operation (log 65). -/
def execPlo (_r1 _r3 _b2 : Reg) (_d2 : Nat) (_b4 : Reg) (_d4 : Nat) (_s : State) : Result :=
  .refused .performLockedOperation

/-! ## Move page and the dropped instruction -/

/-- The 4096-byte page of the address in a register (45_move_and_consistency.md rule R297). DESIGN CHOICE: the low 12 bits
of the address are dropped before every test of the access, low-address protection too (logs 18, 59). -/
def State.registerPage (s : State) (r : Reg) : DWord := s.registerAddress r &&& 0xFFFFFFFFFFFFF000#64

/-- Refuse MVPG where general register 0 asks for options, of which the spec says only that they are there
(45_move_and_consistency.md rule R297, decision D38). DESIGN CHOICE: zero is the one value that asks for none (log 59). -/
def State.requireNoOptions (s : State) : Res Unit :=
  if s.gpr 0#4 = 0#64 then .ok () else .error (.refused .movePageOptions)

/-- MVPG (45_move_and_consistency.md rule R297, general knowledge; log 59): without options, the page at R2 moves to the
page at R1; the condition code is a free value (10_state.md rule R28). DESIGN CHOICE: low-address protection
(20_memory.md rule R82) tests the page stored into from its start, so a page that has bytes of 0-511 or 4096-4607 is
protected whatever place in it R1 addresses; the spec does not say how it applies to MVPG (logs 18, 59). -/
def execMvpg (r1 r2 : Reg) (s : State) : Result :=
  s.run 4 do
    s.requireNoOptions
    let src ← s.fetchAddress s.operandSpace (s.registerPage r2) 4096
    let dst ← s.storeAddress s.operandSpace (s.registerPage r1) 4096
    .ok (((s.storeAbsolute dst (readBytes s.mem src 4096)).setCc (Config.movePageCc s.draws)).drawn)

/-- IESBE (45_move_and_consistency.md rule R298): dropped, so the operation exception is taken (log 25). -/
def execIesbe (_r1 _r2 : Reg) (s : State) : Result := s.raise 4 .operation

end Sys2Proof.Machine
end

