-- ==== Sys2Proof/Machine/PswInstructions.lean ====
section
/-! DEFINITION. LPSW, LPSWE, EPSW, SAM24, SAM31, SAM64 (40_psw_instructions.md). -/

namespace Sys2Proof.Machine

open Sys2Proof

/-- The PSW that LPSW makes of its operand (40_psw_instructions.md rule R170); an operand with bit 12 zero is the open
case (decision D6, 90_conflicts.md C12; log 35). -/
def State.shortOperandPsw (s : State) (v : DWord) : Res Quad :=
  if bit v 12 then .ok (expand v)
  else
    match s.params.lpswBit12 with
    | .unsettled => .error (.fault .lpswBit12Unsettled)
    | .load => .ok (expand v)
    | .invert => .ok (setBits (expand v) 12 1#1)

/-- LPSW (40_psw_instructions.md rule R170). -/
def execLpsw (b2 : Reg) (d2 : Nat) (s : State) : Result :=
  s.runThen 4
    (do
      s.requireSupervisor
      let a := s.address b2 d2
      requireAligned a 8
      let v ← s.memValue a 8
      s.shortOperandPsw (BitVec.ofNat 64 v))
    s.loadPsw

/-- LPSWE (40_psw_instructions.md rule R171): two doubleword fetches. -/
def execLpswe (b2 : Reg) (d2 : Nat) (s : State) : Result :=
  s.runThen 4
    (do
      s.requireSupervisor
      let a := s.address b2 d2
      requireAligned a 8
      let hi ← s.memValue a 8
      let lo ← s.memValue (s.offset a 8) 8
      .ok (BitVec.ofNat 64 hi ++ BitVec.ofNat 64 lo))
    s.loadPsw

/-- EPSW (40_psw_instructions.md rule R172): the second word only if the R2 field is not 0. -/
def execEpsw (r1 r2 : Reg) (s : State) : Result :=
  let t := s.setGprLow r1 (bits s.psw 0 32)
  .next (if r2 = 0#4 then t else t.setGprLow r2 (bits s.psw 32 32))

/-- Set the addressing mode (40_psw_instructions.md rules R173 to R175; log 36): specification if the updated
instruction address does not fit the mode, a mode-switch trace entry where one is due. -/
def State.setAddressingMode (s : State) (m : AMode) : Res State := do
  require (m.fits s.ia) .specification
  let t ← s.traceModeSwitch m
  .ok (t.withPsw (pswWithMode t.psw m))

/-- SAM24 (40_psw_instructions.md rule R173). -/
def execSam24 (s : State) : Result := s.run 2 (s.setAddressingMode .a24)

/-- SAM31 (40_psw_instructions.md rule R174). -/
def execSam31 (s : State) : Result := s.run 2 (s.setAddressingMode .a31)

/-- SAM64 (40_psw_instructions.md rule R175). -/
def execSam64 (s : State) : Result := s.run 2 (s.setAddressingMode .a64)

end Sys2Proof.Machine
end

