-- ==== Sys2Proof/Machine/TranslationInstructions.lean ====
section
/-! DEFINITION. LRA, LRAG, STRAG, TPROT, LURAG, STURG (41_translation_instructions.md). -/

namespace Sys2Proof.Machine

open Sys2Proof

/-- The word that LRA and LRAG give with condition code 3: bit 32 one and the exception code in bits 48-63
(41_translation_instructions.md rule R190, decision D30; log 51). -/
def exceptionWord (code : Half) : Word := 1#1 ++ 0#15 ++ code

/-- The 64-bit result of LRA in 64-bit mode and of LRAG (41_translation_instructions.md rules R190, R191). -/
def State.setWideReal (s : State) (r1 : Reg) (w : Walk) : State :=
  match w with
  | .available real _ => s.setGpr r1 real
  | .segmentInvalid e => s.setGpr r1 e
  | .pageInvalid e => s.setGpr r1 e
  | .other k => s.setGprLow r1 (exceptionWord k.code)

/-- The word that LRA in 24/31-bit mode puts in the low-order half (41_translation_instructions.md rule R190); no word
if the real address does not fit in 31 bits. -/
def narrowWord : Walk → Option Word
  | .available real _ => if fits31 real then some (bits real 32 32) else none
  | .segmentInvalid e => some (if fits31 e then bits e 32 32 else exceptionWord TranslationKind.segment.code)
  | .pageInvalid e => some (if fits31 e then bits e 32 32 else exceptionWord TranslationKind.page.code)
  | .other k => some (exceptionWord k.code)

/-- The result of LRA by addressing mode (41_translation_instructions.md rule R190). -/
def State.loadReal (s : State) (r1 : Reg) (w : Walk) : Res State :=
  if s.amode.is64 then .ok ((s.setWideReal r1 w).setCc (walkCc w))
  else
    match narrowWord w with
    | some v => .ok ((s.setGprLow r1 v).setCc (narrowWalkCc w))
    | none => .error (.exception .specialOperation)

/-- LRA (41_translation_instructions.md rule R190). -/
def execLra (r1 x2 b2 : Reg) (d2 : Nat) (s : State) : Result :=
  s.run 4 do
    s.requireSupervisor
    let w ← s.translateOperand (s.indexedAddress b2 x2 d2)
    s.loadReal r1 w

/-- LRAG (41_translation_instructions.md rule R191): the 64-bit result in every mode. -/
def execLrag (r1 x2 b2 : Reg) (d2 : Int) (s : State) : Result :=
  s.run 6 do
    s.requireSupervisor
    let w ← s.translateOperand (s.indexedAddress b2 x2 d2)
    .ok ((s.setWideReal r1 w).setCc (walkCc w))

/-- STRAG (41_translation_instructions.md rule R192): the condition code is not set. -/
def execStrag (b1 : Reg) (d1 : Nat) (b2 : Reg) (d2 : Nat) (s : State) : Result :=
  s.run 6 do
    s.requireSupervisor
    let a := s.address b1 d1
    let va := s.address b2 d2
    requireAligned a 8
    match ← s.translateOperand va with
    | .available real _ => s.memWrite a (toBytes 8 real.toNat)
    | .segmentInvalid _ => .error (.exception (.translation .segment va s.space))
    | .pageInvalid _ => .error (.exception (.translation .page va s.space))
    | .other k => .error (.exception (.translation k va s.space))

/-- What TPROT finds at a logical address: the real address and whether its page is protected, or nothing if the
translation is not available (41_translation_instructions.md rule R193). DESIGN CHOICE: a translation-specification
condition of the walk is raised as an exception and is no "translation not available"; rule R193 does not say, and rule
R318 (60_exceptions.md) names LRA, LRAG and STRAG only (log 53). -/
def State.probe (s : State) (a : DWord) : Res (Option (DWord × Bool)) :=
  match s.operandSpace with
  | none => .ok (some (a, false))
  | some sp => do
    match ← s.walkSpace sp a with
    | .available real isProtected => .ok (some (real, isProtected))
    | _ => .ok none

/-- TPROT (41_translation_instructions.md rule R193, general knowledge; log 53): the access key of the second operand is
ignored, as storage keys are not modelled (log 19). -/
def execTprot (b1 : Reg) (d1 : Nat) (_b2 : Reg) (_d2 : Nat) (s : State) : Result :=
  s.run 6 do
    s.requireSupervisor
    let a := s.address b1 d1
    match ← s.probe a with
    | none => .ok (s.setCc notAvailableCc)
    | some (real, isProtected) => do
      let _ ← s.realAddress real 1
      let low ← s.lowProtected s.operandSpace a 1
      .ok (s.setCc (protectionCc (isProtected || low)))

/-- LURAG (41_translation_instructions.md rule R194; log 54). -/
def execLurag (r1 r2 : Reg) (s : State) : Result :=
  s.run 4 do
    s.requireSupervisor
    let ra := s.registerAddress r2
    requireAligned ra 8
    let bs ← s.realRead ra 8
    .ok (s.setGpr r1 (BitVec.ofNat 64 (ofBytes bs)))

/-- STURG (41_translation_instructions.md rule R195; log 54): low-address protection applies to the real address. -/
def execSturg (r1 r2 : Reg) (s : State) : Result :=
  s.run 4 do
    s.requireSupervisor
    let ra := s.registerAddress r2
    requireAligned ra 8
    let abs ← s.storeAddress none ra 8
    .ok (s.storeAbsolute abs (toBytes 8 (s.gpr r1).toNat))

end Sys2Proof.Machine
end

