-- ==== Sys2Proof/Machine/Dispatch.lean ====
section
/-! DEFINITION. The meaning of every instruction, one arm a row of the opcode table. The state is the one in which the
PSW holds the updated instruction address (10_state.md rule R27). -/

namespace Sys2Proof.Machine

open Sys2Proof

def exec (i : Instr) (s : State) : Host.Outcome State Fault Refusal :=
  match i with
  | .lpsw b2 d2 => Sys2Proof.Machine.execLpsw b2 d2 s
  | .lpswe b2 d2 => Sys2Proof.Machine.execLpswe b2 d2 s
  | .epsw r1 r2 => Sys2Proof.Machine.execEpsw r1 r2 s
  | .sam24 => Sys2Proof.Machine.execSam24 s
  | .sam31 => Sys2Proof.Machine.execSam31 s
  | .sam64 => Sys2Proof.Machine.execSam64 s
  | .lra r1 x2 b2 d2 => Sys2Proof.Machine.execLra r1 x2 b2 d2 s
  | .lrag r1 x2 b2 d2 => Sys2Proof.Machine.execLrag r1 x2 b2 d2 s
  | .strag b1 d1 b2 d2 => Sys2Proof.Machine.execStrag b1 d1 b2 d2 s
  | .tprot b1 d1 b2 d2 => Sys2Proof.Machine.execTprot b1 d1 b2 d2 s
  | .lurag r1 r2 => Sys2Proof.Machine.execLurag r1 r2 s
  | .sturg r1 r2 => Sys2Proof.Machine.execSturg r1 r2 s
  | .lctl r1 r3 b2 d2 => Sys2Proof.Machine.execLctl r1 r3 b2 d2 s
  | .stctl r1 r3 b2 d2 => Sys2Proof.Machine.execStctl r1 r3 b2 d2 s
  | .lctlg r1 r3 b2 d2 => Sys2Proof.Machine.execLctlg r1 r3 b2 d2 s
  | .stctg r1 r3 b2 d2 => Sys2Proof.Machine.execStctg r1 r3 b2 d2 s
  | .esea r1 => Sys2Proof.Machine.execEsea r1 s
  | .spx b2 d2 => Sys2Proof.Machine.execSpx b2 d2 s
  | .stfl => Sys2Proof.Machine.execStfl s
  | .sigp r1 r3 b2 d2 => Sys2Proof.Machine.execSigp r1 r3 b2 d2 s
  | .pc b2 d2 => Sys2Proof.Machine.execPc b2 d2 s
  | .bakr r1 r2 => Sys2Proof.Machine.execBakr r1 r2 s
  | .pr => Sys2Proof.Machine.execPr s
  | .esta r1 r2 => Sys2Proof.Machine.execEsta r1 r2 s
  | .ereg r1 r2 => Sys2Proof.Machine.execEreg r1 r2 s
  | .eregg r1 r2 => Sys2Proof.Machine.execEregg r1 r2 s
  | .balr r1 r2 => Sys2Proof.Machine.execBalr r1 r2 s
  | .basr r1 r2 => Sys2Proof.Machine.execBasr r1 r2 s
  | .bassm r1 r2 => Sys2Proof.Machine.execBassm r1 r2 s
  | .bsm r1 r2 => Sys2Proof.Machine.execBsm r1 r2 s
  | .bsa r1 r2 => Sys2Proof.Machine.execBsa r1 r2 s
  | .bsg r1 r2 => Sys2Proof.Machine.execBsg r1 r2 s
  | .rp b2 d2 => Sys2Proof.Machine.execRp b2 d2 s
  | .trace r1 r3 b2 d2 => Sys2Proof.Machine.execTrace r1 r3 b2 d2 s
  | .tracg r1 r3 b2 d2 => Sys2Proof.Machine.execTracg r1 r3 b2 d2 s
  | .trap2 => Sys2Proof.Machine.execTrap2 s
  | .trap4 b2 d2 => Sys2Proof.Machine.execTrap4 b2 d2 s
  | .mc b1 d1 i2 => Sys2Proof.Machine.execMc b1 d1 i2 s
  | .mvcp r1 r3 b1 d1 b2 d2 => Sys2Proof.Machine.execMvcp r1 r3 b1 d1 b2 d2 s
  | .mvcs r1 r3 b1 d1 b2 d2 => Sys2Proof.Machine.execMvcs r1 r3 b1 d1 b2 d2 s
  | .mvck r1 r3 b1 d1 b2 d2 => Sys2Proof.Machine.execMvck r1 r3 b1 d1 b2 d2 s
  | .lpq r1 x2 b2 d2 => Sys2Proof.Machine.execLpq r1 x2 b2 d2 s
  | .stpq r1 x2 b2 d2 => Sys2Proof.Machine.execStpq r1 x2 b2 d2 s
  | .cdsg r1 r3 b2 d2 => Sys2Proof.Machine.execCdsg r1 r3 b2 d2 s
  | .plo r1 r3 b2 d2 b4 d4 => Sys2Proof.Machine.execPlo r1 r3 b2 d2 b4 d4 s
  | .mvpg r1 r2 => Sys2Proof.Machine.execMvpg r1 r2 s
  | .iesbe r1 r2 => Sys2Proof.Machine.execIesbe r1 r2 s

end Sys2Proof.Machine
end

