-- ==== Sys2Proof/Machine/Fetch.lean ====
section
/-! DEFINITION. Fetching an instruction, what a failing fetch does, and taking a pending interruption (30_encoding.md
rule R140, 20_memory.md rule R99, 60_exceptions.md rules R310, R325, R328). -/

namespace Sys2Proof.Machine

open Sys2Proof

/-- A fetch that did not complete, with the instruction's length where its first halfword was fetched. -/
abbrev FetchStop := Stop × Option Nat

/-- The fetch of n bytes of an instruction from an absolute address is the open point of decision D24: a step has stored
into one of them (20_memory.md rule R120; log 62). -/
def State.fetchIsOpen (s : State) (abs n : Nat) : Bool :=
  decide (s.params.streamStores = .unsettled) && s.stored.any fun a => decide (abs ≤ a) && decide (a < abs + n)

/-- The halfword at an address of the instruction stream; refused where a store into it leaves the fetch open
(20_memory.md rule R120, decision D24). -/
def State.fetchHalf (s : State) (a : DWord) : Res (List Byte) := do
  let abs ← s.fetchAddress s.fetchSpace a 2
  if s.fetchIsOpen abs 2 then .error (.refused .storeIntoInstructionStream) else .ok (readBytes s.mem abs 2)

/-- n halfwords of the instruction stream, from halfword number k on. -/
def State.fetchRest (s : State) : Nat → Nat → Res (List Byte)
  | 0, _ => .ok []
  | n + 1, k => do
    let h ← s.fetchHalf (s.offset s.ia (2 * k))
    let rest ← s.fetchRest n (k + 1)
    .ok (h ++ rest)

/-- The bytes of the instruction at the instruction address: its first halfword gives the length (30_encoding.md rule
R140); an odd address is a specification exception (20_memory.md rule R73). -/
def State.fetchInstruction (s : State) : Except FetchStop (List Byte) :=
  if bit s.ia 63 then .error (.exception .specification, none)
  else
    match s.fetchHalf s.ia with
    | .error e => .error (e, none)
    | .ok h =>
      let len := instrLength (h.headD 0#8)
      match s.fetchRest (len / 2 - 1) 1 with
      | .error e => .error (e, some len)
      | .ok rest => .ok (h ++ rest)

/-- The old instruction address of an exception of the fetch (60_exceptions.md rule R310; log 28). -/
def State.fetchOldAddress (s : State) (e : ProgException) (ilc : BitVec 2) : DWord :=
  if e.nullifies then s.ia else s.offset s.ia (2 * ilc.toNat)

/-- What a failing fetch does: an exception is taken, with the instruction's length code or, where no length is known,
a free one (60_exceptions.md rule R328; log 28). -/
def State.fetchStopped (s : State) (stop : FetchStop) : Result :=
  match stop with
  | (.fault f, _) => .fault f
  | (.refused r, _) => .refused r
  | (.exception e, some len) =>
    s.programInterruption e (BitVec.ofNat 2 (len / 2)) (s.fetchOldAddress e (BitVec.ofNat 2 (len / 2)))
  | (.exception e, none) =>
    s.drawn.programInterruption e (anyLengthCode s.draws) (s.fetchOldAddress e (anyLengthCode s.draws))

/-- An interruption is enabled (60_exceptions.md rule R325). -/
def State.enabled (s : State) : PendingInterruption → Bool
  | .external => bit s.psw 7
  | .inputOutput => bit s.psw 6
  | .machineCheck => bit s.psw 13
  | .restart => true
  | .supervisorCall => true
  | .program _ => true

/-- An interruption that was pending is taken: a program interruption stores what identifies its exception (60_exceptions.md
rule R327), with a free instruction-length code, and the other classes their old PSW only (rule R326; log 33). -/
def State.takeInterruption (s : State) : PendingInterruption → Result
  | .program e => s.drawn.programInterruption e (anyLengthCode s.draws) s.ia
  | .restart => s.interrupt .restart s.psw id
  | .external => s.interrupt .external s.psw id
  | .supervisorCall => s.interrupt .supervisorCall s.psw id
  | .machineCheck => s.interrupt .machineCheck s.psw id
  | .inputOutput => s.interrupt .inputOutput s.psw id

/-- The first pending interruption that is enabled is taken (60_exceptions.md rules R325, R326; log 33). -/
def State.takePending (s : State) : Option Result :=
  match s.pending.find? s.enabled with
  | some c => some ({ s with pending := s.pending.erase c }.takeInterruption c)
  | none => none

/-- The wait state, PSW bit 14 (60_exceptions.md rule R339). -/
def State.waiting (s : State) : Bool := bit s.psw 14

/-- PSW bit 1, the PER mask (60_exceptions.md rule R338). -/
def State.per (s : State) : Bool := bit s.psw 1

/-- The instructions that the spec gives an effect in ESA/390 mode: SIGP, for the switch out of it, and STFL, "added to
ESA/390" (42_control_instructions.md rules R226, R224; log 11). -/
def runsIn390 : Instr → Bool
  | .sigp _ _ _ _ => true
  | .stfl => true
  | _ => false

/-- Why a decoded instruction is not run, if it is not: the long-displacement facility (30_encoding.md rule R147), or
ESA/390 mode. -/
def State.notRun (s : State) (i : Instr) : Option Refusal :=
  if needsLongDisplacement i && !s.params.longDisplacement then some .longDisplacement
  else if s.archMode = .esa390 && !runsIn390 i then some .esa390Mode
  else none

/-- Why no instruction is fetched, if none is: the CPU does not operate, the PSW is invalid, the wait state, PER, or
ESA/390 mode with DAT on. -/
def State.notFetching (s : State) : Option Result :=
  if !pswValid s.psw then some (.fault .invalidPsw)
  else if s.waiting then some (.fault .waitState)
  else if s.per then some (.refused .perEnabled)
  else if s.archMode = .esa390 && s.dat then some (.refused .esa390Mode)
  else none

/-! ## Placing an instruction -/

/-- Store a halfword where the fetch of an address reads it, as a load from outside the machine; nothing where that
address cannot be fetched. -/
def State.placeHalf (s : State) (a : DWord) (h : List Byte) : State :=
  match s.fetchAddress s.fetchSpace a 2 with
  | .ok abs => { s.storeAbsolute abs h with stored := s.stored.filter fun k => k != abs && k != abs + 1 }
  | .error _ => s

/-- Store bytes in the instruction stream from halfword number k on, two at a time. -/
def State.placeBytes (s : State) : List Byte → Nat → State
  | b :: c :: rest, k => (s.placeHalf (s.offset s.ia (2 * k)) [b, c]).placeBytes rest (k + 1)
  | _, _ => s

end Sys2Proof.Machine
end

