-- ==== Sys2Proof/Machine/Run.lean ====
section
/-! DEFINITION. Decoding and running what is fetched (10_state.md rule R27, 30_encoding.md rule R150). -/

namespace Sys2Proof.Machine

open Sys2Proof

/-- Decode and run the bytes of an instruction: the PSW holds the updated instruction address while it runs
(10_state.md rule R27). -/
def State.runBytes (s : State) (bs : List Byte) : Result :=
  match decode bs with
  | .error _ => .refused .unknownInstruction
  | .ok (i, _) =>
    match s.notRun i with
    | some r => .refused r
    | none => exec i (s.advance (instrBytes i))

/-- Fetch an instruction and run it. -/
def State.fetchAndRun (s : State) : Result :=
  match s.fetchInstruction with
  | .error stop => s.fetchStopped stop
  | .ok bs => s.runBytes bs

/-- What the CPU does next: a pending interruption, or one instruction (70_reset_and_hazards.md rule R364). -/
def State.act (s : State) : Result :=
  if s.cpuStatus = .operating then
    match s.takePending with
    | some r => r
    | none =>
      match s.notFetching with
      | some r => r
      | none => s.fetchAndRun
  else .fault .notOperating

end Sys2Proof.Machine
end

