-- ==== Sys2Proof/Machine/Step.lean ====
section
/-! DEFINITION. One step: a pending interruption, or the fetch, decoding and execution of one instruction
(70_reset_and_hazards.md rule R364). -/

namespace Sys2Proof.Machine

open Sys2Proof

/-- One step of the machine. -/
def step (s : State) : Host.Outcome State Fault Refusal := s.act

/-- The machine with a word of the opcode table where the next instruction is fetched. -/
def State.withFetchWord (s : State) (nbits w : Nat) : State := s.placeBytes (tableBytes nbits w) 0

end Sys2Proof.Machine
end

