-- ==== Sys2Proof/Safety.lean ====
section
/-! DEFINITION. What counts as a sound state, what an instruction may change, and the classes of instructions that
statements speak of. -/

namespace Sys2Proof.Machine

open Sys2Proof

/-! ## The invariant -/

/-- The prefix register holds zeros outside bits 33-50, or 33-51 in ESA/390 mode (10_state.md rule R45). -/
def State.prefixWf (s : State) : Bool :=
  match s.archMode with
  | .zArch => s.pfx == prefixArea s.pfx
  | .esa390 => s.pfx == prefixArea390 s.pfx

/-- A sound state: storage in canonical form, a valid PSW (10_state.md rule R26), a legal prefix (10_state.md rule
R45). -/
def State.Inv (s : State) : Prop :=
  Memory.wf s.mem = true ∧ pswValid s.psw = true ∧ s.prefixWf = true

/-! ## Frames -/

/-- What an instruction may change of the state; everything else is unchanged. -/
structure Writes where
  /-- General registers. -/
  gprs : List Reg := []
  /-- Access registers. -/
  ars : List Reg := []
  /-- Control registers. -/
  crs : List Reg := []
  /-- PSW bits: the first one and how many, numbered from the left. -/
  psw : List (Nat × Nat) := []
  /-- Storage: an absolute address and how many bytes from there on. -/
  mem : List (Nat × Nat) := []
  /-- The prefix register. -/
  pfx : Bool := false
  /-- The linkage stack. -/
  stack : Bool := false
  /-- The trap areas. -/
  trap : Bool := false
  /-- The list of pending interruptions. -/
  pending : Bool := false

/-- A number lies in one of the ranges. -/
def inRanges (rs : List (Nat × Nat)) (x : Nat) : Prop := ∃ r ∈ rs, r.1 ≤ x ∧ x < r.1 + r.2

/-- From l to l' a record of stores (log 62) keeps its places and gains only places of the ranges. -/
def RecordsWithin (rs : List (Nat × Nat)) (l l' : List Nat) : Prop :=
  ∀ a, (a ∈ l → a ∈ l') ∧ (a ∈ l' → a ∈ l ∨ inRanges rs a)

/-- From s to t nothing changed but what w allows; the model's counter of free values aside. -/
structure Writes.Only (w : Writes) (s t : State) : Prop where
  gpr : ∀ r, r ∉ w.gprs → t.gpr r = s.gpr r
  ar : ∀ r, r ∉ w.ars → t.ar r = s.ar r
  cr : ∀ r, r ∉ w.crs → t.cr r = s.cr r
  psw : ∀ i, i < 128 → ¬inRanges w.psw i → bit t.psw i = bit s.psw i
  mem : ∀ a, ¬inRanges w.mem a → readByte t.mem a = readByte s.mem a
  pfx : w.pfx = false → t.pfx = s.pfx
  stack : w.stack = false → t.linkageStack = s.linkageStack
  trap : w.trap = false → t.trapArea = s.trapArea
  pending : w.pending = false → t.pending = s.pending
  archMode : t.archMode = s.archMode
  cpuStatus : t.cpuStatus = s.cpuStatus
  otherCpus : t.otherCpus = s.otherCpus
  entryTable : t.entryTable = s.entryTable
  params : t.params = s.params
  stored : RecordsWithin w.mem s.stored t.stored

/-- The condition code's place in the PSW (10_state.md rule R23). -/
def ccBits : Nat × Nat := (18, 2)

/-- The addressing mode's place in the PSW (10_state.md rule R22). -/
def modeBits : Nat × Nat := (31, 2)

/-- The instruction address's place in the PSW (10_state.md rule R21). -/
def iaBits : Nat × Nat := (64, 64)

/-- Every register. -/
def allRegs : List Reg := registerRange 0#4 15#4

/-- The instruction completes: exec answers a next state of which P holds, and nothing changes but what w allows. -/
def Completes (i : Instr) (s : State) (w : Writes) (P : State → Prop) : Prop :=
  ∃ t, exec i s = .next t ∧ P t ∧ w.Only s t

/-- The machine with other storage. -/
def State.withMem (s : State) (m : Memory) : State := { s with mem := m }

/-! ## Interruptions -/

/-- The absolute places that a program interruption may store to (60_exceptions.md rule R327). -/
def State.interruptionStores (s : State) : List (Nat × Nat) :=
  [((s.toAbsolute 140#64).toNat, 4), ((s.toAbsolute 148#64).toNat, 2), ((s.toAbsolute 168#64).toNat, 8),
   ((s.toAbsolute 176#64).toNat, 8), ((s.toAbsolute 336#64).toNat, 16)]

/-- A program interruption can be taken: z/Architecture mode, the prefix area in storage, a valid program new PSW
(60_exceptions.md rules R326, R332). -/
def State.canInterrupt (s : State) : Prop :=
  s.archMode = .zArch ∧ s.prefixAreaPresent = true ∧ pswValid (s.pswAt 464#64) = true

/-- t is the state in which some program exception has been taken from s (60_exceptions.md rule R326). -/
def TakenFrom (s t : State) : Prop :=
  ∃ e ilc old, s.programInterruption e ilc old = .next t

/-! ## The linkage stack -/

/-- The state entry that control register 15 designates in its bits 0-60, the newest of them, or none
(43_linkage_instructions.md rule R235, 10_state.md rule R39). -/
def State.designatedEntry (s : State) : Option StackEntry :=
  s.linkageStack.find? fun e => e.designator == bits (s.cr 15#4) 0 61 ++ 0#3

/-- e is a state entry that an instruction has added in going from s to t, and the current one of t; it holds the
registers of s and the PSW p (43_linkage_instructions.md rule R235). -/
def StackEntry.AddedBetween (e : StackEntry) (s t : State) (kind : EntryKind) (p : Quad) : Prop :=
  t.linkageStack = e :: s.linkageStack ∧ e.designator = t.cr 15#4 ∧ bits (t.cr 15#4) 61 3 = 0#3
    ∧ e.previous = bits (s.cr 15#4) 0 61 ++ 0#3 ∧ e.kind = kind ∧ e.gr = s.gprs ∧ e.ar = s.ars ∧ e.psw = p

/-! ## Classes of instructions -/

/-- The privileged instructions (60_exceptions.md rule R331). -/
def privileged : Instr → Bool
  | .lpsw _ _ | .lpswe _ _ | .lra _ _ _ _ | .lrag _ _ _ _ | .strag _ _ _ _ | .tprot _ _ _ _ | .lurag _ _
  | .sturg _ _ | .lctl _ _ _ _ | .stctl _ _ _ _ | .lctlg _ _ _ _ | .stctg _ _ _ _ | .esea _ | .spx _ _ | .stfl
  | .sigp _ _ _ _ | .trace _ _ _ _ | .tracg _ _ _ _ | .mvcp _ _ _ _ _ _ | .mvcs _ _ _ _ _ _
  | .mvck _ _ _ _ _ _ => true
  | .epsw _ _ | .sam24 | .sam31 | .sam64 | .pc _ _ | .bakr _ _ | .pr | .esta _ _ | .ereg _ _ | .eregg _ _
  | .balr _ _ | .basr _ _ | .bassm _ _ | .bsm _ _ | .bsa _ _ | .bsg _ _ | .rp _ _ | .trap2 | .trap4 _ _
  | .mc _ _ _ | .lpq _ _ _ _ | .stpq _ _ _ _ | .cdsg _ _ _ _ | .plo _ _ _ _ _ _ | .mvpg _ _ | .iesbe _ _ => false

/-- The instructions that may change the problem-state bit without an interruption (60_exceptions.md rule R330). -/
def replacesPsw : Instr → Bool
  | .lpsw _ _ | .lpswe _ _ | .pc _ _ | .pr => true
  | .epsw _ _ | .sam24 | .sam31 | .sam64 | .lra _ _ _ _ | .lrag _ _ _ _ | .strag _ _ _ _ | .tprot _ _ _ _
  | .lurag _ _ | .sturg _ _ | .lctl _ _ _ _ | .stctl _ _ _ _ | .lctlg _ _ _ _ | .stctg _ _ _ _ | .esea _
  | .spx _ _ | .stfl | .sigp _ _ _ _ | .bakr _ _ | .esta _ _ | .ereg _ _ | .eregg _ _ | .balr _ _ | .basr _ _
  | .bassm _ _ | .bsm _ _ | .bsa _ _ | .bsg _ _ | .rp _ _ | .trace _ _ _ _ | .tracg _ _ _ _ | .trap2 | .trap4 _ _
  | .mc _ _ _ | .mvcp _ _ _ _ _ _ | .mvcs _ _ _ _ _ _ | .mvck _ _ _ _ _ _ | .lpq _ _ _ _ | .stpq _ _ _ _
  | .cdsg _ _ _ _ | .plo _ _ _ _ _ _ | .mvpg _ _ | .iesbe _ _ => false

/-- The storage operand whose alignment 20_memory.md rule R73 (and for TRACE and TRACG 44_trace_trap_monitor.md rule
R267) requires: its address and the boundary in bytes. -/
def alignedOperand (i : Instr) (s : State) : Option (DWord × Nat) :=
  match i with
  | .lpsw b d | .lpswe b d => some (s.address b d, 8)
  | .strag b d _ _ => some (s.address b d, 8)
  | .lctlg _ _ b d | .stctg _ _ b d => some (s.address b d, 8)
  | .lctl _ _ b d | .stctl _ _ b d => some (s.address b d, 4)
  | .spx b d => some (s.address b d, 4)
  | .trace _ _ b d => some (s.address b d, 4)
  | .tracg _ _ b d => some (s.address b d, 4)
  | .lpq _ x b d | .stpq _ x b d => some (s.indexedAddress b x d, 16)
  | .cdsg _ _ b d => some (s.address b d, 16)
  | .lurag _ r | .sturg _ r => some (s.registerAddress r, 8)
  | _ => none

/-- The registers that must be the even ones of pairs (30_encoding.md rule R148). -/
def pairRegisters : Instr → List Reg
  | .lpq r1 _ _ _ | .stpq r1 _ _ _ => [r1]
  | .cdsg r1 r3 _ _ => [r1, r3]
  | .esta r1 _ => [r1]
  | _ => []

/-- The trace entry that an instruction makes, by the table "Mode and Branch Tracing" (44_trace_trap_monitor.md rule
R265) and for the branch or mode change that the instruction is about to carry out. -/
def tracedEntry (i : Instr) (s : State) : Option (List Byte) :=
  match i with
  | .bakr _ r2 | .balr _ r2 | .basr _ r2 =>
    if s.branchTraceOn ∧ r2 ≠ 0#4 then some (branchEntry s.amode (s.registerAddress r2)) else none
  | .bassm _ r2 =>
    let new := modeOfRegister (s.gpr r2)
    let target := addressOfRegister (s.gpr r2)
    if r2 = 0#4 then none
    else if s.modeTraceOn ∧ s.amode.is64 ≠ new.is64 then
      some (if s.branchTraceOn then modeSwitchingBranchEntry new target else modeSwitchEntry s.amode s.ia)
    else if s.branchTraceOn then some (branchEntry new target)
    else none
  | .bsm _ r2 =>
    if r2 ≠ 0#4 ∧ s.modeTraceOn ∧ s.amode.is64 ≠ (modeOfRegister (s.gpr r2)).is64 then
      some (modeSwitchEntry s.amode s.ia)
    else none
  | .sam24 => if s.ia.toNat < 2 ^ 24 ∧ s.modeTraceOn ∧ s.amode.is64 then some (modeSwitchEntry .a64 s.ia) else none
  | .sam31 => if s.ia.toNat < 2 ^ 31 ∧ s.modeTraceOn ∧ s.amode.is64 then some (modeSwitchEntry .a64 s.ia) else none
  | .sam64 => if s.modeTraceOn ∧ ¬s.amode.is64 then some (modeSwitchEntry s.amode s.ia) else none
  | .pr =>
    match s.currentEntry with
    | .error _ => none
    | .ok e =>
      if s.modeTraceOn ∧ s.amode.is64 ≠ (pswMode e.psw).is64 then some (modeSwitchEntry s.amode s.ia) else none
  | .pc b d =>
    let e := s.findEntry (s.address b d)
    if e.stacking ∧ s.modeTraceOn ∧ s.amode.is64 ≠ e.g then some (modeSwitchEntry s.amode s.ia) else none
  | .trap2 | .trap4 _ _ =>
    if s.branchTraceOn then some (branchEntry .a31 (AMode.a31.trunc s.currentTrapArea.routine)) else none
  | .rp _ _ =>
    if s.modeTraceOn ∧ s.amode.is64 ≠ s.resumedMode.is64 then
      some (if s.branchTraceOn then modeSwitchingBranchEntry s.resumedMode s.resumedAddress
        else modeSwitchEntry s.amode s.ia)
    else if s.branchTraceOn then some (branchEntry s.resumedMode s.resumedAddress)
    else none
  | _ => none

/-- The instructions of that table. -/
def inTraceTable : Instr → Bool
  | .bakr _ _ | .balr _ _ | .basr _ _ | .bassm _ _ | .bsa _ _ | .bsg _ _ | .bsm _ _ | .pc _ _ | .pr | .rp _ _
  | .sam24 | .sam31 | .sam64 | .trap2 | .trap4 _ _ => true
  | _ => false

/-- u is s with the trace entry that the instruction makes stored, or s itself where it makes none. -/
def TracedTo (i : Instr) (s u : State) : Prop :=
  match tracedEntry i s with
  | none => u = s
  | some entry => s.appendTrace entry = .ok u

/-- The instruction completes at s: exec answers a next state of which P holds, and beside the trace entry that u has over
s nothing changes but what w allows. -/
def CompletesFrom (i : Instr) (s u : State) (w : Writes) (P : State → Prop) : Prop :=
  ∃ t, exec i s = .next t ∧ P t ∧ w.Only u t

/-! ## Storing several operands -/

/-- Storage after units of bytes have been stored, in order, at the absolute addresses that f gives. -/
def storeUnits (f : Nat → Nat) : Memory → List (List Byte) → Nat → Memory
  | m, [], _ => m
  | m, u :: us, k => storeUnits f (writeBytes m (f k) u) us (k + 1)

/-- Storage after n bytes have been moved one at a time from the absolute addresses g gives to those f gives. -/
def movedBytes (f g : Nat → Nat) : Memory → Nat → Nat → Memory
  | m, 0, _ => m
  | m, n + 1, k => movedBytes f g (writeBytes m (f k) [readByte m (g k)]) n (k + 1)

/-- The places of n units of size bytes at the absolute addresses that f gives. -/
def unitPlaces (f : Nat → Nat) (size n : Nat) : List (Nat × Nat) := (List.range n).map fun k => (f k, size)

/-- Storage differs at the places only. -/
def SameOutside (places : List (Nat × Nat)) (m m' : Memory) : Prop :=
  ∀ a, ¬inRanges places a → readByte m' a = readByte m a

/-- The n units of size bytes from a on can be stored, at the absolute addresses f gives, whatever is stored there. -/
def State.StoresAt (s : State) (sp : Option Space) (a : DWord) (size n : Nat) (f : Nat → Nat) : Prop :=
  ∀ m, SameOutside (unitPlaces f size n) s.mem m →
    ∀ k, k < n → (s.withMem m).storeAddress sp (s.offset a (k * size)) size = .ok (f k)

/-- The n bytes from a on can be fetched, at the absolute addresses g gives, whatever is stored at the places. -/
def State.FetchesAt (s : State) (sp : Option Space) (a : DWord) (n : Nat) (g : Nat → Nat)
    (places : List (Nat × Nat)) : Prop :=
  ∀ m, SameOutside places s.mem m →
    ∀ k, k < n → (s.withMem m).fetchAddress sp (s.offset a k) 1 = .ok (g k)

end Sys2Proof.Machine
end

