-- ==== Sys2Proof/Certificates/Slice0/Obligations.lean ====
section
/-! DEFINITION. The statements for the provers (OBLIGATIONS.json lists them). Instructions are stated as exec runs them:
the PSW of s holds the updated instruction address (10_state.md rule R27). -/

open Sys2Proof Sys2Proof.Machine

/-! ## Encoding -/

/-- Decoding the encoding of a well-formed instruction gives it back, whatever follows it (30_encoding.md rules R141,
R149). -/
def Obligations.DecodeEncodeAgree : Prop :=
  ∀ (i : Instr) (rest : List Byte), i.wf = true → decode (encode i ++ rest) = .ok (i, rest)

/-- What the decoder answers is well formed and has the length its first byte gives (30_encoding.md rules R140, R142,
R147). -/
def Obligations.DecodedInstructionIsWellFormed : Prop :=
  ∀ (b : Byte) (bs rest : List Byte) (i : Instr), decode (b :: bs) = .ok (i, rest) →
    i.wf = true ∧ instrBytes i = instrLength b ∧ instrBytes i ≤ (b :: bs).length
      ∧ rest = (b :: bs).drop (instrBytes i)

/-- The decoder accepts any value in an ignored field and the encoder writes zeros there (30_encoding.md rule R143). -/
def Obligations.IgnoredFieldsAreIgnored : Prop :=
  (∀ (op : Nat) (u : Byte) (r1 r2 : Reg),
    op ∈ [0xB240, 0xB249, 0xB24A, 0xB254, 0xB258, 0xB259, 0xB25A, 0xB905, 0xB90E, 0xB925, 0xB98D, 0xB99D] →
    decode (toBytes 4 (op * 65536 + u.toNat * 256 + r1.toNat * 16 + r2.toNat)) = decode (formRRE op r1 r2)
      ∧ ∃ i, decode (formRRE op r1 r2) = .ok (i, []) ∧ (op ≠ 0xB99D → encode i = formRRE op r1 r2))
  ∧ (∀ (u : Byte) (r1 r2 : Reg),
    decode (toBytes 4 (0xB99D * 65536 + u.toNat * 256 + r1.toNat * 16 + r2.toNat)) = .ok (.esea r1, [])
      ∧ encode (.esea r1) = formRRE 0xB99D r1 0)
  ∧ (∀ (u : Byte) (b2 : Reg) (d2 : Nat), d2 < 4096 →
    decode (formRS 0x82 u.toNat b2 d2) = .ok (.lpsw b2 d2, []) ∧ encode (.lpsw b2 d2) = formRS 0x82 0 b2 d2)
  ∧ (∀ (b2 : Reg) (d2 : Nat), d2 < 4096 →
    decode (formS 0xB2B1 b2 d2) = .ok (.stfl, []) ∧ encode .stfl = formS 0xB2B1 0 0)

/-- Words of the programs of 95_test_vectors.md section 9 decode to the instructions named there. -/
def Obligations.SpecWordsDecode : Prop :=
  decode [0xEB#8, 0x11#8, 0x50#8, 0x00#8, 0x00#8, 0x2F#8] = .ok (.lctlg 1#4 1#4 5#4 0, [])
  ∧ decode [0xE3#8, 0x20#8, 0x60#8, 0x00#8, 0x00#8, 0x03#8] = .ok (.lrag 2#4 0#4 6#4 0, [])
  ∧ decode [0xE5#8, 0x02#8, 0x70#8, 0x00#8, 0x60#8, 0x00#8] = .ok (.strag 7#4 0 6#4 0, [])
  ∧ decode [0xB2#8, 0xB2#8, 0x80#8, 0x00#8] = .ok (.lpswe 8#4 0, [])
  ∧ decode [0xB9#8, 0x8D#8, 0x00#8, 0x12#8] = .ok (.epsw 1#4 2#4, [])
  ∧ decode [0x82#8, 0x00#8, 0x90#8, 0x00#8] = .ok (.lpsw 9#4 0, [])
  ∧ decode [0xB9#8, 0x9D#8, 0x00#8, 0x30#8] = .ok (.esea 3#4, [])
  ∧ decode [0xB7#8, 0x88#8, 0x50#8, 0x08#8] = .ok (.lctl 8#4 8#4 5#4 8, [])
  ∧ decode [0xE3#8, 0x20#8, 0x60#8, 0x10#8, 0x00#8, 0x8E#8] = .ok (.stpq 2#4 0#4 6#4 16, [])
  ∧ decode [0xEB#8, 0x24#8, 0x60#8, 0x00#8, 0x00#8, 0x3E#8] = .ok (.cdsg 2#4 4#4 6#4 0, [])
  ∧ decode [0xAF#8, 0x02#8, 0x72#8, 0x34#8] = .ok (.mc 7#4 0x234 2#8, [])
  ∧ decode [0xB1#8, 0x30#8, 0x60#8, 0x00#8] = .ok (.lra 3#4 0#4 6#4 0, [])

/-! ## The machine -/

/-- A step runs the instruction that the bytes at the instruction address decode to, with the updated instruction
address in the PSW (10_state.md rule R27). A store puts the places stored into on record, whatever stood there, and a
halfword of an instruction that holds such a place is refused while that point is open (20_memory.md rule R120, decision
D24; log 62).
That the address advances by the instruction's length and wraps in the addressing mode is the model's choice (log 8,
decision D8). -/
def Obligations.StepRunsDecodedInstruction : Prop :=
  (∀ (s : State) (bs rest : List Byte) (i : Instr),
    s.cpuStatus = .operating → s.takePending = none → s.notFetching = none →
    s.fetchInstruction = .ok bs → decode bs = .ok (i, rest) → s.notRun i = none →
    step s = exec i (s.withIa (s.amode.trunc (s.ia + BitVec.ofNat 64 (instrBytes i)))))
  ∧ (∀ (s : State) (a : Nat) (bs : List Byte) (x : Nat),
    x ∈ (s.storeAbsolute a bs).stored ↔ x ∈ s.stored ∨ (a ≤ x ∧ x < a + bs.length))
  ∧ (∀ (s : State) (a : DWord) (abs : Nat), s.fetchAddress s.fetchSpace a 2 = .ok abs →
    ((s.params.streamStores = .unsettled ∧ (abs ∈ s.stored ∨ abs + 1 ∈ s.stored)) →
      s.fetchHalf a = .error (.refused .storeIntoInstructionStream))
    ∧ (¬(s.params.streamStores = .unsettled ∧ (abs ∈ s.stored ∨ abs + 1 ∈ s.stored)) →
      s.fetchHalf a = .ok (readBytes s.mem abs 2)))

/-- The launch state and the state after Initial Program Load are sound; the first is in z/Architecture mode and the
second in ESA/390 mode (10_state.md rule R47). The values of the registers are the model's (logs 1, 2, 3). -/
def Obligations.ResetMeetsInvariant : Prop :=
  State.reset.Inv ∧ State.afterIpl.Inv ∧ State.reset.archMode = .zArch ∧ State.afterIpl.archMode = .esa390

/-- Every step keeps the invariant: canonical storage, a valid PSW, a legal prefix. -/
def Obligations.StepKeepsInvariant : Prop :=
  ∀ s t : State, s.Inv → step s = .next t → t.Inv

/-- No step changes the machine's parameters, its entry table or a CPU's state; the architectural mode changes only from
ESA/390 to z/Architecture mode, and only by SIGP (10_state.md rule R47, decision D46). The record of stores keeps its
places, and every byte that a step changes is on it (20_memory.md rule R120, decision D24; log 62). -/
def Obligations.StepKeepsConfiguration : Prop :=
  (∀ s t : State, step s = .next t →
    t.params = s.params ∧ t.entryTable = s.entryTable ∧ t.otherCpus = s.otherCpus ∧ t.cpuStatus = s.cpuStatus
      ∧ (t.archMode = s.archMode ∨ (s.archMode = .esa390 ∧ t.archMode = .zArch))
      ∧ (∀ a, a ∈ s.stored → a ∈ t.stored)
      ∧ ∀ a, readByte t.mem a ≠ readByte s.mem a → a ∈ t.stored)
  ∧ (∀ (i : Instr) (s t : State), exec i s = .next t → t.archMode ≠ s.archMode →
    ∃ r1 r3 b2 d2, i = .sigp r1 r3 b2 d2)

/-- The problem-state bit changes only when the PSW is replaced: by LPSW, LPSWE, PC, PR or an interruption
(60_exceptions.md rule R330). For every step: the bit is as before, or an enabled interruption was pending, or a program
exception has been taken, or the instruction fetched is one of the four; and for every instruction by itself. -/
def Obligations.ProblemStateChangesOnlyWithPsw : Prop :=
  (∀ s t : State, step s = .next t →
    t.problem = s.problem
      ∨ (∃ c, s.pending.find? s.enabled = some c)
      ∨ (∃ u : State, Writes.Only { psw := [iaBits] } s u ∧ TakenFrom u t)
      ∨ (∃ bs rest i, s.fetchInstruction = .ok bs ∧ decode bs = .ok (i, rest) ∧ replacesPsw i = true))
  ∧ (∀ (i : Instr) (s t : State), replacesPsw i = false → exec i s = .next t →
    t.problem = s.problem ∨ TakenFrom s t)

/-- A privileged instruction in the problem state takes the privileged-operation exception and does nothing else
(60_exceptions.md rule R331); but STFL on a machine without N3 takes the operation exception, which comes first
(30_encoding.md rule R150, 60_exceptions.md rule R328). -/
def Obligations.PrivilegedInstructionsTrap : Prop :=
  ∀ (i : Instr) (s : State), privileged i = true → s.problem = true →
    exec i s = s.raise (instrBytes i) (if i = .stfl ∧ bit s.params.fac 0 = false then .operation else .privileged)

/-- An operand that is not on its boundary gives the specification exception (20_memory.md rule R73); so does an odd
instruction address at the fetch, and an odd register where an even/odd pair is required (30_encoding.md rule R148). That
the operand of TRACE needs a word boundary, which no rule lists, is the model's choice (log 21). -/
def Obligations.SpecificationExceptions : Prop :=
  (∀ (i : Instr) (s : State) (a : DWord) (n : Nat),
    alignedOperand i s = some (a, n) → a.toNat % n ≠ 0 → (privileged i = true → s.problem = false) →
    (∀ r ∈ pairRegisters i, r.getLsbD 0 = false) → exec i s = s.raise (instrBytes i) .specification)
  ∧ (∀ s : State, s.ia.toNat % 2 = 1 → s.fetchInstruction = .error (.exception .specification, none))
  ∧ (∀ (i : Instr) (s : State) (r : Reg), r ∈ pairRegisters i → r.toNat % 2 = 1 →
    exec i s = s.raise (instrBytes i) .specification)

/-- Before an instruction, an enabled pending interruption is taken: the old PSW of its class is stored and the new PSW
becomes current (20_memory.md rule R79, 60_exceptions.md rules R325, R326; logs 26, 33); a program interruption stores the
identification of its exception too (60_exceptions.md rule R327); in the wait state, with none, the machine stops
(60_exceptions.md rule R339). -/
def Obligations.PendingInterruptionIsTaken : Prop :=
  (∀ (s : State) (c : PendingInterruption) (old new : DWord),
    (c, old, new) ∈ [(.external, 304#64, 432#64), (.supervisorCall, 320#64, 448#64), (.machineCheck, 352#64, 480#64),
      (.inputOutput, 368#64, 496#64)] →
    s.cpuStatus = .operating → s.archMode = .zArch → s.prefixAreaPresent = true → s.pending.find? s.enabled = some c →
    pswValid (s.pswAt new) = true →
    ∃ t, step s = .next t ∧ t.psw = s.pswAt new ∧ t.pending = s.pending.erase c
      ∧ (s.Inv → t.pswAt old = s.psw)
      ∧ Writes.Only { psw := [(0, 128)], mem := [((s.toAbsolute old).toNat, 16)], pending := true } s t)
  ∧ (∀ (s : State) (e : ProgException), s.cpuStatus = .operating → s.canInterrupt →
    s.pending.find? s.enabled = some (.program e) →
    ∃ t ilc, step s = .next t ∧ t.psw = s.pswAt 464#64 ∧ t.pending = s.pending.erase (.program e)
      ∧ ilc ∈ [1#2, 2#2, 3#2] ∧ (s.Inv → t.pswAt 336#64 = s.psw
        ∧ readBytes t.mem (s.toAbsolute 140#64).toNat 4 = [0#8, 0#5 ++ ilc ++ 0#1, bits e.code 0 8, bits e.code 8 8]
        ∧ (∀ va sp, (∃ k, e = .translation k va sp) ∨ e = .protection (some (va, sp)) → ∃ v : DWord,
          readBytes t.mem (s.toAbsolute 168#64).toNat 8 = toBytes 8 v.toNat
            ∧ bits v 0 52 = bits va 0 52 ∧ bits v 62 2 = sp.code)
        ∧ ∀ number code, e = .monitorEvent number code →
          readBytes t.mem (s.toAbsolute 148#64).toNat 2 = [0#8, 0#4 ++ number]
            ∧ readBytes t.mem (s.toAbsolute 176#64).toNat 8 = toBytes 8 code.toNat)
      ∧ Writes.Only { psw := [(0, 128)], mem := s.interruptionStores, pending := true } s t)
  ∧ (∀ s : State, s.cpuStatus = .operating → s.pending.find? s.enabled = none → pswValid s.psw = true →
    bit s.psw 14 = true → step s = .fault .waitState)
  ∧ (∀ s : State, s.enabled .external = bit s.psw 7 ∧ s.enabled .inputOutput = bit s.psw 6
    ∧ s.enabled .machineCheck = bit s.psw 13 ∧ (∀ e, s.enabled (.program e) = true)
    ∧ s.enabled .supervisorCall = true ∧ s.enabled .restart = true)

/-! ## Storage, prefixing, translation -/

/-- With DAT off, a stored operand reads back as stored, and an operand apart from it reads as before (20_memory.md rule
R122); the places stored into are on record (log 62). -/
def Obligations.StoredOperandReadsBack : Prop :=
  ∀ (s t : State) (a : DWord) (bs : List Byte), s.Inv → s.dat = false → s.memWrite a bs = .ok t →
    t.memRead a bs.length = .ok bs
      ∧ (∀ k, k < bs.length → (s.toAbsolute a).toNat + k ∈ t.stored)
      ∧ ∀ (b : DWord) (n : Nat),
        (s.toAbsolute b).toNat + n ≤ (s.toAbsolute a).toNat
          ∨ (s.toAbsolute a).toNat + bs.length ≤ (s.toAbsolute b).toNat →
        t.memRead b n = s.memRead b n

/-- The prefix area's absolute address (20_memory.md rule R77); prefixing swaps real 0-8191 with the block there and maps
every other real address to itself (rule R78). -/
def Obligations.Prefixing : Prop :=
  (∀ p : DWord,
    prefixArea p = 0#33 ++ bits p 33 18 ++ 0#13
      ∧ (prefixArea p).toNat % 8192 = 0 ∧ (prefixArea p).toNat < 2 ^ 31)
  ∧ (∀ (s : State) (r : DWord), s.archMode = .zArch →
    (bits r 0 51 = 0#51 → s.toAbsolute r = prefixArea s.pfx + (0#51 ++ bits r 51 13))
      ∧ (bits r 0 51 ≠ 0#51 → bits r 0 51 ++ 0#13 = prefixArea s.pfx → s.toAbsolute r = 0#51 ++ bits r 51 13)
      ∧ (bits r 0 51 ≠ 0#51 → bits r 0 51 ++ 0#13 ≠ prefixArea s.pfx → s.toAbsolute r = r)
      ∧ (prefixArea s.pfx = 0#64 → s.toAbsolute r = r)
      ∧ s.toAbsolute (s.toAbsolute r) = r)

/-- Which space and control register an access uses: with DAT off the address is real, with DAT on PSW bits 16-17 select
(20_memory.md rule R99, decision D18; log 16); and in the real space a virtual address translates to itself as a real
address, whatever the rest of the ASCE and the tables hold; prefixing still applies (20_memory.md rule R88). -/
def Obligations.RealSpaceTranslatesToItself : Prop :=
  (∀ (s : State) (sp : Space) (asce va : DWord) (acc : Access) (n : Nat),
    s.asceOf sp = .ok asce → bit asce 58 = true →
    s.walk va asce = .ok (.available va false) ∧ s.translate acc sp va = .ok va
      ∧ s.fetchAddress (some sp) va n = s.realAddress va n)
  ∧ (∀ s : State, bit s.psw 5 = false → s.operandSpace = none ∧ s.fetchSpace = none)
  ∧ (∀ s : State, bit s.psw 5 = true →
    (bits s.psw 16 2 = 0b00#2 → s.operandSpace = some .primary ∧ s.fetchSpace = some .primary)
    ∧ (bits s.psw 16 2 = 0b01#2 → s.operandSpace = some .accessRegister ∧ s.fetchSpace = some .primary)
    ∧ (bits s.psw 16 2 = 0b10#2 → s.operandSpace = some .secondary ∧ s.fetchSpace = some .primary)
    ∧ (bits s.psw 16 2 = 0b11#2 → s.operandSpace = some .home ∧ s.fetchSpace = some .home))
  ∧ (∀ (s : State) (a : DWord) (n : Nat),
    s.asceOf .primary = .ok (s.cr 1#4) ∧ s.asceOf .secondary = .ok (s.cr 7#4) ∧ s.asceOf .home = .ok (s.cr 13#4)
      ∧ s.asceOf .accessRegister = .error (.refused .accessRegisterTranslation)
      ∧ s.fetchAddress none a n = s.realAddress a n)

/-- The ASCE-type exception, code 38 hexadecimal, is raised exactly for a virtual address above what the designated
table covers, whatever the tables hold (20_memory.md rule R101). -/
def Obligations.AsceTypeException : Prop :=
  ∀ (s : State) (va asce : DWord), bit asce 58 = false →
    (s.walk va asce = .ok (.other .asceType) ↔
      (2 ^ 31 ≤ va.toNat ∧ bits asce 60 2 = 0b00#2) ∨ (2 ^ 42 ≤ va.toNat ∧ bits asce 60 2 = 0b01#2)
        ∨ (2 ^ 53 ≤ va.toNat ∧ bits asce 60 2 = 0b10#2))
      ∧ (∀ (sp : Space) (acc : Access), s.asceOf sp = .ok asce → s.walk va asce = .ok (.other .asceType) →
        s.translate acc sp va = .error (.exception (.translation .asceType va sp)))
      ∧ TranslationKind.asceType.code = 0x0038#16

/-- With a segment-table ASCE and a virtual address below 2^31, translation fetches the segment-table entry and the
page-table entry and gives the page frame with the byte index (20_memory.md rule R111). -/
def Obligations.TwoLevelTranslation : Prop :=
  ∀ (s : State) (va asce ste pte pto : DWord),
    bit asce 58 = false → bits asce 60 2 = 0b00#2 → va.toNat < 2 ^ 31 →
    (bits va 33 2).toNat ≤ (bits asce 62 2).toNat →
    (bits asce 0 52).toNat * 4096 + (bits va 33 11).toNat * 8 < 2 ^ 64 →
    s.tableRead (BitVec.ofNat 64 ((bits asce 0 52).toNat * 4096 + (bits va 33 11).toNat * 8)) = .ok ste →
    bit ste 58 = false → bits ste 60 2 = 0b00#2 → s.pageTableOrigin ste = .ok pto →
    pto.toNat + (bits va 44 8).toNat * 8 < 2 ^ 64 →
    s.tableRead (BitVec.ofNat 64 (pto.toNat + (bits va 44 8).toNat * 8)) = .ok pte →
    bit pte 52 = false → bit pte 53 = false → bit pte 55 = false →
    s.walk va asce = .ok (.available (bits pte 0 52 ++ bits va 52 12) (bit ste 54 || bit pte 54))

/-- The lookup in a region or segment table: its index outside the table, a carry in the entry's address, an invalid
entry, an entry of another type, a valid entry (20_memory.md rules R95, R96, R100, R102, R103, R105, R106); where an
entry is read from (rule R108) and where a page table begins (rule R92). The comparisons with table length and offset and
the stop for a carry (log 13), the exception for another type (log 14) and the stops while a parameter is open (logs 12,
15) are the model's choices, after decisions D12 to D15. -/
def Obligations.TableLookup : Prop :=
  (∀ (s : State) (va origin : DWord) (level : Nat) (tf tl : BitVec 2), level < 4 →
    let index := bits va (33 - 11 * level) 11
    ((tl < bits index 0 2 ∨ bits index 0 2 < tf) →
      s.walkTables va level origin tf tl = .ok (.stopped (.other (levelException level))))
    ∧ (¬(tl < bits index 0 2 ∨ bits index 0 2 < tf) → 2 ^ 64 ≤ origin.toNat + index.toNat * 8 →
      s.walkTables va level origin tf tl = .error (.fault .tableAddressCarry))
    ∧ (∀ ea e : DWord, ¬(tl < bits index 0 2 ∨ bits index 0 2 < tf) →
      ea.toNat = origin.toNat + index.toNat * 8 → s.tableRead ea = .ok e →
      (bit e 58 = true → level = 0 → s.walkTables va level origin tf tl = .ok (.stopped (.segmentInvalid ea)))
      ∧ (bit e 58 = true → level ≠ 0 →
        s.walkTables va level origin tf tl = .ok (.stopped (.other (levelException level))))
      ∧ (bit e 58 = false → (bits e 60 2).toNat ≠ level →
        s.walkTables va level origin tf tl = .error (.exception .translationSpecification))
      ∧ (bit e 58 = false → (bits e 60 2).toNat = level → level = 0 →
        s.walkTables va level origin tf tl = .ok (.entry e))
      ∧ (∀ next, bit e 58 = false → (bits e 60 2).toNat = level → level = next + 1 →
        s.walkTables va level origin tf tl
          = s.walkTables va next (bits e 0 52 ++ 0#12) (bits e 56 2) (bits e 62 2)))
    ∧ (levelException level).code
      = (if level = 0 then 0x0010#16 else if level = 1 then 0x003B#16 else if level = 2 then 0x003A#16 else 0x0039#16))
  ∧ (∀ (s : State) (a : DWord),
    let place := if s.params.tableAddressKind = .absolute then a else s.toAbsolute a
    let inPrefix := a.toNat < 8192
      ∨ ((prefixArea s.pfx).toNat ≤ a.toNat ∧ a.toNat < (prefixArea s.pfx).toNat + 8192)
    (s.params.tableAddressKind = .unsettled → inPrefix → s.tableRead a = .error (.fault .tableAddressUnsettled))
    ∧ (¬(s.params.tableAddressKind = .unsettled ∧ inPrefix) →
      (∀ e : DWord, place.toNat + 8 ≤ s.params.storageSize → toBytes 8 e.toNat = readBytes s.mem place.toNat 8 →
        s.tableRead a = .ok e)
      ∧ (s.params.storageSize < place.toNat + 8 → s.tableRead a = .error (.exception .addressing))))
  ∧ (∀ (s : State) (ste : DWord),
    (s.params.ptoLastBit = .bit51 → s.pageTableOrigin ste = .ok (bits ste 0 52 ++ 0#12))
    ∧ (s.params.ptoLastBit = .bit52 → s.pageTableOrigin ste = .ok (bits ste 0 53 ++ 0#11))
    ∧ (s.params.ptoLastBit = .unsettled →
      (bit ste 52 = false → s.pageTableOrigin ste = .ok (bits ste 0 52 ++ 0#12))
      ∧ (bit ste 52 = true → s.pageTableOrigin ste = .error (.fault .pageTableOriginUnsettled))))

/-- The lookup in the page table, and page protection: a protected page can be fetched from and not stored into
(20_memory.md rules R104, R107). The places of the invalid and protection bits and the exception for bits 52 and 55 (log
14, decisions D14, D16) and what protection forbids (log 19, decision D21) are the model's choices. -/
def Obligations.PageLookupAndProtection : Prop :=
  (∀ (s : State) (va ste origin ea pte : DWord),
    s.pageTableOrigin ste = .ok origin → ea.toNat = origin.toNat + (bits va 44 8).toNat * 8 →
    s.tableRead ea = .ok pte →
    (bit pte 53 = true → s.walkPage va ste = .ok (.pageInvalid ea))
    ∧ (bit pte 53 = false → bit pte 52 = true ∨ bit pte 55 = true →
      s.walkPage va ste = .error (.exception .translationSpecification))
    ∧ (bit pte 53 = false → bit pte 52 = false → bit pte 55 = false →
      s.walkPage va ste = .ok (.available (bits pte 0 52 ++ bits va 52 12) (bit ste 54 || bit pte 54))))
  ∧ (∀ (s : State) (sp : Space) (va real : DWord),
    (s.walkSpace sp va = .ok (.available real true) →
      s.translate .store sp va = .error (.exception (.protection (some (va, sp))))
        ∧ s.translate .fetch sp va = .ok real)
    ∧ (s.walkSpace sp va = .ok (.available real false) →
      s.translate .store sp va = .ok real ∧ s.translate .fetch sp va = .ok real))

/-- Low-address protection: with control register 0 bit 35 one, a store that touches 0-511 or 4096-4607 is a protection
exception unless the ASCE used has its private-space bit one; no other store is (20_memory.md rule R82). -/
def Obligations.LowAddressProtection : Prop :=
  ∀ (s : State) (sp : Option Space) (a : DWord) (n : Nat), 0 < n →
    (bit (s.cr 0#4) 35 = true →
      (∃ k, k < n ∧ (a.toNat + k < 512 ∨ (4096 ≤ a.toNat + k ∧ a.toNat + k < 4608))) →
      (∀ x, sp = some x → ∃ asce, s.asceOf x = .ok asce ∧ bit asce 55 = false) →
      s.storeAddress sp a n = .error (.exception (.protection none)))
    ∧ (bit (s.cr 0#4) 35 = false
        ∨ (∀ k, k < n → 512 ≤ a.toNat + k ∧ (a.toNat + k < 4096 ∨ 4608 ≤ a.toNat + k))
        ∨ (∃ x asce, sp = some x ∧ s.asceOf x = .ok asce ∧ bit asce 55 = true) →
      s.lowProtected sp a n = .ok false)

/-! ## Exceptions -/

/-- Taking a program exception: the old PSW and the identification are stored in the prefix area, the program new PSW
that stood there becomes current, and nothing else changes (60_exceptions.md rules R326, R327). The places and codes are
the model's choice, after decisions D25 and D26 (log 26). -/
def Obligations.ProgramInterruptionEntry : Prop :=
  ∀ (s : State) (e : ProgException) (ilc : BitVec 2) (old : DWord), s.Inv → s.canInterrupt →
    ∃ t, s.programInterruption e ilc old = .next t ∧ t.psw = s.pswAt 464#64
      ∧ bits (t.pswAt 336#64) 0 64 = bits s.psw 0 64 ∧ bits (t.pswAt 336#64) 64 64 = old
      ∧ readBytes t.mem (s.toAbsolute 140#64).toNat 4 = [0#8, 0#5 ++ ilc ++ 0#1, bits e.code 0 8, bits e.code 8 8]
      ∧ Writes.Only { psw := [(0, 128)], mem := s.interruptionStores } s t

/-- What else a program interruption stores: the translation-exception identification and the monitor code with its
class, each for its own exceptions only (60_exceptions.md rule R327; places and codes: log 26). -/
def Obligations.InterruptionIdentification : Prop :=
  ∀ (s t : State) (e : ProgException) (ilc : BitVec 2) (old : DWord), s.Inv →
    s.programInterruption e ilc old = .next t →
    (∀ va sp, (∃ k, e = .translation k va sp) ∨ e = .protection (some (va, sp)) →
      ∃ v : DWord, readBytes t.mem (s.toAbsolute 168#64).toNat 8 = toBytes 8 v.toNat
        ∧ bits v 0 52 = bits va 0 52 ∧ bits v 62 2 = sp.code)
    ∧ ((∀ k va sp, e ≠ .translation k va sp) → (∀ p, e ≠ .protection (some p)) →
      readBytes t.mem (s.toAbsolute 168#64).toNat 8 = readBytes s.mem (s.toAbsolute 168#64).toNat 8)
    ∧ (∀ number code, e = .monitorEvent number code →
      readBytes t.mem (s.toAbsolute 148#64).toNat 2 = [0#8, 0#4 ++ number]
        ∧ readBytes t.mem (s.toAbsolute 176#64).toNat 8 = toBytes 8 code.toNat)
    ∧ ((∀ number code, e ≠ .monitorEvent number code) →
      readBytes t.mem (s.toAbsolute 148#64).toNat 2 = readBytes s.mem (s.toAbsolute 148#64).toNat 2
        ∧ readBytes t.mem (s.toAbsolute 176#64).toNat 8 = readBytes s.mem (s.toAbsolute 176#64).toNat 8)

/-- The handler's return: LPSWE of real 336 with DAT off, in the supervisor state, makes the interrupted PSW current
again with the stored instruction address, and all registers are as they were (60_exceptions.md rule R329; places: log
26). -/
def Obligations.LpsweReturnsFromInterruption : Prop :=
  ∀ (s t : State) (e : ProgException) (ilc : BitVec 2) (old : DWord), s.Inv →
    s.programInterruption e ilc old = .next t → t.problem = false → t.dat = false →
    s.amode.trunc old = old →
    ∃ u, exec (.lpswe 0#4 336) t = .next u ∧ u.ia = old
      ∧ Writes.Only { psw := [iaBits], mem := s.interruptionStores } s u

/-- Which PSW is invalid (10_state.md rule R26), and that the machine stops when one becomes current by a PSW load or an
interruption. -/
def Obligations.InvalidPswStops : Prop :=
  (∀ p : Quad, pswValid p = true ↔
    (bit p 0 = false ∧ (∀ i, 2 ≤ i → i ≤ 4 → bit p i = false) ∧ bit p 12 = false
      ∧ (∀ i, 24 ≤ i → i ≤ 30 → bit p i = false) ∧ (∀ i, 33 ≤ i → i ≤ 63 → bit p i = false)
      ∧ ¬(bit p 31 = true ∧ bit p 32 = false)
      ∧ (bit p 31 = false → bit p 32 = false → ∀ i, 64 ≤ i → i ≤ 103 → bit p i = false)
      ∧ (bit p 31 = false → bit p 32 = true → ∀ i, 64 ≤ i → i ≤ 96 → bit p i = false)))
  ∧ (∀ (s : State) (p : Quad), s.params.invalidPsw = .stop → pswValid p = false →
    s.loadPsw p = .fault .invalidPsw)
  ∧ (∀ (s : State) (e : ProgException) (ilc : BitVec 2) (old : DWord), s.archMode = .zArch →
    s.prefixAreaPresent = true → pswValid (s.pswAt 464#64) = false →
    s.programInterruption e ilc old = .fault .invalidPsw)

/-- Where the old PSW of an instruction's exception points: at the instruction itself for a nullifying exception, at the
next instruction for a suppressing or completing one (60_exceptions.md rule R310). The ending of the stack exception is
not in the spec (log 41), so it is left out. -/
def Obligations.OldPswByEnding : Prop :=
  ∀ (s : State) (len : Nat) (e : ProgException), s.Inv → s.canInterrupt → e ≠ .stack →
    ∃ t, s.raise len e = .next t
      ∧ bits (t.pswAt 336#64) 64 64
        = (match e with
          | .translation _ _ _ | .traceTable => s.amode.trunc (s.ia - BitVec.ofNat 64 len)
          | _ => s.ia)
      ∧ (readBytes t.mem (s.toAbsolute 140#64).toNat 4).take 2 = [0#8, BitVec.ofNat 8 (len / 2 % 4 * 2)]

/-! ## PSW instructions -/

/-- LPSW: the expanded operand becomes the PSW (40_psw_instructions.md rule R170); with operand bit 12 zero the machine
stops while the parameter is open. -/
def Obligations.LpswLoadsShortPsw : Prop :=
  ∀ (s : State) (b2 : Reg) (d2 abs : Nat) (v : DWord),
    s.problem = false → (s.address b2 d2).toNat % 8 = 0 →
    s.fetchAddress s.operandSpace (s.address b2 d2) 8 = .ok abs → toBytes 8 v.toNat = readBytes s.mem abs 8 →
    (bit v 12 = true → pswValid (expand v) = true →
      Completes (.lpsw b2 d2) s { psw := [(0, 128)] } fun t =>
        bits t.psw 0 12 = bits v 0 12 ∧ bit t.psw 12 = false ∧ bits t.psw 13 20 = bits v 13 20
          ∧ bits t.psw 33 64 = 0#64 ∧ bits t.psw 97 31 = bits v 33 31)
    ∧ (bit v 12 = false → s.params.lpswBit12 = .unsettled →
      exec (.lpsw b2 d2) s = .fault .lpswBit12Unsettled)

/-- LPSWE: two doublewords become the PSW, no bit changed (40_psw_instructions.md rule R171). -/
def Obligations.LpsweLoadsPsw : Prop :=
  ∀ (s : State) (b2 : Reg) (d2 abs1 abs2 : Nat) (hi lo : DWord),
    s.problem = false → (s.address b2 d2).toNat % 8 = 0 →
    s.fetchAddress s.operandSpace (s.address b2 d2) 8 = .ok abs1 → toBytes 8 hi.toNat = readBytes s.mem abs1 8 →
    s.fetchAddress s.operandSpace (s.amode.trunc (s.address b2 d2 + 8#64)) 8 = .ok abs2 →
    toBytes 8 lo.toNat = readBytes s.mem abs2 8 →
    (pswValid (hi ++ lo) = true →
      Completes (.lpswe b2 d2) s { psw := [(0, 128)] } fun t => t.psw = hi ++ lo)
    ∧ (pswValid (hi ++ lo) = false → s.params.invalidPsw = .stop →
      exec (.lpswe b2 d2) s = .fault .invalidPsw)

/-- EPSW (40_psw_instructions.md rule R172). That the high-order halves are unchanged is the model's choice, after decision
D32 (log 64). -/
def Obligations.EpswExtractsPsw : Prop :=
  ∀ (s : State) (r1 r2 : Reg),
    Completes (.epsw r1 r2) s { gprs := if r2 = 0#4 then [r1] else [r1, r2] } fun t =>
      (r1 ≠ r2 ∨ r2 = 0#4 → t.gpr r1 = bits (s.gpr r1) 0 32 ++ bits s.psw 0 32)
        ∧ (r2 ≠ 0#4 → t.gpr r2 = bits (s.gpr r2) 0 32 ++ bits s.psw 32 32)

/-- SAM24, SAM31, SAM64 set PSW bits 31-32 and nothing else; the first two raise specification if the instruction
address does not fit the mode (40_psw_instructions.md rules R173 to R175; log 36). With tracing on, the same over the
state that the trace entry leaves. -/
def Obligations.SetAddressingModes : Prop :=
  ∀ s u : State,
    (s.ia.toNat < 2 ^ 24 → TracedTo .sam24 s u →
      CompletesFrom .sam24 s u { psw := [modeBits] } fun t => bits t.psw 31 2 = 0b00#2)
    ∧ (2 ^ 24 ≤ s.ia.toNat → exec .sam24 s = s.raise 2 .specification)
    ∧ (s.ia.toNat < 2 ^ 31 → TracedTo .sam31 s u →
      CompletesFrom .sam31 s u { psw := [modeBits] } fun t => bits t.psw 31 2 = 0b01#2)
    ∧ (2 ^ 31 ≤ s.ia.toNat → exec .sam31 s = s.raise 2 .specification)
    ∧ (TracedTo .sam64 s u →
      CompletesFrom .sam64 s u { psw := [modeBits] } fun t => bits t.psw 31 2 = 0b11#2)

/-! ## Translation instructions -/

/-- LRA by addressing mode and by what the walk finds (41_translation_instructions.md rule R190; log 51), with the operand
address (30_encoding.md rule R146, decision D10) and the ASCE (20_memory.md rule R99, 41_translation_instructions.md rule
R196; logs 16, 52) written out. -/
def Obligations.LraLoadsRealAddress : Prop :=
  ∀ (s : State) (r1 x2 b2 : Reg) (d2 : Nat) (va asce : DWord) (w : Walk), s.problem = false →
    let part := fun r : Reg => if r = 0#4 then 0 else (s.gpr r).toNat
    va.toNat = (part b2 + part x2 + d2)
      % 2 ^ (if bit s.psw 31 = true then 64 else if bit s.psw 32 = true then 31 else 24) →
    ((bits s.psw 16 2 = 0b00#2 ∧ asce = s.cr 1#4) ∨ (bits s.psw 16 2 = 0b10#2 ∧ asce = s.cr 7#4)
      ∨ (bits s.psw 16 2 = 0b11#2 ∧ asce = s.cr 13#4)) →
    s.walk va asce = .ok w →
    (s.amode.is64 = true →
      Completes (.lra r1 x2 b2 d2) s { gprs := [r1], psw := [ccBits] } fun t =>
        match w with
        | .available real _ => t.gpr r1 = real ∧ t.cc = 0#2
        | .segmentInvalid e => t.gpr r1 = e ∧ t.cc = 1#2
        | .pageInvalid e => t.gpr r1 = e ∧ t.cc = 2#2
        | .other k => t.gpr r1 = bits (s.gpr r1) 0 32 ++ 1#1 ++ 0#15 ++ k.code ∧ t.cc = 3#2)
    ∧ (s.amode.is64 = false → (∀ real p, w = .available real p → real.toNat < 2 ^ 31) →
      Completes (.lra r1 x2 b2 d2) s { gprs := [r1], psw := [ccBits] } fun t =>
        bits (t.gpr r1) 0 32 = bits (s.gpr r1) 0 32 ∧
        match w with
        | .available real _ => bits (t.gpr r1) 32 32 = bits real 32 32 ∧ t.cc = 0#2
        | .segmentInvalid e =>
          if e.toNat < 2 ^ 31 then bits (t.gpr r1) 32 32 = bits e 32 32 ∧ t.cc = 1#2
          else bits (t.gpr r1) 32 32 = 0x80000010#32 ∧ t.cc = 3#2
        | .pageInvalid e =>
          if e.toNat < 2 ^ 31 then bits (t.gpr r1) 32 32 = bits e 32 32 ∧ t.cc = 2#2
          else bits (t.gpr r1) 32 32 = 0x80000011#32 ∧ t.cc = 3#2
        | .other k => bits (t.gpr r1) 32 32 = 1#1 ++ 0#15 ++ k.code ∧ t.cc = 3#2)
    ∧ (∀ real p, s.amode.is64 = false → w = .available real p → 2 ^ 31 ≤ real.toNat →
      exec (.lra r1 x2 b2 d2) s = s.raise 4 .specialOperation)

/-- LRAG: the 64-bit result in every addressing mode (41_translation_instructions.md rule R191). -/
def Obligations.LragLoadsRealAddress : Prop :=
  ∀ (s : State) (r1 x2 b2 : Reg) (d2 : Int) (w : Walk), s.problem = false →
    s.translateOperand (s.indexedAddress b2 x2 d2) = .ok w →
    Completes (.lrag r1 x2 b2 d2) s { gprs := [r1], psw := [ccBits] } fun t =>
      match w with
      | .available real _ => t.gpr r1 = real ∧ t.cc = 0#2
      | .segmentInvalid e => t.gpr r1 = e ∧ t.cc = 1#2
      | .pageInvalid e => t.gpr r1 = e ∧ t.cc = 2#2
      | .other k => t.gpr r1 = bits (s.gpr r1) 0 32 ++ 1#1 ++ 0#15 ++ k.code ∧ t.cc = 3#2

/-- STRAG stores the real address and sets no condition code, or raises the exception of the translation
(41_translation_instructions.md rule R192). -/
def Obligations.StragStoresRealAddress : Prop :=
  ∀ (s : State) (b1 b2 : Reg) (d1 d2 : Nat), s.problem = false → (s.address b1 d1).toNat % 8 = 0 →
    (∀ (real : DWord) (p : Bool) (abs : Nat),
      s.translateOperand (s.address b2 d2) = .ok (.available real p) →
      s.storeAddress s.operandSpace (s.address b1 d1) 8 = .ok abs →
      Completes (.strag b1 d1 b2 d2) s { mem := [(abs, 8)] } fun t =>
        t.psw = s.psw ∧ (s.Inv → readBytes t.mem abs 8 = toBytes 8 real.toNat))
    ∧ (∀ (w : Walk) (k : TranslationKind),
      s.translateOperand (s.address b2 d2) = .ok w → w.exception = some k →
      exec (.strag b1 d1 b2 d2) s = s.raise 6 (.translation k (s.address b2 d2) s.space))

/-- TPROT: condition code 0 or 1 by page protection and low-address protection, 3 if the translation is not available
(41_translation_instructions.md rule R193; log 53). -/
def Obligations.TprotSetsConditionCode : Prop :=
  ∀ (s : State) (b1 b2 : Reg) (d1 d2 : Nat), s.problem = false →
    (∀ (abs : Nat) (low : Bool), s.operandSpace = none → s.realAddress (s.address b1 d1) 1 = .ok abs →
      s.lowProtected none (s.address b1 d1) 1 = .ok low →
      Completes (.tprot b1 d1 b2 d2) s { psw := [ccBits] } fun t => t.cc = if low then 1#2 else 0#2)
    ∧ (∀ (sp : Space) (real : DWord) (p low : Bool) (abs : Nat), s.operandSpace = some sp →
      s.walkSpace sp (s.address b1 d1) = .ok (.available real p) → s.realAddress real 1 = .ok abs →
      s.lowProtected (some sp) (s.address b1 d1) 1 = .ok low →
      Completes (.tprot b1 d1 b2 d2) s { psw := [ccBits] } fun t => t.cc = if p || low then 1#2 else 0#2)
    ∧ (∀ (sp : Space) (w : Walk) (k : TranslationKind), s.operandSpace = some sp →
      s.walkSpace sp (s.address b1 d1) = .ok w → w.exception = some k →
      Completes (.tprot b1 d1 b2 d2) s { psw := [ccBits] } fun t => t.cc = 3#2)

/-- LURAG loads and STURG stores a doubleword at a real address (41_translation_instructions.md rules R194, R195). -/
def Obligations.RealAddressLoadAndStore : Prop :=
  ∀ (s : State) (r1 r2 : Reg) (abs : Nat), s.problem = false → (s.registerAddress r2).toNat % 8 = 0 →
    (s.realAddress (s.registerAddress r2) 8 = .ok abs →
      Completes (.lurag r1 r2) s { gprs := [r1] } fun t =>
        toBytes 8 (t.gpr r1).toNat = readBytes s.mem abs 8)
    ∧ (s.storeAddress none (s.registerAddress r2) 8 = .ok abs →
      Completes (.sturg r1 r2) s { mem := [(abs, 8)] } fun t =>
        s.Inv → readBytes t.mem abs 8 = toBytes 8 (s.gpr r1).toNat)

/-! ## Control instructions -/

/-- LCTL loads the low-order halves of a range of control registers from consecutive words, LCTLG whole registers from
consecutive doublewords; the range wraps (42_control_instructions.md rules R210, R212). That a register holds every bit
loaded into it, assigned or not, is the model's choice (log 61, 93_implementation_defined.md U5). -/
def Obligations.LoadControlRegisters : Prop :=
  ∀ (s : State) (r1 r3 b2 : Reg) (g : Nat → Nat), s.problem = false →
    (∀ d2 : Nat, (s.address b2 d2).toNat % 4 = 0 →
      (∀ k, k < (r3 - r1).toNat + 1 →
        s.fetchAddress s.operandSpace (s.offset (s.address b2 d2) (k * 4)) 4 = .ok (g k)) →
      Completes (.lctl r1 r3 b2 d2) s { crs := registerRange r1 r3 } fun t =>
        ∀ k, k < (r3 - r1).toNat + 1 →
          bits (t.cr (r1 + BitVec.ofNat 4 k)) 0 32 = bits (s.cr (r1 + BitVec.ofNat 4 k)) 0 32
            ∧ toBytes 4 (bits (t.cr (r1 + BitVec.ofNat 4 k)) 32 32).toNat = readBytes s.mem (g k) 4)
    ∧ (∀ d2 : Int, (s.address b2 d2).toNat % 8 = 0 →
      (∀ k, k < (r3 - r1).toNat + 1 →
        s.fetchAddress s.operandSpace (s.offset (s.address b2 d2) (k * 8)) 8 = .ok (g k)) →
      Completes (.lctlg r1 r3 b2 d2) s { crs := registerRange r1 r3 } fun t =>
        ∀ k, k < (r3 - r1).toNat + 1 →
          toBytes 8 (t.cr (r1 + BitVec.ofNat 4 k)).toNat = readBytes s.mem (g k) 8)

/-- STCTL stores the low-order halves of a range of control registers in consecutive words, STCTG whole registers in
consecutive doublewords (42_control_instructions.md rules R211, R213). -/
def Obligations.StoreControlRegisters : Prop :=
  ∀ (s : State) (r1 r3 b2 : Reg) (f : Nat → Nat), s.problem = false →
    (∀ d2 : Nat, (s.address b2 d2).toNat % 4 = 0 →
      s.StoresAt s.operandSpace (s.address b2 d2) 4 ((r3 - r1).toNat + 1) f →
      Completes (.stctl r1 r3 b2 d2) s { mem := unitPlaces f 4 ((r3 - r1).toNat + 1) } fun t =>
        t.mem = storeUnits f s.mem
          ((registerRange r1 r3).map fun r => toBytes 4 ((s.cr r).toNat % 2 ^ 32)) 0)
    ∧ (∀ d2 : Int, (s.address b2 d2).toNat % 8 = 0 →
      s.StoresAt s.operandSpace (s.address b2 d2) 8 ((r3 - r1).toNat + 1) f →
      Completes (.stctg r1 r3 b2 d2) s { mem := unitPlaces f 8 ((r3 - r1).toNat + 1) } fun t =>
        t.mem = storeUnits f s.mem ((registerRange r1 r3).map fun r => toBytes 8 (s.cr r).toNat) 0)

/-- ESEA (42_control_instructions.md rule R214). -/
def Obligations.EseaExchangesAuthority : Prop :=
  ∀ (s : State) (r1 : Reg), s.problem = false →
    Completes (.esea r1) s { gprs := [r1], crs := [8#4] } fun t =>
      t.gpr r1 = bits (s.gpr r1) 0 32 ++ bits (s.cr 8#4) 32 16 ++ bits (s.gpr r1) 48 16
        ∧ t.cr 8#4 = bits (s.cr 8#4) 0 32 ++ bits (s.gpr r1) 48 16 ++ bits (s.cr 8#4) 48 16

/-- SPX sets prefix bits 33-50 from bits 1-18 of a word (42_control_instructions.md rule R220). -/
def Obligations.SpxSetsPrefix : Prop :=
  ∀ (s : State) (b2 : Reg) (d2 abs : Nat) (w : Word), s.problem = false → (s.address b2 d2).toNat % 4 = 0 →
    s.fetchAddress s.operandSpace (s.address b2 d2) 4 = .ok abs → toBytes 4 w.toNat = readBytes s.mem abs 4 →
    ((0#33 ++ bits w 1 18 ++ 0#13 : DWord).toNat + 8192 ≤ s.params.storageSize →
      Completes (.spx b2 d2) s { pfx := true } fun t => t.pfx = 0#33 ++ bits w 1 18 ++ 0#13)
    ∧ (s.params.storageSize < (0#33 ++ bits w 1 18 ++ 0#13 : DWord).toNat + 8192 →
      exec (.spx b2 d2) s = s.raise 4 .addressing)

/-- STFL on a machine with N3 stores the facility list at real 200-203, with the bits of z/Architecture mode one in that
mode and the active bit zero in ESA/390 mode (42_control_instructions.md rule R224, 10_state.md rule R55; log 60); without
N3 it takes the operation exception (30_encoding.md rule R150). -/
def Obligations.StflStoresFacilities : Prop :=
  (∀ s : State, bit s.params.fac 0 = false → exec .stfl s = s.raise 4 .operation)
  ∧ ∀ (s : State) (abs : Nat), bit s.params.fac 0 = true → s.problem = false → s.realAddress 200#64 4 = .ok abs →
    Completes .stfl s { mem := [(abs, 4)] } fun t =>
      ∃ v : Word, (s.Inv → readBytes t.mem abs 4 = toBytes 4 v.toNat)
        ∧ (s.archMode = .zArch → bit v 1 = true ∧ bit v 2 = true)
        ∧ (s.archMode = .esa390 → bit v 1 = bit s.params.fac 1 ∧ bit v 2 = false)
        ∧ (∀ i, i < 32 → i ≠ 1 → i ≠ 2 → bit v i = bit s.params.fac i)

/-- SIGP Set Architecture: the switch to z/Architecture mode, the two ends with a status, and the orders that are
refused (42_control_instructions.md rule R226; log 55). That the access registers and the pending interruptions are as
before the switch is the model's choice (log 55). -/
def Obligations.SigpSetsArchitecture : Prop :=
  ∀ (s : State) (r1 r3 b2 : Reg) (d2 : Nat), s.problem = false →
    let parameter := bits (s.gpr (if r1.getLsbD 0 then r1 else r1 + 1#4)) 56 8
    let atRest := ∀ c ∈ s.otherCpus, c = .stopped ∨ c = .checkStop
    (bits (s.address b2 d2) 56 8 ≠ 0x12#8 → exec (.sigp r1 r3 b2 d2) s = .refused .sigpOrder)
    ∧ (bits (s.address b2 d2) 56 8 = 0x12#8 →
      (¬atRest →
        Completes (.sigp r1 r3 b2 d2) s { gprs := [r1], psw := [ccBits] } fun t =>
          t.cc = 1#2 ∧ bits (t.gpr r1) 0 32 = bits (s.gpr r1) 0 32)
      ∧ (atRest → ¬(parameter = 1#8 ∧ s.archMode = .esa390) → ¬(parameter = 0#8 ∧ s.archMode = .zArch) →
        Completes (.sigp r1 r3 b2 d2) s { gprs := [r1], psw := [ccBits] } fun t =>
          t.cc = 1#2 ∧ bits (t.gpr r1) 0 32 = bits (s.gpr r1) 0 32)
      ∧ (atRest → parameter = 0#8 → s.archMode = .zArch →
        exec (.sigp r1 r3 b2 d2) s = .refused .switchToEsa390)
      ∧ (atRest → parameter = 1#8 → s.archMode = .esa390 →
        ∃ t, exec (.sigp r1 r3 b2 d2) s = .next t ∧ t.archMode = .zArch ∧ t.cc = 0#2
          ∧ t.pfx = 0#33 ++ bits s.pfx 33 18 ++ 0#13
          ∧ (∀ r, t.cr r = 0#32 ++ bits (s.cr r) 32 32)
          ∧ (pswValid s.psw = true → bits s.psw 64 33 = 0#33 →
            ∀ i, i < 128 → ¬inRanges [ccBits] i → bit t.psw i = bit s.psw i)
          ∧ t.gprs = s.gprs ∧ t.ars = s.ars ∧ t.mem = s.mem ∧ t.linkageStack = s.linkageStack
          ∧ t.trapArea = s.trapArea ∧ t.pending = s.pending))

/-! ## Linkage and branches -/

/-- PC: a stacking call makes a program-call state entry of all registers and the PSW; the routine is entered in the
mode of the entry-table entry; a basic call with an unequal G bit raises special operation (43_linkage_instructions.md
rules R230 to R232; log 44). With tracing on, the same over the state that the trace entry leaves. -/
def Obligations.ProgramCall : Prop :=
  ∀ (s : State) (b2 : Reg) (d2 : Nat),
    let e := s.findEntry (s.address b2 d2)
    (∀ x, s.entryTable.find? (fun x => x.number == s.address b2 d2) = some x → e = x)
    ∧ (e.stacking = false → e.g ≠ bit s.psw 31 → exec (.pc b2 d2) s = s.raise 4 .specialOperation)
    ∧ (∀ u, e.stacking = true ∨ e.g = bit s.psw 31 → TracedTo (.pc b2 d2) s u →
      CompletesFrom (.pc b2 d2) s u
        { gprs := allRegs, crs := if e.stacking then [15#4] else [], psw := [(15, 1), ccBits, modeBits, iaBits],
          stack := e.stacking }
        fun t => bits t.psw 31 2 = (if e.g = true then 0b11#2 else if e.mode31 = true then 0b01#2 else 0b00#2)
          ∧ t.problem = e.problem ∧ t.ia = t.amode.trunc e.address
          ∧ (e.stacking = true → ∃ x : StackEntry, x.AddedBetween s t .programCall s.psw))

/-- BAKR adds a branch state entry with all registers and branches without a change of mode (43_linkage_instructions.md
rule R233; the bits of R1 that give the saved mode: log 38). With tracing on, the same over the state that the trace
entry leaves. -/
def Obligations.BranchAndStack : Prop :=
  ∀ (s u : State) (r1 r2 : Reg), TracedTo (.bakr r1 r2) s u →
    CompletesFrom (.bakr r1 r2) s u { crs := [15#4], psw := [iaBits], stack := true } fun t =>
      t.ia = (if r2 = 0#4 then s.ia else s.amode.trunc (s.gpr r2))
        ∧ ∃ (x : StackEntry) (p : Quad), x.AddedBetween s t .branch p
          ∧ (r1 = 0#4 → p = s.psw)
          ∧ (r1 ≠ 0#4 → pswAddress p = addressOfRegister (s.gpr r1) ∧ pswMode p = modeOfRegister (s.gpr r1)
            ∧ ∀ i, i < 128 → ¬inRanges [modeBits, iaBits] i → bit p i = bit s.psw i)

/-- PR restores general and access registers 2-14 and the PSW, but for the PER mask and the condition code, from the state
entry that control register 15 designates and removes it, so that the one before it is designated; without an entry it
takes the stack exception (43_linkage_instructions.md rules R234, R235, 10_state.md rule R39; logs 39, 40, 41). With
tracing on, the same over the state that the trace entry leaves. -/
def Obligations.ProgramReturn : Prop :=
  ∀ s : State,
    (s.designatedEntry = none → exec .pr s = s.raise 2 .stack)
    ∧ (∀ (u : State) (e : StackEntry), s.designatedEntry = some e → TracedTo .pr s u → pswValid e.psw = true →
      CompletesFrom .pr s u
        { gprs := registerRange 2#4 14#4, ars := registerRange 2#4 14#4, crs := [15#4], psw := [(0, 128)],
          stack := true }
        fun t => (∀ r ∈ registerRange 2#4 14#4, t.gpr r = e.gr.get r.toFin ∧ t.ar r = e.ar.get r.toFin)
          ∧ t.linkageStack = s.linkageStack.erase e ∧ t.cr 15#4 = e.previous ∧ bit t.psw 1 = bit s.psw 1
          ∧ ∀ i, i < 128 → i ≠ 1 → ¬inRanges [ccBits] i → bit t.psw i = bit e.psw i)

/-- ESTA codes 1 and 4, the codes whose words the spec does not give, and the exceptions (43_linkage_instructions.md
rule R236; logs 41, 42). -/
def Obligations.ExtractStackedState : Prop :=
  ∀ (s : State) (r1 r2 : Reg) (e : StackEntry), r1.toNat % 2 = 0 →
    let code := bits (s.gpr r2) 56 8
    let first := fun t : State => bits (t.gpr r1) 0 32 = bits (s.gpr r1) 0 32
      ∧ bits (t.gpr (r1 + 1#4)) 0 32 = bits (s.gpr (r1 + 1#4)) 0 32
    let kindCode := match e.kind with | .branch => 0#2 | .programCall => 1#2
    (4 < code.toNat → exec (.esta r1 r2) s = s.raise 4 .specification)
    ∧ (code.toNat ≤ 4 → s.designatedEntry = none → exec (.esta r1 r2) s = s.raise 4 .stack)
    ∧ (code = 1#8 → s.designatedEntry = some e →
      Completes (.esta r1 r2) s { gprs := [r1, r1 + 1#4], psw := [ccBits] } fun t =>
        first t ∧ bits (t.gpr r1) 32 32 = bits e.psw 0 32
          ∧ bits (t.gpr (r1 + 1#4)) 32 32
            = (if (bits e.psw 64 64).toNat < 2 ^ 31 then bits e.psw 32 1 ++ bits e.psw 97 31
              else bits e.psw 32 1 ++ bits e.psw 97 30 ++ 1#1)
          ∧ t.cc = kindCode)
    ∧ (code = 4#8 → s.designatedEntry = some e →
      Completes (.esta r1 r2) s { gprs := [r1, r1 + 1#4], psw := [ccBits] } fun t =>
        t.gpr r1 = bits e.psw 0 64 ∧ t.gpr (r1 + 1#4) = bits e.psw 64 64 ∧ t.cc = kindCode)
    ∧ (code = 0#8 ∨ code = 2#8 ∨ code = 3#8 → s.designatedEntry = some e →
      Completes (.esta r1 r2) s { gprs := [r1, r1 + 1#4], psw := [ccBits] } fun t => first t ∧ t.cc = kindCode)

/-- EREG loads the low-order halves and EREGG the whole of a range of general registers from the current state entry,
both the access registers of the range (43_linkage_instructions.md rules R237, R238; logs 41, 43). -/
def Obligations.ExtractStackedRegisters : Prop :=
  ∀ (s : State) (r1 r2 : Reg),
    (s.designatedEntry = none →
      exec (.ereg r1 r2) s = s.raise 4 .stack ∧ exec (.eregg r1 r2) s = s.raise 4 .stack)
    ∧ (∀ e : StackEntry, s.designatedEntry = some e →
      Completes (.ereg r1 r2) s { gprs := registerRange r1 r2, ars := registerRange r1 r2 } (fun t =>
        ∀ k, k < (r2 - r1).toNat + 1 →
          let r := r1 + BitVec.ofNat 4 k
          t.gpr r = bits (s.gpr r) 0 32 ++ bits (e.gr.get r.toFin) 32 32 ∧ t.ar r = e.ar.get r.toFin)
      ∧ Completes (.eregg r1 r2) s { gprs := registerRange r1 r2, ars := registerRange r1 r2 } (fun t =>
        ∀ k, k < (r2 - r1).toNat + 1 →
          let r := r1 + BitVec.ofNat 4 k
          t.gpr r = e.gr.get r.toFin ∧ t.ar r = e.ar.get r.toFin))

/-- BALR and BASR put the link information in R1 and branch to the address in R2, unless the R2 field is 0
(43_linkage_instructions.md rules R240, R241; log 37). With tracing on, the same over the state that the trace entry
leaves. -/
def Obligations.BranchAndLink : Prop :=
  ∀ (s u : State) (r1 r2 : Reg),
    (TracedTo (.balr r1 r2) s u → CompletesFrom (.balr r1 r2) s u { gprs := [r1], psw := [iaBits] } (fun t =>
      t.ia = (if r2 = 0#4 then s.ia else s.amode.trunc (s.gpr r2))
        ∧ (match s.amode with
          | .a64 => t.gpr r1 = s.ia
          | .a31 => t.gpr r1 = bits (s.gpr r1) 0 32 ++ bits s.psw 32 1 ++ bits s.ia 33 31
          | .a24 => bits (t.gpr r1) 0 32 = bits (s.gpr r1) 0 32 ∧ bits (t.gpr r1) 40 24 = bits s.ia 40 24)))
    ∧ (TracedTo (.basr r1 r2) s u → CompletesFrom (.basr r1 r2) s u { gprs := [r1], psw := [iaBits] } (fun t =>
      t.ia = (if r2 = 0#4 then s.ia else s.amode.trunc (s.gpr r2))
        ∧ t.gpr r1 = (if s.amode.is64 then s.ia
          else bits (s.gpr r1) 0 32 ++ bits s.psw 32 1 ++ bits s.ia 33 31)))

/-- BASSM and BSM: what goes into R1, and the mode and address that come from R2 unless its field is 0
(43_linkage_instructions.md rules R242, R243; log 37). With tracing on, the same over the state that the trace entry
leaves. -/
def Obligations.BranchAndSetMode : Prop :=
  ∀ (s u : State) (r1 r2 : Reg),
    let v := s.gpr r2
    let branched := fun t : State =>
      (r2 = 0#4 → t.psw = s.psw)
      ∧ (r2 ≠ 0#4 → bit v 63 = true → bits t.psw 31 2 = 0b11#2 ∧ t.ia = bits v 0 63 ++ 0#1)
      ∧ (r2 ≠ 0#4 → bit v 63 = false → bit v 32 = true → bits t.psw 31 2 = 0b01#2 ∧ t.ia = 0#33 ++ bits v 33 31)
      ∧ (r2 ≠ 0#4 → bit v 63 = false → bit v 32 = false → bits t.psw 31 2 = 0b00#2 ∧ t.ia = 0#40 ++ bits v 40 24)
    (TracedTo (.bassm r1 r2) s u →
      CompletesFrom (.bassm r1 r2) s u { gprs := [r1], psw := [modeBits, iaBits] } fun t =>
        branched t ∧ t.gpr r1 = (if s.amode.is64 then s.ia
          else bits (s.gpr r1) 0 32 ++ bits s.psw 32 1 ++ bits s.ia 33 31))
    ∧ (TracedTo (.bsm r1 r2) s u →
      CompletesFrom (.bsm r1 r2) s u { gprs := [r1], psw := [modeBits, iaBits] } fun t =>
        branched t ∧ t.gpr r1 = (if s.amode.is64 then bits (s.gpr r1) 0 63 ++ 1#1
          else bits (s.gpr r1) 0 32 ++ bits s.psw 32 1 ++ bits (s.gpr r1) 33 31))

/-- RP loads PSW bits 16-23, the addressing mode with an address that fits it, and general and access registers, all of
them free values, and resumes there (43_linkage_instructions.md rule R246; log 68). With tracing on, the same over the
state that the trace entry leaves. -/
def Obligations.ResumeProgram : Prop :=
  ∀ (s u : State) (b2 : Reg) (d2 : Nat), TracedTo (.rp b2 d2) s u →
    CompletesFrom (.rp b2 d2) s u { gprs := allRegs, ars := allRegs, psw := [(16, 8), modeBits, iaBits] } fun t =>
      bits t.psw 31 2 ≠ 0b10#2 ∧ t.amode.trunc t.ia = t.ia

/-- BSA, BSG and PLO stop by name: the spec names them without an effect (43_linkage_instructions.md rules R244, R245,
45_move_and_consistency.md rule R296). -/
def Obligations.NamedOnlyInstructionsAreRefused : Prop :=
  ∀ (s : State) (r1 r2 r3 b2 b4 : Reg) (d2 d4 : Nat),
    exec (.bsa r1 r2) s = .refused .branchAndSetAuthority
      ∧ exec (.bsg r1 r2) s = .refused .branchInSubspaceGroup
      ∧ exec (.plo r1 r3 b2 d2 b4 d4) s = .refused .performLockedOperation

/-! ## Tracing, traps, monitoring -/

/-- The layouts of the branch, mode-switch and mode-switching-branch trace entries (44_trace_trap_monitor.md rules R262
to R264). -/
def Obligations.TraceEntryLayouts : Prop :=
  ∀ a : DWord,
    branchEntry .a24 a = toBytes 4 (a.toNat % 2 ^ 24)
    ∧ branchEntry .a31 a = toBytes 4 (2 ^ 31 + a.toNat % 2 ^ 31)
    ∧ branchEntry .a64 a = (if a.toNat < 2 ^ 31 then toBytes 4 (2 ^ 31 + a.toNat)
      else [0x52#8, 0xC0#8, 0#8, 0#8] ++ toBytes 8 a.toNat)
    ∧ modeSwitchEntry .a24 a = [0x51#8, 0x30#8, 0#8, 0#8] ++ toBytes 4 (a.toNat % 2 ^ 31)
    ∧ modeSwitchEntry .a31 a = [0x51#8, 0x30#8, 0#8, 0#8] ++ toBytes 4 (2 ^ 31 + a.toNat % 2 ^ 31)
    ∧ modeSwitchEntry .a64 a = (if a.toNat < 2 ^ 32 then [0x51#8, 0x20#8, 0#8, 0#8] ++ toBytes 4 a.toNat
      else [0x52#8, 0x60#8, 0#8, 0#8] ++ toBytes 8 a.toNat)
    ∧ modeSwitchingBranchEntry .a24 a = [0x51#8, 0xA0#8, 0#8, 0#8] ++ toBytes 4 (a.toNat % 2 ^ 31)
    ∧ modeSwitchingBranchEntry .a31 a = [0x51#8, 0xA0#8, 0#8, 0#8] ++ toBytes 4 (2 ^ 31 + a.toNat % 2 ^ 31)
    ∧ modeSwitchingBranchEntry .a64 a = (if a.toNat < 2 ^ 32 then [0x51#8, 0xB0#8, 0#8, 0#8] ++ toBytes 4 a.toNat
      else [0x52#8, 0xF0#8, 0#8, 0#8] ++ toBytes 8 a.toNat)

/-- Storing a trace entry and advancing its address; and the entry each instruction makes, or none
(44_trace_trap_monitor.md rules R261, R265). That the address is real, how it advances and the exception at a 4K boundary
(log 48) and which bits of control register 12 are which (log 46) are the model's choices; the spec has a model refuse
while tracing is on (decision D37). -/
def Obligations.ModeAndBranchTracing : Prop :=
  (∀ (s : State) (entry : List Byte) (abs : Nat),
    (s.traceAddress.toNat % 4096 + entry.length ≤ 4096 → s.realAddress s.traceAddress entry.length = .ok abs →
      ∃ t, s.appendTrace entry = .ok t ∧ t.mem = writeBytes s.mem abs entry
        ∧ t.traceAddress = (s.traceAddress + BitVec.ofNat 64 entry.length) &&& s.params.trace.address
        ∧ Writes.Only { crs := [12#4], mem := [(abs, entry.length)] } s t)
    ∧ (4096 < s.traceAddress.toNat % 4096 + entry.length → s.appendTrace entry = .error (.exception .traceTable)))
  ∧ (∀ (i : Instr) (s : State) (entry : List Byte) (x : ProgException), tracedEntry i s = some entry →
    s.appendTrace entry = .error (.exception x) → exec i s = s.raise (instrBytes i) x)
  ∧ (∀ (i : Instr) (s t u : State) (entry : List Byte), tracedEntry i s = some entry →
    s.appendTrace entry = .ok u → exec i s = .next t → s.params.invalidPsw = .stop →
    t.mem = u.mem ∧ t.cr 12#4 = u.cr 12#4)
  ∧ (∀ (i : Instr) (s t : State), inTraceTable i = true → tracedEntry i s = none → exec i s = .next t →
    s.params.invalidPsw = .stop → (t.mem = s.mem ∧ t.cr 12#4 = s.cr 12#4) ∨ TakenFrom s t)

/-- TRACE and TRACG: nothing with explicit tracing off or bit 0 of the operand one, else an entry with the operand and
the registers of the range, and the trace-entry address moved past it (44_trace_trap_monitor.md rules R266 to R268; logs
46 to 50). -/
def Obligations.ExplicitTracing : Prop :=
  ∀ (s : State) (r1 r3 b2 : Reg) (w : Word) (src abs : Nat), s.problem = false →
    let n := (r3 - r1).toNat + 1
    let nByte := BitVec.ofNat 8 (n - 1)
    let mask := s.params.trace.address
    let advanced := fun (t : State) (length : Nat) =>
      t.traceAddress = (s.traceAddress + BitVec.ofNat 64 length) &&& mask
        ∧ t.cr 12#4 &&& ~~~mask = s.cr 12#4 &&& ~~~mask
    (∀ d2 : Nat, (s.address b2 d2).toNat % 4 = 0 →
      s.fetchAddress s.operandSpace (s.address b2 d2) 4 = .ok src → toBytes 4 w.toNat = readBytes s.mem src 4 →
      (s.explicitTraceOn = false ∨ bit w 0 = true → exec (.trace r1 r3 b2 d2) s = .next s)
      ∧ (s.explicitTraceOn = true → bit w 0 = false →
        s.traceAddress.toNat % 4096 + (12 + 4 * n) ≤ 4096 →
        s.realAddress s.traceAddress (12 + 4 * n) = .ok abs →
        Completes (.trace r1 r3 b2 d2) s { crs := [12#4], mem := [(abs, 12 + 4 * n)] } fun t =>
          advanced t (12 + 4 * n) ∧ (s.Inv → ∃ tod : List Byte, tod.length = 6 ∧
            readBytes t.mem abs (12 + 4 * n)
              = [0x70#8 + nByte, 0#8] ++ tod ++ toBytes 4 w.toNat
                ++ (registerRange r1 r3).flatMap fun r => toBytes 4 ((s.gpr r).toNat % 2 ^ 32))))
    ∧ (∀ d2 : Int, (s.address b2 d2).toNat % 4 = 0 →
      s.fetchAddress s.operandSpace (s.address b2 d2) 4 = .ok src → toBytes 4 w.toNat = readBytes s.mem src 4 →
      (s.explicitTraceOn = false ∨ bit w 0 = true → exec (.tracg r1 r3 b2 d2) s = .next s)
      ∧ (s.explicitTraceOn = true → bit w 0 = false →
        s.traceAddress.toNat % 4096 + (16 + 8 * n) ≤ 4096 →
        s.realAddress s.traceAddress (16 + 8 * n) = .ok abs →
        Completes (.tracg r1 r3 b2 d2) s { crs := [12#4], mem := [(abs, 16 + 8 * n)] } fun t =>
          advanced t (16 + 8 * n) ∧ (s.Inv → ∃ (b : Byte) (tod : List Byte), tod.length = 10 ∧
            readBytes t.mem abs (16 + 8 * n)
              = [b, 0x80#8] ++ tod ++ toBytes 4 w.toNat
                ++ (registerRange r1 r3).flatMap fun r => toBytes 8 (s.gpr r).toNat)))

/-- TRAP2 and TRAP4 store status in the trap area by its two flags and enter the trap routine in 31-bit mode
(44_trace_trap_monitor.md rules R270 to R272; log 45). That the PSW's other fields are unchanged is the model's choice
(log 45). With tracing on, the same over the state that the trace entry leaves. -/
def Obligations.TrapEntersRoutine : Prop :=
  ∀ (s u : State) (b2 : Reg) (d2 : Nat),
    let area := s.currentTrapArea
    let entered := fun (operand : Option DWord) (t : State) =>
      bits t.psw 31 2 = 0b01#2 ∧ t.ia = 0#33 ++ bits area.routine 33 31
        ∧ ∃ saved, t.trapArea = some { area with saved := some saved } ∧ saved.operand = operand
          ∧ (area.registers64 = true → saved.registers = .full s.gprs)
          ∧ (area.registers64 = false → ∃ low : Vector Word 16, saved.registers = .low low
            ∧ ∀ r : Reg, low.get r.toFin = bits (s.gpr r) 32 32)
          ∧ (area.psw128 = true → saved.psw = .full s.psw)
          ∧ (area.psw128 = false → ∃ v, saved.psw = .short v ∧ bit v 12 = true
            ∧ bits v 0 12 = bits s.psw 0 12 ∧ bits v 13 20 = bits s.psw 13 20 ∧ bits v 33 31 = bits s.psw 97 31)
    (∀ a, s.trapArea = some a → area = a)
      ∧ (TracedTo .trap2 s u →
        CompletesFrom .trap2 s u { gprs := allRegs, psw := [modeBits, iaBits], trap := true } (entered none))
      ∧ (TracedTo (.trap4 b2 d2) s u →
        CompletesFrom (.trap4 b2 d2) s u { gprs := allRegs, psw := [modeBits, iaBits], trap := true }
          (entered (some (s.address b2 d2))))

/-- MC: with the monitor class enabled, the monitor event stores the first-operand address as the monitor code and the
class, and the old PSW addresses the next instruction; with it disabled, nothing happens (44_trace_trap_monitor.md rule
R275). -/
def Obligations.MonitorCall : Prop :=
  ∀ (s : State) (b1 : Reg) (d1 : Nat) (i2 : Byte),
    (bits i2 0 4 ≠ 0#4 → exec (.mc b1 d1 i2) s = s.raise 4 .specification)
    ∧ (bits i2 0 4 = 0#4 → bit (s.cr 8#4) (48 + i2.toNat) = false → exec (.mc b1 d1 i2) s = .next s)
    ∧ (bits i2 0 4 = 0#4 → bit (s.cr 8#4) (48 + i2.toNat) = true → s.Inv → s.canInterrupt →
      Completes (.mc b1 d1 i2) s { psw := [(0, 128)], mem := s.interruptionStores } fun t =>
        t.psw = s.pswAt 464#64 ∧ t.pswAt 336#64 = s.psw
          ∧ readBytes t.mem (s.toAbsolute 140#64).toNat 4 = [0#8, 4#8, 0#8, 0x40#8]
          ∧ readBytes t.mem (s.toAbsolute 148#64).toNat 2 = [0#8, i2]
          ∧ readBytes t.mem (s.toAbsolute 176#64).toNat 8 = toBytes 8 (s.address b1 d1).toNat)

/-! ## Moves and quadwords -/

/-- MVCP and MVCS move the true length in R1, at most 256 bytes, between the primary and the secondary space; the true
length is 32 bits in 24- and 31-bit mode and 64 bits in 64-bit mode (45_move_and_consistency.md rules R290, R291). -/
def Obligations.MovesBetweenSpaces : Prop :=
  ∀ (s : State) (r1 r3 b1 b2 : Reg) (d1 d2 : Nat) (f g : Nat → Nat), s.problem = false →
    let length := if s.amode.is64 then (s.gpr r1).toNat else (s.gpr r1).toNat % 2 ^ 32
    let n := min length 256
    let enabled := s.dat = true ∧ bit s.psw 17 = false ∧ s.cr 0#4 &&& s.params.secondarySpaceControl ≠ 0#64
    let moved := fun t : State => t.mem = movedBytes f g s.mem n 0 ∧ t.cc = if length ≤ 256 then 0#2 else 3#2
    (¬enabled →
      exec (.mvcp r1 r3 b1 d1 b2 d2) s = s.raise 6 .specialOperation
        ∧ exec (.mvcs r1 r3 b1 d1 b2 d2) s = s.raise 6 .specialOperation)
    ∧ (enabled → s.FetchesAt (some .secondary) (s.address b2 d2) n g (unitPlaces f 1 n) →
      s.StoresAt (some .primary) (s.address b1 d1) 1 n f →
      Completes (.mvcp r1 r3 b1 d1 b2 d2) s { mem := unitPlaces f 1 n, psw := [ccBits] } moved)
    ∧ (enabled → s.FetchesAt (some .primary) (s.address b2 d2) n g (unitPlaces f 1 n) →
      s.StoresAt (some .secondary) (s.address b1 d1) 1 n f →
      Completes (.mvcs r1 r3 b1 d1 b2 d2) s { mem := unitPlaces f 1 n, psw := [ccBits] } moved)

/-- MVCK moves the true length in R1, at most 256 bytes, within the current space (45_move_and_consistency.md rule
R292). -/
def Obligations.MoveWithKey : Prop :=
  ∀ (s : State) (r1 r3 b1 b2 : Reg) (d1 d2 : Nat) (f g : Nat → Nat), s.problem = false →
    let length := if s.amode.is64 then (s.gpr r1).toNat else (s.gpr r1).toNat % 2 ^ 32
    let n := min length 256
    s.FetchesAt s.operandSpace (s.address b2 d2) n g (unitPlaces f 1 n) →
    s.StoresAt s.operandSpace (s.address b1 d1) 1 n f →
    Completes (.mvck r1 r3 b1 d1 b2 d2) s { mem := unitPlaces f 1 n, psw := [ccBits] } fun t =>
      t.mem = movedBytes f g s.mem n 0 ∧ t.cc = if length ≤ 256 then 0#2 else 3#2

/-- LPQ and STPQ move a quadword between storage and an even/odd pair (45_move_and_consistency.md rules R293, R294; log
58); and the address of an operand: base, index and signed displacement, field 0 giving zero, in the addressing mode
(30_encoding.md rule R146, decision D10). -/
def Obligations.QuadwordLoadAndStore : Prop :=
  (∀ (s : State) (x2 b2 : Reg) (d2 : Int),
    let part := fun r : Reg => if r = 0#4 then 0 else (s.gpr r).toNat
    ((s.indexedAddress b2 x2 d2).toNat : Int) = ((part b2 : Int) + (part x2 : Int) + d2)
        % 2 ^ (if bit s.psw 31 = true then 64 else if bit s.psw 32 = true then 31 else 24)
      ∧ s.address b2 d2 = s.indexedAddress b2 0#4 d2)
  ∧ (∀ (s : State) (r1 x2 b2 : Reg) (d2 : Int) (abs : Nat), r1.toNat % 2 = 0 →
    (s.indexedAddress b2 x2 d2).toNat % 16 = 0 →
    (s.fetchAddress s.operandSpace (s.indexedAddress b2 x2 d2) 16 = .ok abs →
      Completes (.lpq r1 x2 b2 d2) s { gprs := [r1, r1 + 1#4] } fun t =>
        toBytes 8 (t.gpr r1).toNat ++ toBytes 8 (t.gpr (r1 + 1#4)).toNat = readBytes s.mem abs 16)
    ∧ (s.storeAddress s.operandSpace (s.indexedAddress b2 x2 d2) 16 = .ok abs →
      Completes (.stpq r1 x2 b2 d2) s { mem := [(abs, 16)] } fun t =>
        s.Inv → readBytes t.mem abs 16 = toBytes 8 (s.gpr r1).toNat ++ toBytes 8 (s.gpr (r1 + 1#4)).toNat))

/-- CDSG stores the second pair where the quadword equals the first pair, else loads the first pair; the exceptions of the
fetch come before those of the store, which also come where nothing is stored (45_move_and_consistency.md rule R295,
60_exceptions.md rule R328; log 58). -/
def Obligations.CompareDoubleAndSwap : Prop :=
  ∀ (s : State) (r1 r3 b2 : Reg) (d2 : Int) (abs : Nat), r1.toNat % 2 = 0 → r3.toNat % 2 = 0 →
    (s.address b2 d2).toNat % 16 = 0 →
    (∀ x, s.fetchAddress s.operandSpace (s.address b2 d2) 16 = .error (.exception x) →
      exec (.cdsg r1 r3 b2 d2) s = s.raise 6 x)
    ∧ (∀ x, s.fetchAddress s.operandSpace (s.address b2 d2) 16 = .ok abs →
      s.storeAddress s.operandSpace (s.address b2 d2) 16 = .error (.exception x) →
      exec (.cdsg r1 r3 b2 d2) s = s.raise 6 x)
    ∧ (s.storeAddress s.operandSpace (s.address b2 d2) 16 = .ok abs →
      (readBytes s.mem abs 16 = toBytes 8 (s.gpr r1).toNat ++ toBytes 8 (s.gpr (r1 + 1#4)).toNat →
        Completes (.cdsg r1 r3 b2 d2) s { mem := [(abs, 16)], psw := [ccBits] } fun t => t.cc = 0#2
          ∧ (s.Inv → readBytes t.mem abs 16 = toBytes 8 (s.gpr r3).toNat ++ toBytes 8 (s.gpr (r3 + 1#4)).toNat))
      ∧ (readBytes s.mem abs 16 ≠ toBytes 8 (s.gpr r1).toNat ++ toBytes 8 (s.gpr (r1 + 1#4)).toNat →
        Completes (.cdsg r1 r3 b2 d2) s { gprs := [r1, r1 + 1#4], psw := [ccBits] } fun t => t.cc = 1#2
          ∧ toBytes 8 (t.gpr r1).toNat ++ toBytes 8 (t.gpr (r1 + 1#4)).toNat = readBytes s.mem abs 16))

/-- MVPG without options in general register 0 moves the page at the second-operand address to the page at the
first-operand address (45_move_and_consistency.md rule R297); with options, which the spec does not describe, it is
refused (decision D38). That zero asks for no option and that the fetch is tested before the store is the model's choice
(log 59). -/
def Obligations.MovePage : Prop :=
  ∀ (s : State) (r1 r2 : Reg),
    let source := s.fetchAddress s.operandSpace (bits (s.amode.trunc (s.gpr r2)) 0 52 ++ 0#12) 4096
    let destination := s.storeAddress s.operandSpace (bits (s.amode.trunc (s.gpr r1)) 0 52 ++ 0#12) 4096
    (s.gpr 0#4 ≠ 0#64 → exec (.mvpg r1 r2) s = .refused .movePageOptions)
    ∧ (s.gpr 0#4 = 0#64 →
      (∀ x, source = .error (.exception x) → exec (.mvpg r1 r2) s = s.raise 4 x)
      ∧ ∀ src, source = .ok src →
        (∀ x, destination = .error (.exception x) → exec (.mvpg r1 r2) s = s.raise 4 x)
        ∧ ∀ dst, destination = .ok dst →
          Completes (.mvpg r1 r2) s { mem := [(dst, 4096)], psw := [ccBits] } fun t =>
            s.Inv → ∀ k, k < 4096 → readByte t.mem (dst + k) = readByte s.mem (src + k))

/-- IESBE is dropped: its opcode takes the operation exception (45_move_and_consistency.md rule R298). -/
def Obligations.IesbeIsDropped : Prop :=
  ∀ (s : State) (r1 r2 : Reg), s.Inv → s.canInterrupt →
    Completes (.iesbe r1 r2) s { psw := [(0, 128)], mem := s.interruptionStores } fun t =>
      t.psw = s.pswAt 464#64 ∧ t.pswAt 336#64 = s.psw
        ∧ readBytes t.mem (s.toAbsolute 140#64).toNat 4 = [0#8, 4#8, 0#8, 1#8]
end

