-- ==== Sys2Proof/Laws/Bits.lean ====
section
/-! SUPPORT. Laws of bit fields and of the big-endian byte order. -/

namespace Sys2Proof

theorem getMsbD_bits {w : Nat} (v : BitVec w) (a n i : Nat) (h : a + n ≤ w) :
    (bits v a n).getMsbD i = (decide (i < n) && v.getMsbD (a + i)) := by
  unfold bits
  simp only [BitVec.getMsbD, BitVec.getLsbD_extractLsb']
  by_cases hi : i < n
  · have h1 : n - 1 - i < n := by omega
    have h2 : w - a - n + (n - 1 - i) = w - 1 - (a + i) := by omega
    have h3 : a + i < w := by omega
    simp [hi, h1, h2, h3]
  · simp [hi]

theorem getMsbD_setBits {w n : Nat} (v : BitVec w) (a : Nat) (x : BitVec n) (i : Nat) (h : a + n ≤ w) (hi : i < w) :
    (setBits v a x).getMsbD i = if a ≤ i ∧ i < a + n then x.getMsbD (i - a) else v.getMsbD i := by
  unfold setBits
  simp only [BitVec.getMsbD, BitVec.getLsbD_or, BitVec.getLsbD_and, BitVec.getLsbD_not, BitVec.getLsbD_shiftLeft,
    BitVec.getLsbD_setWidth, BitVec.getLsbD_allOnes]
  have hw : w - 1 - i < w := by omega
  by_cases h1 : a ≤ i ∧ i < a + n
  · have h2 : ¬(w - 1 - i < w - a - n) := by omega
    have h3 : w - 1 - i - (w - a - n) = n - 1 - (i - a) := by omega
    have h4 : n - 1 - (i - a) < n := by omega
    have h5 : n - 1 - (i - a) < w := by omega
    have h6 : i - a < n := by omega
    simp [h1, h2, h3, h4, h5, h6, hi, hw]
  · by_cases h2 : w - 1 - i < w - a - n
    · simp [h1, h2, hi, hw]
    · have h4 : ¬(w - 1 - i - (w - a - n) < n) := by omega
      have h5 : x.getLsbD (w - 1 - i - (w - a - n)) = false := BitVec.getLsbD_of_ge _ _ (by omega)
      simp [h1, h2, h4, h5, hi, hw]

/-- A field reads back what was written into it. -/
theorem bits_setBits_same {w n : Nat} (v : BitVec w) (a : Nat) (x : BitVec n) (h : a + n ≤ w) :
    bits (setBits v a x) a n = x := by
  apply BitVec.eq_of_getMsbD_eq
  intro i hi
  rw [getMsbD_bits _ _ _ _ h, getMsbD_setBits _ _ _ _ h (by omega)]
  have h1 : a ≤ a + i ∧ a + i < a + n := by omega
  simp [hi]

/-- Writing a field leaves every field that does not meet it. -/
theorem bits_setBits_apart {w n : Nat} (v : BitVec w) (a : Nat) (x : BitVec n) (b m : Nat) (h : a + n ≤ w)
    (hb : b + m ≤ w) (hd : b + m ≤ a ∨ a + n ≤ b) : bits (setBits v a x) b m = bits v b m := by
  apply BitVec.eq_of_getMsbD_eq
  intro i hi
  rw [getMsbD_bits _ _ _ _ hb, getMsbD_bits _ _ _ _ hb, getMsbD_setBits _ _ _ _ h (by omega)]
  have h1 : ¬(a ≤ b + i ∧ b + i < a + n) := by omega
  simp [h1]

/-- A bit outside a written field is unchanged. -/
theorem bit_setBits_apart {w n : Nat} (v : BitVec w) (a : Nat) (x : BitVec n) (i : Nat) (h : a + n ≤ w) (hi : i < w)
    (hd : i < a ∨ a + n ≤ i) : bit (setBits v a x) i = bit v i := by
  have h1 : ¬(a ≤ i ∧ i < a + n) := by omega
  rw [bit, getMsbD_setBits _ _ _ _ h hi]
  simp [h1]

/-- Writing back what a field holds changes nothing. -/
theorem setBits_bits {w : Nat} (v : BitVec w) (a n : Nat) (h : a + n ≤ w) : setBits v a (bits v a n) = v := by
  apply BitVec.eq_of_getMsbD_eq
  intro i hi
  rw [getMsbD_setBits _ _ _ _ h hi]
  split
  · next hc =>
    rw [getMsbD_bits _ _ _ _ h]
    have h1 : i - a < n := by omega
    have h2 : a + (i - a) = i := by omega
    simp [h1, h2]
  · rfl

/-- A field as a number. -/
theorem toNat_bits {w : Nat} (v : BitVec w) (a n : Nat) : (bits v a n).toNat = v.toNat / 2 ^ (w - a - n) % 2 ^ n := by
  unfold bits
  rw [BitVec.extractLsb'_toNat, Nat.shiftRight_eq_div_pow]

/-- The leftmost n bits are zero exactly for a number below the rest's range. -/
theorem bits_eq_zero_iff (v : BitVec 64) (n : Nat) (hn : n ≤ 64) : bits v 0 n = 0#n ↔ v.toNat < 2 ^ (64 - n) := by
  rw [← BitVec.toNat_inj, toNat_bits, BitVec.toNat_ofNat, Nat.zero_mod, Nat.sub_zero]
  have hv := v.isLt
  have hpos : 0 < 2 ^ (64 - n) := Nat.pow_pos (by omega)
  have e : (2 : Nat) ^ 64 = 2 ^ (64 - n) * 2 ^ n := by rw [← Nat.pow_add]; congr 1; omega
  have hlt : v.toNat / 2 ^ (64 - n) < 2 ^ n := by
    rw [Nat.div_lt_iff_lt_mul hpos, Nat.mul_comm, ← e]
    exact hv
  rw [Nat.mod_eq_of_lt hlt, Nat.div_eq_zero_iff]
  constructor
  · rintro (h | h)
    · omega
    · exact h
  · exact .inr

/-- A field that lies in the left part of a concatenation. -/
theorem bits_append_left {n m : Nat} (x : BitVec n) (y : BitVec m) (a k : Nat) (h : a + k ≤ n) :
    bits (x ++ y) a k = bits x a k := by
  apply BitVec.eq_of_getMsbD_eq
  intro i hi
  rw [getMsbD_bits _ _ _ _ (by omega), getMsbD_bits _ _ _ _ h, BitVec.getMsbD_append]
  have h1 : ¬(n ≤ a + i) := by omega
  simp [h1]

/-- A field that lies in the right part of a concatenation. -/
theorem bits_append_right {n m : Nat} (x : BitVec n) (y : BitVec m) (a k : Nat) (h : n ≤ a) (h' : a + k ≤ n + m) :
    bits (x ++ y) a k = bits y (a - n) k := by
  apply BitVec.eq_of_getMsbD_eq
  intro i hi
  rw [getMsbD_bits _ _ _ _ h', getMsbD_bits _ _ _ _ (by omega), BitVec.getMsbD_append]
  have h1 : n ≤ a + i := by omega
  have h2 : a + i - n = a - n + i := by omega
  simp [h1, h2]

/-- The field of all bits. -/
theorem bits_all {n : Nat} (x : BitVec n) : bits x 0 n = x := by
  apply BitVec.eq_of_getMsbD_eq
  intro i hi
  rw [getMsbD_bits _ _ _ _ (by omega)]
  simp [hi]

/-- Two neighbouring fields are one field. -/
theorem bits_append_bits {w : Nat} (v : BitVec w) (a n m : Nat) (h : a + n + m ≤ w) :
    bits v a n ++ bits v (a + n) m = bits v a (n + m) := by
  apply BitVec.eq_of_getMsbD_eq
  intro i hi
  rw [getMsbD_bits _ _ _ _ (by omega), BitVec.getMsbD_append, getMsbD_bits _ _ _ _ (by omega),
    getMsbD_bits _ _ _ _ (by omega)]
  by_cases h1 : n ≤ i
  · have h2 : i - n < m := by omega
    have h3 : a + n + (i - n) = a + i := by omega
    simp [h1, h2, h3, hi]
  · have h2 : i < n := by omega
    simp [h1, h2, hi]

/-- A field of a field. -/
theorem bits_bits {w : Nat} (v : BitVec w) (a n b m : Nat) (h : a + n ≤ w) (h' : b + m ≤ n) :
    bits (bits v a n) b m = bits v (a + b) m := by
  apply BitVec.eq_of_getMsbD_eq
  intro i hi
  rw [getMsbD_bits _ _ _ _ h', getMsbD_bits _ _ _ _ h, getMsbD_bits _ _ _ _ (by omega)]
  have h1 : b + i < n := by omega
  have h2 : a + (b + i) = a + b + i := by omega
  simp [h1, h2]

/-- A field is zero exactly if its bits are. -/
theorem bits_eq_zero_iff_forall {w : Nat} (p : BitVec w) (a n : Nat) (h : a + n ≤ w) :
    bits p a n = 0#n ↔ ∀ i, a ≤ i → i < a + n → bit p i = false := by
  constructor
  · intro hz i h1 h2
    have := getMsbD_bits p a n (i - a) h
    rw [hz] at this
    have e : a + (i - a) = i := by omega
    have e2 : i - a < n := by omega
    rw [e] at this
    simpa [e2, BitVec.getMsbD] using this.symm
  · intro hb
    apply BitVec.eq_of_getMsbD_eq
    intro i hi
    rw [getMsbD_bits _ _ _ _ h, show p.getMsbD (a + i) = false from hb (a + i) (by omega) (by omega)]
    simp [BitVec.getMsbD]

/-- Two fields agree exactly if their bits do. -/
theorem bits_eq_iff_forall {w : Nat} (p q : BitVec w) (a n : Nat) (h : a + n ≤ w) :
    bits p a n = bits q a n ↔ ∀ i, a ≤ i → i < a + n → bit p i = bit q i := by
  constructor
  · intro hz i h1 h2
    have hp := getMsbD_bits p a n (i - a) h
    have hq := getMsbD_bits q a n (i - a) h
    have e : a + (i - a) = i := by omega
    have e2 : i - a < n := by omega
    rw [e] at hp hq
    rw [hz] at hp
    simpa [e2] using hp.symm.trans hq
  · intro hb
    apply BitVec.eq_of_getMsbD_eq
    intro i hi
    rw [getMsbD_bits _ _ _ _ h, getMsbD_bits _ _ _ _ h,
      show p.getMsbD (a + i) = q.getMsbD (a + i) from hb (a + i) (by omega) (by omega)]

@[simp] theorem toBytes_length (n v : Nat) : (toBytes n v).length = n := by
  induction n with
  | zero => rfl
  | succ n ih => simp [toBytes, ih]

theorem ofBytes_lt (bs : List Byte) : ofBytes bs < 256 ^ bs.length := by
  induction bs with
  | nil => simp [ofBytes]
  | cons b bs ih =>
    have hb : b.toNat < 256 := b.isLt
    simp only [ofBytes, List.length_cons, Nat.pow_succ]
    calc 256 ^ bs.length * b.toNat + ofBytes bs < 256 ^ bs.length * b.toNat + 256 ^ bs.length := by omega
      _ = 256 ^ bs.length * (b.toNat + 1) := by rw [Nat.mul_succ]
      _ ≤ 256 ^ bs.length * 256 := Nat.mul_le_mul_left _ (by omega)

/-- A number is what its n low-order bytes say, modulo their range. -/
theorem ofBytes_toBytes (n v : Nat) : ofBytes (toBytes n v) = v % 256 ^ n := by
  induction n with
  | zero => simp [toBytes, ofBytes, Nat.mod_one]
  | succ n ih =>
    have h2 : v % 256 ^ (n + 1) = v % 256 ^ n + 256 ^ n * (v / 256 ^ n % 256) := by rw [Nat.pow_succ, Nat.mod_mul]
    simp only [toBytes, ofBytes, toBytes_length, BitVec.toNat_ofNat, ih, h2]
    rw [Nat.add_comm]

theorem ofBytes_toBytes_of_lt {n v : Nat} (h : v < 256 ^ n) : ofBytes (toBytes n v) = v := by
  rw [ofBytes_toBytes, Nat.mod_eq_of_lt h]

/-- Bytes are recovered from the number they make. -/
theorem toBytes_ofBytes (bs : List Byte) : toBytes bs.length (ofBytes bs) = bs := by
  have key : ∀ (cs : List Byte) (k : Nat), toBytes cs.length (k * 256 ^ cs.length + ofBytes cs) = cs := by
    intro cs
    induction cs with
    | nil => intro k; rfl
    | cons c cs ih =>
      intro k
      have hlt := ofBytes_lt cs
      have hpos : 0 < 256 ^ cs.length := Nat.pow_pos (by omega)
      have e1 : k * 256 ^ (c :: cs).length + ofBytes (c :: cs)
          = (k * 256 + c.toNat) * 256 ^ cs.length + ofBytes cs := by
        simp only [ofBytes, List.length_cons, Nat.pow_succ]
        ring
      rw [e1]
      simp only [List.length_cons, toBytes]
      rw [ih]
      congr 1
      have e2 : ((k * 256 + c.toNat) * 256 ^ cs.length + ofBytes cs) / 256 ^ cs.length = k * 256 + c.toNat := by
        rw [Nat.mul_comm, Nat.mul_add_div hpos, Nat.div_eq_of_lt hlt, Nat.add_zero]
      rw [e2]
      apply BitVec.eq_of_toNat_eq
      have hc : c.toNat < 256 := c.isLt
      simp only [BitVec.toNat_ofNat]
      omega
  have := key bs 0
  simpa using this

/-- The number of two parts. -/
theorem ofBytes_append (bs cs : List Byte) : ofBytes (bs ++ cs) = ofBytes bs * 256 ^ cs.length + ofBytes cs := by
  induction bs with
  | nil => simp [ofBytes]
  | cons b bs ih =>
    simp only [List.cons_append, ofBytes, ih, List.length_append, Nat.pow_add]
    ring

/-- A number's bytes in two parts. -/
theorem toBytes_add (n k v : Nat) : toBytes (n + k) v = toBytes n (v / 256 ^ k) ++ toBytes k v := by
  induction n with
  | zero => simp [toBytes]
  | succ n ih =>
    rw [show n + 1 + k = (n + k) + 1 by omega]
    simp only [toBytes, List.cons_append, ih]
    rw [Nat.div_div_eq_div_mul, ← Nat.pow_add, Nat.add_comm k n]

/-- Only the low-order bytes of a number count. -/
theorem toBytes_mod (n v k : Nat) (h : n ≤ k) : toBytes n (v % 256 ^ k) = toBytes n v := by
  induction n with
  | zero => rfl
  | succ n ih =>
    simp only [toBytes, ih (by omega)]
    congr 1
    apply BitVec.eq_of_toNat_eq
    simp only [BitVec.toNat_ofNat]
    obtain ⟨j, rfl⟩ : ∃ j, k = n + 1 + j := ⟨k - (n + 1), by omega⟩
    have e : 256 ^ (n + 1 + j) = 256 ^ n * (256 * 256 ^ j) := by
      rw [Nat.pow_add, Nat.pow_succ, Nat.mul_assoc]
    rw [e, Nat.mod_mul_right_div_self]
    exact Nat.mod_mul_right_mod _ _ _

/-- The bytes of a quadword are those of its two doublewords. -/
theorem toBytes_quad (q : Quad) :
    toBytes 16 q.toNat = toBytes 8 (bits q 0 64).toNat ++ toBytes 8 (bits q 64 64).toNat := by
  rw [show 16 = 8 + 8 from rfl, toBytes_add, toNat_bits, toNat_bits]
  have h1 : q.toNat / 2 ^ (128 - 0 - 64) % 2 ^ 64 = q.toNat / 256 ^ 8 := by have := q.isLt; omega
  have h2 : q.toNat / 2 ^ (128 - 64 - 64) % 2 ^ 64 = q.toNat % 256 ^ 8 := by omega
  rw [h1, h2, toBytes_mod 8 _ 8 (by omega)]

/-- A quadword is its two doublewords. -/
theorem quad_append (q : Quad) : bits q 0 64 ++ bits q 64 64 = q := by
  rw [bits_append_bits q 0 64 64 (by omega)]
  exact bits_all q

end Sys2Proof
end

