-- ==== Sys2Proof/Laws/State.lean ====
section
/-! SUPPORT. What each update of the state leaves in each field, and the accessors over the updates. -/

namespace Sys2Proof.Machine

open Sys2Proof

/-! ## setGpr -/

@[simp] theorem State.setGpr_psw (s : State) (r : Reg) (v : DWord) : (s.setGpr r v).psw = s.psw := rfl
@[simp] theorem State.setGpr_gprs (s : State) (r : Reg) (v : DWord) : (s.setGpr r v).gprs = s.gprs.set r.toNat v r.isLt := rfl
@[simp] theorem State.setGpr_ars (s : State) (r : Reg) (v : DWord) : (s.setGpr r v).ars = s.ars := rfl
@[simp] theorem State.setGpr_crs (s : State) (r : Reg) (v : DWord) : (s.setGpr r v).crs = s.crs := rfl
@[simp] theorem State.setGpr_pfx (s : State) (r : Reg) (v : DWord) : (s.setGpr r v).pfx = s.pfx := rfl
@[simp] theorem State.setGpr_archMode (s : State) (r : Reg) (v : DWord) : (s.setGpr r v).archMode = s.archMode := rfl
@[simp] theorem State.setGpr_cpuStatus (s : State) (r : Reg) (v : DWord) : (s.setGpr r v).cpuStatus = s.cpuStatus := rfl
@[simp] theorem State.setGpr_otherCpus (s : State) (r : Reg) (v : DWord) : (s.setGpr r v).otherCpus = s.otherCpus := rfl
@[simp] theorem State.setGpr_mem (s : State) (r : Reg) (v : DWord) : (s.setGpr r v).mem = s.mem := rfl
@[simp] theorem State.setGpr_linkageStack (s : State) (r : Reg) (v : DWord) : (s.setGpr r v).linkageStack = s.linkageStack := rfl
@[simp] theorem State.setGpr_entryTable (s : State) (r : Reg) (v : DWord) : (s.setGpr r v).entryTable = s.entryTable := rfl
@[simp] theorem State.setGpr_trapArea (s : State) (r : Reg) (v : DWord) : (s.setGpr r v).trapArea = s.trapArea := rfl
@[simp] theorem State.setGpr_pending (s : State) (r : Reg) (v : DWord) : (s.setGpr r v).pending = s.pending := rfl
@[simp] theorem State.setGpr_params (s : State) (r : Reg) (v : DWord) : (s.setGpr r v).params = s.params := rfl
@[simp] theorem State.setGpr_stored (s : State) (r : Reg) (v : DWord) : (s.setGpr r v).stored = s.stored := rfl
@[simp] theorem State.setGpr_draws (s : State) (r : Reg) (v : DWord) : (s.setGpr r v).draws = s.draws := rfl

/-! ## setGprLow -/

@[simp] theorem State.setGprLow_psw (s : State) (r : Reg) (v : Word) : (s.setGprLow r v).psw = s.psw := rfl
@[simp] theorem State.setGprLow_gprs (s : State) (r : Reg) (v : Word) : (s.setGprLow r v).gprs = s.gprs.set r.toNat (setBits (s.gpr r) 32 v) r.isLt := rfl
@[simp] theorem State.setGprLow_ars (s : State) (r : Reg) (v : Word) : (s.setGprLow r v).ars = s.ars := rfl
@[simp] theorem State.setGprLow_crs (s : State) (r : Reg) (v : Word) : (s.setGprLow r v).crs = s.crs := rfl
@[simp] theorem State.setGprLow_pfx (s : State) (r : Reg) (v : Word) : (s.setGprLow r v).pfx = s.pfx := rfl
@[simp] theorem State.setGprLow_archMode (s : State) (r : Reg) (v : Word) : (s.setGprLow r v).archMode = s.archMode := rfl
@[simp] theorem State.setGprLow_cpuStatus (s : State) (r : Reg) (v : Word) : (s.setGprLow r v).cpuStatus = s.cpuStatus := rfl
@[simp] theorem State.setGprLow_otherCpus (s : State) (r : Reg) (v : Word) : (s.setGprLow r v).otherCpus = s.otherCpus := rfl
@[simp] theorem State.setGprLow_mem (s : State) (r : Reg) (v : Word) : (s.setGprLow r v).mem = s.mem := rfl
@[simp] theorem State.setGprLow_linkageStack (s : State) (r : Reg) (v : Word) : (s.setGprLow r v).linkageStack = s.linkageStack := rfl
@[simp] theorem State.setGprLow_entryTable (s : State) (r : Reg) (v : Word) : (s.setGprLow r v).entryTable = s.entryTable := rfl
@[simp] theorem State.setGprLow_trapArea (s : State) (r : Reg) (v : Word) : (s.setGprLow r v).trapArea = s.trapArea := rfl
@[simp] theorem State.setGprLow_pending (s : State) (r : Reg) (v : Word) : (s.setGprLow r v).pending = s.pending := rfl
@[simp] theorem State.setGprLow_params (s : State) (r : Reg) (v : Word) : (s.setGprLow r v).params = s.params := rfl
@[simp] theorem State.setGprLow_stored (s : State) (r : Reg) (v : Word) : (s.setGprLow r v).stored = s.stored := rfl
@[simp] theorem State.setGprLow_draws (s : State) (r : Reg) (v : Word) : (s.setGprLow r v).draws = s.draws := rfl

/-! ## setAr -/

@[simp] theorem State.setAr_psw (s : State) (r : Reg) (v : Word) : (s.setAr r v).psw = s.psw := rfl
@[simp] theorem State.setAr_gprs (s : State) (r : Reg) (v : Word) : (s.setAr r v).gprs = s.gprs := rfl
@[simp] theorem State.setAr_ars (s : State) (r : Reg) (v : Word) : (s.setAr r v).ars = s.ars.set r.toNat v r.isLt := rfl
@[simp] theorem State.setAr_crs (s : State) (r : Reg) (v : Word) : (s.setAr r v).crs = s.crs := rfl
@[simp] theorem State.setAr_pfx (s : State) (r : Reg) (v : Word) : (s.setAr r v).pfx = s.pfx := rfl
@[simp] theorem State.setAr_archMode (s : State) (r : Reg) (v : Word) : (s.setAr r v).archMode = s.archMode := rfl
@[simp] theorem State.setAr_cpuStatus (s : State) (r : Reg) (v : Word) : (s.setAr r v).cpuStatus = s.cpuStatus := rfl
@[simp] theorem State.setAr_otherCpus (s : State) (r : Reg) (v : Word) : (s.setAr r v).otherCpus = s.otherCpus := rfl
@[simp] theorem State.setAr_mem (s : State) (r : Reg) (v : Word) : (s.setAr r v).mem = s.mem := rfl
@[simp] theorem State.setAr_linkageStack (s : State) (r : Reg) (v : Word) : (s.setAr r v).linkageStack = s.linkageStack := rfl
@[simp] theorem State.setAr_entryTable (s : State) (r : Reg) (v : Word) : (s.setAr r v).entryTable = s.entryTable := rfl
@[simp] theorem State.setAr_trapArea (s : State) (r : Reg) (v : Word) : (s.setAr r v).trapArea = s.trapArea := rfl
@[simp] theorem State.setAr_pending (s : State) (r : Reg) (v : Word) : (s.setAr r v).pending = s.pending := rfl
@[simp] theorem State.setAr_params (s : State) (r : Reg) (v : Word) : (s.setAr r v).params = s.params := rfl
@[simp] theorem State.setAr_stored (s : State) (r : Reg) (v : Word) : (s.setAr r v).stored = s.stored := rfl
@[simp] theorem State.setAr_draws (s : State) (r : Reg) (v : Word) : (s.setAr r v).draws = s.draws := rfl

/-! ## setCr -/

@[simp] theorem State.setCr_psw (s : State) (r : Reg) (v : DWord) : (s.setCr r v).psw = s.psw := rfl
@[simp] theorem State.setCr_gprs (s : State) (r : Reg) (v : DWord) : (s.setCr r v).gprs = s.gprs := rfl
@[simp] theorem State.setCr_ars (s : State) (r : Reg) (v : DWord) : (s.setCr r v).ars = s.ars := rfl
@[simp] theorem State.setCr_crs (s : State) (r : Reg) (v : DWord) : (s.setCr r v).crs = s.crs.set r.toNat v r.isLt := rfl
@[simp] theorem State.setCr_pfx (s : State) (r : Reg) (v : DWord) : (s.setCr r v).pfx = s.pfx := rfl
@[simp] theorem State.setCr_archMode (s : State) (r : Reg) (v : DWord) : (s.setCr r v).archMode = s.archMode := rfl
@[simp] theorem State.setCr_cpuStatus (s : State) (r : Reg) (v : DWord) : (s.setCr r v).cpuStatus = s.cpuStatus := rfl
@[simp] theorem State.setCr_otherCpus (s : State) (r : Reg) (v : DWord) : (s.setCr r v).otherCpus = s.otherCpus := rfl
@[simp] theorem State.setCr_mem (s : State) (r : Reg) (v : DWord) : (s.setCr r v).mem = s.mem := rfl
@[simp] theorem State.setCr_linkageStack (s : State) (r : Reg) (v : DWord) : (s.setCr r v).linkageStack = s.linkageStack := rfl
@[simp] theorem State.setCr_entryTable (s : State) (r : Reg) (v : DWord) : (s.setCr r v).entryTable = s.entryTable := rfl
@[simp] theorem State.setCr_trapArea (s : State) (r : Reg) (v : DWord) : (s.setCr r v).trapArea = s.trapArea := rfl
@[simp] theorem State.setCr_pending (s : State) (r : Reg) (v : DWord) : (s.setCr r v).pending = s.pending := rfl
@[simp] theorem State.setCr_params (s : State) (r : Reg) (v : DWord) : (s.setCr r v).params = s.params := rfl
@[simp] theorem State.setCr_stored (s : State) (r : Reg) (v : DWord) : (s.setCr r v).stored = s.stored := rfl
@[simp] theorem State.setCr_draws (s : State) (r : Reg) (v : DWord) : (s.setCr r v).draws = s.draws := rfl

/-! ## drawn -/

@[simp] theorem State.drawn_psw (s : State) : s.drawn.psw = s.psw := rfl
@[simp] theorem State.drawn_gprs (s : State) : s.drawn.gprs = s.gprs := rfl
@[simp] theorem State.drawn_ars (s : State) : s.drawn.ars = s.ars := rfl
@[simp] theorem State.drawn_crs (s : State) : s.drawn.crs = s.crs := rfl
@[simp] theorem State.drawn_pfx (s : State) : s.drawn.pfx = s.pfx := rfl
@[simp] theorem State.drawn_archMode (s : State) : s.drawn.archMode = s.archMode := rfl
@[simp] theorem State.drawn_cpuStatus (s : State) : s.drawn.cpuStatus = s.cpuStatus := rfl
@[simp] theorem State.drawn_otherCpus (s : State) : s.drawn.otherCpus = s.otherCpus := rfl
@[simp] theorem State.drawn_mem (s : State) : s.drawn.mem = s.mem := rfl
@[simp] theorem State.drawn_linkageStack (s : State) : s.drawn.linkageStack = s.linkageStack := rfl
@[simp] theorem State.drawn_entryTable (s : State) : s.drawn.entryTable = s.entryTable := rfl
@[simp] theorem State.drawn_trapArea (s : State) : s.drawn.trapArea = s.trapArea := rfl
@[simp] theorem State.drawn_pending (s : State) : s.drawn.pending = s.pending := rfl
@[simp] theorem State.drawn_params (s : State) : s.drawn.params = s.params := rfl
@[simp] theorem State.drawn_stored (s : State) : s.drawn.stored = s.stored := rfl
@[simp] theorem State.drawn_draws (s : State) : s.drawn.draws = s.draws + 1 := rfl

/-! ## storeAbsolute -/

@[simp] theorem State.storeAbsolute_psw (s : State) (a : Nat) (bs : List Byte) : (s.storeAbsolute a bs).psw = s.psw := rfl
@[simp] theorem State.storeAbsolute_gprs (s : State) (a : Nat) (bs : List Byte) : (s.storeAbsolute a bs).gprs = s.gprs := rfl
@[simp] theorem State.storeAbsolute_ars (s : State) (a : Nat) (bs : List Byte) : (s.storeAbsolute a bs).ars = s.ars := rfl
@[simp] theorem State.storeAbsolute_crs (s : State) (a : Nat) (bs : List Byte) : (s.storeAbsolute a bs).crs = s.crs := rfl
@[simp] theorem State.storeAbsolute_pfx (s : State) (a : Nat) (bs : List Byte) : (s.storeAbsolute a bs).pfx = s.pfx := rfl
@[simp] theorem State.storeAbsolute_archMode (s : State) (a : Nat) (bs : List Byte) : (s.storeAbsolute a bs).archMode = s.archMode := rfl
@[simp] theorem State.storeAbsolute_cpuStatus (s : State) (a : Nat) (bs : List Byte) : (s.storeAbsolute a bs).cpuStatus = s.cpuStatus := rfl
@[simp] theorem State.storeAbsolute_otherCpus (s : State) (a : Nat) (bs : List Byte) : (s.storeAbsolute a bs).otherCpus = s.otherCpus := rfl
@[simp] theorem State.storeAbsolute_mem (s : State) (a : Nat) (bs : List Byte) : (s.storeAbsolute a bs).mem = writeBytes s.mem a bs := rfl
@[simp] theorem State.storeAbsolute_linkageStack (s : State) (a : Nat) (bs : List Byte) : (s.storeAbsolute a bs).linkageStack = s.linkageStack := rfl
@[simp] theorem State.storeAbsolute_entryTable (s : State) (a : Nat) (bs : List Byte) : (s.storeAbsolute a bs).entryTable = s.entryTable := rfl
@[simp] theorem State.storeAbsolute_trapArea (s : State) (a : Nat) (bs : List Byte) : (s.storeAbsolute a bs).trapArea = s.trapArea := rfl
@[simp] theorem State.storeAbsolute_pending (s : State) (a : Nat) (bs : List Byte) : (s.storeAbsolute a bs).pending = s.pending := rfl
@[simp] theorem State.storeAbsolute_params (s : State) (a : Nat) (bs : List Byte) : (s.storeAbsolute a bs).params = s.params := rfl
@[simp] theorem State.storeAbsolute_stored (s : State) (a : Nat) (bs : List Byte) : (s.storeAbsolute a bs).stored = addPlaces a bs.length s.stored := rfl
@[simp] theorem State.storeAbsolute_draws (s : State) (a : Nat) (bs : List Byte) : (s.storeAbsolute a bs).draws = s.draws := rfl

/-! ## withPsw -/

@[simp] theorem State.withPsw_psw (s : State) (p : Quad) : (s.withPsw p).psw = p := rfl
@[simp] theorem State.withPsw_gprs (s : State) (p : Quad) : (s.withPsw p).gprs = s.gprs := rfl
@[simp] theorem State.withPsw_ars (s : State) (p : Quad) : (s.withPsw p).ars = s.ars := rfl
@[simp] theorem State.withPsw_crs (s : State) (p : Quad) : (s.withPsw p).crs = s.crs := rfl
@[simp] theorem State.withPsw_pfx (s : State) (p : Quad) : (s.withPsw p).pfx = s.pfx := rfl
@[simp] theorem State.withPsw_archMode (s : State) (p : Quad) : (s.withPsw p).archMode = s.archMode := rfl
@[simp] theorem State.withPsw_cpuStatus (s : State) (p : Quad) : (s.withPsw p).cpuStatus = s.cpuStatus := rfl
@[simp] theorem State.withPsw_otherCpus (s : State) (p : Quad) : (s.withPsw p).otherCpus = s.otherCpus := rfl
@[simp] theorem State.withPsw_mem (s : State) (p : Quad) : (s.withPsw p).mem = s.mem := rfl
@[simp] theorem State.withPsw_linkageStack (s : State) (p : Quad) : (s.withPsw p).linkageStack = s.linkageStack := rfl
@[simp] theorem State.withPsw_entryTable (s : State) (p : Quad) : (s.withPsw p).entryTable = s.entryTable := rfl
@[simp] theorem State.withPsw_trapArea (s : State) (p : Quad) : (s.withPsw p).trapArea = s.trapArea := rfl
@[simp] theorem State.withPsw_pending (s : State) (p : Quad) : (s.withPsw p).pending = s.pending := rfl
@[simp] theorem State.withPsw_params (s : State) (p : Quad) : (s.withPsw p).params = s.params := rfl
@[simp] theorem State.withPsw_stored (s : State) (p : Quad) : (s.withPsw p).stored = s.stored := rfl
@[simp] theorem State.withPsw_draws (s : State) (p : Quad) : (s.withPsw p).draws = s.draws := rfl

/-! ## withIa -/

@[simp] theorem State.withIa_psw (s : State) (a : DWord) : (s.withIa a).psw = pswWithAddress s.psw a := rfl
@[simp] theorem State.withIa_gprs (s : State) (a : DWord) : (s.withIa a).gprs = s.gprs := rfl
@[simp] theorem State.withIa_ars (s : State) (a : DWord) : (s.withIa a).ars = s.ars := rfl
@[simp] theorem State.withIa_crs (s : State) (a : DWord) : (s.withIa a).crs = s.crs := rfl
@[simp] theorem State.withIa_pfx (s : State) (a : DWord) : (s.withIa a).pfx = s.pfx := rfl
@[simp] theorem State.withIa_archMode (s : State) (a : DWord) : (s.withIa a).archMode = s.archMode := rfl
@[simp] theorem State.withIa_cpuStatus (s : State) (a : DWord) : (s.withIa a).cpuStatus = s.cpuStatus := rfl
@[simp] theorem State.withIa_otherCpus (s : State) (a : DWord) : (s.withIa a).otherCpus = s.otherCpus := rfl
@[simp] theorem State.withIa_mem (s : State) (a : DWord) : (s.withIa a).mem = s.mem := rfl
@[simp] theorem State.withIa_linkageStack (s : State) (a : DWord) : (s.withIa a).linkageStack = s.linkageStack := rfl
@[simp] theorem State.withIa_entryTable (s : State) (a : DWord) : (s.withIa a).entryTable = s.entryTable := rfl
@[simp] theorem State.withIa_trapArea (s : State) (a : DWord) : (s.withIa a).trapArea = s.trapArea := rfl
@[simp] theorem State.withIa_pending (s : State) (a : DWord) : (s.withIa a).pending = s.pending := rfl
@[simp] theorem State.withIa_params (s : State) (a : DWord) : (s.withIa a).params = s.params := rfl
@[simp] theorem State.withIa_stored (s : State) (a : DWord) : (s.withIa a).stored = s.stored := rfl
@[simp] theorem State.withIa_draws (s : State) (a : DWord) : (s.withIa a).draws = s.draws := rfl

/-! ## setCc -/

@[simp] theorem State.setCc_psw (s : State) (c : BitVec 2) : (s.setCc c).psw = setBits s.psw 18 c := rfl
@[simp] theorem State.setCc_gprs (s : State) (c : BitVec 2) : (s.setCc c).gprs = s.gprs := rfl
@[simp] theorem State.setCc_ars (s : State) (c : BitVec 2) : (s.setCc c).ars = s.ars := rfl
@[simp] theorem State.setCc_crs (s : State) (c : BitVec 2) : (s.setCc c).crs = s.crs := rfl
@[simp] theorem State.setCc_pfx (s : State) (c : BitVec 2) : (s.setCc c).pfx = s.pfx := rfl
@[simp] theorem State.setCc_archMode (s : State) (c : BitVec 2) : (s.setCc c).archMode = s.archMode := rfl
@[simp] theorem State.setCc_cpuStatus (s : State) (c : BitVec 2) : (s.setCc c).cpuStatus = s.cpuStatus := rfl
@[simp] theorem State.setCc_otherCpus (s : State) (c : BitVec 2) : (s.setCc c).otherCpus = s.otherCpus := rfl
@[simp] theorem State.setCc_mem (s : State) (c : BitVec 2) : (s.setCc c).mem = s.mem := rfl
@[simp] theorem State.setCc_linkageStack (s : State) (c : BitVec 2) : (s.setCc c).linkageStack = s.linkageStack := rfl
@[simp] theorem State.setCc_entryTable (s : State) (c : BitVec 2) : (s.setCc c).entryTable = s.entryTable := rfl
@[simp] theorem State.setCc_trapArea (s : State) (c : BitVec 2) : (s.setCc c).trapArea = s.trapArea := rfl
@[simp] theorem State.setCc_pending (s : State) (c : BitVec 2) : (s.setCc c).pending = s.pending := rfl
@[simp] theorem State.setCc_params (s : State) (c : BitVec 2) : (s.setCc c).params = s.params := rfl
@[simp] theorem State.setCc_stored (s : State) (c : BitVec 2) : (s.setCc c).stored = s.stored := rfl
@[simp] theorem State.setCc_draws (s : State) (c : BitVec 2) : (s.setCc c).draws = s.draws := rfl

/-! ## withMem -/

@[simp] theorem State.withMem_psw (s : State) (m : Memory) : (s.withMem m).psw = s.psw := rfl
@[simp] theorem State.withMem_gprs (s : State) (m : Memory) : (s.withMem m).gprs = s.gprs := rfl
@[simp] theorem State.withMem_ars (s : State) (m : Memory) : (s.withMem m).ars = s.ars := rfl
@[simp] theorem State.withMem_crs (s : State) (m : Memory) : (s.withMem m).crs = s.crs := rfl
@[simp] theorem State.withMem_pfx (s : State) (m : Memory) : (s.withMem m).pfx = s.pfx := rfl
@[simp] theorem State.withMem_archMode (s : State) (m : Memory) : (s.withMem m).archMode = s.archMode := rfl
@[simp] theorem State.withMem_cpuStatus (s : State) (m : Memory) : (s.withMem m).cpuStatus = s.cpuStatus := rfl
@[simp] theorem State.withMem_otherCpus (s : State) (m : Memory) : (s.withMem m).otherCpus = s.otherCpus := rfl
@[simp] theorem State.withMem_mem (s : State) (m : Memory) : (s.withMem m).mem = m := rfl
@[simp] theorem State.withMem_linkageStack (s : State) (m : Memory) : (s.withMem m).linkageStack = s.linkageStack := rfl
@[simp] theorem State.withMem_entryTable (s : State) (m : Memory) : (s.withMem m).entryTable = s.entryTable := rfl
@[simp] theorem State.withMem_trapArea (s : State) (m : Memory) : (s.withMem m).trapArea = s.trapArea := rfl
@[simp] theorem State.withMem_pending (s : State) (m : Memory) : (s.withMem m).pending = s.pending := rfl
@[simp] theorem State.withMem_params (s : State) (m : Memory) : (s.withMem m).params = s.params := rfl
@[simp] theorem State.withMem_stored (s : State) (m : Memory) : (s.withMem m).stored = s.stored := rfl
@[simp] theorem State.withMem_draws (s : State) (m : Memory) : (s.withMem m).draws = s.draws := rfl

/-! ## withStores -/

/-- The machine with other storage and another record of stores. -/
def State.withStores (s : State) (m : Memory) (l : List Nat) : State := { s with mem := m, stored := l }

@[simp] theorem State.withStores_psw (s : State) (m : Memory) (l : List Nat) : (s.withStores m l).psw = s.psw := rfl
@[simp] theorem State.withStores_gprs (s : State) (m : Memory) (l : List Nat) : (s.withStores m l).gprs = s.gprs := rfl
@[simp] theorem State.withStores_ars (s : State) (m : Memory) (l : List Nat) : (s.withStores m l).ars = s.ars := rfl
@[simp] theorem State.withStores_crs (s : State) (m : Memory) (l : List Nat) : (s.withStores m l).crs = s.crs := rfl
@[simp] theorem State.withStores_pfx (s : State) (m : Memory) (l : List Nat) : (s.withStores m l).pfx = s.pfx := rfl
@[simp] theorem State.withStores_archMode (s : State) (m : Memory) (l : List Nat) : (s.withStores m l).archMode = s.archMode := rfl
@[simp] theorem State.withStores_cpuStatus (s : State) (m : Memory) (l : List Nat) : (s.withStores m l).cpuStatus = s.cpuStatus := rfl
@[simp] theorem State.withStores_otherCpus (s : State) (m : Memory) (l : List Nat) : (s.withStores m l).otherCpus = s.otherCpus := rfl
@[simp] theorem State.withStores_mem (s : State) (m : Memory) (l : List Nat) : (s.withStores m l).mem = m := rfl
@[simp] theorem State.withStores_linkageStack (s : State) (m : Memory) (l : List Nat) : (s.withStores m l).linkageStack = s.linkageStack := rfl
@[simp] theorem State.withStores_entryTable (s : State) (m : Memory) (l : List Nat) : (s.withStores m l).entryTable = s.entryTable := rfl
@[simp] theorem State.withStores_trapArea (s : State) (m : Memory) (l : List Nat) : (s.withStores m l).trapArea = s.trapArea := rfl
@[simp] theorem State.withStores_pending (s : State) (m : Memory) (l : List Nat) : (s.withStores m l).pending = s.pending := rfl
@[simp] theorem State.withStores_params (s : State) (m : Memory) (l : List Nat) : (s.withStores m l).params = s.params := rfl
@[simp] theorem State.withStores_stored (s : State) (m : Memory) (l : List Nat) : (s.withStores m l).stored = l := rfl
@[simp] theorem State.withStores_draws (s : State) (m : Memory) (l : List Nat) : (s.withStores m l).draws = s.draws := rfl

end Sys2Proof.Machine
end

