-- ==== Sys2Proof/Laws/Registers.lean ====
section
/-! SUPPORT. Reading registers, PSW fields and the like after an update. -/

namespace Sys2Proof.Machine

open Sys2Proof

/-! ## Registers -/

theorem get_toFin {α : Type} (v : Vector α 16) (r : Reg) : v.get r.toFin = v[r.toNat]'r.isLt := rfl

theorem get_set_same {α : Type} (v : Vector α 16) (r : Reg) (x : α) : (v.set r.toNat x r.isLt).get r.toFin = x := by
  rw [get_toFin, Vector.getElem_set_self]

theorem get_set_other {α : Type} (v : Vector α 16) {r q : Reg} (x : α) (h : q.toNat ≠ r.toNat) :
    (v.set r.toNat x r.isLt).get q.toFin = v.get q.toFin := by
  rw [get_toFin, get_toFin, Vector.getElem_set_ne _ _ h.symm]

theorem reg_toNat_ne {r q : Reg} (h : q ≠ r) : q.toNat ≠ r.toNat := fun e => h (BitVec.eq_of_toNat_eq e)

@[simp] theorem State.gpr_setGpr_same (s : State) (r : Reg) (v : DWord) : (s.setGpr r v).gpr r = v :=
  get_set_same s.gprs r v

theorem State.gpr_setGpr_other (s : State) {r q : Reg} (v : DWord) (h : q ≠ r) : (s.setGpr r v).gpr q = s.gpr q :=
  get_set_other s.gprs v (reg_toNat_ne h)

@[simp] theorem State.ar_setAr_same (s : State) (r : Reg) (v : Word) : (s.setAr r v).ar r = v :=
  get_set_same s.ars r v

theorem State.ar_setAr_other (s : State) {r q : Reg} (v : Word) (h : q ≠ r) : (s.setAr r v).ar q = s.ar q :=
  get_set_other s.ars v (reg_toNat_ne h)

@[simp] theorem State.cr_setCr_same (s : State) (r : Reg) (v : DWord) : (s.setCr r v).cr r = v :=
  get_set_same s.crs r v

theorem State.cr_setCr_other (s : State) {r q : Reg} (v : DWord) (h : q ≠ r) : (s.setCr r v).cr q = s.cr q :=
  get_set_other s.crs v (reg_toNat_ne h)

/-! ## Register banks that an update does not touch -/

@[simp] theorem State.gpr_setAr (s : State) (r q : Reg) (v : Word) : (s.setAr r v).gpr q = s.gpr q := rfl
@[simp] theorem State.gpr_setCr (s : State) (r q : Reg) (v : DWord) : (s.setCr r v).gpr q = s.gpr q := rfl
@[simp] theorem State.gpr_drawn (s : State) (q : Reg) : s.drawn.gpr q = s.gpr q := rfl
@[simp] theorem State.gpr_storeAbsolute (s : State) (a : Nat) (bs : List Byte) (q : Reg) :
    (s.storeAbsolute a bs).gpr q = s.gpr q := rfl
@[simp] theorem State.gpr_withPsw (s : State) (p : Quad) (q : Reg) : (s.withPsw p).gpr q = s.gpr q := rfl
@[simp] theorem State.gpr_withIa (s : State) (a : DWord) (q : Reg) : (s.withIa a).gpr q = s.gpr q := rfl
@[simp] theorem State.gpr_setCc (s : State) (c : BitVec 2) (q : Reg) : (s.setCc c).gpr q = s.gpr q := rfl
@[simp] theorem State.gpr_withMem (s : State) (m : Memory) (q : Reg) : (s.withMem m).gpr q = s.gpr q := rfl

@[simp] theorem State.ar_setGpr (s : State) (r q : Reg) (v : DWord) : (s.setGpr r v).ar q = s.ar q := rfl
@[simp] theorem State.ar_setGprLow (s : State) (r q : Reg) (v : Word) : (s.setGprLow r v).ar q = s.ar q := rfl
@[simp] theorem State.ar_setCr (s : State) (r q : Reg) (v : DWord) : (s.setCr r v).ar q = s.ar q := rfl
@[simp] theorem State.ar_drawn (s : State) (q : Reg) : s.drawn.ar q = s.ar q := rfl
@[simp] theorem State.ar_storeAbsolute (s : State) (a : Nat) (bs : List Byte) (q : Reg) :
    (s.storeAbsolute a bs).ar q = s.ar q := rfl
@[simp] theorem State.ar_withPsw (s : State) (p : Quad) (q : Reg) : (s.withPsw p).ar q = s.ar q := rfl
@[simp] theorem State.ar_withIa (s : State) (a : DWord) (q : Reg) : (s.withIa a).ar q = s.ar q := rfl
@[simp] theorem State.ar_setCc (s : State) (c : BitVec 2) (q : Reg) : (s.setCc c).ar q = s.ar q := rfl
@[simp] theorem State.ar_withMem (s : State) (m : Memory) (q : Reg) : (s.withMem m).ar q = s.ar q := rfl

@[simp] theorem State.cr_setGpr (s : State) (r q : Reg) (v : DWord) : (s.setGpr r v).cr q = s.cr q := rfl
@[simp] theorem State.cr_setGprLow (s : State) (r q : Reg) (v : Word) : (s.setGprLow r v).cr q = s.cr q := rfl
@[simp] theorem State.cr_setAr (s : State) (r q : Reg) (v : Word) : (s.setAr r v).cr q = s.cr q := rfl
@[simp] theorem State.cr_drawn (s : State) (q : Reg) : s.drawn.cr q = s.cr q := rfl
@[simp] theorem State.cr_storeAbsolute (s : State) (a : Nat) (bs : List Byte) (q : Reg) :
    (s.storeAbsolute a bs).cr q = s.cr q := rfl
@[simp] theorem State.cr_withPsw (s : State) (p : Quad) (q : Reg) : (s.withPsw p).cr q = s.cr q := rfl
@[simp] theorem State.cr_withIa (s : State) (a : DWord) (q : Reg) : (s.withIa a).cr q = s.cr q := rfl
@[simp] theorem State.cr_setCc (s : State) (c : BitVec 2) (q : Reg) : (s.setCc c).cr q = s.cr q := rfl
@[simp] theorem State.cr_withMem (s : State) (m : Memory) (q : Reg) : (s.withMem m).cr q = s.cr q := rfl

/-! ## Halves of registers -/

theorem bits_setBits_low (v : DWord) (x : Word) : bits (setBits v 32 x) 32 32 = x :=
  bits_setBits_same v 32 x (by omega)

theorem bits_setBits_high (v : DWord) (x : Word) : bits (setBits v 32 x) 0 32 = bits v 0 32 :=
  bits_setBits_apart v 32 x 0 32 (by omega) (by omega) (Or.inl (by omega))

@[simp] theorem State.gpr_setGprLow_same (s : State) (r : Reg) (v : Word) :
    (s.setGprLow r v).gpr r = setBits (s.gpr r) 32 v := by simp [State.setGprLow]

theorem State.gpr_setGprLow_other (s : State) {r q : Reg} (v : Word) (h : q ≠ r) :
    (s.setGprLow r v).gpr q = s.gpr q := State.gpr_setGpr_other s _ h

/-! ## PSW fields -/

theorem bit_setBits_outside {w n : Nat} (p : BitVec w) (a : Nat) (x : BitVec n) (i : Nat) (h : a + n ≤ w) (hi : i < w)
    (hd : ¬(a ≤ i ∧ i < a + n)) : bit (setBits p a x) i = bit p i :=
  bit_setBits_apart p a x i h hi (by omega)

@[simp] theorem State.ia_withPsw (s : State) (p : Quad) : (s.withPsw p).ia = pswAddress p := rfl
@[simp] theorem State.amode_withPsw (s : State) (p : Quad) : (s.withPsw p).amode = pswMode p := rfl
@[simp] theorem State.dat_withPsw (s : State) (p : Quad) : (s.withPsw p).dat = bit p 5 := rfl
@[simp] theorem State.problem_withPsw (s : State) (p : Quad) : (s.withPsw p).problem = bit p 15 := rfl
@[simp] theorem State.cc_withPsw (s : State) (p : Quad) : (s.withPsw p).cc = bits p 18 2 := rfl

@[simp] theorem pswAddress_pswWithAddress (p : Quad) (a : DWord) : pswAddress (pswWithAddress p a) = a :=
  bits_setBits_same p 64 a (by omega)

theorem pswMode_eq {p q : Quad} (h : bits p 31 2 = bits q 31 2) : pswMode p = pswMode q := by
  have e : ∀ (v : Quad) (i : Nat), i < 2 → (bits v 31 2).getMsbD i = v.getMsbD (31 + i) := by
    intro v i hi
    rw [getMsbD_bits v 31 2 i (by omega)]
    simp [hi]
  have h31 : bit p 31 = bit q 31 := by
    have a := e p 0 (by omega)
    have b := e q 0 (by omega)
    rw [h] at a
    simpa [bit] using a.symm.trans b
  have h32 : bit p 32 = bit q 32 := by
    have a := e p 1 (by omega)
    have b := e q 1 (by omega)
    rw [h] at a
    simpa [bit] using a.symm.trans b
  unfold pswMode
  rw [h31, h32]

@[simp] theorem pswMode_pswWithAddress (p : Quad) (a : DWord) : pswMode (pswWithAddress p a) = pswMode p :=
  pswMode_eq (bits_setBits_apart p 64 a 31 2 (by omega) (by omega) (Or.inl (by omega)))

theorem bits_pswWithMode (p : Quad) (m : AMode) : bits (pswWithMode p m) 31 2 = m.code :=
  bits_setBits_same p 31 m.code (by omega)

theorem pswMode_of_bits {p : Quad} {m : AMode} (h : bits p 31 2 = m.code) : pswMode p = m := by
  have e : ∀ i : Nat, i < 2 → (bits p 31 2).getMsbD i = p.getMsbD (31 + i) := by
    intro i hi
    rw [getMsbD_bits p 31 2 i (by omega)]
    simp [hi]
  have e0 := e 0 (by omega)
  have e1 := e 1 (by omega)
  rw [h] at e0 e1
  unfold pswMode bit
  cases m
  · rw [← e0, ← e1]; rfl
  · rw [← e0, ← e1]; rfl
  · rw [← e0]; rfl

@[simp] theorem pswMode_pswWithMode (p : Quad) (m : AMode) : pswMode (pswWithMode p m) = m :=
  pswMode_of_bits (bits_pswWithMode p m)

@[simp] theorem pswAddress_pswWithMode (p : Quad) (m : AMode) : pswAddress (pswWithMode p m) = pswAddress p :=
  bits_setBits_apart p 31 m.code 64 64 (by omega) (by omega) (Or.inr (by omega))

@[simp] theorem State.cc_setCc (s : State) (c : BitVec 2) : (s.setCc c).cc = c :=
  bits_setBits_same s.psw 18 c (by omega)

@[simp] theorem State.ia_setCc (s : State) (c : BitVec 2) : (s.setCc c).ia = s.ia :=
  bits_setBits_apart s.psw 18 c 64 64 (by omega) (by omega) (Or.inr (by omega))

@[simp] theorem State.amode_setCc (s : State) (c : BitVec 2) : (s.setCc c).amode = s.amode :=
  pswMode_eq (bits_setBits_apart s.psw 18 c 31 2 (by omega) (by omega) (Or.inr (by omega)))

@[simp] theorem State.problem_setCc (s : State) (c : BitVec 2) : (s.setCc c).problem = s.problem :=
  bit_setBits_outside s.psw 18 c 15 (by omega) (by omega) (by omega)

@[simp] theorem State.problem_withIa (s : State) (a : DWord) : (s.withIa a).problem = s.problem :=
  bit_setBits_outside s.psw 64 a 15 (by omega) (by omega) (by omega)

@[simp] theorem State.amode_withIa (s : State) (a : DWord) : (s.withIa a).amode = s.amode :=
  pswMode_pswWithAddress s.psw a

@[simp] theorem State.ia_withIa (s : State) (a : DWord) : (s.withIa a).ia = a := pswAddress_pswWithAddress s.psw a

end Sys2Proof.Machine
end

