-- ==== Sys2Proof/Laws/Psw.lean ====
section
/-! SUPPORT. Addressing modes as numbers, and which updates keep a PSW valid. -/

namespace Sys2Proof.Machine

open Sys2Proof

theorem trunc24_toNat (v : DWord) : (AMode.a24.trunc v).toNat = v.toNat % 2 ^ 24 := by
  rw [AMode.trunc, BitVec.toNat_and]
  exact Nat.and_two_pow_sub_one_eq_mod v.toNat 24

theorem trunc31_toNat (v : DWord) : (AMode.a31.trunc v).toNat = v.toNat % 2 ^ 31 := by
  rw [AMode.trunc, BitVec.toNat_and]
  exact Nat.and_two_pow_sub_one_eq_mod v.toNat 31

@[simp] theorem trunc64 (v : DWord) : AMode.a64.trunc v = v := rfl

/-- Truncating twice is truncating once. -/
@[simp] theorem trunc_trunc (m : AMode) (v : DWord) : m.trunc (m.trunc v) = m.trunc v := by
  cases m
  · apply BitVec.eq_of_toNat_eq; rw [trunc24_toNat, trunc24_toNat]; omega
  · apply BitVec.eq_of_toNat_eq; rw [trunc31_toNat, trunc31_toNat]; omega
  · rfl

theorem fits_iff (m : AMode) (a : DWord) : m.fits a = true ↔ m.trunc a = a := by simp [AMode.fits]

@[simp] theorem fits_trunc (m : AMode) (v : DWord) : m.fits (m.trunc v) = true := by simp [AMode.fits]

theorem fits24_iff (a : DWord) : AMode.a24.fits a = true ↔ a.toNat < 2 ^ 24 := by
  rw [fits_iff, ← BitVec.toNat_inj, trunc24_toNat]
  constructor
  · intro h; omega
  · intro h; omega

theorem fits31_iff (a : DWord) : AMode.a31.fits a = true ↔ a.toNat < 2 ^ 31 := by
  rw [fits_iff, ← BitVec.toNat_inj, trunc31_toNat]
  constructor
  · intro h; omega
  · intro h; omega

@[simp] theorem fits64 (a : DWord) : AMode.a64.fits a = true := by simp [AMode.fits]

/-- The parts of a PSW that validity looks at. -/
theorem pswValid_iff (p : Quad) :
    pswValid p = true ↔ bits p 0 1 = 0#1 ∧ bits p 2 3 = 0#3 ∧ bits p 12 1 = 0#1 ∧ bits p 24 7 = 0#7
      ∧ bits p 33 31 = 0#31 ∧ bits p 31 2 ≠ 0b10#2 ∧ (pswMode p).fits (pswAddress p) = true := by
  unfold pswValid
  simp [and_assoc]

/-- A PSW with another address that fits its mode is valid. -/
theorem pswValid_withAddress {p : Quad} {a : DWord} (h : pswValid p = true) (ha : (pswMode p).fits a = true) :
    pswValid (pswWithAddress p a) = true := by
  rw [pswValid_iff] at h ⊢
  obtain ⟨h1, h2, h3, h4, h5, h6, _⟩ := h
  have e : ∀ b m, b + m ≤ 64 → bits (pswWithAddress p a) b m = bits p b m := fun b m hb =>
    bits_setBits_apart p 64 a b m (by omega) (by omega) (Or.inl hb)
  simp (disch := omega) only [e]
  exact ⟨h1, h2, h3, h4, h5, h6, by simpa using ha⟩

/-- A PSW with another mode that its address fits is valid. -/
theorem pswValid_withMode {p : Quad} {m : AMode} (h : pswValid p = true) (ha : m.fits (pswAddress p) = true) :
    pswValid (pswWithMode p m) = true := by
  rw [pswValid_iff] at h ⊢
  obtain ⟨h1, h2, h3, h4, h5, _, _⟩ := h
  have e : ∀ b k, b + k ≤ 31 ∨ 33 ≤ b → b + k ≤ 128 → bits (pswWithMode p m) b k = bits p b k := fun b k hb hk =>
    bits_setBits_apart p 31 m.code b k (by omega) hk (by omega)
  simp (disch := omega) only [e, bits_pswWithMode]
  refine ⟨h1, h2, h3, h4, h5, ?_, by simpa using ha⟩
  cases m <;> decide

/-- Bits 1, 5-11, 13-23 take no part in validity. -/
theorem pswValid_setBits {p : Quad} {a n : Nat} {x : BitVec n}
    (hf : (a = 1 ∧ n = 1) ∨ (5 ≤ a ∧ a + n ≤ 12) ∨ (13 ≤ a ∧ a + n ≤ 24)) :
    pswValid (setBits p a x) = pswValid p := by
  have e : ∀ b m, b + m ≤ a ∨ a + n ≤ b → b + m ≤ 128 → bits (setBits p a x) b m = bits p b m := fun b m hb hm =>
    bits_setBits_apart p a x b m (by omega) hm hb
  have hmode : pswMode (setBits p a x) = pswMode p := pswMode_eq (e 31 2 (by omega) (by omega))
  have haddr : pswAddress (setBits p a x) = pswAddress p := e 64 64 (by omega) (by omega)
  unfold pswValid
  simp (disch := omega) only [hmode, haddr, e]

/-! ## The short format -/

theorem bits_expand_left (v : DWord) (a n : Nat) (h : a + n ≤ 12) : bits (expand v) a n = bits v a n := by
  unfold expand
  rw [bits_append_left _ _ _ _ (by omega), bits_append_left _ _ _ _ (by omega), bits_append_left _ _ _ _ (by omega),
    bits_append_left _ _ _ _ (by omega), bits_bits _ _ _ _ _ (by omega) (by omega), Nat.zero_add]

theorem bits_expand_middle (v : DWord) (a n : Nat) (h : 13 ≤ a) (h' : a + n ≤ 33) :
    bits (expand v) a n = bits v a n := by
  unfold expand
  rw [bits_append_left _ _ _ _ (by omega), bits_append_left _ _ _ _ (by omega),
    bits_append_right _ _ _ _ (by omega) (by omega), bits_bits _ _ _ _ _ (by omega) (by omega)]
  congr 1
  omega

theorem bits_expand_12 (v : DWord) : bits (expand v) 12 1 = 0#1 := by
  unfold expand
  rw [bits_append_left _ _ _ _ (by omega), bits_append_left _ _ _ _ (by omega), bits_append_left _ _ _ _ (by omega),
    bits_append_right _ _ _ _ (by omega) (by omega)]
  rfl

theorem bits_expand_zeros (v : DWord) (a n : Nat) (h : 33 ≤ a) (h' : a + n ≤ 97) : bits (expand v) a n = 0#n := by
  unfold expand
  rw [bits_append_left _ _ _ _ (by omega), bits_append_right _ _ _ _ (by omega) (by omega)]
  simp [bits]

theorem bits_expand_address (v : DWord) : bits (expand v) 97 31 = bits v 33 31 := by
  unfold expand
  rw [bits_append_right _ _ _ _ (by omega) (by omega)]
  exact bits_all _

theorem bits_shorten_left (p : Quad) (a n : Nat) (h : a + n ≤ 12) : bits (shorten p) a n = bits p a n := by
  unfold shorten
  rw [bits_append_left _ _ _ _ (by omega), bits_append_left _ _ _ _ (by omega), bits_append_left _ _ _ _ (by omega),
    bits_bits _ _ _ _ _ (by omega) (by omega), Nat.zero_add]

theorem bits_shorten_middle (p : Quad) (a n : Nat) (h : 13 ≤ a) (h' : a + n ≤ 33) :
    bits (shorten p) a n = bits p a n := by
  unfold shorten
  rw [bits_append_left _ _ _ _ (by omega), bits_append_right _ _ _ _ (by omega) (by omega),
    bits_bits _ _ _ _ _ (by omega) (by omega)]
  congr 1
  omega

theorem bits_shorten_12 (p : Quad) : bits (shorten p) 12 1 = 1#1 := by
  unfold shorten
  rw [bits_append_left _ _ _ _ (by omega), bits_append_left _ _ _ _ (by omega),
    bits_append_right _ _ _ _ (by omega) (by omega)]
  rfl

theorem bits_shorten_address (p : Quad) : bits (shorten p) 33 31 = bits p 97 31 := by
  unfold shorten
  rw [bits_append_right _ _ _ _ (by omega) (by omega)]
  exact bits_all _

end Sys2Proof.Machine
end

