-- ==== Sys2Proof/Laws/Memory.lean ====
section
/-! SUPPORT. Laws of storage: a read after a write, the canonical form, the record of stores. -/

namespace Sys2Proof.Machine

open Sys2Proof

/-- A write keeps the canonical form. -/
theorem writeByte_listedFrom {lo : Nat} {m : Memory} (h : listedFrom lo m = true) {a : Nat} (v : Byte) (ha : lo ≤ a) :
    listedFrom lo (writeByte m a v) = true := by
  induction m generalizing lo with
  | nil => simpa [writeByte, listedFrom] using ha
  | cons c m ih =>
    simp only [listedFrom, Bool.and_eq_true, decide_eq_true_eq] at h
    simp only [writeByte]
    split
    · simpa [listedFrom, ha, h.2] using by omega
    · split
      · next heq => subst heq; simpa [listedFrom, ha] using h.2
      · simpa [listedFrom, h.1] using ih h.2 (by omega)

theorem writeByte_wf {m : Memory} (h : Memory.wf m = true) (a : Nat) (v : Byte) : Memory.wf (writeByte m a v) = true :=
  writeByte_listedFrom h v (Nat.zero_le a)

/-- Every store keeps the canonical form of storage. -/
theorem writeBytes_wf {m : Memory} (h : Memory.wf m = true) (a : Nat) (bs : List Byte) :
    Memory.wf (writeBytes m a bs) = true := by
  induction bs generalizing m a with
  | nil => exact h
  | cons b bs ih => exact ih (writeByte_wf h a b) (a + 1)

/-- What a byte reads as after a write: the byte written, or what it read as before. -/
theorem readByte_writeByte (m : Memory) (a x : Nat) (v : Byte) :
    readByte (writeByte m a v) x = if a = x then v else readByte m x := by
  induction m with
  | nil => rfl
  | cons c m ih =>
    simp only [writeByte]
    split
    · rfl
    · split
      · next heq => subst heq; simp only [readByte]; split; rfl; rfl
      · simp only [readByte, ih]
        by_cases hx : c.1 = x
        · simp only [hx, if_true]; split
          · next heq => omega
          · rfl
        · simp only [hx, if_false]

/-- A write leaves every other address alone. -/
theorem readByte_writeByte_other (m : Memory) {a x : Nat} (v : Byte) (h : a ≠ x) :
    readByte (writeByte m a v) x = readByte m x := by rw [readByte_writeByte, if_neg h]

/-- A read after a write to the same address gives the value written. -/
theorem readByte_writeByte_same (m : Memory) (a : Nat) (v : Byte) : readByte (writeByte m a v) a = v := by
  rw [readByte_writeByte, if_pos rfl]

/-- A store leaves every byte outside the stored ones alone. -/
theorem readByte_writeBytes_outside (m : Memory) (a : Nat) (bs : List Byte) {x : Nat}
    (h : x < a ∨ a + bs.length ≤ x) : readByte (writeBytes m a bs) x = readByte m x := by
  induction bs generalizing m a with
  | nil => rfl
  | cons b bs ih =>
    simp only [List.length_cons] at h
    have hne : a ≠ x := by omega
    rw [writeBytes, ih _ _ (by omega), readByte_writeByte_other m b hne]

/-- The bytes fetched lie at consecutive addresses. -/
theorem readBytes_length (m : Memory) (a n : Nat) : (readBytes m a n).length = n := by
  induction n generalizing a with
  | zero => rfl
  | succ n ih => simp [readBytes, ih]

/-- What is read depends on the bytes read only. -/
theorem readBytes_congr {m m' : Memory} {a n : Nat} (h : ∀ x, a ≤ x → x < a + n → readByte m x = readByte m' x) :
    readBytes m a n = readBytes m' a n := by
  induction n generalizing a with
  | zero => rfl
  | succ n ih =>
    simp only [readBytes]
    rw [h a (by omega) (by omega), ih (fun x h1 h2 => h x (by omega) (by omega))]

/-- A read after a store to the same bytes gives the bytes stored. -/
theorem readBytes_writeBytes_same (m : Memory) (a : Nat) (bs : List Byte) :
    readBytes (writeBytes m a bs) a bs.length = bs := by
  induction bs generalizing m a with
  | nil => rfl
  | cons b bs ih =>
    simp only [List.length_cons, readBytes, writeBytes]
    rw [ih, readByte_writeBytes_outside _ _ _ (Or.inl (Nat.lt_succ_self a)), readByte_writeByte_same]

/-- A store leaves what is read from bytes apart from it alone. -/
theorem readBytes_writeBytes_apart (m : Memory) (a : Nat) (bs : List Byte) {b n : Nat}
    (h : b + n ≤ a ∨ a + bs.length ≤ b) : readBytes (writeBytes m a bs) b n = readBytes m b n :=
  readBytes_congr fun x h1 h2 => readByte_writeBytes_outside m a bs (by omega)

/-- Reading in two parts. -/
theorem readBytes_add (m : Memory) (a n k : Nat) :
    readBytes m a (n + k) = readBytes m a n ++ readBytes m (a + n) k := by
  induction n generalizing a with
  | zero => simp [readBytes]
  | succ n ih =>
    have e : a + 1 + n = a + (n + 1) := by omega
    rw [show n + 1 + k = (n + k) + 1 by omega]
    simp [readBytes, ih, e]

/-- Storing in two parts. -/
theorem writeBytes_append (m : Memory) (a : Nat) (bs cs : List Byte) :
    writeBytes m a (bs ++ cs) = writeBytes (writeBytes m a bs) (a + bs.length) cs := by
  induction bs generalizing m a with
  | nil => rfl
  | cons b bs ih =>
    have e : a + 1 + bs.length = a + (bs.length + 1) := by omega
    simp [writeBytes, ih, e]

/-- The byte number k of what has been read. -/
theorem readBytes_getElem? (m : Memory) (a n k : Nat) (h : k < n) : (readBytes m a n)[k]? = some (readByte m (a + k)) := by
  induction n generalizing a k with
  | zero => omega
  | succ n ih =>
    cases k with
    | zero => rfl
    | succ k =>
      have e : a + 1 + k = a + (k + 1) := by omega
      simp [readBytes, ih (a + 1) k (by omega), e]

/-- The places on record after a store: those before it and those stored into. -/
theorem mem_addPlaces {a n x : Nat} {l : List Nat} : x ∈ addPlaces a n l ↔ x ∈ l ∨ (a ≤ x ∧ x < a + n) := by
  simp only [addPlaces, List.mem_append, List.mem_filter, List.mem_range'_1, decide_eq_true_eq]
  by_cases h : x ∈ l
  · simp only [h, true_and, true_or, iff_true]; omega
  · simp only [h, false_and, false_or, or_false]

end Sys2Proof.Machine
end

