-- ==== Sys2Proof/Laws/Frames.lean ====
section
/-! SUPPORT. What each update may change, as frames; frames compose. -/

namespace Sys2Proof.Machine

open Sys2Proof

theorem RecordsWithin.refl (rs : List (Nat × Nat)) (l : List Nat) : RecordsWithin rs l l := fun _ => ⟨id, .inl⟩

theorem RecordsWithin.trans {rs : List (Nat × Nat)} {l l' l'' : List Nat} (h : RecordsWithin rs l l')
    (k : RecordsWithin rs l' l'') : RecordsWithin rs l l'' :=
  fun a => ⟨fun x => (k a).1 ((h a).1 x), fun x => ((k a).2 x).elim (h a).2 .inr⟩

theorem Writes.Only.refl (w : Writes) (s : State) : w.Only s s where
  gpr _ _ := rfl
  ar _ _ := rfl
  cr _ _ := rfl
  psw _ _ _ := rfl
  mem _ _ := rfl
  pfx _ := rfl
  stack _ := rfl
  trap _ := rfl
  pending _ := rfl
  archMode := rfl
  cpuStatus := rfl
  otherCpus := rfl
  entryTable := rfl
  params := rfl
  stored := .refl w.mem s.stored

theorem Writes.Only.trans {w : Writes} {s t u : State} (h : w.Only s t) (k : w.Only t u) : w.Only s u where
  gpr r hr := (k.gpr r hr).trans (h.gpr r hr)
  ar r hr := (k.ar r hr).trans (h.ar r hr)
  cr r hr := (k.cr r hr).trans (h.cr r hr)
  psw i hi hr := (k.psw i hi hr).trans (h.psw i hi hr)
  mem a ha := (k.mem a ha).trans (h.mem a ha)
  pfx x := (k.pfx x).trans (h.pfx x)
  stack x := (k.stack x).trans (h.stack x)
  trap x := (k.trap x).trans (h.trap x)
  pending x := (k.pending x).trans (h.pending x)
  archMode := k.archMode.trans h.archMode
  cpuStatus := k.cpuStatus.trans h.cpuStatus
  otherCpus := k.otherCpus.trans h.otherCpus
  entryTable := k.entryTable.trans h.entryTable
  params := k.params.trans h.params
  stored := h.stored.trans k.stored

theorem inRanges_of_mem {rs : List (Nat × Nat)} {r : Nat × Nat} {x : Nat} (h : r ∈ rs) (h1 : r.1 ≤ x)
    (h2 : x < r.1 + r.2) : inRanges rs x := ⟨r, h, h1, h2⟩

theorem inRanges_subset {rs ss : List (Nat × Nat)} (h : ∀ r ∈ rs, r ∈ ss) {x : Nat} (k : inRanges rs x) :
    inRanges ss x := by
  obtain ⟨r, hr, h1, h2⟩ := k
  exact ⟨r, h r hr, h1, h2⟩

theorem RecordsWithin.mono {rs ss : List (Nat × Nat)} {l l' : List Nat} (h : RecordsWithin rs l l')
    (k : ∀ r ∈ rs, r ∈ ss) : RecordsWithin ss l l' :=
  fun a => ⟨(h a).1, fun x => ((h a).2 x).imp_right (inRanges_subset k)⟩

theorem eq_false_of_imp {b c : Bool} (h : b = true → c = true) (k : c = false) : b = false := by
  cases b
  · rfl
  · exact (h rfl).symm.trans k

/-- A wider frame. -/
theorem Writes.Only.mono {w v : Writes} {s t : State} (h : w.Only s t) (hg : ∀ r ∈ w.gprs, r ∈ v.gprs)
    (ha : ∀ r ∈ w.ars, r ∈ v.ars) (hc : ∀ r ∈ w.crs, r ∈ v.crs) (hp : ∀ r ∈ w.psw, r ∈ v.psw)
    (hm : ∀ r ∈ w.mem, r ∈ v.mem) (hx : w.pfx = true → v.pfx = true) (hs : w.stack = true → v.stack = true)
    (ht : w.trap = true → v.trap = true) (hq : w.pending = true → v.pending = true) : v.Only s t where
  gpr r hr := h.gpr r fun k => hr (hg r k)
  ar r hr := h.ar r fun k => hr (ha r k)
  cr r hr := h.cr r fun k => hr (hc r k)
  psw i hi hr := h.psw i hi fun k => hr (inRanges_subset hp k)
  mem a hr := h.mem a fun k => hr (inRanges_subset hm k)
  pfx x := h.pfx (eq_false_of_imp hx x)
  stack x := h.stack (eq_false_of_imp hs x)
  trap x := h.trap (eq_false_of_imp ht x)
  pending x := h.pending (eq_false_of_imp hq x)
  archMode := h.archMode
  cpuStatus := h.cpuStatus
  otherCpus := h.otherCpus
  entryTable := h.entryTable
  params := h.params
  stored := h.stored.mono hm

/-! ## Each update -/

theorem only_setGpr {w : Writes} {r : Reg} (h : r ∈ w.gprs) (s : State) (v : DWord) : w.Only s (s.setGpr r v) :=
  { Writes.Only.refl w s with gpr := fun _ hq => s.gpr_setGpr_other v fun e => hq (e ▸ h) }

theorem only_setGprLow {w : Writes} {r : Reg} (h : r ∈ w.gprs) (s : State) (v : Word) :
    w.Only s (s.setGprLow r v) := only_setGpr h s _

theorem only_setAr {w : Writes} {r : Reg} (h : r ∈ w.ars) (s : State) (v : Word) : w.Only s (s.setAr r v) :=
  { Writes.Only.refl w s with ar := fun _ hq => s.ar_setAr_other v fun e => hq (e ▸ h) }

theorem only_setCr {w : Writes} {r : Reg} (h : r ∈ w.crs) (s : State) (v : DWord) : w.Only s (s.setCr r v) :=
  { Writes.Only.refl w s with cr := fun _ hq => s.cr_setCr_other v fun e => hq (e ▸ h) }

theorem only_drawn (w : Writes) (s : State) : w.Only s s.drawn := { Writes.Only.refl w s with }

theorem only_withPsw {w : Writes} (s : State) (p : Quad)
    (h : ∀ i, i < 128 → ¬inRanges w.psw i → bit p i = bit s.psw i) : w.Only s (s.withPsw p) :=
  { Writes.Only.refl w s with psw := h }

theorem only_setPswField {w : Writes} (s : State) (a n : Nat) (x : BitVec n) (h : a + n ≤ 128) (hm : (a, n) ∈ w.psw) :
    w.Only s (s.withPsw (setBits s.psw a x)) := by
  refine only_withPsw s _ fun i hi hr => bit_setBits_outside s.psw a x i h hi fun k => hr ?_
  exact inRanges_of_mem hm k.1 k.2

theorem only_setCc {w : Writes} (h : ccBits ∈ w.psw) (s : State) (c : BitVec 2) : w.Only s (s.setCc c) :=
  only_setPswField s 18 2 c (by omega) h

theorem only_withIa {w : Writes} (h : iaBits ∈ w.psw) (s : State) (a : DWord) : w.Only s (s.withIa a) :=
  only_setPswField s 64 64 a (by omega) h

theorem only_withMode {w : Writes} (h : modeBits ∈ w.psw) (s : State) (m : AMode) :
    w.Only s (s.withPsw (pswWithMode s.psw m)) := only_setPswField s 31 2 m.code (by omega) h

/-- A store changes the bytes stored to and puts their places on record. -/
theorem only_storeAbsolute {w : Writes} {a : Nat} {bs : List Byte} (h : (a, bs.length) ∈ w.mem) (s : State) :
    w.Only s (s.storeAbsolute a bs) :=
  { Writes.Only.refl w s with
    mem := fun x hx => by
      refine readByte_writeBytes_outside s.mem a bs ?_
      by_contra k
      exact hx (inRanges_of_mem h (show a ≤ x by omega) (show x < a + bs.length by omega))
    stored := fun _ => ⟨fun k => mem_addPlaces.2 (.inl k), fun k =>
      (mem_addPlaces.1 k).imp_right fun r => inRanges_of_mem h r.1 r.2⟩ }

/-- Bits of a PSW in two overlapping updates. -/
theorem bit_pswWithAddress_outside (p : Quad) (a : DWord) {i : Nat} (h : i < 64) :
    bit (pswWithAddress p a) i = bit p i := bit_setBits_outside p 64 a i (by omega) (by omega) (by omega)

theorem bit_pswWithMode_outside (p : Quad) (m : AMode) {i : Nat} (hi : i < 128) (h : i < 31 ∨ 33 ≤ i) :
    bit (pswWithMode p m) i = bit p i := bit_setBits_outside p 31 m.code i (by omega) hi (by omega)

end Sys2Proof.Machine
end

