-- ==== Sys2Proof/Laws/Prefix.lean ====
section
/-! SUPPORT. Where the prefix area lies, and the assigned locations in it. -/

namespace Sys2Proof.Machine

open Sys2Proof

theorem prefixMask_bits : ∀ i, i < 64 → (0x000000007FFFE000#64).getLsbD i = decide (13 ≤ i ∧ i < 31) := by decide

theorem blockMask_bits : ∀ i, i < 64 → (0x0000000000001FFF#64).getLsbD i = decide (i < 13) := by decide

theorem getLsbD_prefixArea (p : DWord) (i : Nat) :
    (prefixArea p).getLsbD i = (decide (13 ≤ i ∧ i < 31) && p.getLsbD i) := by
  by_cases hi : i < 64
  · rw [prefixArea, BitVec.getLsbD_and, prefixMask_bits i hi, Bool.and_comm]
  · have h1 : ¬(13 ≤ i ∧ i < 31) := by omega
    rw [BitVec.getLsbD_of_ge _ _ (by omega)]
    simp [h1]

/-- The prefix area's address as a number: a multiple of 8192 below 2^31. -/
theorem prefixArea_toNat (p : DWord) : (prefixArea p).toNat = p.toNat / 8192 % 2 ^ 18 * 8192 := by
  have h : prefixArea p = (BitVec.extractLsb' 13 18 p).setWidth 64 <<< 13 := by
    apply BitVec.eq_of_getLsbD_eq
    intro i hi
    rw [getLsbD_prefixArea, BitVec.getLsbD_shiftLeft, BitVec.getLsbD_setWidth, BitVec.getLsbD_extractLsb']
    by_cases h1 : 13 ≤ i
    · have e : 13 + (i - 13) = i := by omega
      by_cases h2 : i < 31
      · have h3 : i - 13 < 18 := by omega
        have h4 : ¬ i < 13 := by omega
        have h5 : i - 13 < 64 := by omega
        simp [h1, h2, h3, h4, h5, hi, e]
      · have h3 : ¬ i - 13 < 18 := by omega
        simp [h1, h2, h3]
    · have h2 : i < 13 := by omega
      simp [h1, h2]
  rw [h, BitVec.toNat_shiftLeft, BitVec.toNat_setWidth, BitVec.extractLsb'_toNat, Nat.shiftRight_eq_div_pow,
    Nat.shiftLeft_eq]
  omega

theorem prefixArea_aligned (p : DWord) : (prefixArea p).toNat % 8192 = 0 := by
  rw [prefixArea_toNat]; omega

theorem prefixArea_lt (p : DWord) : (prefixArea p).toNat < 2 ^ 31 := by
  rw [prefixArea_toNat]; omega

theorem prefixArea_idem (p : DWord) : prefixArea (prefixArea p) = prefixArea p := by
  apply BitVec.eq_of_getLsbD_eq
  intro i _
  simp only [getLsbD_prefixArea]
  cases decide (13 ≤ i ∧ i < 31) <;> simp

/-- Real 0-8191 lies in the prefix area. -/
theorem toAbsolute_low {s : State} (hz : s.archMode = .zArch) {r : DWord} (h : r.toNat < 8192) :
    (s.toAbsolute r).toNat = (prefixArea s.pfx).toNat + r.toNat := by
  have hr : ∀ i, 13 ≤ i → r.getLsbD i = false := fun i hi =>
    Nat.testBit_eq_false_of_lt (Nat.lt_of_lt_of_le h (show 2 ^ 13 ≤ 2 ^ i from Nat.pow_le_pow_right (by decide) hi))
  have hmask : r &&& 0x0000000000001FFF#64 = r := by
    apply BitVec.eq_of_getLsbD_eq
    intro i hi
    rw [BitVec.getLsbD_and, blockMask_bits i hi]
    by_cases h1 : i < 13
    · simp [h1]
    · rw [hr i (by omega)]; rfl
  have hzero : r &&& ~~~0x0000000000001FFF#64 = 0#64 := by
    apply BitVec.eq_of_getLsbD_eq
    intro i hi
    rw [BitVec.getLsbD_and, BitVec.getLsbD_not, blockMask_bits i hi]
    by_cases h1 : i < 13
    · simp [h1]
    · rw [hr i (by omega)]; simp
  have hand : prefixArea s.pfx &&& r = 0#64 := by
    apply BitVec.eq_of_getLsbD_eq
    intro i hi
    rw [BitVec.getLsbD_and, getLsbD_prefixArea]
    by_cases h1 : 13 ≤ i
    · rw [hr i h1]; simp
    · simp [h1]
  unfold State.toAbsolute
  rw [hz]
  simp only [swapBlock, hzero, if_true, hmask]
  rw [← BitVec.add_eq_or_of_and_eq_zero _ _ hand, BitVec.toNat_add]
  have := prefixArea_lt s.pfx
  omega

end Sys2Proof.Machine
end

