-- ==== Sys2Proof/Laws/Interruptions.lean ====
section
/-! SUPPORT. Everything a program interruption can do. -/

namespace Sys2Proof.Machine

open Sys2Proof

/-- The absolute address of an assigned location. -/
def State.assigned (s : State) (k : Nat) : Nat := (prefixArea s.pfx).toNat + k

theorem toAbsolute_assigned {s : State} (hz : s.archMode = .zArch) (r : DWord) (h : r.toNat < 8192) :
    (s.toAbsolute r).toNat = s.assigned r.toNat := toAbsolute_low hz h

/-- Prefixing depends on the architectural mode and the prefix register only. -/
theorem toAbsolute_congr {s t : State} (h : t.archMode = s.archMode) (h' : t.pfx = s.pfx) (r : DWord) :
    t.toAbsolute r = s.toAbsolute r := by
  unfold State.toAbsolute
  rw [h, h']

@[simp] theorem State.toAbsolute_setGpr (s : State) (r : Reg) (v : DWord) (q : DWord) :
    (s.setGpr r v).toAbsolute q = s.toAbsolute q := rfl
@[simp] theorem State.toAbsolute_setAr (s : State) (r : Reg) (v : Word) (q : DWord) :
    (s.setAr r v).toAbsolute q = s.toAbsolute q := rfl
@[simp] theorem State.toAbsolute_setCr (s : State) (r : Reg) (v : DWord) (q : DWord) :
    (s.setCr r v).toAbsolute q = s.toAbsolute q := rfl
@[simp] theorem State.toAbsolute_setCc (s : State) (c : BitVec 2) (q : DWord) :
    (s.setCc c).toAbsolute q = s.toAbsolute q := rfl
@[simp] theorem State.toAbsolute_withIa (s : State) (a : DWord) (q : DWord) :
    (s.withIa a).toAbsolute q = s.toAbsolute q := rfl
@[simp] theorem State.toAbsolute_withMem (s : State) (m : Memory) (q : DWord) :
    (s.withMem m).toAbsolute q = s.toAbsolute q := rfl
@[simp] theorem State.toAbsolute_storeAbsolute (s : State) (a : Nat) (bs : List Byte) (q : DWord) :
    (s.storeAbsolute a bs).toAbsolute q = s.toAbsolute q := rfl
@[simp] theorem State.toAbsolute_storeAssigned (s : State) (r : DWord) (bs : List Byte) (q : DWord) :
    (s.storeAssigned r bs).toAbsolute q = s.toAbsolute q := rfl
@[simp] theorem State.toAbsolute_drawn (s : State) (q : DWord) : s.drawn.toAbsolute q = s.toAbsolute q := rfl
@[simp] theorem State.toAbsolute_pending (s : State) (l : List PendingInterruption) (q : DWord) :
    State.toAbsolute { s with pending := l } q = s.toAbsolute q := rfl

theorem State.storeAssigned_mem (s : State) (r : DWord) (bs : List Byte) :
    (s.storeAssigned r bs).mem = writeBytes s.mem (s.toAbsolute r).toNat bs := rfl

/-- Everything the interruption of a class can answer with a next state. -/
theorem interrupt_next {s t : State} {c : InterruptClass} {old : Quad} {info : State → State}
    (h : s.interrupt c old info = .next t) :
    s.archMode = .zArch ∧ s.prefixAreaPresent = true ∧ ∃ p, s.newPswOf c = .ok p ∧ pswValid p = true
      ∧ t = ((info s).storeAssigned c.oldPsw (toBytes 16 old.toNat)).withPsw p := by
  unfold State.interrupt at h
  split at h
  · cases h
  · next hz =>
    split at h
    · next hp =>
      split at h
      · next p hn =>
        split at h
        · next hv => exact ⟨hz, hp, p, hn, hv, (Host.Outcome.next.inj h).symm⟩
        · cases h
      all_goals cases h
    · cases h

/-- An interruption that nothing hinders. -/
theorem interrupt_eq {s : State} {c : InterruptClass} {p : Quad} (old : Quad) (info : State → State)
    (hz : s.archMode = .zArch) (hp : s.prefixAreaPresent = true) (hn : s.newPswOf c = .ok p)
    (hv : pswValid p = true) :
    s.interrupt c old info = .next (((info s).storeAssigned c.oldPsw (toBytes 16 old.toNat)).withPsw p) := by
  unfold State.interrupt
  rw [hz]
  simp only [hp, if_true, hn, hv]

/-! ## The stores -/

/-- Storage after the interruption information of a program exception (60_exceptions.md rule R327). -/
def State.informationMem (s : State) (e : ProgException) (ilc : BitVec 2) : Memory :=
  let m1 := writeBytes s.mem (s.toAbsolute 140#64).toNat (identificationBytes ilc e.code)
  let m2 :=
    match e.failing with
    | some (va, sp) =>
      writeBytes m1 (s.toAbsolute 168#64).toNat (toBytes 8 (translationIdentification s.draws va sp).toNat)
    | none => m1
  match e.monitor with
  | some (number, code) =>
    writeBytes (writeBytes m2 (s.toAbsolute 148#64).toNat [0#8, 0#4 ++ number]) (s.toAbsolute 176#64).toNat
      (toBytes 8 code.toNat)
  | none => m2

/-- The machine with other storage, another record of stores and another counter of free values. -/
def State.withMemDraws (s : State) (m : Memory) (l : List Nat) (n : Nat) : State :=
  { s with mem := m, stored := l, draws := n }

theorem State.storeAssigned_eq (s : State) (m : Memory) (l : List Nat) (n : Nat) (r : DWord) (bs : List Byte) :
    (s.withMemDraws m l n).storeAssigned r bs
      = s.withMemDraws (writeBytes m (s.toAbsolute r).toNat bs) (addPlaces (s.toAbsolute r).toNat bs.length l) n := rfl

theorem State.drawn_eq (s : State) (m : Memory) (l : List Nat) (n : Nat) :
    (s.withMemDraws m l n).drawn = s.withMemDraws m l (n + 1) := rfl

theorem State.toAbsolute_withMemDraws (s : State) (m : Memory) (l : List Nat) (n : Nat) (r : DWord) :
    (s.withMemDraws m l n).toAbsolute r = s.toAbsolute r := rfl

@[simp] theorem State.toAbsolute_withPsw (s : State) (p : Quad) (r : DWord) : (s.withPsw p).toAbsolute r = s.toAbsolute r :=
  rfl

theorem State.pswAt_eq (s : State) (r : DWord) :
    s.pswAt r = BitVec.ofNat 128 (ofBytes (readBytes s.mem (s.toAbsolute r).toNat 16)) := rfl

/-- The information stored changes storage, its record and the counter of free values only. -/
theorem storeProgramInformation_eq (e : ProgException) (ilc : BitVec 2) (s : State) :
    ∃ l n, storeProgramInformation e ilc s = s.withMemDraws (s.informationMem e ilc) l n := by
  have h1 : s.storeAssigned 140#64 (identificationBytes ilc e.code)
      = s.withMemDraws (writeBytes s.mem (s.toAbsolute 140#64).toNat (identificationBytes ilc e.code))
        (addPlaces (s.toAbsolute 140#64).toNat (identificationBytes ilc e.code).length s.stored) s.draws := rfl
  have h2 : ∀ m l, (s.withMemDraws m l s.draws).draws = s.draws := fun _ _ => rfl
  unfold storeProgramInformation State.informationMem
  simp only [h1]
  cases e.failing <;> cases e.monitor <;>
    simp only [State.storeAssigned_eq, State.drawn_eq, h2] <;> exact ⟨_, _, rfl⟩

/-- The information stored changes the assigned locations of its exception only. -/
theorem only_storeProgramInformation {w : Writes} {s : State} (h : ∀ r ∈ s.interruptionStores, r ∈ w.mem)
    (e : ProgException) (ilc : BitVec 2) : w.Only s (storeProgramInformation e ilc s) := by
  have k140 : ((s.toAbsolute 140#64).toNat, 4) ∈ w.mem := h _ (by simp [State.interruptionStores])
  have k148 : ((s.toAbsolute 148#64).toNat, 2) ∈ w.mem := h _ (by simp [State.interruptionStores])
  have k168 : ((s.toAbsolute 168#64).toNat, 8) ∈ w.mem := h _ (by simp [State.interruptionStores])
  have k176 : ((s.toAbsolute 176#64).toNat, 8) ∈ w.mem := h _ (by simp [State.interruptionStores])
  have o : ∀ (t : State) (r : DWord) (bs : List Byte), ((t.toAbsolute r).toNat, bs.length) ∈ w.mem →
      w.Only t (t.storeAssigned r bs) := fun t r bs k => only_storeAbsolute k t
  have base : w.Only s (s.storeAssigned 140#64 (identificationBytes ilc e.code)) := o _ _ _ k140
  have second : ∀ t : State, t.toAbsolute 148#64 = s.toAbsolute 148#64 → t.toAbsolute 176#64 = s.toAbsolute 176#64 →
      ∀ (number : BitVec 4) (code : DWord),
      w.Only t ((t.storeAssigned 148#64 [0#8, 0#4 ++ number]).storeAssigned 176#64 (toBytes 8 code.toNat)) := by
    intro t h1 h2 number code
    refine (o t _ _ (by rw [h1]; exact k148)).trans (o _ _ _ ?_)
    rw [State.toAbsolute_storeAssigned, h2, toBytes_length]
    exact k176
  have first : ∀ (va : DWord) (sp : Space), w.Only s (((s.storeAssigned 140#64 (identificationBytes ilc e.code)).storeAssigned
      168#64 (toBytes 8 (translationIdentification s.draws va sp).toNat)).drawn) := by
    intro va sp
    refine (base.trans (o _ _ _ ?_)).trans (only_drawn w _)
    rw [State.toAbsolute_storeAssigned, toBytes_length]
    exact k168
  unfold storeProgramInformation
  cases e.failing with
  | none =>
    cases e.monitor with
    | none => exact base
    | some p => exact base.trans (second (s.storeAssigned 140#64 _) (by simp) (by simp) p.1 p.2)
  | some q =>
    cases e.monitor with
    | none => exact first q.1 q.2
    | some p => exact (first q.1 q.2).trans (second ((State.storeAssigned _ 168#64 _).drawn) (by simp) (by simp) p.1 p.2)

theorem informationMem_wf {s : State} (h : Memory.wf s.mem = true) (e : ProgException) (ilc : BitVec 2) :
    Memory.wf (s.informationMem e ilc) = true := by
  unfold State.informationMem
  have h1 := writeBytes_wf h (s.toAbsolute 140#64).toNat (identificationBytes ilc e.code)
  cases e.failing with
  | none =>
    cases e.monitor with
    | none => exact h1
    | some p => exact writeBytes_wf (writeBytes_wf h1 _ _) _ _
  | some q =>
    cases e.monitor with
    | none => exact writeBytes_wf h1 _ _
    | some p => exact writeBytes_wf (writeBytes_wf (writeBytes_wf h1 _ _) _ _) _ _

/-! ## Inversion -/

/-- The state after a program interruption. -/
def State.interrupted (s : State) (e : ProgException) (ilc : BitVec 2) (old : DWord) : State :=
  ((storeProgramInformation e ilc s).storeAssigned 336#64 (toBytes 16 (pswWithAddress s.psw old).toNat)).withPsw
    (s.pswAt 464#64)

theorem programInterruption_eq {s : State} (h : s.canInterrupt) (e : ProgException) (ilc : BitVec 2) (old : DWord) :
    s.programInterruption e ilc old = .next (s.interrupted e ilc old) := by
  obtain ⟨hz, hp, hv⟩ := h
  unfold State.programInterruption State.interrupt
  simp only [hz, hp, if_true]
  have hn : s.newPswOf .program = .ok (s.pswAt 464#64) := rfl
  simp only [hn, hv, if_true]
  rfl

/-- Everything a program interruption can answer. -/
theorem programInterruption_cases (s : State) (e : ProgException) (ilc : BitVec 2) (old : DWord) :
    (s.canInterrupt ∧ s.programInterruption e ilc old = .next (s.interrupted e ilc old))
    ∨ (s.archMode = .esa390 ∧ s.programInterruption e ilc old = .refused .esa390Mode)
    ∨ (s.archMode = .zArch ∧ s.prefixAreaPresent = false
      ∧ s.programInterruption e ilc old = .fault .interruptionAreaAbsent)
    ∨ (s.archMode = .zArch ∧ s.prefixAreaPresent = true ∧ pswValid (s.pswAt 464#64) = false
      ∧ s.programInterruption e ilc old = .fault .invalidPsw) := by
  cases hz : s.archMode with
  | esa390 =>
    refine .inr (.inl ⟨rfl, ?_⟩)
    unfold State.programInterruption State.interrupt
    rw [hz]
  | zArch =>
    cases hp : s.prefixAreaPresent with
    | false =>
      refine .inr (.inr (.inl ⟨rfl, rfl, ?_⟩))
      unfold State.programInterruption State.interrupt
      simp [hz, hp]
    | true =>
      cases hv : pswValid (s.pswAt 464#64) with
      | true => exact .inl ⟨⟨hz, hp, hv⟩, programInterruption_eq ⟨hz, hp, hv⟩ e ilc old⟩
      | false =>
        refine .inr (.inr (.inr ⟨rfl, rfl, rfl, ?_⟩))
        unfold State.programInterruption State.interrupt
        simp only [hz, hp, if_true]
        have hn : s.newPswOf .program = .ok (s.pswAt 464#64) := rfl
        rw [hn]
        simp [hv]

theorem programInterruption_next {s t : State} {e : ProgException} {ilc : BitVec 2} {old : DWord}
    (h : s.programInterruption e ilc old = .next t) : s.canInterrupt ∧ t = s.interrupted e ilc old := by
  rcases programInterruption_cases s e ilc old with ⟨hc, k⟩ | ⟨_, k⟩ | ⟨_, _, k⟩ | ⟨_, _, _, k⟩ <;>
    rw [k] at h <;> first | exact ⟨hc, (Host.Outcome.next.inj h).symm⟩ | cases h

/-! ## What is where afterwards -/

theorem interrupted_eq (s : State) (e : ProgException) (ilc : BitVec 2) (old : DWord) :
    ∃ l n, s.interrupted e ilc old
      = (s.withMemDraws (writeBytes (s.informationMem e ilc) (s.toAbsolute 336#64).toNat
          (toBytes 16 (pswWithAddress s.psw old).toNat)) l n).withPsw (s.pswAt 464#64) := by
  obtain ⟨l, n, hn⟩ := storeProgramInformation_eq e ilc s
  unfold State.interrupted
  rw [hn, State.storeAssigned_eq]
  exact ⟨_, n, rfl⟩

theorem interrupted_psw (s : State) (e : ProgException) (ilc : BitVec 2) (old : DWord) :
    (s.interrupted e ilc old).psw = s.pswAt 464#64 := by
  obtain ⟨l, n, hn⟩ := interrupted_eq s e ilc old
  rw [hn]
  rfl

theorem interrupted_mem (s : State) (e : ProgException) (ilc : BitVec 2) (old : DWord) :
    (s.interrupted e ilc old).mem = writeBytes (s.informationMem e ilc) (s.toAbsolute 336#64).toNat
      (toBytes 16 (pswWithAddress s.psw old).toNat) := by
  obtain ⟨l, n, hn⟩ := interrupted_eq s e ilc old
  rw [hn]
  rfl

theorem interrupted_wf {s : State} (h : Memory.wf s.mem = true) (e : ProgException) (ilc : BitVec 2) (old : DWord) :
    Memory.wf (s.interrupted e ilc old).mem = true := by
  rw [interrupted_mem]
  exact writeBytes_wf (informationMem_wf h e ilc) _ _

/-- The old PSW stands at real 336 afterwards. -/
theorem interrupted_oldPsw (s : State) (e : ProgException) (ilc : BitVec 2)
    (old : DWord) : (s.interrupted e ilc old).pswAt 336#64 = pswWithAddress s.psw old := by
  have hw := readBytes_writeBytes_same (s.informationMem e ilc) (s.toAbsolute 336#64).toNat
    (toBytes 16 (pswWithAddress s.psw old).toNat)
  rw [toBytes_length] at hw
  have ht : (s.interrupted e ilc old).toAbsolute 336#64 = s.toAbsolute 336#64 := by
    obtain ⟨l, n, hn⟩ := interrupted_eq s e ilc old
    rw [hn, State.toAbsolute_withPsw, State.toAbsolute_withMemDraws]
  have hlt : (pswWithAddress s.psw old).toNat < 256 ^ 16 :=
    Nat.lt_of_lt_of_eq (pswWithAddress s.psw old).isLt (by decide)
  rw [State.pswAt_eq, ht, interrupted_mem, hw, ofBytes_toBytes_of_lt hlt, BitVec.ofNat_toNat]
  simp

/-- A program interruption changes the PSW and the assigned locations only. -/
theorem interrupted_only (s : State) (e : ProgException) (ilc : BitVec 2) (old : DWord) :
    Writes.Only { psw := [(0, 128)], mem := s.interruptionStores } s (s.interrupted e ilc old) := by
  refine ((only_storeProgramInformation (fun _ h => h) e ilc).trans (only_storeAbsolute ?_ _)).trans
    (only_withPsw _ _ fun i hi hr => ?_)
  · obtain ⟨l, n, hn⟩ := storeProgramInformation_eq e ilc s
    rw [hn, State.toAbsolute_withMemDraws, toBytes_length]
    simp [State.interruptionStores]
  · exact absurd (inRanges_of_mem (List.mem_singleton.mpr rfl) (Nat.zero_le i) (by simpa using hi)) hr

/-- What is read outside the old PSW is the interruption information or what stood there. -/
theorem interrupted_read (s : State) (hz : s.archMode = .zArch) (e : ProgException) (ilc : BitVec 2) (old : DWord)
    (r : DWord) (n : Nat) (hr : r.toNat < 8192) (h : r.toNat + n ≤ 336 ∨ 352 ≤ r.toNat) :
    readBytes (s.interrupted e ilc old).mem (s.toAbsolute r).toNat n
      = readBytes (s.informationMem e ilc) (s.toAbsolute r).toNat n := by
  rw [interrupted_mem]
  apply readBytes_writeBytes_apart
  have h1 := toAbsolute_low hz hr
  have h2 := toAbsolute_low hz (r := 336#64) (by decide)
  rw [toBytes_length, h1, h2]
  have : (336#64 : DWord).toNat = 336 := rfl
  omega

/-- The identification stands at real 140 afterwards. -/
theorem informationMem_identification (s : State) (hz : s.archMode = .zArch)
    (e : ProgException) (ilc : BitVec 2) :
    readBytes (s.informationMem e ilc) (s.toAbsolute 140#64).toNat 4 = identificationBytes ilc e.code := by
  have a140 : (s.toAbsolute 140#64).toNat = (prefixArea s.pfx).toNat + 140 :=
    toAbsolute_low hz (r := 140#64) (by decide)
  have a148 : (s.toAbsolute 148#64).toNat = (prefixArea s.pfx).toNat + 148 :=
    toAbsolute_low hz (r := 148#64) (by decide)
  have a168 : (s.toAbsolute 168#64).toNat = (prefixArea s.pfx).toNat + 168 :=
    toAbsolute_low hz (r := 168#64) (by decide)
  have a176 : (s.toAbsolute 176#64).toNat = (prefixArea s.pfx).toNat + 176 :=
    toAbsolute_low hz (r := 176#64) (by decide)
  have base : readBytes (writeBytes s.mem (s.toAbsolute 140#64).toNat (identificationBytes ilc e.code))
      (s.toAbsolute 140#64).toNat 4 = identificationBytes ilc e.code :=
    readBytes_writeBytes_same _ _ (identificationBytes ilc e.code)
  unfold State.informationMem
  rw [a140, a148, a168, a176] at *
  cases e.failing with
  | none =>
    cases e.monitor with
    | none => exact base
    | some p =>
      dsimp only
      rw [readBytes_writeBytes_apart _ _ _ (by simp), readBytes_writeBytes_apart _ _ _ (by simp)]
      exact base
  | some q =>
    cases e.monitor with
    | none =>
      dsimp only
      rw [readBytes_writeBytes_apart _ _ _ (by simp)]
      exact base
    | some p =>
      dsimp only
      rw [readBytes_writeBytes_apart _ _ _ (by simp), readBytes_writeBytes_apart _ _ _ (by simp),
        readBytes_writeBytes_apart _ _ _ (by simp)]
      exact base

end Sys2Proof.Machine
end

