-- ==== Sys2Proof/Laws/Runs.lean ====
section
/-! SUPPORT. Bodies of instructions: how they bind, stop and become an outcome. -/

namespace Sys2Proof.Machine

open Sys2Proof

@[simp] theorem res_bind_ok {α β : Type} (a : α) (f : α → Res β) : ((Except.ok a : Res α) >>= f) = f a := rfl

@[simp] theorem res_bind_error {α β : Type} (e : Stop) (f : α → Res β) :
    ((Except.error e : Res α) >>= f) = Except.error e := rfl

/-- A sequence completes if both its parts do. -/
theorem res_bind_eq_ok {α β : Type} {x : Res α} {f : α → Res β} {b : β} (h : (x >>= f) = Except.ok b) :
    ∃ a, x = Except.ok a ∧ f a = Except.ok b :=
  match x, h with
  | .ok a, h => ⟨a, rfl, h⟩

/-- A sequence stops where one of its parts does. -/
theorem res_bind_eq_error {α β : Type} {x : Res α} {f : α → Res β} {e : Stop} (h : (x >>= f) = Except.error e) :
    x = Except.error e ∨ ∃ a, x = Except.ok a ∧ f a = Except.error e :=
  match x, h with
  | .error _, h => .inl (congrArg Except.error (Except.error.inj h))
  | .ok a, h => .inr ⟨a, rfl, h⟩

theorem require_true {c : Bool} (h : c = true) (e : ProgException) : require c e = Except.ok () := by simp [require, h]

theorem require_false {c : Bool} (h : c = false) (e : ProgException) :
    require c e = Except.error (Stop.exception e) := by simp [require, h]

theorem require_eq_ok {c : Bool} {e : ProgException} {u : Unit} (h : require c e = Except.ok u) : c = true := by
  cases c
  · cases h
  · rfl

theorem requireSupervisor_ok {s : State} (h : s.problem = false) : s.requireSupervisor = Except.ok () := by
  simp [State.requireSupervisor, require, h]

theorem requireSupervisor_error {s : State} (h : s.problem = true) :
    s.requireSupervisor = Except.error (Stop.exception ProgException.privileged) := by
  simp [State.requireSupervisor, require, h]

theorem requireAligned_ok {a : DWord} {n : Nat} (h : a.toNat % n = 0) : requireAligned a n = Except.ok () := by
  simp [requireAligned, require, aligned, h]

theorem requireAligned_error {a : DWord} {n : Nat} (h : a.toNat % n ≠ 0) :
    requireAligned a n = Except.error (Stop.exception ProgException.specification) := by
  simp [requireAligned, require, aligned, h]

theorem requireEven_ok {r : Reg} (h : r.getLsbD 0 = false) : requireEven r = Except.ok () := by
  simp only [requireEven, require, h]; rfl

theorem requireEven_error {r : Reg} (h : r.getLsbD 0 = true) :
    requireEven r = Except.error (Stop.exception ProgException.specification) := by
  simp only [requireEven, require, h]; rfl

theorem odd_iff (r : Reg) : r.getLsbD 0 = true ↔ r.toNat % 2 = 1 := by
  revert r; decide

theorem even_iff (r : Reg) : r.getLsbD 0 = false ↔ r.toNat % 2 = 0 := by
  revert r; decide

@[simp] theorem runThen_ok {α : Type} (s : State) (len : Nat) (v : α) (k : α → Result) :
    s.runThen len (Except.ok v) k = k v := rfl

@[simp] theorem runThen_exception {α : Type} (s : State) (len : Nat) (e : ProgException) (k : α → Result) :
    s.runThen len (Except.error (Stop.exception e)) k = s.raise len e := rfl

@[simp] theorem runThen_fault {α : Type} (s : State) (len : Nat) (f : Fault) (k : α → Result) :
    s.runThen len (Except.error (Stop.fault f)) k = .fault f := rfl

@[simp] theorem runThen_refused {α : Type} (s : State) (len : Nat) (r : Refusal) (k : α → Result) :
    s.runThen len (Except.error (Stop.refused r)) k = .refused r := rfl

@[simp] theorem run_ok (s t : State) (len : Nat) : s.run len (Except.ok t) = .next t := rfl

@[simp] theorem run_exception (s : State) (len : Nat) (e : ProgException) :
    s.run len (Except.error (Stop.exception e)) = s.raise len e := rfl

@[simp] theorem run_fault (s : State) (len : Nat) (f : Fault) :
    s.run len (Except.error (Stop.fault f)) = .fault f := rfl

@[simp] theorem run_refused (s : State) (len : Nat) (r : Refusal) :
    s.run len (Except.error (Stop.refused r)) = .refused r := rfl

theorem raise_taken {s t : State} {len : Nat} {e : ProgException} (h : s.raise len e = .next t) : TakenFrom s t :=
  ⟨e, _, _, h⟩

/-- A next state is the body's, or that of an exception taken. -/
theorem runThen_next {α : Type} {s t : State} {len : Nat} {r : Res α} {k : α → Result}
    (h : s.runThen len r k = .next t) : (∃ v, r = Except.ok v ∧ k v = .next t) ∨ TakenFrom s t := by
  match r, h with
  | .ok v, h => exact .inl ⟨v, rfl, h⟩
  | .error (.exception e), h => exact .inr (raise_taken h)

theorem run_next {s t : State} {len : Nat} {r : Res State} (h : s.run len r = .next t) :
    r = Except.ok t ∨ TakenFrom s t := by
  rcases runThen_next h with ⟨v, hv, hk⟩ | hk
  · cases hk; exact .inl hv
  · exact .inr hk

/-- The PSW with its own address. -/
theorem pswWithAddress_self (p : Quad) : pswWithAddress p (pswAddress p) = p := setBits_bits p 64 64 (by omega)

end Sys2Proof.Machine
end

