-- ==== Sys2Proof/Laws/Translate.lean ====
section
/-! SUPPORT. What the table walk and the logical accesses can answer. -/

namespace Sys2Proof.Machine

open Sys2Proof

/-! ## The walk -/

theorem entryAddress_ok {origin ea : DWord} {k : Nat} (h : ea.toNat = origin.toNat + k * 8) :
    entryAddress origin k = .ok ea := by
  have := ea.isLt
  unfold entryAddress
  rw [if_pos (by omega)]
  congr 1
  apply BitVec.eq_of_toNat_eq
  rw [BitVec.toNat_add, BitVec.toNat_ofNat]
  omega

theorem asceTypeViolation_iff (va asce : DWord) :
    asceTypeViolation va asce = true ↔
      (2 ^ 31 ≤ va.toNat ∧ bits asce 60 2 = 0b00#2) ∨ (2 ^ 42 ≤ va.toNat ∧ bits asce 60 2 = 0b01#2)
        ∨ (2 ^ 53 ≤ va.toNat ∧ bits asce 60 2 = 0b10#2) := by
  have h33 : bits va 0 33 = 0#33 ↔ va.toNat < 2 ^ 31 := bits_eq_zero_iff va 33 (by omega)
  have h22 : bits va 0 22 = 0#22 ↔ va.toNat < 2 ^ 42 := bits_eq_zero_iff va 22 (by omega)
  have h11 : bits va 0 11 = 0#11 ↔ va.toNat < 2 ^ 53 := bits_eq_zero_iff va 11 (by omega)
  unfold asceTypeViolation
  generalize bits asce 60 2 = x
  have hx : x = 0b00#2 ∨ x = 0b01#2 ∨ x = 0b10#2 ∨ x = 0b11#2 := by revert x; decide
  rcases hx with rfl | rfl | rfl | rfl
  · simp [h33]
  · simp [h22]
  · simp [h11]
  · simp

/-- What a lookup that completes has found. -/
theorem lookup_ok {s : State} {va origin : DWord} {level : Nat} {tf tl : BitVec 2} {r : TableWalk}
    (h : s.lookup va level origin tf tl = .ok r) :
    r = .stopped (.other (levelException level))
    ∨ (∃ ea e, entryAddress origin (tableIndex va level).toNat = .ok ea ∧ s.tableRead ea = .ok e ∧
      ((bit e 58 = true ∧ level = 0 ∧ r = .stopped (.segmentInvalid ea))
        ∨ (bit e 58 = false ∧ bits e 60 2 = BitVec.ofNat 2 level ∧ r = .entry e))) := by
  unfold State.lookup at h
  dsimp only at h
  split at h
  · exact .inl (Except.ok.inj h).symm
  · obtain ⟨ea, hea, h⟩ := res_bind_eq_ok h
    obtain ⟨e, he, h⟩ := res_bind_eq_ok h
    split at h
    · next hb =>
      by_cases hl : level = 0
      · exact .inr ⟨ea, e, hea, he, .inl ⟨hb, hl, by simpa [hl] using h.symm⟩⟩
      · exact .inl (by simpa [hl] using h.symm)
    · next hb =>
      split at h
      · cases h
      · next ht =>
        exact .inr ⟨ea, e, hea, he, .inr ⟨by simpa using hb, by simpa using ht, (Except.ok.inj h).symm⟩⟩

theorem levelException_ne_asceType (level : Nat) : levelException level ≠ .asceType := by
  rcases level with _ | _ | _ | _ <;> simp [levelException]

/-- The tables never give the ASCE-type exception. -/
theorem walkTables_ne_asceType (s : State) (va : DWord) (level : Nat) (origin : DWord) (tf tl : BitVec 2) :
    s.walkTables va level origin tf tl ≠ .ok (.stopped (.other .asceType)) := by
  have key : ∀ level origin tf tl, s.lookup va level origin tf tl ≠ .ok (.stopped (.other .asceType)) := by
    intro level origin tf tl h
    rcases lookup_ok h with h | ⟨ea, e, _, _, ⟨_, _, h⟩ | ⟨_, _, h⟩⟩
    · simp only [TableWalk.stopped.injEq, Walk.other.injEq] at h
      exact levelException_ne_asceType level h.symm
    · cases h
    · cases h
  induction level generalizing origin tf tl with
  | zero => exact key 0 origin tf tl
  | succ level ih =>
    intro h
    obtain ⟨r, hr, h⟩ := res_bind_eq_ok h
    cases r with
    | stopped w =>
      exact key _ _ _ _ (hr.trans h)
    | entry e => exact ih _ _ _ h

/-- What a page lookup that completes has found. -/
theorem walkPage_ok {s : State} {va ste : DWord} {w : Walk} (h : s.walkPage va ste = .ok w) :
    ∃ origin ea pte, s.pageTableOrigin ste = .ok origin ∧ entryAddress origin (bits va 44 8).toNat = .ok ea
      ∧ s.tableRead ea = .ok pte
      ∧ ((bit pte 53 = true ∧ w = .pageInvalid ea)
        ∨ (bit pte 53 = false ∧ bit pte 52 = false ∧ bit pte 55 = false
          ∧ w = .available (bits pte 0 52 ++ bits va 52 12) (bit ste 54 || bit pte 54))) := by
  obtain ⟨origin, ho, h⟩ := res_bind_eq_ok h
  obtain ⟨ea, hea, h⟩ := res_bind_eq_ok h
  obtain ⟨pte, hp, h⟩ := res_bind_eq_ok h
  refine ⟨origin, ea, pte, ho, hea, hp, ?_⟩
  split at h
  · next hb => exact .inl ⟨hb, (Except.ok.inj h).symm⟩
  · next hb =>
    split at h
    · cases h
    · next ht =>
      simp only [Bool.or_eq_true, not_or] at ht
      exact .inr ⟨by simpa using hb, by simpa using ht.1, by simpa using ht.2, (Except.ok.inj h).symm⟩

/-! ## Logical accesses -/

/-- A translation is that of the walk's real address, which a store needs unprotected. -/
theorem translate_ok {s : State} {acc : Access} {sp : Space} {va real : DWord}
    (h : s.translate acc sp va = .ok real) :
    ∃ p, s.walkSpace sp va = .ok (.available real p) ∧ (acc = .store → p = false) := by
  obtain ⟨w, hw, h⟩ := res_bind_eq_ok h
  cases w with
  | available r p =>
    dsimp only at h
    split at h
    · cases h
    · next hn =>
      cases h
      refine ⟨p, hw, fun ha => ?_⟩
      cases p
      · rfl
      · exact absurd ⟨ha, rfl⟩ hn
  | segmentInvalid e => cases h
  | pageInvalid e => cases h
  | other k => cases h

/-- The addresses in the two blocks of prefixing, as numbers. -/
theorem inPrefixBlocks_iff (s : State) (a : DWord) :
    s.inPrefixBlocks a = true ↔ a.toNat < 8192
      ∨ ((prefixArea s.pfx).toNat ≤ a.toNat ∧ a.toNat < (prefixArea s.pfx).toNat + 8192) := by
  have hb : ∀ i, i < 64 → (0xFFFFFFFFFFFFE000#64).getLsbD i = decide (13 ≤ i) := by decide
  have hm : (a &&& 0xFFFFFFFFFFFFE000#64).toNat = a.toNat / 8192 * 8192 := by
    have h : a &&& 0xFFFFFFFFFFFFE000#64 = (a >>> 13) <<< 13 := by
      apply BitVec.eq_of_getLsbD_eq
      intro i hi
      rw [BitVec.getLsbD_and, hb i hi, BitVec.getLsbD_shiftLeft, BitVec.getLsbD_ushiftRight]
      by_cases h : 13 ≤ i
      · simp [h, hi, show 13 + (i - 13) = i by omega]
      · simp [h]
    rw [h, BitVec.toNat_shiftLeft, BitVec.toNat_ushiftRight, Nat.shiftLeft_eq, Nat.shiftRight_eq_div_pow]
    have := a.isLt
    omega
  have ha := prefixArea_aligned s.pfx
  unfold State.inPrefixBlocks
  rw [Bool.or_eq_true, beq_iff_eq, beq_iff_eq, ← BitVec.toNat_inj, ← BitVec.toNat_inj, hm]
  simp only [BitVec.toNat_ofNat]
  omega

theorem realAddress_ok {s : State} {r : DWord} {n a : Nat} (h : s.realAddress r n = .ok a) :
    a = (s.toAbsolute r).toNat ∧ (s.toAbsolute r).toNat + n ≤ s.params.storageSize := by
  unfold State.realAddress at h
  split at h
  · next hle => exact ⟨(Except.ok.inj h).symm, hle⟩
  · cases h

theorem realAddress_eq {s : State} {r : DWord} {n : Nat} (h : (s.toAbsolute r).toNat + n ≤ s.params.storageSize) :
    s.realAddress r n = .ok (s.toAbsolute r).toNat := by
  simp [State.realAddress, h]

/-- A page that can be stored into can be fetched from, at the same real address. -/
theorem translate_fetch_of_store {s : State} {sp : Space} {va real : DWord} (h : s.translate .store sp va = .ok real) :
    s.translate .fetch sp va = .ok real := by
  obtain ⟨w, hw, h⟩ := res_bind_eq_ok h
  unfold State.translate
  rw [hw, res_bind_ok]
  cases w with
  | available r p =>
    dsimp only at h ⊢
    split at h
    · cases h
    · simpa using h
  | segmentInvalid _ => cases h
  | pageInvalid _ => cases h
  | other _ => cases h

/-- A place that can be stored into can be fetched from, at the same absolute address. -/
theorem fetchAddress_of_storeAddress {s : State} {sp : Option Space} {a : DWord} {n abs : Nat}
    (h : s.storeAddress sp a n = .ok abs) : s.fetchAddress sp a n = .ok abs := by
  obtain ⟨_, _, h⟩ := res_bind_eq_ok h
  obtain ⟨_, _, h⟩ := res_bind_eq_ok h
  cases sp with
  | none => exact h
  | some sp =>
    obtain ⟨real, hr, h⟩ := res_bind_eq_ok h
    unfold State.fetchAddress
    dsimp only
    rw [translate_fetch_of_store hr, res_bind_ok]
    exact h

/-! ### The record of stores plays no part -/

theorem walkTables_withStores (s : State) (m : Memory) (l : List Nat) (va : DWord) (level : Nat) (origin : DWord)
    (tf tl : BitVec 2) :
    (s.withStores m l).walkTables va level origin tf tl = (s.withMem m).walkTables va level origin tf tl := by
  have hl : ∀ v, (s.withStores m l).lookup va v = (s.withMem m).lookup va v := fun _ => rfl
  induction level generalizing origin tf tl with
  | zero => simp only [State.walkTables, hl]
  | succ n ih => simp only [State.walkTables, hl, ih]

theorem translate_withStores (s : State) (m : Memory) (l : List Nat) (acc : Access) (sp : Space) (va : DWord) :
    (s.withStores m l).translate acc sp va = (s.withMem m).translate acc sp va := by
  have hp : ∀ ste, (s.withStores m l).walkPage va ste = (s.withMem m).walkPage va ste := fun _ => rfl
  have ha : (s.withStores m l).asceOf sp = (s.withMem m).asceOf sp := rfl
  simp only [State.translate, State.walkSpace, State.walk, walkTables_withStores, hp, ha]

theorem fetchAddress_withStores (s : State) (m : Memory) (l : List Nat) (sp : Option Space) (a : DWord) (n : Nat) :
    (s.withStores m l).fetchAddress sp a n = (s.withMem m).fetchAddress sp a n := by
  have hr : ∀ r, (s.withStores m l).realAddress r n = (s.withMem m).realAddress r n := fun _ => rfl
  simp only [State.fetchAddress, translate_withStores, hr]

theorem storeAddress_withStores (s : State) (m : Memory) (l : List Nat) (sp : Option Space) (a : DWord) (n : Nat) :
    (s.withStores m l).storeAddress sp a n = (s.withMem m).storeAddress sp a n := by
  have hr : ∀ r, (s.withStores m l).realAddress r n = (s.withMem m).realAddress r n := fun _ => rfl
  have hl : (s.withStores m l).lowProtected sp a n = (s.withMem m).lowProtected sp a n := rfl
  simp only [State.storeAddress, translate_withStores, hr, hl]

/-- A store of an operand: the bytes go to the absolute address that storeAddress gives. -/
theorem memWrite_ok {s t : State} {a : DWord} {bs : List Byte} (h : s.memWrite a bs = .ok t) :
    ∃ abs, s.storeAddress s.operandSpace a bs.length = .ok abs ∧ t = s.storeAbsolute abs bs := by
  obtain ⟨abs, ha, h⟩ := res_bind_eq_ok h
  exact ⟨abs, ha, (Except.ok.inj h).symm⟩

theorem memWrite_eq {s : State} {a : DWord} {bs : List Byte} {abs : Nat}
    (h : s.storeAddress s.operandSpace a bs.length = .ok abs) : s.memWrite a bs = .ok (s.storeAbsolute abs bs) := by
  simp [State.memWrite, h]

/-- A fetch of an operand: the bytes come from the absolute address that fetchAddress gives. -/
theorem memRead_eq {s : State} {a : DWord} {n abs : Nat} (h : s.fetchAddress s.operandSpace a n = .ok abs) :
    s.memRead a n = .ok (readBytes s.mem abs n) := by
  simp [State.memRead, h]

theorem memValue_eq {s : State} {a : DWord} {n abs : Nat} (h : s.fetchAddress s.operandSpace a n = .ok abs) :
    s.memValue a n = .ok (ofBytes (readBytes s.mem abs n)) := by
  simp [State.memValue, memRead_eq h]

theorem realWrite_ok {s t : State} {r : DWord} {bs : List Byte} (h : s.realWrite r bs = .ok t) :
    ∃ abs, s.realAddress r bs.length = .ok abs ∧ t = s.storeAbsolute abs bs := by
  obtain ⟨abs, ha, h⟩ := res_bind_eq_ok h
  exact ⟨abs, ha, (Except.ok.inj h).symm⟩

theorem realWrite_eq {s : State} {r : DWord} {bs : List Byte} {abs : Nat}
    (h : s.realAddress r bs.length = .ok abs) : s.realWrite r bs = .ok (s.storeAbsolute abs bs) := by
  simp [State.realWrite, h]

/-- A value whose bytes were read is the number they make. -/
theorem ofNat_of_toBytes {w n : Nat} {v : BitVec w} {bs : List Byte} (hw : w = 8 * n) (h : toBytes n v.toNat = bs) :
    BitVec.ofNat w (ofBytes bs) = v := by
  subst hw
  have hlt : v.toNat < 256 ^ n := by
    have := v.isLt
    rwa [Nat.pow_mul] at this
  rw [← h, ofBytes_toBytes_of_lt hlt, BitVec.ofNat_toNat, BitVec.setWidth_eq]

theorem toBytes_of_ofNat {w n : Nat} {bs : List Byte} (hw : w = 8 * n) (h : bs.length = n) :
    toBytes n (BitVec.ofNat w (ofBytes bs)).toNat = bs := by
  subst hw
  have hlt := ofBytes_lt bs
  rw [h] at hlt
  have e : (2 : Nat) ^ (8 * n) = 256 ^ n := by rw [Nat.pow_mul]
  rw [BitVec.toNat_ofNat, e, Nat.mod_eq_of_lt hlt]
  subst h
  exact toBytes_ofBytes bs

end Sys2Proof.Machine
end

