-- ==== Sys2Proof/Laws/Effects.lean ====
section
/-! SUPPORT. For each shared operation of the instructions, once, everything it can do. -/

namespace Sys2Proof.Machine

open Sys2Proof

/-! ## What all but a few operations keep -/

/-- The configuration, the prefix, the form of storage and the record of stores are kept from s to t, and each byte that
has changed is on record. -/
structure Keeps (s t : State) : Prop where
  archMode : t.archMode = s.archMode
  pfx : t.pfx = s.pfx
  params : t.params = s.params
  entryTable : t.entryTable = s.entryTable
  otherCpus : t.otherCpus = s.otherCpus
  cpuStatus : t.cpuStatus = s.cpuStatus
  wf : Memory.wf s.mem = true → Memory.wf t.mem = true
  stored : ∀ a, a ∈ s.stored → a ∈ t.stored
  changed : ∀ a, readByte t.mem a = readByte s.mem a ∨ a ∈ t.stored

theorem Keeps.refl (s : State) : Keeps s s where
  archMode := rfl
  pfx := rfl
  params := rfl
  entryTable := rfl
  otherCpus := rfl
  cpuStatus := rfl
  wf := id
  stored _ := id
  changed _ := .inl rfl

theorem Keeps.trans {s t u : State} (h : Keeps s t) (k : Keeps t u) : Keeps s u where
  archMode := k.archMode.trans h.archMode
  pfx := k.pfx.trans h.pfx
  params := k.params.trans h.params
  entryTable := k.entryTable.trans h.entryTable
  otherCpus := k.otherCpus.trans h.otherCpus
  cpuStatus := k.cpuStatus.trans h.cpuStatus
  wf w := k.wf (h.wf w)
  stored a x := k.stored a (h.stored a x)
  changed a := (k.changed a).elim (fun e => (h.changed a).imp e.trans (k.stored a)) .inr

theorem Keeps.prefixWf {s t : State} (h : Keeps s t) : t.prefixWf = s.prefixWf := by
  unfold State.prefixWf
  rw [h.archMode, h.pfx]

theorem keeps_setGpr (s : State) (r : Reg) (v : DWord) : Keeps s (s.setGpr r v) := { Keeps.refl s with }
theorem keeps_setGprLow (s : State) (r : Reg) (v : Word) : Keeps s (s.setGprLow r v) := keeps_setGpr s r _
theorem keeps_setAr (s : State) (r : Reg) (v : Word) : Keeps s (s.setAr r v) := { Keeps.refl s with }
theorem keeps_setCr (s : State) (r : Reg) (v : DWord) : Keeps s (s.setCr r v) := { Keeps.refl s with }
theorem keeps_setPair (s : State) (r : Reg) (q : Quad) : Keeps s (s.setPair r q) := { Keeps.refl s with }
theorem keeps_drawn (s : State) : Keeps s s.drawn := { Keeps.refl s with }
theorem keeps_withPsw (s : State) (p : Quad) : Keeps s (s.withPsw p) := { Keeps.refl s with }
theorem keeps_setCc (s : State) (c : BitVec 2) : Keeps s (s.setCc c) := keeps_withPsw s _
theorem keeps_withIa (s : State) (a : DWord) : Keeps s (s.withIa a) := keeps_withPsw s _
theorem keeps_pushEntry (s : State) (k : EntryKind) (p : Quad) : Keeps s (s.pushEntry k p) := { Keeps.refl s with }
theorem keeps_popEntry (s : State) (e : StackEntry) : Keeps s (s.popEntry e) := { Keeps.refl s with }
theorem keeps_enterRoutine (s : State) (e : EntryTableEntry) : Keeps s (s.enterRoutine e) := { Keeps.refl s with }

theorem keeps_storeAbsolute (s : State) (a : Nat) (bs : List Byte) : Keeps s (s.storeAbsolute a bs) :=
  { Keeps.refl s with
    wf := fun h => writeBytes_wf h a bs
    stored := fun _ h => mem_addPlaces.2 (.inl h)
    changed := fun x => by
      by_cases h : a ≤ x ∧ x < a + bs.length
      · exact .inr (mem_addPlaces.2 (.inr h))
      · exact .inl (readByte_writeBytes_outside s.mem a bs (by omega)) }

theorem keeps_storeProgramInformation (e : ProgException) (ilc : BitVec 2) (s : State) :
    Keeps s (storeProgramInformation e ilc s) := by
  have o : ∀ (t : State) (r : DWord) (bs : List Byte), Keeps t (t.storeAssigned r bs) := fun t _ bs =>
    keeps_storeAbsolute t _ bs
  unfold storeProgramInformation
  cases e.failing with
  | none =>
    cases e.monitor with
    | none => exact o _ _ _
    | some p => exact (o _ _ _).trans ((o _ _ _).trans (o _ _ _))
  | some q =>
    have first := (o s 140#64 (identificationBytes ilc e.code)).trans
      ((o _ 168#64 (toBytes 8 (translationIdentification s.draws q.1 q.2).toNat)).trans (keeps_drawn _))
    cases e.monitor with
    | none => exact first
    | some p => exact first.trans ((o _ _ _).trans (o _ _ _))

theorem keeps_interrupted (s : State) (e : ProgException) (ilc : BitVec 2) (old : DWord) :
    Keeps s (s.interrupted e ilc old) :=
  ((keeps_storeProgramInformation e ilc s).trans (keeps_storeAbsolute _ _ _)).trans (keeps_withPsw _ _)

/-! ## Tracing -/

/-- Everything a stored trace entry changes. -/
theorem appendTrace_ok {s t : State} {entry : List Byte} (h : s.appendTrace entry = .ok t) :
    s.traceAddress.toNat % 4096 + entry.length ≤ 4096
      ∧ ∃ abs, s.realAddress s.traceAddress entry.length = .ok abs
        ∧ t = (s.storeAbsolute abs entry).setCr 12#4 (s.advancedTrace entry.length) := by
  obtain ⟨_, hc, h⟩ := res_bind_eq_ok h
  obtain ⟨u, hu, h⟩ := res_bind_eq_ok h
  obtain ⟨abs, ha, rfl⟩ := realWrite_ok hu
  exact ⟨by simpa using require_eq_ok hc, abs, ha, (Except.ok.inj h).symm⟩

theorem appendTrace_eq {s : State} {entry : List Byte} {abs : Nat}
    (hc : s.traceAddress.toNat % 4096 + entry.length ≤ 4096)
    (ha : s.realAddress s.traceAddress entry.length = .ok abs) :
    s.appendTrace entry = .ok ((s.storeAbsolute abs entry).setCr 12#4 (s.advancedTrace entry.length)) := by
  simp [State.appendTrace, require_true (decide_eq_true hc), realWrite_eq ha]

theorem appendTrace_crossing {s : State} {entry : List Byte}
    (hc : 4096 < s.traceAddress.toNat % 4096 + entry.length) :
    s.appendTrace entry = .error (.exception .traceTable) := by
  have : decide (s.traceAddress.toNat % 4096 + entry.length ≤ 4096) = false := by simp; omega
  simp [State.appendTrace, require_false this]

/-- The trace address afterwards. -/
theorem advancedTrace_address (s : State) (n : Nat) :
    s.advancedTrace n &&& s.params.trace.address
      = (s.traceAddress + BitVec.ofNat 64 n) &&& s.params.trace.address := by
  unfold State.advancedTrace
  apply BitVec.eq_of_getLsbD_eq
  intro i hi
  simp only [BitVec.getLsbD_and, BitVec.getLsbD_or, BitVec.getLsbD_not]
  cases s.params.trace.address.getLsbD i <;> simp

/-- The state is as before or an entry has been traced. -/
def Traced (s t : State) : Prop := t = s ∨ ∃ entry, s.appendTrace entry = .ok t

/-- What tracing changes: storage, and control register 12. -/
theorem Traced.cases {s t : State} (h : Traced s t) :
    t = s ∨ ∃ abs entry v, t = (s.storeAbsolute abs entry).setCr 12#4 v := by
  rcases h with rfl | ⟨entry, h⟩
  · exact .inl rfl
  · obtain ⟨_, abs, _, rfl⟩ := appendTrace_ok h
    exact .inr ⟨abs, entry, _, rfl⟩

theorem Traced.keeps {s t : State} (h : Traced s t) : Keeps s t := by
  rcases h.cases with rfl | ⟨abs, entry, v, rfl⟩
  · exact Keeps.refl t
  · exact (keeps_storeAbsolute s abs entry).trans (keeps_setCr _ _ _)

theorem Traced.psw {s t : State} (h : Traced s t) : t.psw = s.psw := by
  rcases h.cases with rfl | ⟨abs, entry, v, rfl⟩ <;> rfl

theorem Traced.gprs {s t : State} (h : Traced s t) : t.gprs = s.gprs := by
  rcases h.cases with rfl | ⟨abs, entry, v, rfl⟩ <;> rfl

theorem Traced.ars {s t : State} (h : Traced s t) : t.ars = s.ars := by
  rcases h.cases with rfl | ⟨abs, entry, v, rfl⟩ <;> rfl

theorem Traced.cr {s t : State} (h : Traced s t) {r : Reg} (hr : r ≠ 12#4) : t.cr r = s.cr r := by
  rcases h.cases with rfl | ⟨abs, entry, v, rfl⟩
  · rfl
  · rw [State.cr_setCr_other _ _ hr, State.cr_storeAbsolute]

theorem Traced.linkageStack {s t : State} (h : Traced s t) : t.linkageStack = s.linkageStack := by
  rcases h.cases with rfl | ⟨abs, entry, v, rfl⟩ <;> rfl

theorem traceBranch_traced {s t : State} {m : AMode} {a : DWord} (h : s.traceBranch m a = .ok t) : Traced s t := by
  unfold State.traceBranch at h
  split at h
  · exact .inr ⟨_, h⟩
  · exact .inl (Except.ok.inj h).symm

theorem traceModeSwitch_traced {s t : State} {m : AMode} (h : s.traceModeSwitch m = .ok t) : Traced s t := by
  unfold State.traceModeSwitch at h
  split at h
  · exact .inr ⟨_, h⟩
  · exact .inl (Except.ok.inj h).symm

theorem traceModeBranch_traced {s t : State} {m : AMode} {a : DWord} (h : s.traceModeBranch m a = .ok t) :
    Traced s t := by
  unfold State.traceModeBranch at h
  split at h
  · split at h <;> exact .inr ⟨_, h⟩
  · exact traceModeSwitch_traced h

theorem traceRegisterBranch_traced {s t : State} {r : Reg} (h : s.traceRegisterBranch r = .ok t) : Traced s t := by
  unfold State.traceRegisterBranch at h
  split at h
  · exact .inl (Except.ok.inj h).symm
  · exact traceBranch_traced h

theorem traceBranch_off {s : State} (h : s.branchTraceOn = false) (m : AMode) (a : DWord) :
    s.traceBranch m a = .ok s := by simp [State.traceBranch, h]

theorem traceModeSwitch_off {s : State} {m : AMode} (h : s.modeTraceOn = false ∨ s.amode.is64 = m.is64) :
    s.traceModeSwitch m = .ok s := by
  rcases h with h | h <;> simp [State.traceModeSwitch, switches64, h]

theorem traceModeBranch_off {s : State} (hb : s.branchTraceOn = false) (hm : s.modeTraceOn = false) (m : AMode)
    (a : DWord) : s.traceModeBranch m a = .ok s := by
  simp [State.traceModeBranch, hb, traceModeSwitch_off (.inl hm)]

theorem traceRegisterBranch_off {s : State} {r : Reg} (h : s.branchTraceOn = false ∨ r = 0#4) :
    s.traceRegisterBranch r = .ok s := by
  unfold State.traceRegisterBranch
  split
  · rfl
  · next hr => exact traceBranch_off (h.resolve_right hr) _ _

/-! ## Operands at consecutive addresses -/

/-- The operands read are as many as asked for. -/
theorem readUnits_length {s : State} {a : DWord} {size n k : Nat} {vs : List Nat}
    (h : s.readUnits a size n k = .ok vs) : vs.length = n := by
  induction n generalizing k vs with
  | zero => cases h; rfl
  | succ n ih =>
    obtain ⟨v, _, h⟩ := res_bind_eq_ok h
    obtain ⟨ws, hws, h⟩ := res_bind_eq_ok h
    cases h
    simp [ih hws]

/-- Consecutive operands that can be fetched, as the numbers their bytes make. -/
theorem readUnits_eq {s : State} {a : DWord} {size n k : Nat} {g : Nat → Nat}
    (h : ∀ j, k ≤ j → j < k + n → s.fetchAddress s.operandSpace (s.offset a (j * size)) size = .ok (g j)) :
    s.readUnits a size n k = .ok ((List.range' k n).map fun j => ofBytes (readBytes s.mem (g j) size)) := by
  induction n generalizing k with
  | zero => rfl
  | succ n ih =>
    have hk := h k (le_refl k) (by omega)
    have ih' := ih (k := k + 1) fun j h1 h2 => h j (by omega) (by omega)
    simp [State.readUnits, memValue_eq hk, ih', List.range'_succ]

theorem keeps_writeUnits {s t : State} {a : DWord} {size k : Nat} {us : List (List Byte)}
    (h : s.writeUnits a size us k = .ok t) : Keeps s t ∧ t.psw = s.psw := by
  induction us generalizing s k with
  | nil => cases h; exact ⟨Keeps.refl t, rfl⟩
  | cons u us ih =>
    obtain ⟨v, hv, h⟩ := res_bind_eq_ok h
    obtain ⟨abs, _, rfl⟩ := memWrite_ok hv
    obtain ⟨k1, k2⟩ := ih h
    exact ⟨(keeps_storeAbsolute s abs u).trans k1, k2⟩

/-- A move changes storage and the record of stores only. -/
theorem moveBytes_ok {s t : State} {d f : Option Space} {a1 a2 : DWord} {n k : Nat}
    (h : s.moveBytes d f a1 a2 n k = .ok t) : Keeps s t ∧ ∃ m l, t = s.withStores m l := by
  induction n generalizing s k with
  | zero => cases h; exact ⟨Keeps.refl t, t.mem, t.stored, rfl⟩
  | succ n ih =>
    obtain ⟨src, _, h⟩ := res_bind_eq_ok h
    obtain ⟨dst, _, h⟩ := res_bind_eq_ok h
    obtain ⟨hk, m, l, rfl⟩ := ih h
    exact ⟨(keeps_storeAbsolute s _ _).trans hk, m, l, rfl⟩

theorem move_ok {s t : State} {d f : Option Space} {r : Reg} {a1 a2 : DWord} (h : s.move d f r a1 a2 = .ok t) :
    Keeps s t ∧ ∃ m l c, t = (s.withStores m l).setCc c := by
  obtain ⟨_, _, h⟩ := res_bind_eq_ok h
  obtain ⟨u, hu, h⟩ := res_bind_eq_ok h
  obtain ⟨hk, m, l, rfl⟩ := moveBytes_ok hu
  cases h
  exact ⟨hk.trans (keeps_setCc _ _), m, l, _, rfl⟩

/-! ## Registers loaded in a row -/

/-- Only the PSW, storage and the rest of the machine beside the general registers are as before. -/
theorem restoreGprs_same (s : State) (e : StackEntry) (rs : List Reg) :
    ∃ v, s.restoreGprs e rs = { s with gprs := v } := by
  induction rs generalizing s with
  | nil => exact ⟨s.gprs, rfl⟩
  | cons r rs ih =>
    obtain ⟨v, hv⟩ := ih (s.setGpr r (e.gr.get r.toFin))
    exact ⟨v, hv⟩

theorem restoreGprsLow_same (s : State) (e : StackEntry) (rs : List Reg) :
    ∃ v, s.restoreGprsLow e rs = { s with gprs := v } := by
  induction rs generalizing s with
  | nil => exact ⟨s.gprs, rfl⟩
  | cons r rs ih =>
    obtain ⟨v, hv⟩ := ih (s.setGprLow r (bits (e.gr.get r.toFin) 32 32))
    exact ⟨v, hv⟩

theorem restoreArs_same (s : State) (e : StackEntry) (rs : List Reg) :
    ∃ v, s.restoreArs e rs = { s with ars := v } := by
  induction rs generalizing s with
  | nil => exact ⟨s.ars, rfl⟩
  | cons r rs ih =>
    obtain ⟨v, hv⟩ := ih (s.setAr r (e.ar.get r.toFin))
    exact ⟨v, hv⟩

theorem setCrs_same (s : State) (l : List (Reg × Nat)) : ∃ v, s.setCrs l = { s with crs := v } := by
  induction l generalizing s with
  | nil => exact ⟨s.crs, rfl⟩
  | cons p l ih =>
    obtain ⟨v, hv⟩ := ih (s.setCr p.1 (BitVec.ofNat 64 p.2))
    exact ⟨v, hv⟩

theorem setCrsLow_same (s : State) (l : List (Reg × Nat)) : ∃ v, s.setCrsLow l = { s with crs := v } := by
  induction l generalizing s with
  | nil => exact ⟨s.crs, rfl⟩
  | cons p l ih =>
    obtain ⟨v, hv⟩ := ih (s.setCrLow p.1 (BitVec.ofNat 32 p.2))
    exact ⟨v, hv⟩

/-! ## A PSW that becomes current -/

/-- Everything a PSW load can answer with a next state. -/
theorem loadPsw_next {s t : State} {p : Quad} (h : s.loadPsw p = .next t) :
    (pswValid p = true ∧ t = s.withPsw p)
    ∨ (pswValid p = false ∧ s.params.invalidPsw = .earlySpecification ∧ ((s.withPsw p).drawn).canInterrupt
      ∧ ∃ ilc, t = ((s.withPsw p).drawn).interrupted .specification ilc (pswAddress p)) := by
  unfold State.loadPsw at h
  split at h
  · next hv => exact .inl ⟨hv, (Host.Outcome.next.inj h).symm⟩
  · next hv =>
    split at h
    · cases h
    · next hp =>
      obtain ⟨hc, ht⟩ := programInterruption_next h
      exact .inr ⟨by simpa using hv, hp, hc, _, ht⟩

theorem loadPsw_eq {s : State} {p : Quad} (h : pswValid p = true) : s.loadPsw p = .next (s.withPsw p) := by
  simp [State.loadPsw, h]

end Sys2Proof.Machine
end

