-- ==== Sys2Proof/Laws/Encoding.lean ====
section
/-! SUPPORT. The formats: how long each is, its first byte, and the fields read back from it. -/

namespace Sys2Proof

/-! ## Lengths -/

@[simp] theorem formRR_length (op : Nat) (r1 r2 : Reg) : (formRR op r1 r2).length = 2 := toBytes_length _ _
@[simp] theorem formRRE_length (op : Nat) (r1 r2 : Reg) : (formRRE op r1 r2).length = 4 := toBytes_length _ _
@[simp] theorem formS_length (op : Nat) (b : Reg) (d : Nat) : (formS op b d).length = 4 := toBytes_length _ _
@[simp] theorem formRS_length (op m : Nat) (b : Reg) (d : Nat) : (formRS op m b d).length = 4 := toBytes_length _ _
@[simp] theorem formSS_length (op m : Nat) (b1 : Reg) (d1 : Nat) (b2 : Reg) (d2 : Nat) :
    (formSS op m b1 d1 b2 d2).length = 6 := toBytes_length _ _
@[simp] theorem formRSY_length (op1 op2 : Nat) (r1 r3 b : Reg) (d : Int) : (formRSY op1 op2 r1 r3 b d).length = 6 :=
  toBytes_length _ _

/-! ## First bytes -/

theorem toBytes_head {n v op : Nat} (h : v / 256 ^ n = op) : (toBytes (n + 1) v).headD 0#8 = BitVec.ofNat 8 op := by
  rw [toBytes, List.headD_cons, h]

theorem formRR_head (op : Nat) (r1 r2 : Reg) : (formRR op r1 r2).headD 0#8 = BitVec.ofNat 8 op := by
  have := r1.isLt
  have := r2.isLt
  exact toBytes_head (n := 1) (by omega)

theorem formRRE_head (op : Nat) (r1 r2 : Reg) : (formRRE op r1 r2).headD 0#8 = BitVec.ofNat 8 (op / 256) := by
  have := r1.isLt
  have := r2.isLt
  exact toBytes_head (n := 3) (by omega)

theorem formS_head (op : Nat) (b : Reg) {d : Nat} (h : d < 4096) :
    (formS op b d).headD 0#8 = BitVec.ofNat 8 (op / 256) := by
  have := b.isLt
  exact toBytes_head (n := 3) (by omega)

theorem formRS_head (op : Nat) {m : Nat} (b : Reg) {d : Nat} (hm : m < 256) (h : d < 4096) :
    (formRS op m b d).headD 0#8 = BitVec.ofNat 8 op := by
  have := b.isLt
  exact toBytes_head (n := 3) (by omega)

theorem formSS_head (op : Nat) {m : Nat} (b1 : Reg) {d1 : Nat} (b2 : Reg) {d2 : Nat} (hm : m < 256) (h1 : d1 < 4096)
    (h2 : d2 < 4096) : (formSS op m b1 d1 b2 d2).headD 0#8 = BitVec.ofNat 8 op := by
  have := b1.isLt
  have := b2.isLt
  exact toBytes_head (n := 5) (by omega)

/-- A displacement in range fits its 20 bits. -/
theorem longDispNumber_lt {d : Int} (h1 : -524288 ≤ d) (h2 : d ≤ 524287) : longDispNumber d < 1048576 := by
  unfold longDispNumber
  by_cases h : d < 0
  · rw [if_pos h]; omega
  · rw [if_neg h]; omega

theorem formRSY_head (op1 op2 : Nat) (r1 r3 b : Reg) {d : Int} (h : op2 < 256) (h1 : -524288 ≤ d)
    (h2 : d ≤ 524287) : (formRSY op1 op2 r1 r3 b d).headD 0#8 = BitVec.ofNat 8 op1 := by
  have := r1.isLt
  have := r3.isLt
  have := b.isLt
  have hu := longDispNumber_lt h1 h2
  unfold formRSY
  generalize longDispNumber d = u at hu
  have h3 : u % 4096 < 4096 := Nat.mod_lt _ (by omega)
  have h4 : u / 4096 < 256 := by omega
  generalize u % 4096 = x at h3
  generalize u / 4096 = y at h4
  exact toBytes_head (n := 5) (by omega)

theorem pair_mid_lt (r1 r3 : Reg) : r1.toNat * 16 + r3.toNat < 256 := by
  have := r1.isLt
  have := r3.isLt
  omega

/-! ## Fields -/

theorem fieldOf_lt (len w a n : Nat) : fieldOf len w a n < 2 ^ n := Nat.mod_lt _ (Nat.pow_pos (by omega))

theorem regField_eq {len w a : Nat} {r : Reg} (h : fieldOf len w a 4 = r.toNat) : regField len w a = r := by
  unfold regField
  rw [h, BitVec.ofNat_toNat, BitVec.setWidth_eq]

/-- The 20-bit displacement lies in its range. -/
theorem longDispField_range (w : Nat) : -524288 ≤ longDispField w ∧ longDispField w ≤ 524287 := by
  have h1 := fieldOf_lt 6 w 32 8
  have h2 := fieldOf_lt 6 w 20 12
  unfold longDispField
  by_cases h : fieldOf 6 w 32 8 * 4096 + fieldOf 6 w 20 12 < 524288
  · simp only [if_pos h]; omega
  · simp only [if_neg h]; omega

/-- The two parts of a displacement give it back. -/
theorem longDispField_of_parts {w : Nat} {d : Int} (h1 : -524288 ≤ d) (h2 : d ≤ 524287)
    (hh : fieldOf 6 w 32 8 = longDispNumber d / 4096) (hl : fieldOf 6 w 20 12 = longDispNumber d % 4096) :
    longDispField w = d := by
  have hv : (d < 0 → (longDispNumber d : Int) = d + 1048576) ∧ (0 ≤ d → (longDispNumber d : Int) = d) := by
    unfold longDispNumber
    constructor <;> intro h
    · rw [if_pos h]; omega
    · rw [if_neg (by omega)]; omega
  have hb := longDispNumber_lt h1 h2
  unfold longDispField
  rw [hh, hl]
  generalize longDispNumber d = u at *
  have e : u / 4096 * 4096 + u % 4096 = u := by omega
  rw [e]
  by_cases h : d < 0
  · rw [if_neg (by omega)]; omega
  · rw [if_pos (by omega)]; omega

end Sys2Proof
end

