-- ==== Sys2Proof/Laws/PerInstr.lean ====
section
/-! SUPPORT. Statements made instruction by instruction (LAWS.json): one lemma per format, then one per constructor. -/

namespace Sys2Proof.Laws.EncodedLength

open Sys2Proof

/-- The first byte of the encoding tells its length (30_encoding.md rule R140). -/
def Statement (i : Instr) : Prop := i.wf = true → instrLength ((encode i).headD 0#8) = instrBytes i

/-! ## The formats -/

theorem of_RR {op : Nat} {r1 r2 : Reg} (hn : instrLength (BitVec.ofNat 8 op) = 2) :
    instrLength ((formRR op r1 r2).headD 0#8) = (formRR op r1 r2).length := by
  rw [formRR_head, hn, formRR_length]

theorem of_RRE {op : Nat} {r1 r2 : Reg} (hn : instrLength (BitVec.ofNat 8 (op / 256)) = 4) :
    instrLength ((formRRE op r1 r2).headD 0#8) = (formRRE op r1 r2).length := by
  rw [formRRE_head, hn, formRRE_length]

theorem of_S {op : Nat} {b : Reg} {d : Nat} (hn : instrLength (BitVec.ofNat 8 (op / 256)) = 4)
    (h : shortDisp d = true) : instrLength ((formS op b d).headD 0#8) = (formS op b d).length := by
  rw [formS_head op b (of_decide_eq_true h), hn, formS_length]

theorem of_RS {op m : Nat} {b : Reg} {d : Nat} (hn : instrLength (BitVec.ofNat 8 op) = 4) (hm : m < 256)
    (h : shortDisp d = true) : instrLength ((formRS op m b d).headD 0#8) = (formRS op m b d).length := by
  rw [formRS_head op b hm (of_decide_eq_true h), hn, formRS_length]

theorem of_SS {op m : Nat} {b1 b2 : Reg} {d1 d2 : Nat} (hn : instrLength (BitVec.ofNat 8 op) = 6) (hm : m < 256)
    (h : (shortDisp d1 && shortDisp d2) = true) :
    instrLength ((formSS op m b1 d1 b2 d2).headD 0#8) = (formSS op m b1 d1 b2 d2).length := by
  obtain ⟨h1, h2⟩ := (Bool.and_eq_true _ _).mp h
  rw [formSS_head op b1 b2 hm (of_decide_eq_true h1) (of_decide_eq_true h2), hn, formSS_length]

theorem of_RSY {op1 op2 : Nat} {r1 r3 b : Reg} {d : Int} (hn : instrLength (BitVec.ofNat 8 op1) = 6)
    (h2 : op2 < 256) (h : longDisp d = true) :
    instrLength ((formRSY op1 op2 r1 r3 b d).headD 0#8) = (formRSY op1 op2 r1 r3 b d).length := by
  have hd := of_decide_eq_true h
  rw [formRSY_head op1 op2 r1 r3 b h2 hd.1 hd.2, hn, formRSY_length]

/-! ## The instructions -/

theorem lpsw (b2 : Reg) (d2 : Nat) : Statement (.lpsw b2 d2) :=
  fun h => of_RS (by decide) (by decide) h

theorem lpswe (b2 : Reg) (d2 : Nat) : Statement (.lpswe b2 d2) :=
  fun h => of_S (by decide) h

theorem epsw (r1 r2 : Reg) : Statement (.epsw r1 r2) :=
  fun _ => of_RRE (by decide)

theorem sam24 : Statement (.sam24) :=
  fun _ => rfl

theorem sam31 : Statement (.sam31) :=
  fun _ => rfl

theorem sam64 : Statement (.sam64) :=
  fun _ => rfl

theorem lra (r1 x2 b2 : Reg) (d2 : Nat) : Statement (.lra r1 x2 b2 d2) :=
  fun h => of_RS (by decide) (pair_mid_lt _ _) h

theorem lrag (r1 x2 b2 : Reg) (d2 : Int) : Statement (.lrag r1 x2 b2 d2) :=
  fun h => of_RSY (by decide) (by decide) h

theorem strag (b1 : Reg) (d1 : Nat) (b2 : Reg) (d2 : Nat) : Statement (.strag b1 d1 b2 d2) :=
  fun h => of_SS (by decide) (by decide) h

theorem tprot (b1 : Reg) (d1 : Nat) (b2 : Reg) (d2 : Nat) : Statement (.tprot b1 d1 b2 d2) :=
  fun h => of_SS (by decide) (by decide) h

theorem lurag (r1 r2 : Reg) : Statement (.lurag r1 r2) :=
  fun _ => of_RRE (by decide)

theorem sturg (r1 r2 : Reg) : Statement (.sturg r1 r2) :=
  fun _ => of_RRE (by decide)

theorem lctl (r1 r3 b2 : Reg) (d2 : Nat) : Statement (.lctl r1 r3 b2 d2) :=
  fun h => of_RS (by decide) (pair_mid_lt _ _) h

theorem stctl (r1 r3 b2 : Reg) (d2 : Nat) : Statement (.stctl r1 r3 b2 d2) :=
  fun h => of_RS (by decide) (pair_mid_lt _ _) h

theorem lctlg (r1 r3 b2 : Reg) (d2 : Int) : Statement (.lctlg r1 r3 b2 d2) :=
  fun h => of_RSY (by decide) (by decide) h

theorem stctg (r1 r3 b2 : Reg) (d2 : Int) : Statement (.stctg r1 r3 b2 d2) :=
  fun h => of_RSY (by decide) (by decide) h

theorem esea (r1 : Reg) : Statement (.esea r1) :=
  fun _ => of_RRE (by decide)

theorem spx (b2 : Reg) (d2 : Nat) : Statement (.spx b2 d2) :=
  fun h => of_S (by decide) h

theorem stfl : Statement (.stfl) :=
  fun _ => rfl

theorem sigp (r1 r3 b2 : Reg) (d2 : Nat) : Statement (.sigp r1 r3 b2 d2) :=
  fun h => of_RS (by decide) (pair_mid_lt _ _) h

theorem pc (b2 : Reg) (d2 : Nat) : Statement (.pc b2 d2) :=
  fun h => of_S (by decide) h

theorem bakr (r1 r2 : Reg) : Statement (.bakr r1 r2) :=
  fun _ => of_RRE (by decide)

theorem pr : Statement (.pr) :=
  fun _ => rfl

theorem esta (r1 r2 : Reg) : Statement (.esta r1 r2) :=
  fun _ => of_RRE (by decide)

theorem ereg (r1 r2 : Reg) : Statement (.ereg r1 r2) :=
  fun _ => of_RRE (by decide)

theorem eregg (r1 r2 : Reg) : Statement (.eregg r1 r2) :=
  fun _ => of_RRE (by decide)

theorem balr (r1 r2 : Reg) : Statement (.balr r1 r2) :=
  fun _ => of_RR (by decide)

theorem basr (r1 r2 : Reg) : Statement (.basr r1 r2) :=
  fun _ => of_RR (by decide)

theorem bassm (r1 r2 : Reg) : Statement (.bassm r1 r2) :=
  fun _ => of_RR (by decide)

theorem bsm (r1 r2 : Reg) : Statement (.bsm r1 r2) :=
  fun _ => of_RR (by decide)

theorem bsa (r1 r2 : Reg) : Statement (.bsa r1 r2) :=
  fun _ => of_RRE (by decide)

theorem bsg (r1 r2 : Reg) : Statement (.bsg r1 r2) :=
  fun _ => of_RRE (by decide)

theorem rp (b2 : Reg) (d2 : Nat) : Statement (.rp b2 d2) :=
  fun h => of_S (by decide) h

theorem trace (r1 r3 b2 : Reg) (d2 : Nat) : Statement (.trace r1 r3 b2 d2) :=
  fun h => of_RS (by decide) (pair_mid_lt _ _) h

theorem tracg (r1 r3 b2 : Reg) (d2 : Int) : Statement (.tracg r1 r3 b2 d2) :=
  fun h => of_RSY (by decide) (by decide) h

theorem trap2 : Statement (.trap2) :=
  fun _ => rfl

theorem trap4 (b2 : Reg) (d2 : Nat) : Statement (.trap4 b2 d2) :=
  fun h => of_S (by decide) h

theorem mc (b1 : Reg) (d1 : Nat) (i2 : Byte) : Statement (.mc b1 d1 i2) :=
  fun h => of_RS (by decide) i2.isLt h

theorem mvcp (r1 r3 b1 : Reg) (d1 : Nat) (b2 : Reg) (d2 : Nat) : Statement (.mvcp r1 r3 b1 d1 b2 d2) :=
  fun h => of_SS (by decide) (pair_mid_lt _ _) h

theorem mvcs (r1 r3 b1 : Reg) (d1 : Nat) (b2 : Reg) (d2 : Nat) : Statement (.mvcs r1 r3 b1 d1 b2 d2) :=
  fun h => of_SS (by decide) (pair_mid_lt _ _) h

theorem mvck (r1 r3 b1 : Reg) (d1 : Nat) (b2 : Reg) (d2 : Nat) : Statement (.mvck r1 r3 b1 d1 b2 d2) :=
  fun h => of_SS (by decide) (pair_mid_lt _ _) h

theorem lpq (r1 x2 b2 : Reg) (d2 : Int) : Statement (.lpq r1 x2 b2 d2) :=
  fun h => of_RSY (by decide) (by decide) h

theorem stpq (r1 x2 b2 : Reg) (d2 : Int) : Statement (.stpq r1 x2 b2 d2) :=
  fun h => of_RSY (by decide) (by decide) h

theorem cdsg (r1 r3 b2 : Reg) (d2 : Int) : Statement (.cdsg r1 r3 b2 d2) :=
  fun h => of_RSY (by decide) (by decide) h

theorem plo (r1 r3 b2 : Reg) (d2 : Nat) (b4 : Reg) (d4 : Nat) : Statement (.plo r1 r3 b2 d2 b4 d4) :=
  fun h => of_SS (by decide) (pair_mid_lt _ _) h

theorem mvpg (r1 r2 : Reg) : Statement (.mvpg r1 r2) :=
  fun _ => of_RRE (by decide)

theorem iesbe (r1 r2 : Reg) : Statement (.iesbe r1 r2) :=
  fun _ => of_RRE (by decide)

end Sys2Proof.Laws.EncodedLength
end

