-- ==== Sys2Proof/Laws/Ranges.lean ====
section
/-! SUPPORT. Register ranges, what is loaded into one, and what is stored from one place after another. -/

namespace Sys2Proof.Machine

open Sys2Proof

/-! ## The registers of a range -/

theorem reg_add_zero (r : Reg) : r + BitVec.ofNat 4 0 = r := by simp

theorem reg_add_succ (r : Reg) (k : Nat) : r + BitVec.ofNat 4 (k + 1) = r + 1#4 + BitVec.ofNat 4 k := by
  apply BitVec.eq_of_toNat_eq
  simp only [BitVec.toNat_add, BitVec.toNat_ofNat]
  omega

theorem mem_registersFrom {q r : Reg} {n : Nat} :
    q ∈ registersFrom r n ↔ ∃ k, k < n ∧ q = r + BitVec.ofNat 4 k := by
  induction n generalizing r with
  | zero => simp [registersFrom]
  | succ n ih =>
    simp only [registersFrom, List.mem_cons, ih]
    constructor
    · rintro (h | ⟨k, hk, h⟩)
      · exact ⟨0, by omega, by rw [h, reg_add_zero]⟩
      · exact ⟨k + 1, by omega, by rw [h, reg_add_succ r k]⟩
    · rintro ⟨k, hk, h⟩
      cases k with
      | zero => exact .inl (by rw [h, reg_add_zero])
      | succ k => exact .inr ⟨k, by omega, by rw [h, reg_add_succ r k]⟩

theorem rangeCount_le (r1 r3 : Reg) : rangeCount r1 r3 ≤ 16 := by
  have := (r3 - r1).isLt
  unfold rangeCount
  omega

theorem registersFrom_length (r : Reg) (n : Nat) : (registersFrom r n).length = n := by
  induction n generalizing r with
  | zero => rfl
  | succ n ih => simp [registersFrom, ih]

/-- The register number k of a range. -/
theorem mem_registerRange {r1 r3 : Reg} {k : Nat} (h : k < (r3 - r1).toNat + 1) :
    r1 + BitVec.ofNat 4 k ∈ registerRange r1 r3 := mem_registersFrom.2 ⟨k, h, rfl⟩

/-- A range has no register twice. -/
theorem head_notMem_registersFrom {r : Reg} {n : Nat} (h : n < 16) : r ∉ registersFrom (r + 1#4) n := by
  rw [mem_registersFrom]
  rintro ⟨k, hk, e⟩
  have e' := congrArg BitVec.toNat e
  simp only [BitVec.toNat_add, BitVec.toNat_ofNat] at e'
  have := r.isLt
  omega

/-! ## Loading a range -/

theorem cr_setCrs_notMem (s : State) (l : List (Reg × Nat)) {q : Reg} (h : ∀ v, (q, v) ∉ l) :
    (s.setCrs l).cr q = s.cr q := by
  induction l generalizing s with
  | nil => rfl
  | cons p l ih =>
    obtain ⟨r, v⟩ := p
    have hq : q ≠ r := fun e => h v (by simp [e])
    exact (ih (s.setCr r _) fun w hw => h w (List.mem_cons_of_mem _ hw)).trans (s.cr_setCr_other _ hq)

theorem cr_setCrsLow_notMem (s : State) (l : List (Reg × Nat)) {q : Reg} (h : ∀ v, (q, v) ∉ l) :
    (s.setCrsLow l).cr q = s.cr q := by
  induction l generalizing s with
  | nil => rfl
  | cons p l ih =>
    obtain ⟨r, v⟩ := p
    have hq : q ≠ r := fun e => h v (by simp [e])
    exact (ih (s.setCrLow r _) fun w hw => h w (List.mem_cons_of_mem _ hw)).trans (s.cr_setCr_other _ hq)

theorem notMem_zip_of_notMem {q : Reg} {rs : List Reg} (h : q ∉ rs) (vs : List Nat) : ∀ v, (q, v) ∉ rs.zip vs :=
  fun _ hv => h (List.of_mem_zip hv).1

/-- Register number k of a range of up to 16 holds value number k afterwards. -/
theorem cr_setCrs (s : State) (r : Reg) (n : Nat) (vs : List Nat) (k : Nat) (hn : n ≤ 16) (hk : k < n) (v : Nat)
    (hv : vs[k]? = some v) :
    (s.setCrs ((registersFrom r n).zip vs)).cr (r + BitVec.ofNat 4 k) = BitVec.ofNat 64 v := by
  induction n generalizing s r vs k with
  | zero => omega
  | succ n ih =>
    cases vs with
    | nil => simp at hv
    | cons w ws =>
      simp only [registersFrom, List.zip_cons_cons, State.setCrs]
      cases k with
      | zero =>
        rw [reg_add_zero, cr_setCrs_notMem _ _ (notMem_zip_of_notMem (head_notMem_registersFrom (by omega)) ws),
          State.cr_setCr_same]
        simpa using congrArg (BitVec.ofNat 64) (Option.some.inj (by simpa using hv))
      | succ k =>
        rw [reg_add_succ r k]
        exact ih _ _ ws k (by omega) (by omega) (by simpa using hv)

/-- The same for low-order halves: the high-order half is as before. -/
theorem cr_setCrsLow (s : State) (r : Reg) (n : Nat) (vs : List Nat) (k : Nat) (hn : n ≤ 16) (hk : k < n) (v : Nat)
    (hv : vs[k]? = some v) :
    (s.setCrsLow ((registersFrom r n).zip vs)).cr (r + BitVec.ofNat 4 k)
      = setBits (s.cr (r + BitVec.ofNat 4 k)) 32 (BitVec.ofNat 32 v) := by
  induction n generalizing s r vs k with
  | zero => omega
  | succ n ih =>
    cases vs with
    | nil => simp at hv
    | cons w ws =>
      simp only [registersFrom, List.zip_cons_cons, State.setCrsLow]
      cases k with
      | zero =>
        rw [reg_add_zero, cr_setCrsLow_notMem _ _ (notMem_zip_of_notMem (head_notMem_registersFrom (by omega)) ws),
          State.setCrLow, State.cr_setCr_same]
        have : w = v := by simpa using hv
        rw [this]
      | succ k =>
        have hne : r + 1#4 + BitVec.ofNat 4 k ≠ r := by
          intro e
          have e' := congrArg BitVec.toNat e
          simp only [BitVec.toNat_add, BitVec.toNat_ofNat] at e'
          have := r.isLt
          omega
        rw [reg_add_succ r k, ih _ _ ws k (by omega) (by omega) (by simpa using hv), State.setCrLow,
          State.cr_setCr_other _ _ hne]

theorem gpr_restoreGprs (s : State) (e : StackEntry) (rs : List Reg) (q : Reg) :
    (s.restoreGprs e rs).gpr q = if q ∈ rs then e.gr.get q.toFin else s.gpr q := by
  induction rs generalizing s with
  | nil => simp [State.restoreGprs]
  | cons r rs ih =>
    simp only [State.restoreGprs, ih, List.mem_cons]
    by_cases h1 : q ∈ rs
    · simp [h1]
    · by_cases h2 : q = r
      · simp [h2]
      · simp [h1, h2, State.gpr_setGpr_other]

theorem gpr_restoreGprsLow (s : State) (e : StackEntry) (rs : List Reg) (q : Reg) :
    (s.restoreGprsLow e rs).gpr q
      = if q ∈ rs then setBits (s.gpr q) 32 (bits (e.gr.get q.toFin) 32 32) else s.gpr q := by
  have twice : ∀ (v : DWord) (x : Word), setBits (setBits v 32 x) 32 x = setBits v 32 x := by
    intro v x
    have h := setBits_bits (setBits v 32 x) 32 32 (by omega)
    rwa [bits_setBits_low] at h
  induction rs generalizing s with
  | nil => simp [State.restoreGprsLow]
  | cons r rs ih =>
    simp only [State.restoreGprsLow, ih, List.mem_cons]
    by_cases h2 : q = r
    · subst h2
      by_cases h1 : q ∈ rs <;> simp [h1, twice]
    · by_cases h1 : q ∈ rs <;> simp [h1, h2, State.gpr_setGprLow_other]

theorem ar_restoreArs (s : State) (e : StackEntry) (rs : List Reg) (q : Reg) :
    (s.restoreArs e rs).ar q = if q ∈ rs then e.ar.get q.toFin else s.ar q := by
  induction rs generalizing s with
  | nil => simp [State.restoreArs]
  | cons r rs ih =>
    simp only [State.restoreArs, ih, List.mem_cons]
    by_cases h1 : q ∈ rs
    · simp [h1]
    · by_cases h2 : q = r
      · simp [h2]
      · simp [h1, h2, State.ar_setAr_other]

@[simp] theorem gpr_restoreArs (s : State) (e : StackEntry) (rs : List Reg) (q : Reg) :
    (s.restoreArs e rs).gpr q = s.gpr q := by
  induction rs generalizing s with
  | nil => rfl
  | cons r rs ih => simp [State.restoreArs, ih]

theorem only_restoreGprs {w : Writes} {rs : List Reg} (h : ∀ r ∈ rs, r ∈ w.gprs) (s : State) (e : StackEntry) :
    w.Only s (s.restoreGprs e rs) := by
  induction rs generalizing s with
  | nil => exact Writes.Only.refl w s
  | cons r rs ih => exact (only_setGpr (h r (by simp)) s _).trans (ih (fun q hq => h q (by simp [hq])) _)

theorem only_restoreGprsLow {w : Writes} {rs : List Reg} (h : ∀ r ∈ rs, r ∈ w.gprs) (s : State) (e : StackEntry) :
    w.Only s (s.restoreGprsLow e rs) := by
  induction rs generalizing s with
  | nil => exact Writes.Only.refl w s
  | cons r rs ih => exact (only_setGprLow (h r (by simp)) s _).trans (ih (fun q hq => h q (by simp [hq])) _)

theorem only_restoreArs {w : Writes} {rs : List Reg} (h : ∀ r ∈ rs, r ∈ w.ars) (s : State) (e : StackEntry) :
    w.Only s (s.restoreArs e rs) := by
  induction rs generalizing s with
  | nil => exact Writes.Only.refl w s
  | cons r rs ih => exact (only_setAr (h r (by simp)) s _).trans (ih (fun q hq => h q (by simp [hq])) _)

theorem only_setCrs {w : Writes} {l : List (Reg × Nat)} (h : ∀ p ∈ l, p.1 ∈ w.crs) (s : State) :
    w.Only s (s.setCrs l) := by
  induction l generalizing s with
  | nil => exact Writes.Only.refl w s
  | cons p l ih => exact (only_setCr (h p (by simp)) s _).trans (ih (fun q hq => h q (by simp [hq])) _)

theorem only_setCrsLow {w : Writes} {l : List (Reg × Nat)} (h : ∀ p ∈ l, p.1 ∈ w.crs) (s : State) :
    w.Only s (s.setCrsLow l) := by
  induction l generalizing s with
  | nil => exact Writes.Only.refl w s
  | cons p l ih => exact (only_setCr (h p (by simp)) s _).trans (ih (fun q hq => h q (by simp [hq])) _)

/-! ## Pairs -/

theorem reg_ne_next (r : Reg) : r ≠ r + 1#4 := by revert r; decide

theorem gpr_setPair (s : State) (r : Reg) (q : Quad) :
    (s.setPair r q).gpr r = bits q 0 64 ∧ (s.setPair r q).gpr (r + 1#4) = bits q 64 64 := by
  unfold State.setPair
  rw [State.gpr_setGpr_other _ _ (reg_ne_next r)]
  simp

theorem gpr_setPairLow (s : State) (r : Reg) (a b : Word) :
    (s.setPairLow r a b).gpr r = setBits (s.gpr r) 32 a
      ∧ (s.setPairLow r a b).gpr (r + 1#4) = setBits (s.gpr (r + 1#4)) 32 b := by
  unfold State.setPairLow
  rw [State.gpr_setGprLow_other _ _ (reg_ne_next r), State.gpr_setGprLow_same, State.gpr_setGprLow_same,
    State.gpr_setGprLow_other _ _ (reg_ne_next r).symm]
  exact ⟨rfl, rfl⟩

theorem only_setPair {w : Writes} {r : Reg} (h : r ∈ w.gprs) (h' : r + 1#4 ∈ w.gprs) (s : State) (q : Quad) :
    w.Only s (s.setPair r q) := (only_setGpr h s _).trans (only_setGpr h' _ _)

theorem only_setPairLow {w : Writes} {r : Reg} (h : r ∈ w.gprs) (h' : r + 1#4 ∈ w.gprs) (s : State) (a b : Word) :
    w.Only s (s.setPairLow r a b) := (only_setGprLow h s _).trans (only_setGprLow h' _ _)

/-! ## The linkage stack -/

theorem only_linkageStack {w : Writes} (h : w.stack = true) (s : State) (l : List StackEntry) :
    w.Only s { s with linkageStack := l } :=
  { Writes.Only.refl w s with stack := fun k => absurd (h.symm.trans k) (by decide) }

theorem only_pushEntry {w : Writes} (h : w.stack = true) (h' : 15#4 ∈ w.crs) (s : State) (k : EntryKind) (p : Quad) :
    w.Only s (s.pushEntry k p) := ((only_linkageStack h s _).trans (only_setCr h' _ _)).trans (only_drawn _ _)

theorem only_popEntry {w : Writes} (h : w.stack = true) (h' : 15#4 ∈ w.crs) (s : State) (e : StackEntry) :
    w.Only s (s.popEntry e) := (only_linkageStack h s _).trans (only_setCr h' _ _)

@[simp] theorem State.gpr_pushEntry (s : State) (k : EntryKind) (p : Quad) (q : Reg) :
    (s.pushEntry k p).gpr q = s.gpr q := rfl
@[simp] theorem State.gpr_popEntry (s : State) (e : StackEntry) (q : Reg) :
    (s.popEntry e).gpr q = s.gpr q := rfl
@[simp] theorem State.ar_pushEntry (s : State) (k : EntryKind) (p : Quad) (q : Reg) :
    (s.pushEntry k p).ar q = s.ar q := rfl
@[simp] theorem State.ar_popEntry (s : State) (e : StackEntry) (q : Reg) :
    (s.popEntry e).ar q = s.ar q := rfl
@[simp] theorem State.pushEntry_linkageStack (s : State) (k : EntryKind) (p : Quad) :
    (s.pushEntry k p).linkageStack = s.newEntry k p :: s.linkageStack := rfl
@[simp] theorem State.popEntry_linkageStack (s : State) (e : StackEntry) :
    (s.popEntry e).linkageStack = s.linkageStack.erase e := rfl
@[simp] theorem State.pushEntry_cr15 (s : State) (k : EntryKind) (p : Quad) :
    (s.pushEntry k p).cr 15#4 = (s.newEntry k p).designator := State.cr_setCr_same _ _ _
@[simp] theorem State.popEntry_cr15 (s : State) (e : StackEntry) : (s.popEntry e).cr 15#4 = e.previous :=
  State.cr_setCr_same _ _ _

theorem designatorOf_eq (v : DWord) : designatorOf v = bits v 0 61 ++ 0#3 := by
  have hm : ∀ i, i < 64 → (0xFFFFFFFFFFFFFFF8#64).getMsbD i = decide (i < 61) := by decide
  apply BitVec.eq_of_getMsbD_eq
  intro i hi
  rw [designatorOf, BitVec.getMsbD_and, hm i hi, BitVec.getMsbD_append]
  by_cases h : i < 61
  · simp [h, getMsbD_bits v 0 61 i (by omega), show ¬61 ≤ i by omega]
  · simp [h, show 61 ≤ i by omega]

/-- The current entry is the designated one, or the stack exception is raised. -/
theorem currentEntry_eq (s : State) :
    s.currentEntry = match s.designatedEntry with
      | none => .error (.exception .stack)
      | some e => .ok e := by
  unfold State.currentEntry State.designatedEntry
  rw [designatorOf_eq]
  all_goals rfl

@[simp] theorem designatorOf_designatorOf (v : DWord) : designatorOf (designatorOf v) = designatorOf v := by
  simp only [designatorOf, BitVec.and_assoc, BitVec.and_self]

/-- The entry that has just been added is the current one. -/
theorem currentEntry_pushEntry (s : State) (k : EntryKind) (p : Quad) :
    (s.pushEntry k p).currentEntry = .ok (s.newEntry k p) := by
  simp [State.currentEntry, State.newEntry]

/-- The current entry is listed and designated by control register 15. -/
theorem currentEntry_ok {s : State} {e : StackEntry} (h : s.currentEntry = .ok e) :
    s.linkageStack.find? (fun e => e.designator == designatorOf (s.cr 15#4)) = some e := by
  unfold State.currentEntry at h
  split at h
  · cases h
  · next he => rw [he, Except.ok.inj h]

@[simp] theorem State.pushEntry_psw (s : State) (k : EntryKind) (p : Quad) : (s.pushEntry k p).psw = s.psw := rfl
@[simp] theorem State.popEntry_psw (s : State) (e : StackEntry) : (s.popEntry e).psw = s.psw := rfl

/-! ## Every general register -/

theorem mem_allRegs (r : Reg) : r ∈ allRegs := by revert r; decide

theorem only_gprs {w : Writes} (h : ∀ r, r ∈ w.gprs) (s : State) (v : Vector DWord 16) :
    w.Only s { s with gprs := v } :=
  { Writes.Only.refl w s with gpr := fun r hr => absurd (h r) hr }

/-! ## Storing one place after another -/

theorem SameOutside.refl (ps : List (Nat × Nat)) (m : Memory) : SameOutside ps m m := fun _ _ => rfl

theorem SameOutside.trans {ps : List (Nat × Nat)} {m m' m'' : Memory} (h : SameOutside ps m m')
    (k : SameOutside ps m' m'') : SameOutside ps m m'' := fun a ha => (k a ha).trans (h a ha)

theorem sameOutside_writeBytes {ps : List (Nat × Nat)} {a : Nat} {bs : List Byte} (h : (a, bs.length) ∈ ps)
    (m : Memory) : SameOutside ps m (writeBytes m a bs) := by
  intro x hx
  refine readByte_writeBytes_outside m a bs ?_
  by_contra hc
  exact hx (inRanges_of_mem h (show a ≤ x by omega) (show x < a + bs.length by omega))

theorem mem_unitPlaces {f : Nat → Nat} {size n k : Nat} (h : k < n) : (f k, size) ∈ unitPlaces f size n :=
  List.mem_map.2 ⟨k, List.mem_range.2 h, rfl⟩

/-- New storage and new places on record are all that changes. -/
theorem only_withStores {w : Writes} {s : State} {m : Memory} {l : List Nat} (h : SameOutside w.mem s.mem m)
    (k : RecordsWithin w.mem s.stored l) : w.Only s (s.withStores m l) :=
  { Writes.Only.refl w s with mem := h, stored := k }

theorem recordsWithin_addPlaces {ps : List (Nat × Nat)} {a n : Nat} (h : (a, n) ∈ ps) (l : List Nat) :
    RecordsWithin ps l (addPlaces a n l) :=
  fun _ => ⟨fun k => mem_addPlaces.2 (.inl k), fun k => (mem_addPlaces.1 k).imp_right fun r => inRanges_of_mem h r.1 r.2⟩

theorem storeUnits_same {f : Nat → Nat} {size n : Nat} {us : List (List Byte)} {k : Nat} (m : Memory)
    (hk : k + us.length ≤ n) (hs : ∀ u ∈ us, u.length = size) :
    SameOutside (unitPlaces f size n) m (storeUnits f m us k) := by
  induction us generalizing m k with
  | nil => exact SameOutside.refl _ m
  | cons u us ih =>
    simp only [List.length_cons] at hk
    have hu := hs u (by simp)
    refine (sameOutside_writeBytes ?_ m).trans (ih (writeBytes m (f k) u) (by omega) fun v hv => hs v (by simp [hv]))
    rw [hu]
    exact mem_unitPlaces (by omega)

/-- Units that can be stored are stored one after the other. -/
theorem writeUnits_eq {s : State} {a : DWord} {size n : Nat} {f : Nat → Nat} {us : List (List Byte)} {m : Memory}
    {l : List Nat} {k : Nat} (h : s.StoresAt s.operandSpace a size n f)
    (hm : SameOutside (unitPlaces f size n) s.mem m) (hk : k + us.length ≤ n) (hs : ∀ u ∈ us, u.length = size) :
    ∃ l', (s.withStores m l).writeUnits a size us k = .ok (s.withStores (storeUnits f m us k) l')
      ∧ RecordsWithin (unitPlaces f size n) l l' := by
  induction us generalizing m l k with
  | nil => exact ⟨l, rfl, .refl _ l⟩
  | cons u us ih =>
    simp only [List.length_cons] at hk
    have hu : u.length = size := hs u (by simp)
    have ha : (s.withStores m l).storeAddress (s.withStores m l).operandSpace
        ((s.withStores m l).offset a (k * size)) u.length = .ok (f k) := by
      rw [hu, storeAddress_withStores]
      exact h m hm k (by omega)
    have hp : (f k, u.length) ∈ unitPlaces f size n := by
      rw [hu]
      exact mem_unitPlaces (by omega)
    obtain ⟨l', he, hl⟩ := ih (m := writeBytes m (f k) u) (l := addPlaces (f k) u.length l) (k := k + 1)
      (hm.trans (sameOutside_writeBytes hp m)) (by omega) fun v hv => hs v (by simp [hv])
    refine ⟨l', ?_, (recordsWithin_addPlaces hp l).trans hl⟩
    simp only [State.writeUnits, memWrite_eq ha, res_bind_ok]
    exact he

theorem movedBytes_same {f g : Nat → Nat} {n j k : Nat} (m : Memory) (h : k + j ≤ n) :
    SameOutside (unitPlaces f 1 n) m (movedBytes f g m j k) := by
  induction j generalizing m k with
  | zero => exact SameOutside.refl _ m
  | succ j ih =>
    have hp : (f k, [readByte m (g k)].length) ∈ unitPlaces f 1 n := mem_unitPlaces (by omega)
    exact (sameOutside_writeBytes hp m).trans (ih (writeBytes m (f k) [readByte m (g k)]) (by omega))

/-- Bytes that can be fetched and stored are moved one after the other. -/
theorem moveBytes_eq {s : State} {d sp : Option Space} {a1 a2 : DWord} {n : Nat} {f g : Nat → Nat} {m : Memory}
    {l : List Nat} {j k : Nat} (hg : s.FetchesAt sp a2 n g (unitPlaces f 1 n)) (hf : s.StoresAt d a1 1 n f)
    (hm : SameOutside (unitPlaces f 1 n) s.mem m) (hk : k + j ≤ n) :
    ∃ l', (s.withStores m l).moveBytes d sp a1 a2 j k = .ok (s.withStores (movedBytes f g m j k) l')
      ∧ RecordsWithin (unitPlaces f 1 n) l l' := by
  induction j generalizing m l k with
  | zero => exact ⟨l, rfl, .refl _ l⟩
  | succ j ih =>
    have h1 : (s.withStores m l).fetchAddress sp ((s.withStores m l).offset a2 k) 1 = .ok (g k) := by
      rw [fetchAddress_withStores]
      exact hg m hm k (by omega)
    have h2 : (s.withStores m l).storeAddress d ((s.withStores m l).offset a1 k) 1 = .ok (f k) := by
      have := hf m hm k (by omega)
      rw [Nat.mul_one] at this
      rw [storeAddress_withStores]
      exact this
    have hp : (f k, 1) ∈ unitPlaces f 1 n := mem_unitPlaces (by omega)
    obtain ⟨l', he, hl⟩ := ih (m := writeBytes m (f k) [readByte m (g k)]) (l := addPlaces (f k) 1 l) (k := k + 1)
      (hm.trans (sameOutside_writeBytes (bs := [readByte m (g k)]) hp m)) (by omega)
    refine ⟨l', ?_, (recordsWithin_addPlaces hp l).trans hl⟩
    simp only [State.moveBytes, h1, h2, res_bind_ok]
    exact he

theorem checkFetch_eq {s : State} {sp : Option Space} {a : DWord} {n : Nat} {g : Nat → Nat}
    {ps : List (Nat × Nat)} {j k : Nat} (hg : s.FetchesAt sp a n g ps) (hk : k + j ≤ n) :
    s.checkFetch sp a j k = .ok () := by
  induction j generalizing k with
  | zero => rfl
  | succ j ih =>
    have h1 : s.fetchAddress sp (s.offset a k) 1 = .ok (g k) := hg s.mem (SameOutside.refl _ _) k (by omega)
    simp only [State.checkFetch, h1, res_bind_ok]
    exact ih (by omega)

end Sys2Proof.Machine
end

