-- ==== Sys2Proof/Laws/Steps.lean ====
section
/-! SUPPORT. How a step ends, and the fetch of a halfword. -/

namespace Sys2Proof.Machine

open Sys2Proof

/-! ## Steps -/

/-- Everything that a step to a next state can be: a pending interruption, or an instruction. -/
theorem step_next {s u : State} (h : step s = .next u) :
    s.cpuStatus = .operating ∧ (s.takePending = some (.next u)
      ∨ (s.takePending = none ∧ s.notFetching = none ∧ s.fetchAndRun = .next u)) := by
  unfold step State.act at h
  split at h
  · next ho =>
    refine ⟨ho, ?_⟩
    split at h
    · next hp => exact .inl (h ▸ hp)
    · next hp =>
      split at h
      · next r hn =>
        subst h
        unfold State.notFetching at hn
        repeat' split at hn
        all_goals cases hn
      · next hn => exact .inr ⟨hp, hn, h⟩
  · cases h

/-- Everything that taking a pending interruption can be: the interruption of a class, or a program interruption with its
exception. -/
theorem takeInterruption_cases (s : State) (c : PendingInterruption) :
    (∃ k, s.takeInterruption c = s.interrupt k s.psw id)
      ∨ ∃ e, c = .program e ∧ s.takeInterruption c = s.drawn.programInterruption e (anyLengthCode s.draws) s.ia := by
  cases c with
  | program e => exact .inr ⟨e, rfl, rfl⟩
  | restart => exact .inl ⟨.restart, rfl⟩
  | external => exact .inl ⟨.external, rfl⟩
  | supervisorCall => exact .inl ⟨.supervisorCall, rfl⟩
  | machineCheck => exact .inl ⟨.machineCheck, rfl⟩
  | inputOutput => exact .inl ⟨.inputOutput, rfl⟩

/-- An instruction-length code that is taken where none is known is 1, 2 or 3. -/
theorem anyLengthCode_mem (n : Nat) : anyLengthCode n ∈ [1#2, 2#2, 3#2] := by
  unfold anyLengthCode
  obtain h | h | h : (Config.lengthCode n).toNat % 3 = 0 ∨ (Config.lengthCode n).toNat % 3 = 1
      ∨ (Config.lengthCode n).toNat % 3 = 2 := by omega
  all_goals rw [h]; decide

/-! ## The fetch of a halfword -/

theorem fetchHalf_eq {s : State} {a : DWord} {abs : Nat} (h : s.fetchAddress s.fetchSpace a 2 = .ok abs)
    (ho : s.fetchIsOpen abs 2 = false) : s.fetchHalf a = .ok (readBytes s.mem abs 2) := by
  simp [State.fetchHalf, h, ho]

theorem fetchHalf_open {s : State} {a : DWord} {abs : Nat} (h : s.fetchAddress s.fetchSpace a 2 = .ok abs)
    (ho : s.fetchIsOpen abs 2 = true) : s.fetchHalf a = .error (.refused .storeIntoInstructionStream) := by
  simp [State.fetchHalf, h, ho]

theorem fetchIsOpen_iff {s : State} {abs n : Nat} :
    s.fetchIsOpen abs n = true ↔ s.params.streamStores = .unsettled ∧ ∃ a ∈ s.stored, abs ≤ a ∧ a < abs + n := by
  simp [State.fetchIsOpen]

end Sys2Proof.Machine
end

