-- ==== Sys2Proof/Laws/Tracing.lean ====
section
/-! SUPPORT. The trace entry that an instruction makes by the table of 44_trace_trap_monitor.md rule R265, and the tracing
operation that its meaning runs: the two agree, instruction by instruction. -/

namespace Sys2Proof.Machine

open Sys2Proof

/-- The state with the entry that the table gives is one that tracing has or has not changed. -/
theorem TracedTo.traced {i : Instr} {s u : State} (h : TracedTo i s u) : Traced s u := by
  unfold TracedTo at h
  split at h
  · exact .inl h
  · exact .inr ⟨_, h⟩

theorem ne_iff_switches64 (m n : AMode) : (m.is64 ≠ n.is64) ↔ switches64 m n = true := by simp [switches64]

theorem tracedTo_bakr {s u : State} {r1 r2 : Reg} :
    TracedTo (.bakr r1 r2) s u ↔ s.traceRegisterBranch r2 = .ok u := by
  unfold TracedTo tracedEntry State.traceRegisterBranch State.traceBranch
  by_cases h : r2 = 0#4 <;> by_cases hb : s.branchTraceOn = true <;> simp [h, hb, eq_comm (a := u)]

theorem tracedTo_balr {s u : State} {r1 r2 : Reg} :
    TracedTo (.balr r1 r2) s u ↔ s.traceRegisterBranch r2 = .ok u := tracedTo_bakr (r1 := r1)

theorem tracedTo_basr {s u : State} {r1 r2 : Reg} :
    TracedTo (.basr r1 r2) s u ↔ s.traceRegisterBranch r2 = .ok u := tracedTo_bakr (r1 := r1)

theorem tracedTo_bassm {s u : State} {r1 r2 : Reg} :
    TracedTo (.bassm r1 r2) s u ↔
      (if r2 = 0#4 then (.ok s : Res State)
        else s.traceModeBranch (modeOfRegister (s.gpr r2)) (addressOfRegister (s.gpr r2))) = .ok u := by
  unfold TracedTo tracedEntry State.traceModeBranch State.traceModeSwitch
  simp only [ne_iff_switches64]
  by_cases h : r2 = 0#4 <;> by_cases hb : s.branchTraceOn = true <;> by_cases hm : s.modeTraceOn = true <;>
    by_cases hs : switches64 s.amode (modeOfRegister (s.gpr r2)) = true <;> simp [h, hb, hm, hs, eq_comm (a := u)]

theorem tracedTo_bsm {s u : State} {r1 r2 : Reg} :
    TracedTo (.bsm r1 r2) s u ↔
      (if r2 = 0#4 then (.ok s : Res State) else s.traceModeSwitch (modeOfRegister (s.gpr r2))) = .ok u := by
  unfold TracedTo tracedEntry State.traceModeSwitch
  simp only [ne_iff_switches64]
  by_cases h : r2 = 0#4 <;> by_cases hm : s.modeTraceOn = true <;>
    by_cases hs : switches64 s.amode (modeOfRegister (s.gpr r2)) = true <;> simp [h, hm, hs, eq_comm (a := u)]

theorem amode_eq_a64 {m : AMode} (h : m.is64 = true) : m = .a64 := by
  cases m <;> first | rfl | cases h

@[simp] theorem is64_a24 : AMode.a24.is64 = false := rfl
@[simp] theorem is64_a31 : AMode.a31.is64 = false := rfl
@[simp] theorem is64_a64 : AMode.a64.is64 = true := rfl

theorem tracedTo_sam24 {s u : State} (h : s.ia.toNat < 2 ^ 24) :
    TracedTo .sam24 s u ↔ s.traceModeSwitch .a24 = .ok u := by
  unfold TracedTo tracedEntry State.traceModeSwitch switches64
  simp only [h, true_and]
  by_cases hm : s.modeTraceOn = true <;> by_cases h6 : s.amode.is64 = true
  · rw [amode_eq_a64 h6]
    simp [hm]
  all_goals simp [hm, h6, eq_comm (a := u)]

theorem tracedTo_sam31 {s u : State} (h : s.ia.toNat < 2 ^ 31) :
    TracedTo .sam31 s u ↔ s.traceModeSwitch .a31 = .ok u := by
  unfold TracedTo tracedEntry State.traceModeSwitch switches64
  simp only [h, true_and]
  by_cases hm : s.modeTraceOn = true <;> by_cases h6 : s.amode.is64 = true
  · rw [amode_eq_a64 h6]
    simp [hm]
  all_goals simp [hm, h6, eq_comm (a := u)]

theorem tracedTo_sam64 {s u : State} : TracedTo .sam64 s u ↔ s.traceModeSwitch .a64 = .ok u := by
  unfold TracedTo tracedEntry State.traceModeSwitch switches64
  by_cases hm : s.modeTraceOn = true <;> by_cases h6 : s.amode.is64 = true <;> simp [hm, h6, eq_comm (a := u)]

theorem tracedTo_pr {s u : State} {e : StackEntry} (h : s.currentEntry = .ok e) :
    TracedTo .pr s u ↔ s.traceModeSwitch (pswMode e.psw) = .ok u := by
  unfold TracedTo tracedEntry State.traceModeSwitch
  simp only [h, ne_iff_switches64]
  by_cases hm : s.modeTraceOn = true <;> by_cases hs : switches64 s.amode (pswMode e.psw) = true <;>
    simp [hm, hs, eq_comm (a := u)]

theorem mode_is64 (e : EntryTableEntry) : e.mode.is64 = e.g := by
  unfold EntryTableEntry.mode
  cases e.g <;> cases e.mode31 <;> rfl

/-- PC traces a mode switch, which a basic call never makes. -/
theorem tracedTo_pc {s u : State} {b : Reg} {d : Nat}
    (h : (s.findEntry (s.address b d)).stacking = true ∨ (s.findEntry (s.address b d)).g = s.amode.is64) :
    TracedTo (.pc b d) s u ↔ s.traceModeSwitch (s.findEntry (s.address b d)).mode = .ok u := by
  unfold TracedTo tracedEntry State.traceModeSwitch switches64
  simp only [mode_is64]
  generalize s.findEntry (s.address b d) = e at h
  rcases h with h | h <;> by_cases hm : s.modeTraceOn = true <;> by_cases hs : s.amode.is64 = e.g <;>
    simp_all [eq_comm (a := u)]

theorem tracedTo_trap2 {s u : State} :
    TracedTo .trap2 s u ↔ s.traceBranch .a31 (AMode.a31.trunc s.currentTrapArea.routine) = .ok u := by
  unfold TracedTo tracedEntry State.traceBranch
  by_cases hb : s.branchTraceOn = true <;> simp [hb, eq_comm (a := u)]

theorem tracedTo_trap4 {s u : State} {b : Reg} {d : Nat} :
    TracedTo (.trap4 b d) s u ↔ s.traceBranch .a31 (AMode.a31.trunc s.currentTrapArea.routine) = .ok u :=
  tracedTo_trap2

theorem tracedTo_rp {s u : State} {b : Reg} {d : Nat} :
    TracedTo (.rp b d) s u ↔ s.traceModeBranch s.resumedMode s.resumedAddress = .ok u := by
  unfold TracedTo tracedEntry State.traceModeBranch State.traceModeSwitch
  simp only [ne_iff_switches64]
  by_cases hb : s.branchTraceOn = true <;> by_cases hm : s.modeTraceOn = true <;>
    by_cases hs : switches64 s.amode s.resumedMode = true <;> simp [hb, hm, hs, eq_comm (a := u)]

end Sys2Proof.Machine
end

