-- ==== Sys2Proof/Tests/Slice0.lean ====
section
/-! SUPPORT. Tests: ill-formed instructions refused, one word of every row decoded, single steps with the results of
95_test_vectors.md, and a witness for the hypotheses of every obligation. -/

namespace Sys2Proof.Tests

open Sys2Proof Sys2Proof.Machine

-- One theorem after another: each kernel evaluation would else hold a thread.
set_option Elab.async false

/-! ## Well-formedness -/

theorem test_wf_refuses_short_displacement :
    Instr.wf (.lpsw 1#4 4096) = false ∧ Instr.wf (.lpswe 1#4 4096) = false
    ∧ Instr.wf (.lra 1#4 0#4 0#4 4096) = false
    ∧ Instr.wf (.strag 1#4 4096 1#4 0) = false ∧ Instr.wf (.strag 1#4 0 1#4 4096) = false
    ∧ Instr.wf (.tprot 1#4 4096 1#4 0) = false ∧ Instr.wf (.tprot 1#4 0 1#4 4096) = false
    ∧ Instr.wf (.lctl 1#4 1#4 1#4 4096) = false ∧ Instr.wf (.stctl 1#4 1#4 1#4 4096) = false
    ∧ Instr.wf (.spx 1#4 4096) = false ∧ Instr.wf (.sigp 1#4 1#4 1#4 4096) = false
    ∧ Instr.wf (.pc 1#4 4096) = false ∧ Instr.wf (.rp 1#4 4096) = false
    ∧ Instr.wf (.trace 1#4 1#4 1#4 4096) = false ∧ Instr.wf (.trap4 1#4 4096) = false
    ∧ Instr.wf (.mc 1#4 4096 0#8) = false := by decide

theorem test_wf_refuses_two_displacements :
    Instr.wf (.mvcp 1#4 1#4 1#4 4096 1#4 0) = false ∧ Instr.wf (.mvcp 1#4 1#4 1#4 0 1#4 4096) = false
    ∧ Instr.wf (.mvcs 1#4 1#4 1#4 4096 1#4 0) = false ∧ Instr.wf (.mvcs 1#4 1#4 1#4 0 1#4 4096) = false
    ∧ Instr.wf (.mvck 1#4 1#4 1#4 4096 1#4 0) = false ∧ Instr.wf (.mvck 1#4 1#4 1#4 0 1#4 4096) = false
    ∧ Instr.wf (.plo 1#4 1#4 1#4 4096 1#4 0) = false ∧ Instr.wf (.plo 1#4 1#4 1#4 0 1#4 4096) = false := by decide

theorem test_wf_refuses_long_displacement :
    Instr.wf (.lrag 1#4 0#4 0#4 524288) = false ∧ Instr.wf (.lrag 1#4 0#4 0#4 (-524289)) = false
    ∧ Instr.wf (.lctlg 1#4 0#4 0#4 524288) = false ∧ Instr.wf (.stctg 1#4 0#4 0#4 (-524289)) = false
    ∧ Instr.wf (.tracg 1#4 0#4 0#4 524288) = false ∧ Instr.wf (.lpq 2#4 0#4 0#4 (-524289)) = false
    ∧ Instr.wf (.stpq 2#4 0#4 0#4 524288) = false ∧ Instr.wf (.cdsg 2#4 4#4 0#4 (-524289)) = false := by decide

/-! ## Decoding: each word is written out from 30_encoding.md rules R141 and R149 -/

/-- The bytes are exactly this instruction. -/
def decodesTo (bs : List Byte) (i : Instr) : Bool :=
  match decode bs with
  | .ok (j, []) => j == i
  | _ => false

/-- The bytes are refused for this reason. -/
def rejects (bs : List Byte) (e : DecodeError) : Bool :=
  match decode bs with
  | .ok _ => false
  | .error f => f == e

theorem test_decode_psw :
    decodesTo [0x82#8, 0x00#8, 0x90#8, 0x08#8] (.lpsw 9#4 8) = true
    ∧ decodesTo [0xB2#8, 0xB2#8, 0x8F#8, 0xF0#8] (.lpswe 8#4 0xFF0) = true
    ∧ decodesTo [0xB9#8, 0x8D#8, 0x00#8, 0x12#8] (.epsw 1#4 2#4) = true
    ∧ decodesTo [0x01#8, 0x0C#8] .sam24 = true ∧ decodesTo [0x01#8, 0x0D#8] .sam31 = true
    ∧ decodesTo [0x01#8, 0x0E#8] .sam64 = true := by decide

theorem test_decode_translation :
    decodesTo [0xB1#8, 0x3A#8, 0x60#8, 0x01#8] (.lra 3#4 10#4 6#4 1) = true
    ∧ decodesTo [0xE3#8, 0x2A#8, 0x6F#8, 0xFF#8, 0xFF#8, 0x03#8] (.lrag 2#4 10#4 6#4 (-1)) = true
    ∧ decodesTo [0xE5#8, 0x02#8, 0x71#8, 0x23#8, 0x64#8, 0x56#8] (.strag 7#4 0x123 6#4 0x456) = true
    ∧ decodesTo [0xE5#8, 0x01#8, 0x71#8, 0x23#8, 0x64#8, 0x56#8] (.tprot 7#4 0x123 6#4 0x456) = true
    ∧ decodesTo [0xB9#8, 0x05#8, 0x00#8, 0x12#8] (.lurag 1#4 2#4) = true
    ∧ decodesTo [0xB9#8, 0x25#8, 0x00#8, 0x12#8] (.sturg 1#4 2#4) = true := by decide

theorem test_decode_control :
    decodesTo [0xB7#8, 0x89#8, 0x50#8, 0x08#8] (.lctl 8#4 9#4 5#4 8) = true
    ∧ decodesTo [0xB6#8, 0x89#8, 0x50#8, 0x0C#8] (.stctl 8#4 9#4 5#4 12) = true
    ∧ decodesTo [0xEB#8, 0x12#8, 0x50#8, 0x08#8, 0x01#8, 0x2F#8] (.lctlg 1#4 2#4 5#4 0x1008) = true
    ∧ decodesTo [0xEB#8, 0x89#8, 0x50#8, 0x08#8, 0x80#8, 0x25#8] (.stctg 8#4 9#4 5#4 (-524280)) = true
    ∧ decodesTo [0xB9#8, 0x9D#8, 0x00#8, 0x30#8] (.esea 3#4) = true
    ∧ decodesTo [0xB2#8, 0x10#8, 0x50#8, 0x04#8] (.spx 5#4 4) = true
    ∧ decodesTo [0xB2#8, 0xB1#8, 0x00#8, 0x00#8] .stfl = true
    ∧ decodesTo [0xAE#8, 0x12#8, 0x30#8, 0x12#8] (.sigp 1#4 2#4 3#4 0x12) = true := by decide

theorem test_decode_linkage :
    decodesTo [0xB2#8, 0x18#8, 0x51#8, 0x23#8] (.pc 5#4 0x123) = true
    ∧ decodesTo [0xB2#8, 0x40#8, 0x00#8, 0x12#8] (.bakr 1#4 2#4) = true
    ∧ decodesTo [0x01#8, 0x01#8] .pr = true
    ∧ decodesTo [0xB2#8, 0x4A#8, 0x00#8, 0x25#8] (.esta 2#4 5#4) = true
    ∧ decodesTo [0xB2#8, 0x49#8, 0x00#8, 0x25#8] (.ereg 2#4 5#4) = true
    ∧ decodesTo [0xB9#8, 0x0E#8, 0x00#8, 0x25#8] (.eregg 2#4 5#4) = true := by decide

theorem test_decode_branches :
    decodesTo [0x05#8, 0xEF#8] (.balr 14#4 15#4) = true ∧ decodesTo [0x0D#8, 0xEF#8] (.basr 14#4 15#4) = true
    ∧ decodesTo [0x0C#8, 0xEF#8] (.bassm 14#4 15#4) = true ∧ decodesTo [0x0B#8, 0x0E#8] (.bsm 0#4 14#4) = true
    ∧ decodesTo [0xB2#8, 0x5A#8, 0x00#8, 0x12#8] (.bsa 1#4 2#4) = true
    ∧ decodesTo [0xB2#8, 0x58#8, 0x00#8, 0x12#8] (.bsg 1#4 2#4) = true
    ∧ decodesTo [0xB2#8, 0x77#8, 0x51#8, 0x23#8] (.rp 5#4 0x123) = true := by decide

theorem test_decode_monitor :
    decodesTo [0x99#8, 0x24#8, 0x50#8, 0x10#8] (.trace 2#4 4#4 5#4 16) = true
    ∧ decodesTo [0xEB#8, 0x24#8, 0x50#8, 0x10#8, 0x00#8, 0x0F#8] (.tracg 2#4 4#4 5#4 16) = true
    ∧ decodesTo [0x01#8, 0xFF#8] .trap2 = true
    ∧ decodesTo [0xB2#8, 0xFF#8, 0x51#8, 0x23#8] (.trap4 5#4 0x123) = true
    ∧ decodesTo [0xAF#8, 0x02#8, 0x72#8, 0x34#8] (.mc 7#4 0x234 2#8) = true := by decide

theorem test_decode_moves :
    decodesTo [0xDA#8, 0x12#8, 0x31#8, 0x23#8, 0x44#8, 0x56#8] (.mvcp 1#4 2#4 3#4 0x123 4#4 0x456) = true
    ∧ decodesTo [0xDB#8, 0x12#8, 0x31#8, 0x23#8, 0x44#8, 0x56#8] (.mvcs 1#4 2#4 3#4 0x123 4#4 0x456) = true
    ∧ decodesTo [0xD9#8, 0x12#8, 0x31#8, 0x23#8, 0x44#8, 0x56#8] (.mvck 1#4 2#4 3#4 0x123 4#4 0x456) = true
    ∧ decodesTo [0xE3#8, 0x2A#8, 0x60#8, 0x10#8, 0x00#8, 0x8F#8] (.lpq 2#4 10#4 6#4 16) = true
    ∧ decodesTo [0xE3#8, 0x2A#8, 0x60#8, 0x10#8, 0x00#8, 0x8E#8] (.stpq 2#4 10#4 6#4 16) = true
    ∧ decodesTo [0xEB#8, 0x24#8, 0x60#8, 0x10#8, 0x00#8, 0x3E#8] (.cdsg 2#4 4#4 6#4 16) = true
    ∧ decodesTo [0xEE#8, 0x13#8, 0x21#8, 0x23#8, 0x44#8, 0x56#8] (.plo 1#4 3#4 2#4 0x123 4#4 0x456) = true
    ∧ decodesTo [0xB2#8, 0x54#8, 0x00#8, 0x12#8] (.mvpg 1#4 2#4) = true
    ∧ decodesTo [0xB2#8, 0x59#8, 0x00#8, 0x12#8] (.iesbe 1#4 2#4) = true := by decide

theorem test_decode_refuses :
    rejects [] .truncated = true ∧ rejects [0xB2#8, 0x54#8, 0x00#8] .truncated = true
    ∧ rejects [0x01#8, 0x02#8] .unknown = true ∧ rejects [0x00#8, 0x00#8] .unknown = true
    ∧ rejects [0xB2#8, 0xA5#8, 0#8, 0#8] .unknown = true
    ∧ rejects [0xE3#8, 0#8, 0#8, 0#8, 0#8, 0x04#8] .unknown = true := by decide

/-! ## States for the tests -/

/-- The common start state of 95_test_vectors.md section 9. -/
abbrev start : State := State.reset

/-- The start state in 31-bit addressing mode. -/
def start31 : State := start.withPsw 0x00000000800000000000000000002000#128

/-- The start state in 24-bit addressing mode. -/
def start24 : State := start.withPsw 0x00000000000000000000000000002000#128

/-- The start state with DAT on, in primary-space mode. -/
def startDat : State := start.withPsw 0x04000001800000000000000000002000#128

/-- The start state in the problem state. -/
def startProblem : State := start.withPsw 0x00010001800000000000000000002000#128

/-- General registers set. -/
def gprsOf (s : State) : List (Reg × DWord) → State
  | [] => s
  | (r, v) :: l => gprsOf (s.setGpr r v) l

/-- Control registers set. -/
def crsOf (s : State) : List (Reg × DWord) → State
  | [] => s
  | (r, v) :: l => crsOf (s.setCr r v) l

/-- A number placed in n bytes at an absolute address, from outside the machine. -/
def put (s : State) (a n v : Nat) : State := s.withMem (writeBytes s.mem a (toBytes n v))

/-- Doublewords stored at absolute addresses. -/
def putAll (s : State) : List (Nat × Nat) → State
  | [] => s
  | (a, v) :: l => putAll (put s a 8 v) l

/-- The number in n bytes at an absolute address. -/
def got (s : State) (a n : Nat) : Nat := ofBytes (readBytes s.mem a n)

/-- The outcome is a next state for which p holds. -/
def nextIs (r : Result) (p : State → Bool) : Bool :=
  match r with
  | .next t => p t
  | _ => false

/-- The outcome is this fault. -/
def faultIs (r : Result) (f : Fault) : Bool :=
  match r with
  | .fault g => g == f
  | _ => false

/-- The outcome is this refusal. -/
def refusedIs (r : Result) (f : Refusal) : Bool :=
  match r with
  | .refused g => g == f
  | _ => false

theorem next_of {r : Result} {p : State → Bool} (h : nextIs r p = true) : ∃ t, r = .next t := by
  cases r with
  | next t => exact ⟨t, rfl⟩
  | fault _ => cases h
  | refused _ => cases h

/-- The program new PSW of programs E and F of 95_test_vectors.md. -/
def withHandler (s : State) : State := put s 464 16 0x00020001800000000000000000000B00

/-- The translation tables of 95_test_vectors.md section 2. -/
def withTables (s : State) : State :=
  putAll s
    [(0x10008, 0x20000), (0x10010, 0x20), (0x10018, 0x20200), (0x10020, 0x20004), (0x10028, 0x20800),
     (0x11000, 0), (0x11008, 0x20000), (0x20118, 0x0ABCD000), (0x20120, 0x400), (0x20128, 0x55200), (0x20130, 0x66800),
     (0x20138, 0x66100), (0x20140, 0x123456000), (0x30018, 0x10007), (0x30020, 0x10047), (0x40000, 0x2C),
     (0x50010, 0x6000F), (0x60010, 0x7000B), (0x70010, 0x10007), (0x100000008, 0x20),
     (0x100000010, 0x100001000), (0x100001000, 0x400)]

/-- ASCE A of 95_test_vectors.md section 2 as the primary one, with the tables. -/
def tabled (s : State) : State := withTables (s.setCr 1#4 0x10000#64)

/-! ## Translation (95_test_vectors.md section 2, vectors T1 to T12) -/

/-- A walk that finds this. -/
def walks (va asce : DWord) (w : Walk) : Bool :=
  match (withTables start).walk va asce with
  | .ok x => x == w
  | .error _ => false

/-- A walk that stops so. -/
def walkStops (va asce : DWord) (e : Stop) : Bool :=
  match (withTables start).walk va asce with
  | .ok _ => false
  | .error x => x == e

theorem test_walk_available :
    walks 0x123456#64 0x10000#64 (.available 0x0ABCD456#64 false) = true
    ∧ walks 0x180123456#64 0x30004#64 (.available 0x0ABCD456#64 false) = true
    ∧ walks 0xFEDCBA9876543210#64 0x123456789020#64 (.available 0xFEDCBA9876543210#64 false) = true
    ∧ walks 0x125010#64 0x10000#64 (.available 0x55010#64 true) = true
    ∧ walks 0x323456#64 0x10000#64 (.available 0x0ABCD456#64 true) = true
    ∧ walks 0x0040080100123456#64 0x5000F#64 (.available 0x0ABCD456#64 false) = true
    ∧ walks 0x220123456#64 0x30004#64 (.available 0x0ABCD456#64 false) = true := by decide +kernel

theorem test_walk_exceptions :
    walks 0x80000000#64 0x10000#64 (.other .asceType) = true
    ∧ walks 0x7FFFF456#64 0x10000#64 (.other .segment) = true
    ∧ walks 0x40000000000#64 0x30004#64 (.other .asceType) = true
    ∧ walks 0x3FFFFFFF000#64 0x30004#64 (.other .regionThird) = true
    ∧ walks 0x124000#64 0x10000#64 (.pageInvalid 0x20120#64) = true
    ∧ walks 0x200000#64 0x10000#64 (.segmentInvalid 0x10010#64) = true
    ∧ walks 0x1000#64 0x4000C#64 (.other .regionFirst) = true
    ∧ walks 0x200123456#64 0x30004#64 (.other .segment) = true
    ∧ walks 0x20000000#64 0x10000#64 (.other .segment) = true := by decide +kernel

theorem test_walk_stops :
    walkStops 0x400000#64 0x10000#64 (.exception .translationSpecification) = true
    ∧ walkStops 0x500000#64 0x10000#64 (.fault .pageTableOriginUnsettled) = true
    ∧ walkStops 0x126000#64 0x10000#64 (.exception .translationSpecification) = true
    ∧ walkStops 0x127000#64 0x10000#64 (.exception .translationSpecification) = true
    ∧ walkStops 0x20000000#64 0x10001#64 (.fault .tableAddressUnsettled) = true := by decide +kernel

/-! ## PSW instructions (95_test_vectors.md section 4) -/

theorem test_lpsw_expands :
    nextIs (exec (.lpsw 9#4 0) (put (gprsOf start [(9#4, 0x3300#64)]) 0x3300 8 0x070D100000FFFFFE)) (fun t =>
      t.psw == 0x07051000000000000000000000FFFFFE#128) = true := by decide +kernel

theorem test_lpsw_bit_12_zero_is_open :
    faultIs (exec (.lpsw 9#4 0) (put (gprsOf start [(9#4, 0x3300#64)]) 0x3300 8 0x0700000080004000))
      .lpswBit12Unsettled = true := by decide +kernel

theorem test_lpswe_loads :
    nextIs (exec (.lpswe 9#4 0) (put (gprsOf start [(9#4, 0x3300#64)]) 0x3300 16 0x00000001800000000000000100002000))
      (fun t => t.psw == 0x00000001800000000000000100002000#128) = true := by decide +kernel

theorem test_lpswe_bit_12_one_is_invalid :
    faultIs (exec (.lpswe 9#4 0) (put (gprsOf start [(9#4, 0x3300#64)]) 0x3300 16
      0x00080000800000000000000000000000)) .invalidPsw = true := by decide +kernel

/-- Vector P5: both registers. -/
theorem test_epsw_both :
    nextIs (exec (.epsw 1#4 2#4) (gprsOf (start.withPsw 0x07042001800000000000000000012340#128)
      [(1#4, 0xFFFFFFFFFFFFFFFF#64), (2#4, 0xFFFFFFFFFFFFFFFF#64)])) (fun t =>
      t.gpr 1#4 == 0xFFFFFFFF07042001#64 && t.gpr 2#4 == 0xFFFFFFFF80000000#64) = true := by decide +kernel

/-- Vector P6: register 0 is not loaded. -/
theorem test_epsw_first_only :
    nextIs (exec (.epsw 1#4 0#4) (gprsOf (start.withPsw 0x07042001800000000000000000012340#128) [(0#4, 5#64)]))
      (fun t => t.gpr 1#4 == 0x07042001#64 && t.gpr 0#4 == 5#64) = true := by decide +kernel

theorem test_sam24_sets_mode :
    nextIs (exec .sam24 start) (fun t => t.psw == 0x00000000000000000000000000002000#128) = true := by decide +kernel

theorem test_sam24_address_too_large :
    nextIs (exec .sam24 (withHandler (start.withPsw 0x00000001800000000000000001000000#128))) (fun t =>
      got t 140 4 == 0x00020006 && got t 336 16 == 0x00000001800000000000000001000000) = true := by decide +kernel

theorem test_sam31_sets_mode :
    nextIs (exec .sam31 start) (fun t => t.psw == 0x00000000800000000000000000002000#128) = true := by decide +kernel

/-- 44_trace_trap_monitor.md rule R263 (vector R3): the mode-switch entry of SAM64 in 31-bit mode with mode tracing. -/
theorem test_sam64_traced :
    nextIs (exec .sam64 ((start31.advance 2).setCr 12#4 0x4000000000005000#64)) (fun t =>
      t.psw == 0x00000001800000000000000000002002#128 && got t 0x5000 8 == 0x5130000080002002
        && t.cr 12#4 == 0x4000000000005008#64) = true := by decide +kernel

/-- STURG at 2000 that stores EPSW at 2004, the next instruction. -/
def storesNext : State :=
  gprsOf (put start 0x2000 4 0xB9250012) [(1#4, 0xB9250012B98D0012#64), (2#4, 0x2000#64)]

/-- 20_memory.md rule R120, decision D24: the next step refuses, unless the parameter has the store seen. -/
theorem test_store_into_stream :
    nextIs (step storesNext) (fun t => t.stored == List.range' 0x2000 8
      && refusedIs (step t) .storeIntoInstructionStream
      && nextIs (step { t with params := { t.params with streamStores := .seen } }) fun u =>
        u.gpr 2#4 == 0x80000000#64) = true := by decide +kernel

/-! ## Translation instructions (95_test_vectors.md section 3, program A, program E) -/

/-- Vector L1. -/
theorem test_lra_31 :
    nextIs (exec (.lra 2#4 0#4 6#4 0) (gprsOf (tabled start31) [(2#4, 0xFFFFFFFF00000000#64), (6#4, 0x123456#64)]))
      (fun t => t.gpr 2#4 == 0xFFFFFFFF0ABCD456#64 && t.cc == 0#2) = true := by decide +kernel

/-- Vector L12. -/
theorem test_lra_31_entry_above :
    nextIs (exec (.lra 2#4 0#4 6#4 0) (gprsOf ((tabled start31).setCr 1#4 0x100000000#64)
      [(2#4, 0xFFFFFFFF00000000#64), (6#4, 0x200000#64)]))
      (fun t => t.gpr 2#4 == 0xFFFFFFFF80000011#64 && t.cc == 3#2) = true := by decide +kernel

/-- Vector L8. -/
theorem test_lrag_wide :
    nextIs (exec (.lrag 2#4 0#4 6#4 0) (gprsOf (tabled start31) [(2#4, 0xFFFFFFFF00000000#64), (6#4, 0x128789#64)]))
      (fun t => t.gpr 2#4 == 0x123456789#64 && t.cc == 0#2) = true := by decide +kernel

/-- Vector L15. -/
theorem test_lrag_region_first :
    nextIs (exec (.lrag 2#4 0#4 6#4 0) (gprsOf ((tabled start).setCr 1#4 0x4000C#64)
      [(2#4, 0xFFFFFFFF00000000#64), (6#4, 0x1000#64)]))
      (fun t => t.gpr 2#4 == 0xFFFFFFFF80000039#64 && t.cc == 3#2) = true := by decide +kernel

/-- Program A. -/
theorem test_strag_stores :
    nextIs (exec (.strag 7#4 0 6#4 0) (gprsOf (tabled start) [(6#4, 0x123456#64), (7#4, 0x3100#64)])) (fun t =>
      got t 0x3100 8 == 0x0ABCD456 && t.psw == start.psw) = true := by decide +kernel

/-- Program E: the interruption (what it stores holds a free value). -/
theorem test_strag_page_invalid :
    nextIs (exec (.strag 7#4 0 6#4 0)
      (gprsOf (withHandler (tabled (start.advance 6))) [(6#4, 0x124000#64), (7#4, 0x3100#64)])) (fun t =>
      t.psw == 0x00020001800000000000000000000B00#128 && t.gprs == (gprsOf start [(6#4, 0x124000#64), (7#4, 0x3100#64)]).gprs)
      = true := by decide +kernel

/-- 41_translation_instructions.md rule R193: a protected page. -/
theorem test_tprot_protected :
    nextIs (exec (.tprot 6#4 0 0#4 0) (gprsOf (tabled startDat) [(6#4, 0x125000#64)])) (fun t => t.cc == 1#2) = true
    ∧ nextIs (exec (.tprot 6#4 0 0#4 0) (gprsOf (tabled startDat) [(6#4, 0x123000#64)])) (fun t => t.cc == 0#2)
      = true
    ∧ nextIs (exec (.tprot 6#4 0 0#4 0) (gprsOf (tabled startDat) [(6#4, 0x124000#64)])) (fun t => t.cc == 3#2)
      = true := by decide +kernel

/-- 41_translation_instructions.md rules R194, R195: a doubleword at a real address. -/
theorem test_lurag_sturg :
    nextIs (exec (.lurag 1#4 0#4) (put (gprsOf start [(0#4, 0x3000#64)]) 0x3000 8 0x1122334455667788))
      (fun t => t.gpr 1#4 == 0x1122334455667788#64) = true
    ∧ nextIs (exec (.sturg 1#4 2#4)
      (put (gprsOf start [(1#4, 0x1122334455667788#64), (2#4, 0x3008#64)]) 0x3000 8 0))
      (fun t => got t 0x3008 8 == 0x1122334455667788 && got t 0x3000 8 == 0) = true := by decide +kernel

/-! ## Control instructions (95_test_vectors.md section 5) -/

/-- Vector C5: the range 15, 0, 1. -/
theorem test_lctl_wraps :
    nextIs (exec (.lctl 15#4 1#4 5#4 0) (put (put (gprsOf (start.setCr 0#4 0x1111111122222222#64) [(5#4, 0x3000#64)])
      0x3000 8 0xAAAAAAAABBBBBBBB) 0x3008 4 0xCCCCCCCC)) (fun t =>
      t.cr 15#4 == 0xAAAAAAAA#64 && t.cr 0#4 == 0x11111111BBBBBBBB#64 && t.cr 1#4 == 0xCCCCCCCC#64
        && t.cr 2#4 == 0#64) = true := by decide +kernel

/-- Vector C2. -/
theorem test_stctl_low_half :
    nextIs (exec (.stctl 1#4 1#4 5#4 0) ((put (gprsOf start [(5#4, 0x3000#64)]) 0x3000 8 0).setCr 1#4
      0x0000000100010007#64))
      (fun t => got t 0x3000 8 == 0x0001000700000000) = true := by decide +kernel

/-- Vector C3. -/
theorem test_lctlg_loads :
    nextIs (exec (.lctlg 1#4 1#4 5#4 0) (put (gprsOf start [(5#4, 0x3000#64)]) 0x3000 8 0x10000)) (fun t =>
      t.cr 1#4 == 0x10000#64) = true := by decide +kernel

/-- Vector C4. -/
theorem test_stctg_stores :
    nextIs (exec (.stctg 8#4 8#4 5#4 0) ((gprsOf start [(5#4, 0x3000#64)]).setCr 8#4 0x00ABFFFF#64)) (fun t =>
      got t 0x3000 8 == 0x00ABFFFF) = true := by decide +kernel

/-- Vector E1. -/
theorem test_esea_exchanges :
    nextIs (exec (.esea 3#4) ((gprsOf start [(3#4, 0xDEADBEEF123400CD#64)]).setCr 8#4 0x00ABFFFF#64)) (fun t =>
      t.gpr 3#4 == 0xDEADBEEF00AB00CD#64 && t.cr 8#4 == 0x00CDFFFF#64) = true := by decide +kernel

/-- Vectors X1 and X2. -/
theorem test_spx_sets_prefix :
    nextIs (exec (.spx 5#4 0) (put (gprsOf start [(5#4, 0x3000#64)]) 0x3000 4 0x00012000)) (fun t =>
      t.pfx == 0x12000#64) = true
    ∧ nextIs (exec (.spx 5#4 0) (put (gprsOf start [(5#4, 0x3000#64)]) 0x3000 4 0xFFFFFFFF)) (fun t =>
      t.pfx == 0x7FFFE000#64) = true := by decide +kernel

/-- Vector F1. -/
theorem test_stfl_stores : nextIs (exec .stfl start) (fun t => got t 200 4 == 0xE0008000) = true := by decide +kernel

/-- A machine whose facility bit 0 (N3) is zero. -/
def withoutN3 : State := { start with params := { start.params with fac := 0x60008000#32 } }

/-- 30_encoding.md rule R150: without N3 the operation exception, in the problem state too. -/
theorem test_stfl_without_n3 :
    nextIs (exec .stfl (withHandler withoutN3)) (fun t => got t 140 4 == 0x00040001) = true
    ∧ nextIs (exec .stfl (withHandler (withoutN3.withPsw 0x00010001800000000000000000002000#128))) (fun t =>
      got t 140 4 == 0x00040001) = true := by decide +kernel

/-- The start state of the tests of SIGP: ESA/390 mode, the order in register 3, the parameter in register 1. -/
def orderState (mode : ArchMode) (parameter : DWord) : State :=
  { gprsOf start [(1#4, parameter), (3#4, 0x12#64)] with
    archMode := mode, psw := 0x00000000800000000000000000002000#128, pfx := 0x3000#64 }

/-- 42_control_instructions.md rule R226: the switch to z/Architecture mode clears prefix bit 51. -/
theorem test_sigp_switches :
    nextIs (exec (.sigp 0#4 0#4 3#4 0) (orderState .esa390 1#64)) (fun t =>
      t.archMode == .zArch && t.cc == 0#2 && t.pfx == 0x2000#64) = true := by decide +kernel

theorem test_sigp_invalid_parameter :
    nextIs (exec (.sigp 0#4 0#4 3#4 0) (orderState .zArch 1#64)) (fun t => t.cc == 1#2) = true := by decide +kernel

/-! ## Linkage instructions (95_test_vectors.md section 6) -/

/-- An entry-table entry. -/
def entryOf (number : DWord) (stacking g : Bool) : EntryTableEntry :=
  { number := number, stacking := stacking, g := g, mode31 := true, problem := true, address := 0x80005000#64 }

/-- A state with an entry table: number 1 stacking into 31-bit mode, number 2 basic into 31-bit mode, number 3 basic
into 64-bit mode. -/
def callState : State :=
  { start with entryTable := [entryOf 1#64 true false, entryOf 2#64 false false, entryOf 3#64 false true] }

theorem test_pc_stacks :
    nextIs (exec (.pc 0#4 1) callState) (fun t =>
      (t.linkageStack.map fun e => (e.kind, e.psw)) == [(.programCall, start.psw)]) = true := by decide +kernel

/-- 43_linkage_instructions.md rule R232: an unequal G bit. -/
theorem test_pc_basic_mode_differs :
    nextIs (exec (.pc 0#4 2) (withHandler callState)) (fun t => got t 140 4 == 0x00040013) = true := by decide +kernel

theorem test_bakr_stacks :
    nextIs (exec (.bakr 1#4 2#4) (gprsOf start [(1#4, 0x80004000#64), (2#4, 0x6000#64)])) (fun t =>
      t.ia == 0x6000#64 && t.amode == .a64
        && (t.linkageStack.map fun e => (e.kind, e.psw)) == [(.branch, 0x00000000800000000000000000004000#128)])
      = true := by decide +kernel

/-- A linkage-stack entry with a PSW and one value in all general and access registers. -/
def entryWith (p : Quad) (v : DWord) (a : Word) : StackEntry :=
  { designator := 0x8008#64, previous := 0x7000#64, kind := .programCall, gr := Vector.replicate 16 v,
    ar := Vector.replicate 16 a, psw := p }

/-- A state with one such entry, which control register 15 designates with its bits 0-60. -/
def stackState (p : Quad) : State :=
  { start.setCr 15#4 0x800D#64 with linkageStack := [entryWith p 0x0123456789ABCDEF#64 7#32] }

/-- 43_linkage_instructions.md rule R234: what PR loads of general and access registers. -/
theorem test_pr_restores :
    nextIs (.next ((start.restoreGprs (entryWith 0#128 0x0123456789ABCDEF#64 7#32) (registerRange 2#4 14#4)).restoreArs
      (entryWith 0#128 0x0123456789ABCDEF#64 7#32) (registerRange 2#4 14#4))) (fun t =>
      t.gpr 2#4 == 0x0123456789ABCDEF#64 && t.gpr 14#4 == 0x0123456789ABCDEF#64 && t.gpr 1#4 == 0#64
        && t.gpr 15#4 == 0#64 && t.ar 14#4 == 7#32 && t.ar 1#4 == 0#32) = true := by decide +kernel

/-- 43_linkage_instructions.md rule R234: without an entry the stack exception is taken. -/
theorem test_pr_without_entry :
    nextIs (exec .pr (withHandler start)) (fun t => t.psw == 0x00020001800000000000000000000B00#128) = true := by
  decide +kernel

/-- 10_state.md rule R39: an entry that control register 15 does not designate is not the current one. -/
theorem test_ereg_other_designation :
    nextIs (exec (.ereg 5#4 5#4) (withHandler ((stackState start.psw).setCr 15#4 0x8010#64))) (fun t =>
      t.psw == 0x00020001800000000000000000000B00#128 && t.gpr 5#4 == 0#64) = true := by decide +kernel

/-- Vector K1. -/
theorem test_esta_address_not_true :
    nextIs (exec (.esta 2#4 5#4) (gprsOf (stackState 0x07050001800000000000000100002468#128)
      [(2#4, 0xAAAAAAAA00000000#64), (3#4, 0xBBBBBBBB00000000#64), (5#4, 1#64)])) (fun t =>
      t.gpr 2#4 == 0xAAAAAAAA07050001#64 && t.gpr 3#4 == 0xBBBBBBBB80002469#64 && t.cc == 1#2) = true := by decide +kernel

/-- Vector K5. -/
theorem test_esta_whole_psw :
    nextIs (exec (.esta 2#4 5#4) (gprsOf (stackState 0x07050001800000000000000100002468#128) [(5#4, 4#64)])) (fun t =>
      t.gpr 2#4 == 0x0705000180000000#64 && t.gpr 3#4 == 0x100002468#64) = true := by decide +kernel

/-- Vector K6. -/
theorem test_ereg_low_half :
    nextIs (exec (.ereg 5#4 5#4) (gprsOf (stackState start.psw) [(5#4, 0xFFFFFFFF00000000#64)])) (fun t =>
      t.gpr 5#4 == 0xFFFFFFFF89ABCDEF#64 && t.ar 5#4 == 7#32 && t.gpr 6#4 == 0#64) = true := by decide +kernel

/-- Vector K7, with a range that wraps. -/
theorem test_eregg_wraps :
    nextIs (exec (.eregg 15#4 0#4) (gprsOf (stackState start.psw) [(0#4, 0xFFFFFFFF00000000#64)])) (fun t =>
      t.gpr 0#4 == 0x0123456789ABCDEF#64 && t.gpr 15#4 == 0x0123456789ABCDEF#64 && t.gpr 1#4 == 0#64) = true := by decide +kernel

/-- 43_linkage_instructions.md rules R240, R241: R1 and R2 the same register; the target is read first. -/
theorem test_balr_basr_same_register :
    nextIs (exec (.balr 5#4 5#4) (gprsOf start31 [(5#4, 0xFFFFFFFF00004000#64)])) (fun t =>
      t.gpr 5#4 == 0xFFFFFFFF80002000#64 && t.ia == 0x4000#64) = true
    ∧ nextIs (exec (.basr 5#4 5#4) (gprsOf start [(5#4, 0x100004000#64)])) (fun t =>
      t.gpr 5#4 == 0x2000#64 && t.ia == 0x100004000#64) = true := by decide +kernel

theorem test_basr_no_branch :
    nextIs (exec (.basr 5#4 0#4) (gprsOf start [(0#4, 0x4000#64)])) (fun t =>
      t.gpr 5#4 == 0x2000#64 && t.ia == 0x2000#64) = true := by decide +kernel

/-- 43_linkage_instructions.md rule R242: from 31-bit into 64-bit mode. -/
theorem test_bassm_sets_mode :
    nextIs (exec (.bassm 5#4 6#4) (gprsOf start31 [(6#4, 0x100004001#64)])) (fun t =>
      t.gpr 5#4 == 0x80002000#64 && t.psw == 0x00000001800000000000000100004000#128) = true := by decide +kernel

/-- 43_linkage_instructions.md rule R243: from 64-bit into 24-bit mode. -/
theorem test_bsm_sets_mode :
    nextIs (exec (.bsm 5#4 6#4) (gprsOf start [(6#4, 0x7F004000#64)])) (fun t =>
      t.gpr 5#4 == 1#64 && t.psw == 0x00000000000000000000000000004000#128) = true := by decide +kernel

/-- 43_linkage_instructions.md rule R246: it completes; storage and control registers are as before. -/
theorem test_rp_completes :
    nextIs (exec (.rp 5#4 0) start) (fun t => t.mem == start.mem && t.crs == start.crs) = true := by decide +kernel

/-! ## Trace, trap, monitor (95_test_vectors.md section 7) -/

/-- Vectors R1 to R10. -/
theorem test_trace_entries :
    ofBytes (branchEntry .a64 0x100002000#64) = 0x52C000000000000100002000
    ∧ ofBytes (branchEntry .a31 0x12340#64) = 0x80012340 ∧ ofBytes (branchEntry .a64 0x12340#64) = 0x80012340
    ∧ ofBytes (branchEntry .a64 0x80000000#64) = 0x52C000000000000080000000
    ∧ ofBytes (modeSwitchEntry .a31 0x2002#64) = 0x5130000080002002
    ∧ ofBytes (modeSwitchEntry .a24 0x2002#64) = 0x5130000000002002
    ∧ ofBytes (modeSwitchEntry .a64 0x2002#64) = 0x5120000000002002
    ∧ ofBytes (modeSwitchEntry .a64 0x100002002#64) = 0x526000000000000100002002
    ∧ ofBytes (modeSwitchingBranchEntry .a31 0x5000#64) = 0x51A0000080005000
    ∧ ofBytes (modeSwitchingBranchEntry .a24 0x5000#64) = 0x51A0000000005000
    ∧ ofBytes (modeSwitchingBranchEntry .a64 0x5000#64) = 0x51B0000000005000
    ∧ ofBytes (modeSwitchingBranchEntry .a64 0x200005000#64) = 0x52F000000000000200005000 := by decide +kernel

/-- The start state of the tests of explicit tracing. -/
def explicitState (operand : Nat) : State :=
  put (gprsOf (start.setCr 12#4 0x5001#64) [(2#4, 0x1111111122222222#64), (3#4, 3#64), (4#4, 4#64), (7#4, 0x3000#64)])
    0x3000 4 operand

/-- 44_trace_trap_monitor.md rule R266: 16 bytes for one register; none with bit 0 of the operand one. -/
theorem test_trace_entry_bytes :
    ofBytes (traceEntry 0x0123456789ABCDEF0011#80 0xABCD#32 [0x1111111122222222#64, 3#64])
      = 0x7100456789ABCDEF0000ABCD2222222200000003 := by decide +kernel

theorem test_trace_stores :
    nextIs (exec (.trace 2#4 2#4 7#4 0) (explicitState 0xABCD)) (fun t =>
      t.cr 12#4 == 0x5011#64) = true
    ∧ nextIs (exec (.trace 2#4 2#4 7#4 0) (put (explicitState 0x80000000) 0x5000 16 0)) (fun t =>
      got t 0x5000 16 == 0 && t.cr 12#4 == 0x5001#64) = true := by decide +kernel

/-- Vector R11: 40 bytes (the first byte and the clock are free values). -/
theorem test_tracg_stores :
    nextIs (exec (.tracg 2#4 4#4 7#4 0) (explicitState 0xABCD)) (fun t =>
      t.cr 12#4 == 0x5029#64) = true := by decide +kernel

/-- A state with trap areas. -/
def trapState (registers64 psw128 : Bool) : State :=
  { gprsOf start [(5#4, 0x1111111122222222#64)] with
    trapArea := some { registers64 := registers64, psw128 := psw128, routine := 0x80006000#64, saved := none } }

/-- 44_trace_trap_monitor.md rule R270: compatible forms. -/
theorem test_trap2_compatible :
    nextIs (exec .trap2 (trapState false false)) (fun t =>
      t.psw == 0x00000000800000000000000000006000#128
        && (t.trapArea.bind fun a => a.saved.map fun v => (v.psw, v.operand)) == some (.short 0x0008000180002000#64, none))
      = true := by decide +kernel

/-- 44_trace_trap_monitor.md rule R272: full forms and the second-operand address. -/
theorem test_trap4_full :
    nextIs (exec (.trap4 5#4 0x123) (trapState true true)) (fun t =>
      t.ia == 0x6000#64
        && (t.trapArea.bind fun a => a.saved.map fun v => (v.psw, v.operand))
          == some (.full start.psw, some 0x1111111122222345#64)) = true := by decide +kernel

/-- 44_trace_trap_monitor.md rule R270: without listed trap areas. -/
theorem test_trap2_unlisted : nextIs (exec .trap2 start) (fun t => t.mem == start.mem) = true := by decide +kernel

/-- Program F. -/
theorem test_mc_monitor_event :
    nextIs (exec (.mc 7#4 0x234 2#8)
      (withHandler ((gprsOf (start31.advance 4) [(7#4, 0xFFFFFFFF80001000#64)]).setCr 8#4 0x2000#64))) (fun t =>
      got t 176 8 == 0x1234 && got t 148 2 == 2 && got t 336 16 == 0x00000000800000000000000000002004
        && got t 140 4 == 0x00040040 && t.psw == 0x00020001800000000000000000000B00#128) = true := by decide +kernel

theorem test_mc_masked_off :
    nextIs (exec (.mc 7#4 0x234 2#8) start) (fun t => t == start) = true := by decide +kernel

/-! ## Moves and quadwords (95_test_vectors.md section 8) -/

/-- The start state of the tests of moves: 16 bytes and a zero at 3000, zeros at 4000, the length in register 1. -/
def moveState (s : State) (length : DWord) : State :=
  put (put (gprsOf s [(1#4, length), (6#4, 0x3000#64), (7#4, 0x4000#64)])
    0x3000 17 0x00112233445566778899AABBCCDDEEFF00) 0x4000 17 0

/-- Vectors V1 and V5. -/
theorem test_mvck_moves :
    nextIs (exec (.mvck 1#4 3#4 7#4 0 6#4 0) (moveState start31 0x0000000100000010#64)) (fun t =>
      got t 0x4000 17 == 0x00112233445566778899AABBCCDDEEFF00 && t.cc == 0#2) = true
    ∧ nextIs (exec (.mvck 1#4 3#4 7#4 0 6#4 0) (moveState start31 0x0000000100000000#64)) (fun t =>
      got t 0x4000 16 == 0 && t.cc == 0#2) = true := by decide +kernel

/-- The real spaces as primary and secondary space, with the secondary-space control on. -/
def spaces (s : State) : State := crsOf s [(0#4, 0x04000000#64), (1#4, 0x20#64), (7#4, 0x20#64)]

/-- Length 257: 256 bytes are moved, condition code 3. -/
theorem test_mvcp_long :
    nextIs (exec (.mvcp 1#4 3#4 7#4 0 6#4 0) (spaces (moveState startDat 257#64))) (fun t =>
      got t 0x4000 17 == 0x00112233445566778899AABBCCDDEEFF00 && t.cc == 3#2) = true := by decide +kernel

/-- Vector V3. -/
theorem test_mvcs_moves :
    nextIs (exec (.mvcs 1#4 3#4 7#4 0 6#4 0)
      (spaces (moveState (start.withPsw 0x04000000000000000000000000002000#128) 0xFFFFFFFF00000008#64))) (fun t =>
      got t 0x4000 9 == 0x001122334455667700 && t.cc == 0#2) = true := by decide +kernel

/-- Vectors Q1 and Q3. -/
theorem test_lpq_loads :
    nextIs (exec (.lpq 2#4 0#4 6#4 0) (moveState start 0#64)) (fun t =>
      t.gpr 2#4 == 0x0011223344556677#64 && t.gpr 3#4 == 0x8899AABBCCDDEEFF#64) = true
    ∧ nextIs (exec (.lpq 2#4 0#4 6#4 8) (withHandler (moveState start 0#64))) (fun t =>
      got t 140 4 == 0x00060006) = true := by decide +kernel

/-- Vector Q4. -/
theorem test_stpq_stores :
    nextIs (exec (.stpq 2#4 0#4 6#4 16) (gprsOf (moveState start 0#64)
      [(2#4, 0x0011223344556677#64), (3#4, 0x8899AABBCCDDEEFF#64)])) (fun t =>
      got t 0x3010 16 == 0x00112233445566778899AABBCCDDEEFF) = true := by decide +kernel

/-- The start state of vectors Q5 and Q6. -/
def swapState (odd : DWord) : State :=
  put (gprsOf start [(2#4, 1#64), (3#4, odd), (4#4, 10#64), (5#4, 11#64), (6#4, 0x3000#64)])
    0x3000 16 0x00000000000000010000000000000002

/-- Vector Q5. -/
theorem test_cdsg_equal :
    nextIs (exec (.cdsg 2#4 4#4 6#4 0) (swapState 2#64)) (fun t =>
      got t 0x3000 16 == 0x000000000000000A000000000000000B && t.cc == 0#2) = true := by decide +kernel

/-- Low-address protection on, and the first page at 0ABCD000, outside configured storage. -/
def absentLowState : State :=
  { putAll ((tabled startDat).setCr 0#4 0x10000000#64) [(0x10000, 0x20000), (0x20000, 0x0ABCD000)] with
    params := { Params.atReset with storageSize := 0x100000 } }

/-- 45_move_and_consistency.md rule R295, 60_exceptions.md rule R328: the addressing exception of the fetch comes
before low-address protection. -/
theorem test_cdsg_fetch_first :
    nextIs (exec (.cdsg 2#4 4#4 0#4 0x1F0) (withHandler absentLowState)) (fun t => got t 140 4 == 0x00060005) = true
    ∧ nextIs (exec (.stpq 2#4 0#4 0#4 0x1F0) (withHandler absentLowState)) (fun t => got t 140 4 == 0x00060004)
      = true := by decide +kernel

/-- Vector Q6. -/
theorem test_cdsg_unequal :
    nextIs (exec (.cdsg 2#4 4#4 6#4 0) (swapState 3#64)) (fun t =>
      got t 0x3000 16 == 0x00000000000000010000000000000002 && t.gpr 3#4 == 2#64 && t.cc == 1#2) = true := by decide +kernel

/-- 45_move_and_consistency.md rule R297: it completes (the page is too long to evaluate here). -/
theorem test_mvpg_completes :
    nextIs (exec (.mvpg 7#4 6#4) (put (gprsOf start [(6#4, 0x3123#64), (7#4, 0x4FFF#64)]) 0x3FF8 8 0x1122334455667788))
      (fun t => t.gpr 6#4 == 0x3123#64 && t.gpr 7#4 == 0x4FFF#64) = true := by decide +kernel

/-- 45_move_and_consistency.md rule R297 and decision D38: options in general register 0 are refused. -/
theorem test_mvpg_options :
    refusedIs (exec (.mvpg 7#4 6#4) (gprsOf start [(0#4, 0x100#64), (6#4, 0x3000#64), (7#4, 0x4000#64)])) .movePageOptions
      = true := by decide +kernel

/-- 45_move_and_consistency.md rule R298. -/
theorem test_iesbe_operation_exception :
    nextIs (exec (.iesbe 1#4 2#4) (withHandler (start.advance 4))) (fun t =>
      got t 140 4 == 0x00040001 && got t 336 16 == 0x00000001800000000000000000002004) = true := by decide +kernel

/-- 43_linkage_instructions.md rules R244, R245, 45_move_and_consistency.md rule R296. -/
theorem test_named_only_refused :
    refusedIs (exec (.bsa 1#4 2#4) start) .branchAndSetAuthority = true
    ∧ refusedIs (exec (.bsg 1#4 2#4) start) .branchInSubspaceGroup = true
    ∧ refusedIs (exec (.plo 1#4 3#4 2#4 0 4#4 0) start) .performLockedOperation = true := by decide +kernel

/-! ## Witnesses: for every obligation with hypotheses, states and operands that meet them -/

/-- The computation answers this. -/
def okIs {ε α : Type} [DecidableEq α] (r : Except ε α) (a : α) : Bool :=
  match r with
  | .ok b => b == a
  | .error _ => false

theorem ok_of {ε α : Type} [DecidableEq α] {r : Except ε α} {a : α} (h : okIs r a = true) : r = .ok a := by
  cases r with
  | ok b => exact congrArg Except.ok (eq_of_beq h)
  | error _ => cases h

/-- The computation stops so. -/
def errorIs {α : Type} (r : Res α) (e : Stop) : Bool :=
  match r with
  | .ok _ => false
  | .error x => x == e

theorem error_of {α : Type} {r : Res α} {e : Stop} (h : errorIs r e = true) : r = .error e := by
  cases r with
  | ok _ => cases h
  | error x => exact congrArg Except.error (eq_of_beq h)

theorem next_and {r : Result} {p : State → Bool} (h : nextIs r p = true) : ∃ t, r = .next t ∧ p t = true := by
  cases r with
  | next t => exact ⟨t, rfl, h⟩
  | fault _ => cases h
  | refused _ => cases h

theorem traced_off {i : Instr} {s : State} (h : tracedEntry i s = none) : TracedTo i s s := by
  unfold TracedTo
  rw [h]

theorem traced_on {i : Instr} {s u : State} {e : List Byte} (h : tracedEntry i s = some e)
    (hu : s.appendTrace e = .ok u) : TracedTo i s u := by
  unfold TracedTo
  rw [h]
  exact hu

/-- All tracing on, with the trace-entry address 5000. -/
def tracing (s : State) : State := s.setCr 12#4 0xC000000000005001#64

/-- All tracing on, with the trace-entry address 5000, in 31-bit mode. -/
def traceState : State := gprsOf (tracing start31) [(6#4, 0x100004001#64)]

/-- EPSW 1,2 at the instruction address, and a program new PSW. -/
def fetchState : State := withHandler (put start 0x2000 4 0xB98D0012)

theorem fetchState_inv : fetchState.Inv := by
  refine ⟨?_, ?_, ?_⟩ <;> decide +kernel

theorem test_witness_DecodeEncodeAgree :
    Instr.wf (.cdsg 14#4 0#4 15#4 (-524288)) = true ∧ Instr.wf (.lrag 1#4 2#4 3#4 524287) = true
    ∧ Instr.wf (.plo 1#4 3#4 2#4 4095 4#4 0) = true := by decide

theorem test_witness_DecodedInstructionIsWellFormed :
    ∃ i rest, decode [0xE3#8, 0x2A#8, 0x6F#8, 0xFF#8, 0xFF#8, 0x03#8, 0x07#8] = .ok (i, rest) :=
  ⟨.lrag 2#4 10#4 6#4 (-1), [0x07#8], ok_of (by decide)⟩

theorem test_witness_IgnoredFieldsAreIgnored :
    (0xB99D : Nat) ∈ [0xB240, 0xB249, 0xB24A, 0xB254, 0xB258, 0xB259, 0xB25A, 0xB905, 0xB90E, 0xB925, 0xB98D, 0xB99D]
    ∧ 0xB240 ≠ 0xB99D ∧ 4095 < 4096 := by decide

theorem test_witness_StepRunsDecodedInstruction :
    fetchState.cpuStatus = .operating ∧ fetchState.takePending = none ∧ fetchState.notFetching = none
    ∧ fetchState.fetchInstruction = .ok [0xB9#8, 0x8D#8, 0x00#8, 0x12#8]
    ∧ decode [0xB9#8, 0x8D#8, 0x00#8, 0x12#8] = .ok (.epsw 1#4 2#4, [])
    ∧ fetchState.notRun (.epsw 1#4 2#4) = none
    ∧ fetchState.fetchAddress fetchState.fetchSpace 0x2000#64 2 = .ok 0x2000
    ∧ (let z := { fetchState with stored := [0x2001] }
      z.params.streamStores = .unsettled ∧ (0x2000 ∈ z.stored ∨ 0x2000 + 1 ∈ z.stored)
        ∧ z.fetchAddress z.fetchSpace 0x2000#64 2 = .ok 0x2000)
    ∧ ¬(fetchState.params.streamStores = .unsettled ∧ (0x2000 ∈ fetchState.stored ∨ 0x2000 + 1 ∈ fetchState.stored)) :=
  ⟨rfl, Option.isNone_iff_eq_none.mp (by decide +kernel), Option.isNone_iff_eq_none.mp (by decide +kernel),
    ok_of (by decide +kernel), ok_of (by decide +kernel), by decide +kernel, ok_of (by decide +kernel),
    ⟨rfl, by decide, ok_of (by decide +kernel)⟩, by decide +kernel⟩

theorem test_witness_StepKeepsInvariant : fetchState.Inv ∧ ∃ t, step fetchState = .next t :=
  ⟨fetchState_inv, next_of (p := fun _ => true) (by decide +kernel)⟩

theorem test_witness_StepKeepsConfiguration :
    (∃ t, step fetchState = .next t)
    ∧ ∃ t, exec (.sigp 0#4 0#4 3#4 0) (orderState .esa390 1#64) = .next t
      ∧ t.archMode ≠ (orderState .esa390 1#64).archMode := by
  refine ⟨next_of (p := fun _ => true) (by decide +kernel), ?_⟩
  obtain ⟨t, h, hp⟩ := next_and (r := exec (.sigp 0#4 0#4 3#4 0) (orderState .esa390 1#64))
    (p := fun t => decide (t.archMode ≠ (orderState .esa390 1#64).archMode)) (by decide +kernel)
  exact ⟨t, h, of_decide_eq_true hp⟩

theorem test_witness_ProblemStateChangesOnlyWithPsw :
    replacesPsw (.epsw 1#4 2#4) = false ∧ (∃ t, exec (.epsw 1#4 2#4) start = .next t)
    ∧ ∃ t, step fetchState = .next t :=
  ⟨rfl, next_of (p := fun _ => true) (by decide +kernel), next_of (p := fun _ => true) (by decide +kernel)⟩

theorem test_witness_PrivilegedInstructionsTrap :
    privileged (.lpsw 9#4 0) = true ∧ startProblem.problem = true
    ∧ privileged .stfl = true ∧ bit startProblem.params.fac 0 = true
    ∧ (withoutN3.withPsw startProblem.psw).problem = true ∧ bit (withoutN3.withPsw startProblem.psw).params.fac 0 = false := by
  decide +kernel

theorem test_witness_SpecificationExceptions :
    (alignedOperand (.lpsw 0#4 7) start = some (7#64, 8) ∧ (7#64).toNat % 8 ≠ 0 ∧ start.problem = false
      ∧ ∀ r ∈ pairRegisters (.lpsw 0#4 7), r.getLsbD 0 = false)
    ∧ (alignedOperand (.lpq 2#4 0#4 0#4 8) start = some (8#64, 16) ∧ (8#64).toNat % 16 ≠ 0
      ∧ ∀ r ∈ pairRegisters (.lpq 2#4 0#4 0#4 8), r.getLsbD 0 = false)
    ∧ (start.withIa 0x2001#64).ia.toNat % 2 = 1
    ∧ (3#4 ∈ pairRegisters (.cdsg 2#4 3#4 0#4 0) ∧ (3#4).toNat % 2 = 1) := by decide +kernel

/-- A state with this interruption pending, enabled, and every new PSW valid. -/
def pendingState (c : PendingInterruption) : State :=
  { put (start.withPsw 0x03040001800000000000000000002000#128) 416 96 0 with pending := [c] }

theorem test_witness_PendingInterruptionIsTaken :
    (∀ c ∈ [(PendingInterruption.external, 432#64), (.supervisorCall, 448#64), (.machineCheck, 480#64),
        (.inputOutput, 496#64)],
      (pendingState c.1).cpuStatus = .operating ∧ (pendingState c.1).archMode = .zArch
        ∧ (pendingState c.1).prefixAreaPresent = true
        ∧ (pendingState c.1).pending.find? (pendingState c.1).enabled = some c.1
        ∧ pswValid ((pendingState c.1).pswAt c.2) = true)
    ∧ (∀ e ∈ [ProgException.translation .page 0x124000#64 .primary, .monitorEvent 2#4 0x1234#64],
      (pendingState (.program e)).cpuStatus = .operating ∧ (pendingState (.program e)).archMode = .zArch
        ∧ (pendingState (.program e)).prefixAreaPresent = true
        ∧ pswValid ((pendingState (.program e)).pswAt 464#64) = true
        ∧ (pendingState (.program e)).pending.find? (pendingState (.program e)).enabled = some (.program e)
        ∧ Memory.wf (pendingState (.program e)).mem = true ∧ pswValid (pendingState (.program e)).psw = true
        ∧ (pendingState (.program e)).prefixWf = true)
    ∧ (let w := { start.withPsw 0x00020001800000000000000000002000#128 with pending := [.external] }
      w.cpuStatus = .operating ∧ w.pending.find? w.enabled = none ∧ pswValid w.psw = true ∧ bit w.psw 14 = true) := by
  decide +kernel

/-- 60_exceptions.md rule R327: the code of a pending program interruption is stored, and the old PSW. -/
theorem test_pending_program :
    nextIs (step (pendingState (.program .specification))) (fun t =>
      got t 142 2 == 0x0006 && got t 336 16 == 0x03040001800000000000000000002000 && t.pending == []) = true := by
  decide +kernel

theorem test_witness_StoredOperandReadsBack :
    fetchState.Inv ∧ fetchState.dat = false
    ∧ fetchState.memWrite 0x3000#64 [1#8, 0#8, 3#8] = .ok (fetchState.storeAbsolute 0x3000 [1#8, 0#8, 3#8])
    ∧ (fetchState.toAbsolute 0x3000#64).toNat + [1#8, 0#8, 3#8].length ≤ (fetchState.toAbsolute 0x3003#64).toNat
    ∧ (fetchState.toAbsolute 0x2FFE#64).toNat + 2 ≤ (fetchState.toAbsolute 0x3000#64).toNat :=
  ⟨fetchState_inv, by decide +kernel, ok_of (by decide +kernel), by decide +kernel, by decide +kernel⟩

/-- The prefix register at 2000 hexadecimal. -/
def prefixed : State := { start with pfx := 0x2000#64 }

theorem test_witness_Prefixing :
    prefixed.archMode = .zArch ∧ bits 0x1FFF#64 0 51 = 0#51
    ∧ (bits 0x3FFF#64 0 51 ≠ 0#51 ∧ bits 0x3FFF#64 0 51 ++ 0#13 = prefixArea prefixed.pfx)
    ∧ (bits 0x4000#64 0 51 ≠ 0#51 ∧ bits 0x4000#64 0 51 ++ 0#13 ≠ prefixArea prefixed.pfx)
    ∧ prefixArea start.pfx = 0#64 := by decide +kernel

theorem test_witness_RealSpaceTranslatesToItself :
    (spaces startDat).asceOf .primary = .ok 0x20#64 ∧ bit 0x20#64 58 = true ∧ bit start.psw 5 = false
    ∧ (bit startDat.psw 5 = true ∧ bits startDat.psw 16 2 = 0b00#2)
    ∧ (bit 0x04004001800000000000000000002000#128 5 = true ∧ bits 0x04004001800000000000000000002000#128 16 2 = 0b01#2)
    ∧ (bit 0x04008001800000000000000000002000#128 5 = true ∧ bits 0x04008001800000000000000000002000#128 16 2 = 0b10#2)
    ∧ (bit 0x0400C001800000000000000000002000#128 5 = true
      ∧ bits 0x0400C001800000000000000000002000#128 16 2 = 0b11#2) :=
  ⟨ok_of (by decide +kernel), by decide, by decide +kernel, by decide +kernel, by decide, by decide, by decide⟩

theorem test_witness_AsceTypeException :
    bit 0x10000#64 58 = false ∧ (2 ^ 31 ≤ (0x80000000#64).toNat ∧ bits 0x10000#64 60 2 = 0b00#2)
    ∧ (2 ^ 42 ≤ (0x40000000000#64).toNat ∧ bits 0x30004#64 60 2 = 0b01#2)
    ∧ (2 ^ 53 ≤ (0x20000000000000#64).toNat ∧ bits 0x6000B#64 60 2 = 0b10#2)
    ∧ bit 0x30004#64 58 = false ∧ bit 0x6000B#64 58 = false
    ∧ (tabled startDat).asceOf .primary = .ok 0x10000#64
    ∧ (tabled startDat).walk 0x80000000#64 0x10000#64 = .ok (.other .asceType) := by
  and_intros <;> decide +kernel

theorem test_witness_TwoLevelTranslation :
    bit 0x10000#64 58 = false ∧ bits 0x10000#64 60 2 = 0b00#2 ∧ (0x123456#64).toNat < 2 ^ 31
    ∧ (bits 0x123456#64 33 2).toNat ≤ (bits 0x10000#64 62 2).toNat
    ∧ (withTables start).tableRead 0x10008#64 = .ok 0x20000#64
    ∧ bit 0x20000#64 58 = false ∧ bits 0x20000#64 60 2 = 0b00#2
    ∧ (withTables start).pageTableOrigin 0x20000#64 = .ok 0x20000#64
    ∧ (withTables start).tableRead 0x20118#64 = .ok 0x0ABCD000#64
    ∧ bit 0x0ABCD000#64 52 = false ∧ bit 0x0ABCD000#64 53 = false ∧ bit 0x0ABCD000#64 55 = false
    ∧ BitVec.ofNat 64 ((bits 0x10000#64 0 52).toNat * 4096 + (bits 0x123456#64 33 11).toNat * 8) = 0x10008#64
    ∧ BitVec.ofNat 64 ((0x20000#64).toNat + (bits 0x123456#64 44 8).toNat * 8) = 0x20118#64 := by
  and_intros <;> decide +kernel

theorem test_witness_TableLookup :
    ((0#2 < bits (bits 0x20000000#64 33 11) 0 2) ∧ bits (bits 0x20000000#64 33 11) 0 2 = 1#2)
    ∧ (bits (bits 0x20000000#64 33 11) 0 2 < 2#2)
    ∧ ((withTables start).tableRead 0x10010#64 = .ok 0x20#64 ∧ bit 0x20#64 58 = true
      ∧ (0x10010#64).toNat = (0x10000#64).toNat + (bits 0x200000#64 33 11).toNat * 8)
    ∧ ((withTables start).tableRead 0x40000#64 = .ok 0x2C#64 ∧ bit 0x2C#64 58 = true
      ∧ (0x40000#64).toNat = (0x40000#64).toNat + (bits 0x1000#64 0 11).toNat * 8)
    ∧ ((withTables start).tableRead 0x10020#64 = .ok 0x20004#64 ∧ bit 0x20004#64 58 = false
      ∧ (bits 0x20004#64 60 2).toNat ≠ 0 ∧ (0x10020#64).toNat = (0x10000#64).toNat + (bits 0x400000#64 33 11).toNat * 8)
    ∧ ((withTables start).tableRead 0x10008#64 = .ok 0x20000#64 ∧ bit 0x20000#64 58 = false
      ∧ (bits 0x20000#64 60 2).toNat = 0 ∧ (0x10008#64).toNat = (0x10000#64).toNat + (bits 0x123456#64 33 11).toNat * 8)
    ∧ ((withTables start).tableRead 0x50010#64 = .ok 0x6000F#64 ∧ bit 0x6000F#64 58 = false
      ∧ (bits 0x6000F#64 60 2).toNat = 3
      ∧ (0x50010#64).toNat = (0x50000#64).toNat + (bits 0x0040080100123456#64 0 11).toNat * 8)
    ∧ (¬(3#2 < bits (bits 0x200000#64 33 11) 0 2 ∨ bits (bits 0x200000#64 33 11) 0 2 < 0#2)
      ∧ 2 ^ 64 ≤ (0xFFFFFFFFFFFFFFF0#64).toNat + (bits 0x200000#64 33 11).toNat * 8) := by
  and_intros <;> decide +kernel

/-- The places of an entry: the last doubleword of real 0-8191, and the end of a storage of 100000 hexadecimal bytes; and a
segment-table entry with bit 52 zero, and one with it one. -/
theorem test_witness_TableLookup_places :
    (start.params.tableAddressKind = .unsettled ∧ (0x1FF8#64).toNat < 8192)
    ∧ (¬(start.params.tableAddressKind = .unsettled ∧ ((0x10008#64).toNat < 8192
        ∨ ((prefixArea start.pfx).toNat ≤ (0x10008#64).toNat
          ∧ (0x10008#64).toNat < (prefixArea start.pfx).toNat + 8192)))
      ∧ (start.toAbsolute 0x10008#64).toNat + 8 ≤ start.params.storageSize
      ∧ toBytes 8 (0x20000#64).toNat = readBytes (withTables start).mem (start.toAbsolute 0x10008#64).toNat 8)
    ∧ absentLowState.params.storageSize < (absentLowState.toAbsolute 0xFFFFC#64).toNat + 8
    ∧ bit 0x20000#64 52 = false ∧ bit 0x20800#64 52 = true ∧ start.params.ptoLastBit = .unsettled := by
  decide +kernel

theorem test_witness_PageLookupAndProtection :
    (withTables start).pageTableOrigin 0x20000#64 = .ok 0x20000#64
    ∧ ((withTables start).tableRead 0x20120#64 = .ok 0x400#64 ∧ bit 0x400#64 53 = true)
    ∧ ((withTables start).tableRead 0x20130#64 = .ok 0x66800#64 ∧ bit 0x66800#64 53 = false ∧ bit 0x66800#64 52 = true)
    ∧ ((withTables start).tableRead 0x20138#64 = .ok 0x66100#64 ∧ bit 0x66100#64 53 = false ∧ bit 0x66100#64 55 = true)
    ∧ ((withTables start).tableRead 0x20118#64 = .ok 0x0ABCD000#64 ∧ bit 0x0ABCD000#64 52 = false
      ∧ bit 0x0ABCD000#64 53 = false ∧ bit 0x0ABCD000#64 55 = false
      ∧ (0x20118#64).toNat = (0x20000#64).toNat + (bits 0x123456#64 44 8).toNat * 8)
    ∧ (tabled startDat).walkSpace .primary 0x125010#64 = .ok (.available 0x55010#64 true)
    ∧ (tabled startDat).walkSpace .primary 0x123456#64 = .ok (.available 0x0ABCD456#64 false) := by
  and_intros <;> decide +kernel

/-- Low-address protection on; the primary space is an ordinary one and the secondary one private. -/
def lowState : State := crsOf start [(0#4, 0x10000000#64), (1#4, 0x10000#64), (7#4, 0x10100#64)]

theorem test_witness_LowAddressProtection :
    (bit (lowState.cr 0#4) 35 = true ∧ lowState.asceOf .primary = .ok 0x10000#64 ∧ bit 0x10000#64 55 = false)
    ∧ ((0x1FF#64).toNat + 0 < 512) ∧ (4096 ≤ (0xFFF#64).toNat + 1 ∧ (0xFFF#64).toNat + 1 < 4608)
    ∧ bit (start.cr 0#4) 35 = false
    ∧ (∀ k, k < 3584 → 512 ≤ (0x200#64).toNat + k ∧ ((0x200#64).toNat + k < 4096 ∨ 4608 ≤ (0x200#64).toNat + k))
    ∧ (512 ≤ (0x1200#64).toNat ∧ 4608 ≤ (0x1200#64).toNat)
    ∧ (lowState.asceOf .secondary = .ok 0x10100#64 ∧ bit 0x10100#64 55 = true) := by
  refine ⟨⟨by decide +kernel, ok_of (by decide +kernel), by decide⟩, by decide, by decide, by decide +kernel, ?_,
    by decide, ok_of (by decide +kernel), by decide⟩
  intro k hk
  simp only [BitVec.toNat_ofNat]
  omega

theorem fetchState_interrupts : fetchState.canInterrupt := by
  refine ⟨rfl, ?_, ?_⟩ <;> decide +kernel

theorem test_witness_ProgramInterruptionEntry : fetchState.Inv ∧ fetchState.canInterrupt :=
  ⟨fetchState_inv, fetchState_interrupts⟩

theorem test_witness_InterruptionIdentification :
    fetchState.Inv
    ∧ (∃ t, fetchState.programInterruption (.translation .page 0x124000#64 .primary) 3#2 0x2000#64 = .next t)
    ∧ (∃ t, fetchState.programInterruption (.protection (some (0x124000#64, .home))) 3#2 0x2000#64 = .next t)
    ∧ (∃ t, fetchState.programInterruption (.monitorEvent 15#4 0xFFFFFFFFFFFFFFFF#64) 2#2 0x2004#64 = .next t)
    ∧ (∃ t, fetchState.programInterruption .operation 2#2 0x2004#64 = .next t) := by
  refine ⟨fetchState_inv, ?_, ?_, ?_, ?_⟩ <;> exact next_of (p := fun _ => true) (by decide +kernel)

/-- A program new PSW that returns: supervisor state, DAT off, not waiting. -/
def returnState : State := put start 464 16 0x00000001800000000000000000000B00

theorem test_witness_LpsweReturnsFromInterruption :
    returnState.Inv ∧ returnState.amode.trunc 0x2004#64 = 0x2004#64
    ∧ ∃ t, returnState.programInterruption .operation 2#2 0x2004#64 = .next t
      ∧ (!t.problem && !t.dat) = true := by
  refine ⟨⟨by decide +kernel, by decide +kernel, by decide +kernel⟩, by decide +kernel, ?_⟩
  exact next_and (p := fun t => !t.problem && !t.dat) (by decide +kernel)

theorem test_witness_InvalidPswStops :
    start.params.invalidPsw = .stop ∧ pswValid 0x00000001000000000000000000000000#128 = false
    ∧ start.archMode = .zArch ∧ start.prefixAreaPresent = true
    ∧ pswValid ((put start 464 16 0x00080001800000000000000000000B00).pswAt 464#64) = false
    ∧ bit 0x00000000800000000000000080000000#128 31 = false ∧ bit 0x00000000800000000000000080000000#128 32 = true := by
  decide +kernel

theorem test_witness_OldPswByEnding :
    fetchState.Inv ∧ fetchState.canInterrupt ∧ ProgException.translation .page 0#64 .primary ≠ .stack
    ∧ ProgException.specification ≠ .stack := ⟨fetchState_inv, fetchState_interrupts, by decide, by decide⟩

/-- A number stored at 3300, which register 9 designates. -/
def operandState (n v : Nat) : State := put (gprsOf start [(9#4, 0x3300#64)]) 0x3300 n v

theorem test_witness_LpswLoadsShortPsw :
    let s := operandState 8 0x070D100000FFFFFE
    let z := operandState 8 0x0700000080004000
    s.problem = false ∧ (s.address 9#4 0).toNat % 8 = 0
    ∧ s.fetchAddress s.operandSpace (s.address 9#4 0) 8 = .ok 0x3300
    ∧ toBytes 8 (0x070D100000FFFFFE#64).toNat = readBytes s.mem 0x3300 8
    ∧ bit 0x070D100000FFFFFE#64 12 = true ∧ pswValid (expand 0x070D100000FFFFFE#64) = true
    ∧ z.problem = false ∧ (z.address 9#4 0).toNat % 8 = 0
    ∧ z.fetchAddress z.operandSpace (z.address 9#4 0) 8 = .ok 0x3300
    ∧ toBytes 8 (0x0700000080004000#64).toNat = readBytes z.mem 0x3300 8
    ∧ bit 0x0700000080004000#64 12 = false ∧ z.params.lpswBit12 = .unsettled := by
  and_intros <;> decide +kernel

theorem test_witness_LpsweLoadsPsw :
    let s := operandState 16 0x00000001800000000000000100002000
    let z := operandState 16 0x00080000800000000000000000000000
    s.problem = false ∧ (s.address 9#4 0).toNat % 8 = 0
    ∧ s.fetchAddress s.operandSpace (s.address 9#4 0) 8 = .ok 0x3300
    ∧ toBytes 8 (0x0000000180000000#64).toNat = readBytes s.mem 0x3300 8
    ∧ s.fetchAddress s.operandSpace (s.amode.trunc (s.address 9#4 0 + 8#64)) 8 = .ok 0x3308
    ∧ toBytes 8 (0x0000000100002000#64).toNat = readBytes s.mem 0x3308 8
    ∧ pswValid (0x0000000180000000#64 ++ 0x0000000100002000#64) = true
    ∧ toBytes 8 (0x0008000080000000#64).toNat = readBytes z.mem 0x3300 8
    ∧ toBytes 8 (0#64).toNat = readBytes z.mem 0x3308 8
    ∧ pswValid (0x0008000080000000#64 ++ 0#64) = false ∧ z.params.invalidPsw = .stop := by
  and_intros <;> decide +kernel

theorem test_witness_SetAddressingModes :
    ((start.withIa 0xFFFFFE#64).ia.toNat < 2 ^ 24 ∧ TracedTo .sam24 (start.withIa 0xFFFFFE#64) (start.withIa 0xFFFFFE#64))
    ∧ ((tracing start).ia.toNat < 2 ^ 24 ∧ ∃ u, TracedTo .sam24 (tracing start) u)
    ∧ 2 ^ 24 ≤ (start.withIa 0x1000000#64).ia.toNat
    ∧ ((start.withIa 0x7FFFFFFE#64).ia.toNat < 2 ^ 31
      ∧ TracedTo .sam31 (start.withIa 0x7FFFFFFE#64) (start.withIa 0x7FFFFFFE#64))
    ∧ ((tracing start).ia.toNat < 2 ^ 31 ∧ ∃ u, TracedTo .sam31 (tracing start) u)
    ∧ 2 ^ 31 ≤ (start.withIa 0x80000000#64).ia.toNat
    ∧ TracedTo .sam64 start31 start31 ∧ ∃ u, TracedTo .sam64 traceState u := by
  have e : tracedEntry .sam24 (tracing start) = some (modeSwitchEntry .a64 0x2000#64) := by decide +kernel
  have f : tracedEntry .sam31 (tracing start) = some (modeSwitchEntry .a64 0x2000#64) := by decide +kernel
  have g : tracedEntry .sam64 traceState = some (modeSwitchEntry .a31 0x2000#64) := by decide +kernel
  exact ⟨⟨by decide +kernel, traced_off (by decide +kernel)⟩, ⟨by decide +kernel, _, traced_on e rfl⟩, by decide +kernel,
    ⟨by decide +kernel, traced_off (by decide +kernel)⟩, ⟨by decide +kernel, _, traced_on f rfl⟩, by decide +kernel,
    traced_off (by decide +kernel), _, traced_on g rfl⟩

/-- LRA's operand at 123456, with the tables and ASCE A. -/
def lraState (s : State) (va : DWord) : State := gprsOf (tabled s) [(6#4, va)]

theorem test_witness_LraLoadsRealAddress :
    let s := lraState start 0x123456#64
    let z := lraState start31 0x123456#64
    let part := fun (s : State) (r : Reg) => if r = 0#4 then 0 else (s.gpr r).toNat
    s.problem = false ∧ s.amode.is64 = true ∧ z.problem = false ∧ z.amode.is64 = false
    ∧ (0x123456#64).toNat = (part s 6#4 + part s 0#4 + 0) % 2 ^ 64 ∧ bit s.psw 31 = true
    ∧ (0x123456#64).toNat = (part z 6#4 + part z 0#4 + 0) % 2 ^ 31 ∧ (bit z.psw 31 = false ∧ bit z.psw 32 = true)
    ∧ (bits s.psw 16 2 = 0b00#2 ∧ 0x10000#64 = s.cr 1#4) ∧ (bits z.psw 16 2 = 0b00#2 ∧ 0x10000#64 = z.cr 1#4)
    ∧ bits (s.withPsw 0x00008001800000000000000000002000#128).psw 16 2 = 0b10#2
    ∧ bits (s.withPsw 0x0000C001800000000000000000002000#128).psw 16 2 = 0b11#2
    ∧ s.walk 0x123456#64 0x10000#64 = .ok (.available 0x0ABCD456#64 false)
    ∧ s.walk 0x200000#64 0x10000#64 = .ok (.segmentInvalid 0x10010#64)
    ∧ s.walk 0x124000#64 0x10000#64 = .ok (.pageInvalid 0x20120#64)
    ∧ s.walk 0x80000000#64 0x10000#64 = .ok (.other .asceType)
    ∧ z.walk 0x123456#64 0x10000#64 = .ok (.available 0x0ABCD456#64 false)
    ∧ z.walk 0x128789#64 0x10000#64 = .ok (.available 0x123456789#64 false) ∧ 2 ^ 31 ≤ (0x123456789#64).toNat := by
  and_intros <;> decide +kernel

/-- Vectors L10 and L12: the invalid entries lie above 2^31. -/
theorem test_witness_LraLoadsRealAddress_above :
    (lraState start31 0x100000#64).walk 0x100000#64 0x100000000#64 = .ok (.segmentInvalid 0x100000008#64)
    ∧ (lraState start31 0x200000#64).walk 0x200000#64 0x100000000#64 = .ok (.pageInvalid 0x100001000#64) :=
  ⟨ok_of (by decide +kernel), ok_of (by decide +kernel)⟩

theorem test_witness_LragLoadsRealAddress :
    (lraState start31 0x128789#64).problem = false
    ∧ (lraState start31 0x128789#64).translateOperand ((lraState start31 0x128789#64).indexedAddress 6#4 0#4 (0 : Int))
      = .ok (.available 0x123456789#64 false) := ⟨by decide +kernel, ok_of (by decide +kernel)⟩

theorem test_witness_StragStoresRealAddress :
    let s := lraState start 0x123456#64
    let z := lraState start 0x124000#64
    s.problem = false ∧ (s.address 7#4 8).toNat % 8 = 0
    ∧ s.translateOperand (s.address 6#4 0) = .ok (.available 0x0ABCD456#64 false)
    ∧ s.storeAddress s.operandSpace (s.address 7#4 8) 8 = .ok 8
    ∧ z.translateOperand (z.address 6#4 0) = .ok (.pageInvalid 0x20120#64)
    ∧ (Walk.pageInvalid 0x20120#64).exception = some .page := by
  and_intros <;> decide +kernel

theorem test_witness_TprotSetsConditionCode :
    (start.problem = false ∧ start.operandSpace = none ∧ start.realAddress (start.address 0#4 511) 1 = .ok 511
      ∧ start.lowProtected none (start.address 0#4 511) 1 = .ok false
      ∧ lowState.lowProtected none (lowState.address 0#4 511) 1 = .ok true)
    ∧ (let s := lraState startDat 0x125010#64
      s.operandSpace = some .primary ∧ s.walkSpace .primary (s.address 6#4 0) = .ok (.available 0x55010#64 true)
      ∧ s.realAddress 0x55010#64 1 = .ok 0x55010 ∧ s.lowProtected (some .primary) (s.address 6#4 0) 1 = .ok false)
    ∧ (let s := lraState startDat 0x124000#64
      s.walkSpace .primary (s.address 6#4 0) = .ok (.pageInvalid 0x20120#64)
      ∧ (Walk.pageInvalid 0x20120#64).exception = some .page) := by
  and_intros <;> decide +kernel

theorem test_witness_RealAddressLoadAndStore :
    let s := gprsOf start [(2#4, 0xFFFFFFFFFFFFFFF8#64)]
    s.problem = false ∧ (s.registerAddress 2#4).toNat % 8 = 0
    ∧ s.realAddress (s.registerAddress 2#4) 8 = .ok 0xFFFFFFFFFFFFFFF8
    ∧ s.storeAddress none (s.registerAddress 2#4) 8 = .ok 0xFFFFFFFFFFFFFFF8 :=
  ⟨by decide +kernel, by decide +kernel, ok_of (by decide +kernel), ok_of (by decide +kernel)⟩

theorem test_witness_LoadControlRegisters :
    start.problem = false ∧ (start.address 0#4 (4 : Nat)).toNat % 4 = 0
    ∧ (∀ k, k < (1#4 - 15#4).toNat + 1 →
      start.fetchAddress start.operandSpace (start.offset (start.address 0#4 (4 : Nat)) (k * 4)) 4 = .ok (4 + k * 4))
    ∧ (start.address 0#4 (-8 : Int)).toNat % 8 = 0
    ∧ (∀ k, k < (1#4 - 15#4).toNat + 1 →
      start.fetchAddress start.operandSpace (start.offset (start.address 0#4 (-8 : Int)) (k * 8)) 8
        = .ok (if k = 0 then 0xFFFFFFFFFFFFFFF8 else (k - 1) * 8)) := by
  refine ⟨by decide +kernel, by decide +kernel, fun k hk => ok_of ?_, by decide +kernel, fun k hk => ok_of ?_⟩
  · revert k
    decide +kernel
  · revert k
    decide +kernel

theorem storeAddress_real (s : State) (m : Memory) (a : DWord) (n : Nat) :
    (s.withMem m).storeAddress none a n = s.storeAddress none a n := rfl

theorem fetchAddress_real (s : State) (m : Memory) (a : DWord) (n : Nat) :
    (s.withMem m).fetchAddress none a n = s.fetchAddress none a n := rfl

theorem walkSpace_realSpace {s : State} {sp : Space} {asce : DWord} (h : s.asceOf sp = .ok asce)
    (hb : bit asce 58 = true) (m : Memory) (a : DWord) : (s.withMem m).walkSpace sp a = s.walkSpace sp a := by
  have h' : (s.withMem m).asceOf sp = .ok asce := by
    rw [← h]
    cases sp <;> rfl
  have e : ∀ t : State, t.asceOf sp = .ok asce → t.walkSpace sp a = .ok (.available a false) := by
    intro t ht
    unfold State.walkSpace
    rw [ht]
    change t.walk a asce = _
    unfold State.walk
    rw [if_pos hb]
  rw [e _ h, e _ h']

theorem storeAddress_realSpace {s : State} {sp : Space} {asce : DWord} (h : s.asceOf sp = .ok asce)
    (hb : bit asce 58 = true) (m : Memory) (a : DWord) (n : Nat) :
    (s.withMem m).storeAddress (some sp) a n = s.storeAddress (some sp) a n := by
  have hl : (s.withMem m).lowProtected (some sp) a n = s.lowProtected (some sp) a n := by
    cases sp <;> rfl
  have ht : (s.withMem m).translate .store sp a = s.translate .store sp a := by
    unfold State.translate
    rw [walkSpace_realSpace h hb]
  unfold State.storeAddress
  rw [hl]
  simp only [ht]
  rfl

theorem fetchAddress_realSpace {s : State} {sp : Space} {asce : DWord} (h : s.asceOf sp = .ok asce)
    (hb : bit asce 58 = true) (m : Memory) (a : DWord) (n : Nat) :
    (s.withMem m).fetchAddress (some sp) a n = s.fetchAddress (some sp) a n := by
  have ht : (s.withMem m).translate .fetch sp a = s.translate .fetch sp a := by
    unfold State.translate
    rw [walkSpace_realSpace h hb]
  unfold State.fetchAddress
  simp only [ht]
  rfl

/-- A property of the first n numbers, by evaluation. -/
theorem forall_lt {p : Nat → Bool} (n : Nat) (h : (List.range n).all p = true) {k : Nat} (hk : k < n) : p k = true :=
  List.all_eq_true.mp h k (List.mem_range.mpr hk)

theorem test_witness_StoreControlRegisters :
    start.problem = false ∧ (start.address 0#4 (4092 : Nat)).toNat % 4 = 0
    ∧ start.StoresAt none (start.address 0#4 (4092 : Nat)) 4 ((0#4 - 15#4).toNat + 1) (fun k => 4092 + k * 4)
    ∧ (start.address 0#4 (4088 : Int)).toNat % 8 = 0
    ∧ start.StoresAt none (start.address 0#4 (4088 : Int)) 8 ((0#4 - 15#4).toNat + 1) (fun k => 4088 + k * 8)
    ∧ start.operandSpace = none := by
  refine ⟨by decide +kernel, by decide +kernel, fun m _ k hk => ?_, by decide +kernel, fun m _ k hk => ?_,
    by decide +kernel⟩
  · rw [storeAddress_real]
    exact ok_of (forall_lt 2 (p := fun k => okIs (start.storeAddress none
      (start.offset (start.address 0#4 (4092 : Nat)) (k * 4)) 4) (4092 + k * 4)) (by decide +kernel) hk)
  · rw [storeAddress_real]
    exact ok_of (forall_lt 2 (p := fun k => okIs (start.storeAddress none
      (start.offset (start.address 0#4 (4088 : Int)) (k * 8)) 8) (4088 + k * 8)) (by decide +kernel) hk)

theorem test_witness_EseaExchangesAuthority : start.problem = false := by decide +kernel

/-- Storage of 20000 hexadecimal bytes, and a prefix word at 3300. -/
def smallState (w : Nat) : State :=
  { operandState 4 w with params := { Params.atReset with storageSize := 0x20000 } }

theorem test_witness_SpxSetsPrefix :
    let s := smallState 0x0001E000
    let z := smallState 0x00020000
    s.problem = false ∧ (s.address 9#4 0).toNat % 4 = 0
    ∧ s.fetchAddress s.operandSpace (s.address 9#4 0) 4 = .ok 0x3300
    ∧ toBytes 4 (0x0001E000#32).toNat = readBytes s.mem 0x3300 4
    ∧ (0#33 ++ bits 0x0001E000#32 1 18 ++ 0#13 : DWord).toNat + 8192 ≤ s.params.storageSize
    ∧ z.fetchAddress z.operandSpace (z.address 9#4 0) 4 = .ok 0x3300
    ∧ toBytes 4 (0x00020000#32).toNat = readBytes z.mem 0x3300 4
    ∧ z.params.storageSize < (0#33 ++ bits 0x00020000#32 1 18 ++ 0#13 : DWord).toNat + 8192 := by
  and_intros <;> decide +kernel

theorem test_witness_StflStoresFacilities :
    bit withoutN3.params.fac 0 = false ∧ bit start.params.fac 0 = true ∧ bit State.afterIpl.params.fac 0 = true
    ∧ start.problem = false ∧ start.realAddress 200#64 4 = .ok 200 ∧ start.archMode = .zArch
    ∧ State.afterIpl.problem = false ∧ State.afterIpl.realAddress 200#64 4 = .ok 200
    ∧ State.afterIpl.archMode = .esa390 :=
  ⟨by decide +kernel, by decide +kernel, by decide +kernel, by decide +kernel, ok_of (by decide +kernel), rfl,
    by decide +kernel, ok_of (by decide +kernel), rfl⟩

theorem test_witness_SigpSetsArchitecture :
    (orderState .esa390 1#64).problem = false
    ∧ bits ((orderState .esa390 1#64).address 0#4 0x13) 56 8 ≠ 0x12#8
    ∧ bits ((orderState .esa390 1#64).address 3#4 0) 56 8 = 0x12#8
    ∧ (¬∀ c ∈ ({ orderState .esa390 1#64 with otherCpus := [.stopped, .operating] } : State).otherCpus,
      c = .stopped ∨ c = .checkStop)
    ∧ (∀ c ∈ ({ orderState .esa390 1#64 with otherCpus := [.stopped, .checkStop] } : State).otherCpus,
      c = .stopped ∨ c = .checkStop)
    ∧ bits ((orderState .esa390 1#64).gpr 1#4) 56 8 = 1#8 ∧ (orderState .esa390 1#64).archMode = .esa390
    ∧ bits ((orderState .zArch 0#64).gpr 1#4) 56 8 = 0#8 ∧ (orderState .zArch 0#64).archMode = .zArch
    ∧ bits ((orderState .zArch 2#64).gpr 1#4) 56 8 = 2#8
    ∧ pswValid (orderState .esa390 1#64).psw = true ∧ bits (orderState .esa390 1#64).psw 64 33 = 0#33 := by
  decide +kernel

theorem test_witness_ProgramCall :
    (callState.entryTable.find? (fun x => x.number == callState.address 0#4 2) = some (entryOf 2#64 false false)
      ∧ callState.findEntry (callState.address 0#4 2) = entryOf 2#64 false false
      ∧ (entryOf 2#64 false false).stacking = false ∧ (entryOf 2#64 false false).g ≠ bit callState.psw 31)
    ∧ (callState.findEntry (callState.address 0#4 1) = entryOf 1#64 true false
      ∧ (entryOf 1#64 true false).stacking = true ∧ TracedTo (.pc 0#4 1) callState callState)
    ∧ (callState.findEntry (callState.address 0#4 3) = entryOf 3#64 false true
      ∧ (entryOf 3#64 false true).g = bit callState.psw 31 ∧ TracedTo (.pc 0#4 3) callState callState)
    ∧ ((tracing callState).findEntry ((tracing callState).address 0#4 1) = entryOf 1#64 true false
      ∧ ∃ u, TracedTo (.pc 0#4 1) (tracing callState) u) := by
  have e : tracedEntry (.pc 0#4 1) (tracing callState) = some (modeSwitchEntry .a64 0x2000#64) := by decide +kernel
  exact ⟨by decide +kernel, ⟨by decide +kernel, by decide, traced_off (by decide +kernel)⟩,
    ⟨by decide +kernel, by decide +kernel, traced_off (by decide +kernel)⟩, by decide +kernel, _, traced_on e rfl⟩

theorem test_witness_ResumeProgram : TracedTo (.rp 5#4 0) start start := traced_off (by decide +kernel)

theorem test_witness_BranchAndStack : TracedTo (.bakr 1#4 0#4) traceState traceState
    ∧ TracedTo (.bakr 1#4 6#4) start start ∧ ∃ u, TracedTo (.bakr 1#4 6#4) traceState u := by
  have e : tracedEntry (.bakr 1#4 6#4) traceState = some (branchEntry .a31 0x4001#64) := by decide +kernel
  exact ⟨traced_off (by decide +kernel), traced_off (by decide +kernel), _, traced_on e rfl⟩

theorem test_witness_ProgramReturn :
    let s := stackState 0x07050000800000000000000000004000#128
    start.designatedEntry = none ∧ (s.setCr 15#4 0x8000#64).designatedEntry = none
    ∧ s.designatedEntry = some (entryWith 0x07050000800000000000000000004000#128 0x0123456789ABCDEF#64 7#32)
    ∧ (tracing s).designatedEntry = some (entryWith 0x07050000800000000000000000004000#128 0x0123456789ABCDEF#64 7#32)
    ∧ TracedTo .pr s s ∧ (∃ u, TracedTo .pr (tracing s) u)
    ∧ pswValid 0x07050000800000000000000000004000#128 = true := by
  have e : tracedEntry .pr (tracing (stackState 0x07050000800000000000000000004000#128))
      = some (modeSwitchEntry .a64 0x2000#64) := by decide +kernel
  exact ⟨by decide +kernel, by decide +kernel, by decide +kernel, by decide +kernel, traced_off (by decide +kernel),
    ⟨_, traced_on e rfl⟩, by decide +kernel⟩

/-- An entry on the stack, and an ESTA code in register 5. -/
def codeState (code : DWord) : State := (stackState start.psw).setGpr 5#4 code

theorem test_witness_ExtractStackedState :
    (2#4).toNat % 2 = 0 ∧ 4 < (bits ((codeState 5#64).gpr 5#4) 56 8).toNat
    ∧ ((bits (((codeState 4#64).setCr 15#4 0#64).gpr 5#4) 56 8).toNat ≤ 4
      ∧ ((codeState 4#64).setCr 15#4 0#64).designatedEntry = none)
    ∧ bits ((codeState 0#64).gpr 5#4) 56 8 = 0#8 ∧ bits ((codeState 1#64).gpr 5#4) 56 8 = 1#8
    ∧ bits ((codeState 2#64).gpr 5#4) 56 8 = 2#8 ∧ bits ((codeState 3#64).gpr 5#4) 56 8 = 3#8
    ∧ bits ((codeState 4#64).gpr 5#4) 56 8 = 4#8
    ∧ ∀ c, (codeState c).designatedEntry = some (entryWith start.psw 0x0123456789ABCDEF#64 7#32) := by
  have e : (stackState start.psw).designatedEntry = some (entryWith start.psw 0x0123456789ABCDEF#64 7#32) := by
    decide +kernel
  and_intros <;> first | exact fun _ => e | decide +kernel

theorem test_witness_ExtractStackedRegisters :
    start.designatedEntry = none
    ∧ (stackState start.psw).designatedEntry = some (entryWith start.psw 0x0123456789ABCDEF#64 7#32) := by
  decide +kernel

theorem test_witness_BranchAndLink :
    (TracedTo (.balr 5#4 6#4) start start ∧ start.amode = .a64)
    ∧ (TracedTo (.balr 5#4 6#4) start31 start31 ∧ start31.amode = .a31)
    ∧ (TracedTo (.balr 5#4 6#4) start24 start24 ∧ start24.amode = .a24)
    ∧ TracedTo (.basr 5#4 0#4) traceState traceState
    ∧ (∃ u, TracedTo (.balr 5#4 6#4) traceState u) ∧ ∃ u, TracedTo (.basr 5#4 6#4) traceState u := by
  have e : tracedEntry (.balr 5#4 6#4) traceState = some (branchEntry .a31 0x4001#64) := by decide +kernel
  have f : tracedEntry (.basr 5#4 6#4) traceState = some (branchEntry .a31 0x4001#64) := by decide +kernel
  exact ⟨⟨traced_off (by decide +kernel), by decide +kernel⟩, ⟨traced_off (by decide +kernel), by decide +kernel⟩,
    ⟨traced_off (by decide +kernel), by decide +kernel⟩, traced_off (by decide +kernel), ⟨_, traced_on e rfl⟩, _,
    traced_on f rfl⟩

theorem test_witness_BranchAndSetMode_traced :
    TracedTo (.bassm 5#4 6#4) start start ∧ TracedTo (.bsm 5#4 6#4) start start
    ∧ (∃ u, TracedTo (.bassm 5#4 6#4) traceState u) ∧ ∃ u, TracedTo (.bsm 5#4 6#4) traceState u := by
  have e : tracedEntry (.bassm 5#4 6#4) traceState = some (modeSwitchingBranchEntry .a64 0x100004000#64) := by
    decide +kernel
  have f : tracedEntry (.bsm 5#4 6#4) traceState = some (modeSwitchEntry .a31 0x2000#64) := by decide +kernel
  exact ⟨traced_off (by decide +kernel), traced_off (by decide +kernel), ⟨_, traced_on e rfl⟩, _, traced_on f rfl⟩

theorem test_witness_BranchAndSetMode :
    (6#4 : Reg) ≠ 0#4
    ∧ bit ((gprsOf start [(6#4, 1#64)]).gpr 6#4) 63 = true
    ∧ (bit ((gprsOf start [(6#4, 0x80000000#64)]).gpr 6#4) 63 = false
      ∧ bit ((gprsOf start [(6#4, 0x80000000#64)]).gpr 6#4) 32 = true)
    ∧ (bit (start.gpr 6#4) 63 = false ∧ bit (start.gpr 6#4) 32 = false) := by decide +kernel

/-- All tracing on, with the trace-entry address 5FFC: four bytes are left in the 4K block. -/
def fullTraceState : State := traceState.setCr 12#4 0xC000000000005FFD#64

theorem test_witness_ModeAndBranchTracing :
    (traceState.traceAddress.toNat % 4096 + [1#8, 2#8, 3#8, 4#8].length ≤ 4096
      ∧ fullTraceState.traceAddress.toNat % 4096 + [1#8, 2#8, 3#8, 4#8].length ≤ 4096
      ∧ traceState.realAddress traceState.traceAddress [1#8, 2#8, 3#8, 4#8].length = .ok 0x5000)
    ∧ 4096 < fullTraceState.traceAddress.toNat % 4096 + [1#8, 2#8, 3#8, 4#8, 5#8].length
    ∧ (tracedEntry (.bassm 1#4 6#4) fullTraceState = some (modeSwitchingBranchEntry .a64 0x100004000#64)
      ∧ fullTraceState.appendTrace (modeSwitchingBranchEntry .a64 0x100004000#64) = .error (.exception .traceTable))
    ∧ (tracedEntry (.bassm 1#4 6#4) traceState = some (modeSwitchingBranchEntry .a64 0x100004000#64)
      ∧ (∃ u, traceState.appendTrace (modeSwitchingBranchEntry .a64 0x100004000#64) = .ok u)
      ∧ (∃ t, exec (.bassm 1#4 6#4) traceState = .next t) ∧ traceState.params.invalidPsw = .stop)
    ∧ (inTraceTable (.basr 1#4 0#4) = true ∧ tracedEntry (.basr 1#4 0#4) traceState = none
      ∧ ∃ t, exec (.basr 1#4 0#4) traceState = .next t) := by
  refine ⟨⟨by decide +kernel, by decide +kernel, ok_of (by decide +kernel)⟩, by decide +kernel,
    ⟨by decide +kernel, rfl⟩, ⟨by decide +kernel, ⟨_, rfl⟩, next_of (p := fun _ => true) (by decide +kernel), rfl⟩,
    by decide, by decide +kernel, next_of (p := fun _ => true) (by decide +kernel)⟩

/-- The start state of the tests of explicit tracing with the trace-entry address 5000 or, for TRACG, one that leaves
exactly the 24 bytes of an entry of one register. -/
abbrev lastState : State := (explicitState 0xABCD).setCr 12#4 0x5FE9#64

theorem test_witness_ExplicitTracing :
    (explicitState 0xABCD).problem = false ∧ ((explicitState 0xABCD).address 7#4 (0 : Nat)).toNat % 4 = 0
    ∧ (explicitState 0xABCD).fetchAddress (explicitState 0xABCD).operandSpace
      ((explicitState 0xABCD).address 7#4 (0 : Nat)) 4 = .ok 0x3000
    ∧ toBytes 4 (0xABCD#32).toNat = readBytes (explicitState 0xABCD).mem 0x3000 4
    ∧ toBytes 4 (0x80000000#32).toNat = readBytes (explicitState 0x80000000).mem 0x3000 4
    ∧ bit 0x80000000#32 0 = true ∧ bit 0xABCD#32 0 = false
    ∧ (explicitState 0xABCD).explicitTraceOn = true ∧ start.explicitTraceOn = false
    ∧ (explicitState 0xABCD).traceAddress.toNat % 4096 + (12 + 4 * ((1#4 - 2#4).toNat + 1)) ≤ 4096
    ∧ (explicitState 0xABCD).realAddress (explicitState 0xABCD).traceAddress (12 + 4 * ((1#4 - 2#4).toNat + 1))
      = .ok 0x5000
    ∧ lastState.traceAddress.toNat % 4096 + (16 + 8 * ((2#4 - 2#4).toNat + 1)) = 4096
    ∧ lastState.realAddress lastState.traceAddress (16 + 8 * ((2#4 - 2#4).toNat + 1)) = .ok 0x5FE8 := by
  and_intros <;> decide +kernel

theorem test_witness_TrapEntersRoutine :
    TracedTo .trap2 start start ∧ TracedTo (.trap4 5#4 0) start start
    ∧ (∃ u, TracedTo .trap2 (tracing (trapState true false)) u)
    ∧ (∃ u, TracedTo (.trap4 5#4 0) (tracing (trapState true false)) u)
    ∧ (trapState true false).currentTrapArea
      = { registers64 := true, psw128 := false, routine := 0x80006000#64, saved := none }
    ∧ (trapState false true).currentTrapArea
      = { registers64 := false, psw128 := true, routine := 0x80006000#64, saved := none } := by
  have e : tracedEntry .trap2 (tracing (trapState true false)) = some (branchEntry .a31 0x6000#64) := by decide +kernel
  have f : tracedEntry (.trap4 5#4 0) (tracing (trapState true false)) = some (branchEntry .a31 0x6000#64) := by
    decide +kernel
  exact ⟨traced_off (by decide +kernel), traced_off (by decide +kernel), ⟨_, traced_on e rfl⟩, ⟨_, traced_on f rfl⟩,
    by decide +kernel, by decide +kernel⟩

theorem test_witness_MonitorCall :
    bits 0x10#8 0 4 ≠ 0#4 ∧ (bits 0x0F#8 0 4 = 0#4 ∧ bit (fetchState.cr 8#4) (48 + (0x0F#8).toNat) = false)
    ∧ bit ((fetchState.setCr 8#4 1#64).cr 8#4) (48 + (0x0F#8).toNat) = true
    ∧ (fetchState.setCr 8#4 1#64).Inv ∧ (fetchState.setCr 8#4 1#64).canInterrupt := by
  refine ⟨by decide, by decide +kernel, by decide +kernel, fetchState_inv, fetchState_interrupts⟩

/-- Two real spaces, DAT on, and the length in register 1. -/
def spaceState (length : DWord) : State := spaces (moveState startDat length)

/-- The places of the moves of these tests. -/
def from3000 (k : Nat) : Nat := 0x3000 + k

/-- The places of the moves of these tests. -/
def to4000 (k : Nat) : Nat := 0x4000 + k

theorem test_witness_MovesBetweenSpaces :
    (spaceState 257#64).problem = false ∧ start.dat = false ∧ min ((spaceState 257#64).gpr 1#4).toNat 256 = 256
    ∧ ((spaceState 257#64).dat = true ∧ bit (spaceState 257#64).psw 17 = false
      ∧ (spaceState 257#64).cr 0#4 &&& (spaceState 257#64).params.secondarySpaceControl ≠ 0#64)
    ∧ (spaceState 257#64).FetchesAt (some .secondary) ((spaceState 257#64).address 6#4 0) 256 from3000
      (unitPlaces to4000 1 256)
    ∧ (spaceState 257#64).StoresAt (some .primary) ((spaceState 257#64).address 7#4 0) 1 256 to4000
    ∧ (spaceState 257#64).FetchesAt (some .primary) ((spaceState 257#64).address 6#4 0) 256 from3000
      (unitPlaces to4000 1 256)
    ∧ (spaceState 257#64).StoresAt (some .secondary) ((spaceState 257#64).address 7#4 0) 1 256 to4000 := by
  refine ⟨by decide +kernel, by decide +kernel, by decide +kernel, by decide +kernel, fun m _ k hk => ?_,
    fun m _ k hk => ?_, fun m _ k hk => ?_, fun m _ k hk => ?_⟩
  · rw [fetchAddress_realSpace (asce := 0x20#64) (ok_of (by decide +kernel)) (by decide)]
    exact ok_of (forall_lt 256 (p := fun k => okIs ((spaceState 257#64).fetchAddress (some .secondary)
      ((spaceState 257#64).offset ((spaceState 257#64).address 6#4 0) k) 1) (from3000 k)) (by decide +kernel) hk)
  · rw [storeAddress_realSpace (asce := 0x20#64) (ok_of (by decide +kernel)) (by decide)]
    exact ok_of (forall_lt 256 (p := fun k => okIs ((spaceState 257#64).storeAddress (some .primary)
      ((spaceState 257#64).offset ((spaceState 257#64).address 7#4 0) (k * 1)) 1) (to4000 k)) (by decide +kernel) hk)
  · rw [fetchAddress_realSpace (asce := 0x20#64) (ok_of (by decide +kernel)) (by decide)]
    exact ok_of (forall_lt 256 (p := fun k => okIs ((spaceState 257#64).fetchAddress (some .primary)
      ((spaceState 257#64).offset ((spaceState 257#64).address 6#4 0) k) 1) (from3000 k)) (by decide +kernel) hk)
  · rw [storeAddress_realSpace (asce := 0x20#64) (ok_of (by decide +kernel)) (by decide)]
    exact ok_of (forall_lt 256 (p := fun k => okIs ((spaceState 257#64).storeAddress (some .secondary)
      ((spaceState 257#64).offset ((spaceState 257#64).address 7#4 0) (k * 1)) 1) (to4000 k)) (by decide +kernel) hk)

/-- The length 16 in register 1, below a high half that 31-bit mode ignores. -/
def keyState : State := moveState start31 0x0000000100000010#64

theorem test_witness_MoveWithKey :
    keyState.problem = false ∧ keyState.amode.is64 = false ∧ min ((keyState.gpr 1#4).toNat % 2 ^ 32) 256 = 16
    ∧ keyState.operandSpace = none
    ∧ keyState.FetchesAt none (keyState.address 6#4 0) 16 from3000 (unitPlaces to4000 1 16)
    ∧ keyState.StoresAt none (keyState.address 7#4 0) 1 16 to4000 := by
  refine ⟨by decide +kernel, by decide +kernel, by decide +kernel, by decide +kernel, fun m _ k hk => ?_,
    fun m _ k hk => ?_⟩
  · rw [fetchAddress_real]
    exact ok_of (forall_lt 16 (p := fun k => okIs (keyState.fetchAddress none
      (keyState.offset (keyState.address 6#4 0) k) 1) (from3000 k)) (by decide +kernel) hk)
  · rw [storeAddress_real]
    exact ok_of (forall_lt 16 (p := fun k => okIs (keyState.storeAddress none
      (keyState.offset (keyState.address 7#4 0) (k * 1)) 1) (to4000 k)) (by decide +kernel) hk)

theorem test_witness_QuadwordLoadAndStore :
    (14#4 : Reg).toNat % 2 = 0 ∧ (start.indexedAddress 0#4 0#4 (-16 : Int)).toNat % 16 = 0
    ∧ start.fetchAddress start.operandSpace (start.indexedAddress 0#4 0#4 (-16 : Int)) 16 = .ok 0xFFFFFFFFFFFFFFF0
    ∧ start.storeAddress start.operandSpace (start.indexedAddress 0#4 0#4 (-16 : Int)) 16 = .ok 0xFFFFFFFFFFFFFFF0 :=
  ⟨by decide, by decide +kernel, ok_of (by decide +kernel), ok_of (by decide +kernel)⟩

theorem test_witness_CompareDoubleAndSwap :
    (2#4 : Reg).toNat % 2 = 0 ∧ (4#4 : Reg).toNat % 2 = 0 ∧ ((swapState 2#64).address 6#4 0).toNat % 16 = 0
    ∧ (swapState 2#64).storeAddress (swapState 2#64).operandSpace ((swapState 2#64).address 6#4 0) 16 = .ok 0x3000
    ∧ readBytes (swapState 2#64).mem 0x3000 16
      = toBytes 8 ((swapState 2#64).gpr 2#4).toNat ++ toBytes 8 ((swapState 2#64).gpr (2#4 + 1#4)).toNat
    ∧ (swapState 3#64).storeAddress (swapState 3#64).operandSpace ((swapState 3#64).address 6#4 0) 16 = .ok 0x3000
    ∧ readBytes (swapState 3#64).mem 0x3000 16
      ≠ toBytes 8 ((swapState 3#64).gpr 2#4).toNat ++ toBytes 8 ((swapState 3#64).gpr (2#4 + 1#4)).toNat
    ∧ (let s := lraState startDat 0x124000#64
      s.fetchAddress s.operandSpace (s.address 6#4 0) 16
        = .error (.exception (.translation .page 0x124000#64 .primary)))
    ∧ (let s := lraState startDat 0x125010#64
      s.fetchAddress s.operandSpace (s.address 6#4 0) 16 = .ok 0x55010
        ∧ s.storeAddress s.operandSpace (s.address 6#4 0) 16
          = .error (.exception (.protection (some (0x125010#64, .primary))))) := by
  and_intros <;> decide +kernel

theorem test_witness_MovePage :
    let s := gprsOf start [(6#4, 0x3FFF#64), (7#4, 0xFFFFFFFFFFFFFFFF#64)]
    let page := fun (s : State) r => bits (s.amode.trunc (s.gpr r)) 0 52 ++ 0#12
    let d := gprsOf (tabled startDat) [(4#4, 0x124000#64), (5#4, 0x125FFF#64), (6#4, 0x123000#64)]
    (gprsOf start [(0#4, 1#64)]).gpr 0#4 ≠ 0#64
    ∧ s.gpr 0#4 = 0#64
    ∧ s.fetchAddress s.operandSpace (page s 6#4) 4096 = .ok 0x3000
    ∧ s.storeAddress s.operandSpace (page s 7#4) 4096 = .ok 0xFFFFFFFFFFFFF000
    ∧ d.gpr 0#4 = 0#64
    ∧ d.fetchAddress d.operandSpace (page d 4#4) 4096
      = .error (.exception (.translation .page 0x124000#64 .primary))
    ∧ d.fetchAddress d.operandSpace (page d 6#4) 4096 = .ok 0x0ABCD000
    ∧ d.storeAddress d.operandSpace (page d 5#4) 4096 = .error (.exception (.protection (some (0x125000#64, .primary)))) := by
  and_intros <;> decide +kernel

theorem test_witness_IesbeIsDropped : fetchState.Inv ∧ fetchState.canInterrupt := ⟨fetchState_inv, fetchState_interrupts⟩

end Sys2Proof.Tests
end

section
/-! The obligations of 20_memory.md. -/

namespace Sys2Proof.Machine

open Sys2Proof

/-- After the tables, the page lookup never gives the ASCE-type exception: its outcomes are a page or the page-invalid
one. -/
theorem walkPage_ne_asceType (s : State) (va ste : DWord) : s.walkPage va ste ≠ .ok (.other .asceType) := by
  intro h
  obtain ⟨_, _, _, _, _, _, ⟨_, hw⟩ | ⟨_, _, _, hw⟩⟩ := walkPage_ok h <;> cases hw

/-- Outside the real space, only the test of step 3 (20_memory.md rule R100) answers the ASCE-type exception: the
tables and the page lookup, whatever they hold, answer other outcomes. -/
theorem walk_eq_asceType_iff (s : State) {va asce : DWord} (hreal : bit asce 58 = false) :
    s.walk va asce = .ok (.other .asceType) ↔ asceTypeViolation va asce = true := by
  unfold State.walk
  rw [if_neg (by simp [hreal])]
  split
  · next hv => simp [hv]
  · next hv =>
    refine iff_of_false (fun h => ?_) hv
    obtain ⟨r, hr, h⟩ := res_bind_eq_ok h
    cases r with
    | stopped w =>
      cases h
      exact walkTables_ne_asceType _ _ _ _ _ _ hr
    | entry ste => exact walkPage_ne_asceType _ _ _ h

/-- A walk that stops with an exception of its own kind makes the access raise it, for a fetch and for a store. -/
theorem translate_of_walk_other {s : State} {sp : Space} {va asce : DWord} {k : TranslationKind} (acc : Access)
    (hasce : s.asceOf sp = .ok asce) (hwalk : s.walk va asce = .ok (.other k)) :
    s.translate acc sp va = .error (.exception (.translation k va sp)) := by
  have hspace : s.walkSpace sp va = .ok (.other k) := by
    unfold State.walkSpace
    rw [hasce]
    exact hwalk
  unfold State.translate
  rw [hspace]
  rfl

/-- Settles O16: the walk answers the exception exactly when step 3's test finds it, and that test is rule R101's
condition. -/
theorem asceTypeException : Obligations.AsceTypeException := by
  intro s va asce hreal
  refine ⟨(walk_eq_asceType_iff s hreal).trans (asceTypeViolation_iff va asce), ?_, rfl⟩
  intro sp acc hasce hwalk
  exact translate_of_walk_other acc hasce hwalk

end Sys2Proof.Machine
end

section
/-! The obligations of 60_exceptions.md. -/

namespace Sys2Proof.Machine

open Sys2Proof

/-! ## The problem-state bit, PSW bit 15, after each update -/

theorem problem_of_psw {s t : State} (h : t.psw = s.psw) : t.problem = s.problem := congrArg (bit · 15) h

/-- A condition code set after an update that keeps the PSW. -/
theorem problem_setCc_of_psw {s t : State} (h : t.psw = s.psw) (c : BitVec 2) : (t.setCc c).problem = s.problem :=
  (t.problem_setCc c).trans (problem_of_psw h)

theorem problem_drawn (s : State) : s.drawn.problem = s.problem := problem_of_psw s.drawn_psw

theorem Traced.problem {s t : State} (h : Traced s t) : t.problem = s.problem := problem_of_psw h.psw

theorem bit15_withAddress_withMode (p : Quad) (a : DWord) (m : AMode) :
    bit (pswWithMode (pswWithAddress p a) m) 15 = bit p 15 :=
  (bit_pswWithMode_outside _ m (by omega) (by omega)).trans (bit_pswWithAddress_outside p a (by omega))

theorem problem_withMode (s : State) (m : AMode) : (s.withPsw (pswWithMode s.psw m)).problem = s.problem :=
  bit_pswWithMode_outside s.psw m (by omega) (by omega)

theorem problem_takeBranch {s t : State} (h : t.psw = s.psw) (r : Reg) (a : DWord) :
    (t.takeBranch r a).problem = s.problem := by
  unfold State.takeBranch
  split
  · exact problem_of_psw h
  · exact (t.problem_withIa a).trans (problem_of_psw h)

theorem problem_takeModeBranch {s t : State} (h : t.psw = s.psw) (r : Reg) (v : DWord) :
    (t.takeModeBranch r v).problem = s.problem := by
  unfold State.takeModeBranch
  split
  · exact problem_of_psw h
  · exact (bit15_withAddress_withMode t.psw _ _).trans (problem_of_psw h)

/-- What RP loads into the PSW is to the right of the bit: bits 16-23, the mode and the address. -/
theorem problem_resume (s : State) : s.resume.problem = s.problem :=
  (bit_setBits_outside _ 16 _ 15 (by omega) (by omega) (by omega)).trans (bit15_withAddress_withMode s.psw _ _)

/-- The switch to z/Architecture mode expands the PSW, which moves no bit to the left of the address. -/
theorem problem_switchToZ (s : State) : s.switchToZ.problem = s.problem := by
  have hbit : ∀ p : Quad, bit (expand (shorten p)) 15 = bit p 15 := fun p => by
    have hbits : bits (expand (shorten p)) 15 1 = bits p 15 1 :=
      (bits_expand_middle _ 15 1 (by omega) (by omega)).trans (bits_shorten_middle p 15 1 (by omega) (by omega))
    have hmsb := congrArg (·.getMsbD 0) hbits
    simpa [getMsbD_bits, bit] using hmsb
  exact hbit s.psw

theorem problem_orderStatus (s : State) (r : Reg) (status : Word) : (s.orderStatus r status).problem = s.problem :=
  problem_setCc_of_psw (State.setGprLow_psw s r status) _

theorem saveLink_psw (s : State) (r : Reg) : (s.saveLink r).psw = s.psw := by
  unfold State.saveLink
  split <;> rfl

theorem saveLinkInformation_psw (s : State) (r : Reg) : (s.saveLinkInformation r).psw = s.psw := by
  unfold State.saveLinkInformation
  split
  · rfl
  · exact saveLink_psw s r

theorem saveMode_psw (s : State) (r : Reg) : (s.saveMode r).psw = s.psw := by
  unfold State.saveMode
  split <;> rfl

theorem extractState_psw (s : State) (r : Reg) (code : Byte) (e : StackEntry) :
    (s.extractState r code e).psw = s.psw := by
  unfold State.extractState
  split
  · rfl
  · split <;> rfl

theorem setWideReal_psw (s : State) (r : Reg) (w : Walk) : (s.setWideReal r w).psw = s.psw := by
  cases w <;> rfl

theorem setCrs_psw (s : State) (l : List (Reg × Nat)) : (s.setCrs l).psw = s.psw := by
  obtain ⟨v, hv⟩ := setCrs_same s l
  rw [hv]

theorem setCrsLow_psw (s : State) (l : List (Reg × Nat)) : (s.setCrsLow l).psw = s.psw := by
  obtain ⟨v, hv⟩ := setCrsLow_same s l
  rw [hv]

theorem restoreGprs_psw (s : State) (e : StackEntry) (rs : List Reg) : (s.restoreGprs e rs).psw = s.psw := by
  obtain ⟨v, hv⟩ := restoreGprs_same s e rs
  rw [hv]

theorem restoreGprsLow_psw (s : State) (e : StackEntry) (rs : List Reg) : (s.restoreGprsLow e rs).psw = s.psw := by
  obtain ⟨v, hv⟩ := restoreGprsLow_same s e rs
  rw [hv]

theorem restoreArs_psw (s : State) (e : StackEntry) (rs : List Reg) : (s.restoreArs e rs).psw = s.psw := by
  obtain ⟨v, hv⟩ := restoreArs_same s e rs
  rw [hv]

/-! ## Bodies of instructions -/

/-- The state that the body of an instruction computes, if it completes, has the problem-state bit of s. -/
def BodyKeepsProblem (s : State) (r : Res State) : Prop := ∀ t, r = .ok t → t.problem = s.problem

theorem BodyKeepsProblem.ok {s t : State} (h : t.problem = s.problem) : BodyKeepsProblem s (.ok t) := fun _ ht =>
  Except.ok.inj ht ▸ h

theorem BodyKeepsProblem.ok_of_psw {s t : State} (h : t.psw = s.psw) : BodyKeepsProblem s (.ok t) :=
  .ok (problem_of_psw h)

theorem BodyKeepsProblem.ok_setCc {s t : State} (h : t.psw = s.psw) (c : BitVec 2) :
    BodyKeepsProblem s (.ok (t.setCc c)) := .ok (problem_setCc_of_psw h c)

theorem BodyKeepsProblem.error {s : State} {e : Stop} : BodyKeepsProblem s (.error e) := fun _ ht => nomatch ht

theorem BodyKeepsProblem.bind {α : Type} {s : State} {x : Res α} {f : α → Res State}
    (h : ∀ a, x = .ok a → BodyKeepsProblem s (f a)) : BodyKeepsProblem s (x >>= f) := fun t ht =>
  have ⟨a, ha, hf⟩ := res_bind_eq_ok ht
  h a ha t hf

/-- A step of the body that keeps the state it starts from: a check, or the fetch of an operand. -/
theorem BodyKeepsProblem.after {α : Type} {s : State} {x : Res α} {f : α → Res State}
    (h : ∀ a, BodyKeepsProblem s (f a)) : BodyKeepsProblem s (x >>= f) := .bind fun a _ => h a

theorem BodyKeepsProblem.ite {s : State} {c : Prop} [Decidable c] {x y : Res State} (hx : BodyKeepsProblem s x)
    (hy : BodyKeepsProblem s y) : BodyKeepsProblem s (if c then x else y) := by
  split
  · exact hx
  · exact hy

/-- The instruction's outcome: its body's state, or a program exception taken from s. -/
theorem run_problem {s t : State} {len : Nat} {r : Res State} (h : s.run len r = .next t)
    (hr : BodyKeepsProblem s r) : t.problem = s.problem ∨ TakenFrom s t := (run_next h).imp_left (hr t)

theorem memWrite_keepsProblem (s : State) (a : DWord) (bs : List Byte) : BodyKeepsProblem s (s.memWrite a bs) :=
  .after fun _ => .ok rfl

theorem realWrite_keepsProblem (s : State) (r : DWord) (bs : List Byte) : BodyKeepsProblem s (s.realWrite r bs) :=
  .after fun _ => .ok rfl

theorem writeUnits_keepsProblem (s : State) (a : DWord) (size : Nat) (us : List (List Byte)) (k : Nat) :
    BodyKeepsProblem s (s.writeUnits a size us k) := fun _ ht => problem_of_psw (keeps_writeUnits ht).2

theorem move_keepsProblem (s : State) (d f : Option Space) (r : Reg) (a1 a2 : DWord) :
    BodyKeepsProblem s (s.move d f r a1 a2) := fun _ ht => by
  obtain ⟨_, m, l, c, rfl⟩ := move_ok ht
  exact problem_setCc_of_psw (State.withStores_psw s m l) c

theorem setAddressingMode_keepsProblem (s : State) (m : AMode) : BodyKeepsProblem s (s.setAddressingMode m) :=
  .after fun _ => .bind fun t ht => .ok ((problem_withMode t m).trans (traceModeSwitch_traced ht).problem)

theorem trap_keepsProblem (s : State) (operand : Option DWord) : BodyKeepsProblem s (s.trap operand) :=
  .after fun _ => .ok (bit15_withAddress_withMode s.psw _ _)

theorem traceExplicit_keepsProblem (s : State) (operand : Word) (entry : List Byte) :
    BodyKeepsProblem s (s.traceExplicit operand entry) :=
  .ite (.bind fun t ht => .ok ((problem_drawn t).trans (Traced.problem (.inr ⟨entry, ht⟩)))) (.ok rfl)

theorem loadReal_keepsProblem (s : State) (r : Reg) (w : Walk) : BodyKeepsProblem s (s.loadReal r w) := by
  unfold State.loadReal
  split
  · exact .ok_setCc (setWideReal_psw s r w) _
  · split
    · exact .ok_setCc (s.setGprLow_psw r _) _
    · exact .error

theorem setArchitecture_keepsProblem (s : State) (r : Reg) : BodyKeepsProblem s (s.setArchitecture r) := by
  unfold State.setArchitecture
  split
  · split
    · exact .ok ((State.problem_setCc _ _).trans (problem_switchToZ s))
    · exact .error
    · exact .ok (problem_orderStatus s r _)
  · exact .ok (problem_orderStatus s r _)

/-! ## Every instruction -/

/-- The four instructions apart, an instruction keeps the bit or takes a program exception: a body that completes writes
the condition code, the mode, the address or what RP loads into the PSW, or switches its form, and none of these touches
bit 15. -/
theorem exec_problem {i : Instr} {s t : State} (hi : replacesPsw i = false) (h : exec i s = .next t) :
    t.problem = s.problem ∨ TakenFrom s t := by
  cases i with
  | lpsw | lpswe | pc | pr => cases hi
  | bsa | bsg | plo => cases h
  | iesbe => exact .inr (raise_taken h)
  | epsw r1 r2 =>
    obtain rfl := Host.Outcome.next.inj h
    refine .inl (problem_of_psw ?_)
    split <;> rfl
  | sam24 | sam31 | sam64 => exact run_problem h (setAddressingMode_keepsProblem s _)
  | lra => exact run_problem h (.after fun _ => .after fun w => loadReal_keepsProblem s _ w)
  | lrag r1 => exact run_problem h (.after fun _ => .after fun w => .ok_setCc (setWideReal_psw s r1 w) _)
  | strag =>
    refine run_problem h (.after fun _ => .after fun _ => .after fun w => ?_)
    cases w with
    | available => exact memWrite_keepsProblem s _ _
    | segmentInvalid | pageInvalid | other => exact .error
  | tprot =>
    refine run_problem h (.after fun _ => .after fun found => ?_)
    cases found with
    | none => exact .ok_setCc rfl _
    | some => exact .after fun _ => .after fun _ => .ok_setCc rfl _
  | lurag | sturg | lpq => exact run_problem h (.after fun _ => .after fun _ => .after fun _ => .ok_of_psw rfl)
  | spx => exact run_problem h (.after fun _ => .after fun _ => .after fun _ => .after fun _ => .ok_of_psw rfl)
  | lctl => exact run_problem h (.after fun _ => .after fun _ => .after fun _ => .ok_of_psw (setCrsLow_psw s _))
  | lctlg => exact run_problem h (.after fun _ => .after fun _ => .after fun _ => .ok_of_psw (setCrs_psw s _))
  | stctl | stctg => exact run_problem h (.after fun _ => .after fun _ => writeUnits_keepsProblem s _ _ _ _)
  | esea => exact run_problem h (.after fun _ => .ok_of_psw rfl)
  | stfl => exact run_problem h (.after fun _ => .after fun _ => realWrite_keepsProblem s _ _)
  | sigp r1 => exact run_problem h (.after fun _ => .ite (setArchitecture_keepsProblem s r1) .error)
  | bakr =>
    exact run_problem h (.bind fun u hu =>
      .ok (problem_takeBranch ((u.pushEntry_psw _ _).trans (traceRegisterBranch_traced hu).psw) _ _))
  | esta =>
    exact run_problem h (.after fun _ => .after fun _ => .after fun _ => .ok_setCc (extractState_psw s _ _ _) _)
  | ereg =>
    exact run_problem h (.after fun _ => .ok_of_psw ((restoreArs_psw _ _ _).trans (restoreGprsLow_psw s _ _)))
  | eregg =>
    exact run_problem h (.after fun _ => .ok_of_psw ((restoreArs_psw _ _ _).trans (restoreGprs_psw s _ _)))
  | balr =>
    exact run_problem h (.bind fun u hu =>
      .ok (problem_takeBranch ((saveLinkInformation_psw u _).trans (traceRegisterBranch_traced hu).psw) _ _))
  | basr =>
    exact run_problem h (.bind fun u hu =>
      .ok (problem_takeBranch ((saveLink_psw u _).trans (traceRegisterBranch_traced hu).psw) _ _))
  | bassm =>
    exact run_problem h (.ite (.ok (problem_takeModeBranch (saveLink_psw s _) _ _)) (.bind fun u hu =>
      .ok (problem_takeModeBranch ((saveLink_psw u _).trans (traceModeBranch_traced hu).psw) _ _)))
  | bsm =>
    exact run_problem h (.ite (.ok (problem_takeModeBranch (saveMode_psw s _) _ _)) (.bind fun u hu =>
      .ok (problem_takeModeBranch ((saveMode_psw u _).trans (traceModeSwitch_traced hu).psw) _ _)))
  | rp => exact run_problem h (.bind fun u hu => .ok ((problem_resume u).trans (traceModeBranch_traced hu).problem))
  | trace | tracg =>
    exact run_problem h (.after fun _ => .after fun _ => .after fun _ => traceExplicit_keepsProblem s _ _)
  | trap2 | trap4 => exact run_problem h (trap_keepsProblem s _)
  | mc => exact run_problem h (.after fun _ => .ite .error (.ok rfl))
  | mvcp | mvcs => exact run_problem h (.after fun _ => .after fun _ => move_keepsProblem s _ _ _ _ _)
  | mvck => exact run_problem h (.after fun _ => move_keepsProblem s _ _ _ _ _)
  | stpq => exact run_problem h (.after fun _ => .after fun _ => memWrite_keepsProblem s _ _)
  | cdsg r1 =>
    exact run_problem h (.after fun _ => .after fun _ => .after fun _ => .after fun _ => .after fun abs =>
      .ite (.ok_setCc (s.storeAbsolute_psw abs _) _) (.ok_setCc rfl _))
  | mvpg =>
    exact run_problem h (.after fun _ => .after fun _ => .after fun dst =>
      .ok ((problem_drawn _).trans (problem_setCc_of_psw (s.storeAbsolute_psw dst _) _)))

/-! ## Steps -/

/-- A pending interruption is taken only where one is enabled. -/
theorem takePending_some {s : State} {r : Result} (h : s.takePending = some r) :
    ∃ c, s.pending.find? s.enabled = some c := by
  unfold State.takePending at h
  split at h
  · next c hc => exact ⟨c, hc⟩
  · cases h

/-- A fetch that stops and leads to a next state has taken an exception, with nothing changed before it but the counter
of free values. -/
theorem fetchStopped_next {s t : State} {stop : FetchStop} (h : s.fetchStopped stop = .next t) :
    ∃ u, Writes.Only { psw := [iaBits] } s u ∧ TakenFrom u t := by
  unfold State.fetchStopped at h
  split at h
  · cases h
  · cases h
  · exact ⟨s, .refl _ s, _, _, _, h⟩
  · exact ⟨s.drawn, only_drawn _ s, _, _, _, h⟩

/-- Everything that fetching and running an instruction to a next state can be. -/
theorem fetchAndRun_next {s t : State} (h : s.fetchAndRun = .next t) :
    (∃ stop, s.fetchInstruction = .error stop ∧ s.fetchStopped stop = .next t)
      ∨ ∃ bs i rest, s.fetchInstruction = .ok bs ∧ decode bs = .ok (i, rest) ∧ s.notRun i = none
        ∧ exec i (s.advance (instrBytes i)) = .next t := by
  unfold State.fetchAndRun at h
  split at h
  · next stop hf => exact .inl ⟨stop, hf, h⟩
  · next bs hf =>
    unfold State.runBytes at h
    split at h
    · cases h
    · next i rest hd =>
      split at h
      · cases h
      · next hn => exact .inr ⟨bs, i, rest, hf, hd, hn, h⟩

/-- Settles O9: a step takes a pending interruption, or an exception of the fetch, or runs an instruction, which keeps
the bit or takes an exception unless it is one of the four. -/
theorem problemStateChangesOnlyWithPsw : Obligations.ProblemStateChangesOnlyWithPsw := by
  refine ⟨fun s t h => ?_, fun i s t hi h => exec_problem hi h⟩
  obtain ⟨_, hp | ⟨_, _, hrun⟩⟩ := step_next h
  · exact .inr (.inl (takePending_some hp))
  · obtain ⟨stop, _, hstop⟩ | ⟨bs, i, rest, hf, hd, _, hexec⟩ := fetchAndRun_next hrun
    · exact .inr (.inr (.inl (fetchStopped_next hstop)))
    · cases hi : replacesPsw i with
      | true => exact .inr (.inr (.inr ⟨bs, rest, i, hf, hd, hi⟩))
      | false =>
        obtain hkept | htaken := exec_problem hi hexec
        · exact .inl (hkept.trans (s.problem_withIa _))
        · exact .inr (.inr (.inl ⟨s.advance (instrBytes i), only_withIa (List.mem_singleton.2 rfl) s _, htaken⟩))

end Sys2Proof.Machine
end

section
/-! The obligations of 30_encoding.md. -/

namespace Sys2Proof

/-! ## The decoder on the bytes of a number -/

/-- The decoder on the bytes of a number, whatever follows them: the first byte must give their length. -/
theorem decode_toBytes {n v : Nat} {i : Instr} (rest : List Byte)
    (hn : instrLength (BitVec.ofNat 8 (v / 256 ^ n)) = n + 1) (hv : v < 256 ^ (n + 1))
    (h : decodeNumber (n + 1) v = some i) : decode (toBytes (n + 1) v ++ rest) = .ok (i, rest) := by
  have hlen : (toBytes (n + 1) v).length = n + 1 := toBytes_length _ _
  have hcons : toBytes (n + 1) v ++ rest = BitVec.ofNat 8 (v / 256 ^ n) :: (toBytes n v ++ rest) := rfl
  have htake : (toBytes (n + 1) v ++ rest).take (n + 1) = toBytes (n + 1) v := List.take_left' hlen
  have hdrop : (toBytes (n + 1) v ++ rest).drop (n + 1) = rest := List.drop_left' hlen
  have hge : ¬(toBytes (n + 1) v ++ rest).length < n + 1 := by rw [List.length_append]; omega
  unfold decode
  rw [hcons] at *
  simp only [hn, if_neg hge, htake, hdrop, ofBytes_toBytes_of_lt hv, h]

theorem decodeNumber_two (w : Nat) : decodeNumber 2 w = decode2 w := rfl

theorem decodeNumber_four (w : Nat) : decodeNumber 4 w = decode4 w := rfl

theorem decodeNumber_six (w : Nat) : decodeNumber 6 w = decode6 w := rfl

/-! ## Each format: what its fields are, the decoder reads -/

theorem decode_formRR {op : Nat} {r1 r2 : Reg} {i : Instr} (rest : List Byte) (hop : op < 64)
    (h : ∀ w, fieldOf 2 w 0 8 = op → regField 2 w 8 = r1 → regField 2 w 12 = r2 → decode2 w = some i) :
    decode (formRR op r1 r2 ++ rest) = .ok (i, rest) := by
  have h1 := r1.isLt
  have h2 := r2.isLt
  have hhead : (op * 256 + r1.toNat * 16 + r2.toNat) / 256 ^ 1 = op := by omega
  refine decode_toBytes (n := 1) rest ?_ (by omega)
    ((decodeNumber_two _).trans (h _ ?_ (regField_eq ?_) (regField_eq ?_)))
  · rw [hhead, instrLength, BitVec.toNat_ofNat, if_pos (by omega)]
  all_goals unfold fieldOf; omega

theorem instrLength_four {n : Nat} (h : 64 ≤ n) (h' : n < 192) : instrLength (BitVec.ofNat 8 n) = 4 := by
  rw [instrLength, BitVec.toNat_ofNat, if_neg (by omega), if_pos (by omega)]

theorem instrLength_six {n : Nat} (h : 192 ≤ n) (h' : n < 256) : instrLength (BitVec.ofNat 8 n) = 6 := by
  rw [instrLength, BitVec.toNat_ofNat, if_neg (by omega), if_neg (by omega)]

/-- Format RRE, whatever stands in the ignored bits 16-23 (30_encoding.md rule R143). -/
theorem decode_wordRRE {op : Nat} (u : Byte) {r1 r2 : Reg} {i : Instr} (rest : List Byte) (hop : 16384 ≤ op)
    (hop' : op < 49152)
    (h : ∀ w, fieldOf 4 w 0 8 = op / 256 → fieldOf 4 w 0 16 = op → regField 4 w 24 = r1 → regField 4 w 28 = r2 →
      decode4 w = some i) :
    decode (toBytes 4 (op * 65536 + u.toNat * 256 + r1.toNat * 16 + r2.toNat) ++ rest) = .ok (i, rest) := by
  have hu := u.isLt
  have h1 := r1.isLt
  have h2 := r2.isLt
  have hhead : (op * 65536 + u.toNat * 256 + r1.toNat * 16 + r2.toNat) / 256 ^ 3 = op / 256 := by omega
  refine decode_toBytes (n := 3) rest ?_ (by omega)
    ((decodeNumber_four _).trans (h _ ?_ ?_ (regField_eq ?_) (regField_eq ?_)))
  · rw [hhead]
    exact instrLength_four (by omega) (by omega)
  all_goals unfold fieldOf; omega

theorem decode_formRRE {op : Nat} {r1 r2 : Reg} {i : Instr} (rest : List Byte) (hop : 16384 ≤ op) (hop' : op < 49152)
    (h : ∀ w, fieldOf 4 w 0 8 = op / 256 → fieldOf 4 w 0 16 = op → regField 4 w 24 = r1 → regField 4 w 28 = r2 →
      decode4 w = some i) : decode (formRRE op r1 r2 ++ rest) = .ok (i, rest) := by
  have hw := decode_wordRRE 0#8 rest hop hop' h
  rwa [BitVec.toNat_ofNat, Nat.zero_mod, Nat.zero_mul, Nat.add_zero] at hw

theorem decode_formS {op d : Nat} {b : Reg} {i : Instr} (rest : List Byte) (hop : 16384 ≤ op) (hop' : op < 49152)
    (hd : shortDisp d = true)
    (h : ∀ w, fieldOf 4 w 0 8 = op / 256 → fieldOf 4 w 0 16 = op → regField 4 w 16 = b → fieldOf 4 w 20 12 = d →
      decode4 w = some i) : decode (formS op b d ++ rest) = .ok (i, rest) := by
  have hb := b.isLt
  have hd := of_decide_eq_true hd
  have hhead : (op * 65536 + b.toNat * 4096 + d) / 256 ^ 3 = op / 256 := by omega
  refine decode_toBytes (n := 3) rest ?_ (by omega)
    ((decodeNumber_four _).trans (h _ ?_ ?_ (regField_eq ?_) ?_))
  · rw [hhead]
    exact instrLength_four (by omega) (by omega)
  all_goals unfold fieldOf; omega

/-- Formats RX, RS and SI, by the 8 bits after the opcode as one field. -/
theorem decode_formRS {op mid d : Nat} {b : Reg} {i : Instr} (rest : List Byte) (hop : 64 ≤ op) (hop' : op < 192)
    (hmid : mid < 256) (hd : shortDisp d = true)
    (h : ∀ w, fieldOf 4 w 0 8 = op → fieldOf 4 w 8 8 = mid → regField 4 w 16 = b → fieldOf 4 w 20 12 = d →
      decode4 w = some i) : decode (formRS op mid b d ++ rest) = .ok (i, rest) := by
  have hb := b.isLt
  have hd := of_decide_eq_true hd
  have hhead : (op * 16777216 + mid * 65536 + b.toNat * 4096 + d) / 256 ^ 3 = op := by omega
  refine decode_toBytes (n := 3) rest ?_ (by omega)
    ((decodeNumber_four _).trans (h _ ?_ ?_ (regField_eq ?_) ?_))
  · rw [hhead]
    exact instrLength_four hop hop'
  all_goals unfold fieldOf; omega

/-- Two register fields that stand next to each other. -/
theorem regFields_of_pair {len w a : Nat} {r1 r3 : Reg} (ha : a + 8 ≤ 8 * len)
    (h : fieldOf len w a 8 = r1.toNat * 16 + r3.toNat) : regField len w a = r1 ∧ regField len w (a + 4) = r3 := by
  have h1 := r1.isLt
  have h3 := r3.isLt
  unfold fieldOf at h
  have e1 : 8 * len - a - 4 = 8 * len - a - 8 + 4 := by omega
  have e3 : 8 * len - (a + 4) - 4 = 8 * len - a - 8 := by omega
  refine ⟨regField_eq ?_, regField_eq ?_⟩
  · rw [fieldOf, e1, Nat.pow_add, ← Nat.div_div_eq_div_mul]
    omega
  · rw [fieldOf, e3]
    omega

theorem decode_formRS_pair {op d : Nat} {r1 r3 b : Reg} {i : Instr} (rest : List Byte) (hop : 64 ≤ op)
    (hop' : op < 192) (hd : shortDisp d = true)
    (h : ∀ w, fieldOf 4 w 0 8 = op → regField 4 w 8 = r1 → regField 4 w 12 = r3 → regField 4 w 16 = b →
      fieldOf 4 w 20 12 = d → decode4 w = some i) :
    decode (formRS op (r1.toNat * 16 + r3.toNat) b d ++ rest) = .ok (i, rest) :=
  decode_formRS rest hop hop' (pair_mid_lt r1 r3) hd fun w ho hm hb hd =>
    have ⟨h1, h3⟩ := regFields_of_pair (by omega) hm
    h w ho h1 h3 hb hd

theorem decode_formSS {op mid d1 d2 : Nat} {b1 b2 : Reg} {i : Instr} (rest : List Byte) (hop : 192 ≤ op)
    (hop' : op < 256) (hmid : mid < 256) (hd : (shortDisp d1 && shortDisp d2) = true)
    (h : ∀ w, fieldOf 6 w 0 8 = op → fieldOf 6 w 8 8 = mid → regField 6 w 16 = b1 → fieldOf 6 w 20 12 = d1 →
      regField 6 w 32 = b2 → fieldOf 6 w 36 12 = d2 → decode6 w = some i) :
    decode (formSS op mid b1 d1 b2 d2 ++ rest) = .ok (i, rest) := by
  have hb1 := b1.isLt
  have hb2 := b2.isLt
  obtain ⟨hd1, hd2⟩ := (Bool.and_eq_true _ _).mp hd
  have hd1 := of_decide_eq_true hd1
  have hd2 := of_decide_eq_true hd2
  have hhead : (op * 1099511627776 + mid * 4294967296 + b1.toNat * 268435456 + d1 * 65536 + b2.toNat * 4096 + d2)
      / 256 ^ 5 = op := by omega
  refine decode_toBytes (n := 5) rest ?_ (by omega)
    ((decodeNumber_six _).trans (h _ ?_ ?_ (regField_eq ?_) ?_ (regField_eq ?_) ?_))
  · rw [hhead]
    exact instrLength_six hop hop'
  all_goals unfold fieldOf; omega

theorem decode_formSS_pair {op d1 d2 : Nat} {r1 r3 b1 b2 : Reg} {i : Instr} (rest : List Byte) (hop : 192 ≤ op)
    (hop' : op < 256) (hd : (shortDisp d1 && shortDisp d2) = true)
    (h : ∀ w, fieldOf 6 w 0 8 = op → regField 6 w 8 = r1 → regField 6 w 12 = r3 → regField 6 w 16 = b1 →
      fieldOf 6 w 20 12 = d1 → regField 6 w 32 = b2 → fieldOf 6 w 36 12 = d2 → decode6 w = some i) :
    decode (formSS op (r1.toNat * 16 + r3.toNat) b1 d1 b2 d2 ++ rest) = .ok (i, rest) :=
  decode_formSS rest hop hop' (pair_mid_lt r1 r3) hd fun w ho hm =>
    have ⟨h1, h3⟩ := regFields_of_pair (by omega) hm
    h w ho h1 h3

theorem decode_formRSY {op1 op2 : Nat} {r1 r3 b : Reg} {d : Int} {i : Instr} (rest : List Byte) (hop : 192 ≤ op1)
    (hop' : op1 < 256) (hop2 : op2 < 256) (hd : longDisp d = true)
    (h : ∀ w, fieldOf 6 w 0 8 = op1 → fieldOf 6 w 40 8 = op2 → regField 6 w 8 = r1 → regField 6 w 12 = r3 →
      regField 6 w 16 = b → longDispField w = d → decode6 w = some i) :
    decode (formRSY op1 op2 r1 r3 b d ++ rest) = .ok (i, rest) := by
  have h1 := r1.isLt
  have h3 := r3.isLt
  have hb := b.isLt
  obtain ⟨hlo, hhi⟩ := of_decide_eq_true hd
  have hu := longDispNumber_lt hlo hhi
  have hparts := fun w => longDispField_of_parts (w := w) hlo hhi
  unfold formRSY
  generalize longDispNumber d = u at *
  have hx : u % 4096 < 4096 := Nat.mod_lt _ (by omega)
  have hy : u / 4096 < 256 := by omega
  dsimp only
  generalize u % 4096 = x at *
  generalize u / 4096 = y at *
  have hhead : (op1 * 1099511627776 + r1.toNat * 68719476736 + r3.toNat * 4294967296 + b.toNat * 268435456 + x * 65536
      + y * 256 + op2) / 256 ^ 5 = op1 := by omega
  refine decode_toBytes (n := 5) rest ?_ (by omega)
    ((decodeNumber_six _).trans (h _ ?_ ?_ (regField_eq ?_) (regField_eq ?_) (regField_eq ?_) (hparts _ ?_ ?_)))
  · rw [hhead]
    exact instrLength_six hop hop'
  all_goals unfold fieldOf; omega

/-! ## Every instruction -/

/-- Settles O1: the fields that a format writes are the ones the decoder reads, format by format. -/
theorem decodeEncodeAgree : Obligations.DecodeEncodeAgree := by
  intro i rest hwf
  cases i with
  | sam24 | sam31 | sam64 | pr | trap2 => exact decode_toBytes (n := 1) rest (by decide) (by decide) (by decide)
  | balr | basr | bassm | bsm => exact decode_formRR rest (by decide) fun w ho h1 h2 => by simp [decode2, ho, h1, h2]
  | epsw | lurag | sturg | bakr | esta | ereg | eregg | bsa | bsg | mvpg | iesbe | esea =>
    exact decode_formRRE rest (by decide) (by decide) fun w ho hl h1 h2 => by
      simp [decode4, decode4Long, ho, hl, h1, h2]
  | lpswe | spx | pc | rp | trap4 =>
    exact decode_formS rest (by decide) (by decide) hwf fun w ho hl hb hd => by
      simp [decode4, decode4Long, ho, hl, hb, hd]
  | stfl =>
    exact decode_formS rest (by decide) (by decide) (by decide) fun w ho hl hb hd => by
      simp [decode4, decode4Long, ho, hl]
  | lpsw =>
    exact decode_formRS rest (by decide) (by decide) (by decide) hwf fun w ho _ hb hd => by simp [decode4, ho, hb, hd]
  | mc b1 d1 i2 =>
    exact decode_formRS rest (by decide) (by decide) i2.isLt hwf fun w ho hm hb hd => by
      simp [decode4, ho, hm, hb, hd]
  | lra | lctl | stctl | sigp | trace =>
    exact decode_formRS_pair rest (by decide) (by decide) hwf fun w ho h1 h3 hb hd => by
      simp [decode4, ho, h1, h3, hb, hd]
  | strag | tprot =>
    exact decode_formSS rest (by decide) (by decide) (by decide) hwf fun w ho hm hb1 hd1 hb2 hd2 => by
      simp [decode6, ho, hm, hb1, hd1, hb2, hd2]
  | mvcp | mvcs | mvck | plo =>
    exact decode_formSS_pair rest (by decide) (by decide) hwf fun w ho h1 h3 hb1 hd1 hb2 hd2 => by
      simp [decode6, ho, h1, h3, hb1, hd1, hb2, hd2]
  | lrag | lctlg | stctg | tracg | lpq | stpq | cdsg =>
    exact decode_formRSY rest (by decide) (by decide) (by decide) hwf fun w ho hl h1 h3 hb hd => by
      simp [decode6, ho, hl, h1, h3, hb, hd]

/-! ## What the decoder answers -/

theorem shortDisp_fieldOf (len w a : Nat) : shortDisp (fieldOf len w a 12) = true :=
  decide_eq_true (fieldOf_lt len w a 12)

theorem longDisp_longDispField (w : Nat) : longDisp (longDispField w) = true := decide_eq_true (longDispField_range w)

theorem decode2_some {w : Nat} {i : Instr} (h : decode2 w = some i) : i.wf = true ∧ instrBytes i = 2 := by
  unfold decode2 at h
  repeat' split at h
  all_goals cases h
  all_goals simp [Instr.wf, instrBytes, encode]

theorem decode4Long_some {w : Nat} {i : Instr} (h : decode4Long w = some i) : i.wf = true ∧ instrBytes i = 4 := by
  unfold decode4Long at h
  split at h
  all_goals cases h
  all_goals simp [Instr.wf, instrBytes, encode, shortDisp_fieldOf, -decide_eq_true_eq]

theorem decode4_some {w : Nat} {i : Instr} (h : decode4 w = some i) : i.wf = true ∧ instrBytes i = 4 := by
  unfold decode4 at h
  split at h
  case h_8 => exact decode4Long_some h
  all_goals cases h
  all_goals simp [Instr.wf, instrBytes, encode, shortDisp_fieldOf, -decide_eq_true_eq]

theorem decode6_some {w : Nat} {i : Instr} (h : decode6 w = some i) : i.wf = true ∧ instrBytes i = 6 := by
  unfold decode6 at h
  repeat' split at h
  all_goals cases h
  all_goals
    simp [Instr.wf, instrBytes, encode, shortDisp_fieldOf, longDisp_longDispField, -decide_eq_true_eq, -Bool.decide_and]

theorem instrLength_cases (b : Byte) : instrLength b = 2 ∨ instrLength b = 4 ∨ instrLength b = 6 := by
  unfold instrLength
  split
  · exact .inl rfl
  · split
    · exact .inr (.inl rfl)
    · exact .inr (.inr rfl)

theorem decodeNumber_some {b : Byte} {w : Nat} {i : Instr} (h : decodeNumber (instrLength b) w = some i) :
    i.wf = true ∧ instrBytes i = instrLength b := by
  obtain hn | hn | hn := instrLength_cases b <;> rw [hn] at h ⊢
  · exact decode2_some h
  · exact decode4_some h
  · exact decode6_some h

/-- Everything that the decoder can answer with an instruction. -/
theorem decode_ok {b : Byte} {bs rest : List Byte} {i : Instr} (h : decode (b :: bs) = .ok (i, rest)) :
    instrLength b ≤ (b :: bs).length ∧ rest = (b :: bs).drop (instrLength b)
      ∧ ∃ w, decodeNumber (instrLength b) w = some i := by
  unfold decode at h
  dsimp only at h
  split at h
  · cases h
  · next hlen =>
    split at h
    · next j hj =>
      cases h
      exact ⟨by omega, rfl, _, hj⟩
    · cases h

/-- Settles O2: each field has its format's range, and the table the decoder looks into is that of the length. -/
theorem decodedInstructionIsWellFormed : Obligations.DecodedInstructionIsWellFormed := by
  intro b bs rest i h
  obtain ⟨hlen, hrest, w, hw⟩ := decode_ok h
  obtain ⟨hwf, hbytes⟩ := decodeNumber_some hw
  rw [hbytes]
  exact ⟨hwf, rfl, hlen, hrest⟩

/-! ## Ignored fields -/

/-- The instruction of an RRE opcode. -/
def rreInstr (op : Nat) (r1 r2 : Reg) : Instr :=
  match op with
  | 0xB240 => .bakr r1 r2
  | 0xB249 => .ereg r1 r2
  | 0xB24A => .esta r1 r2
  | 0xB254 => .mvpg r1 r2
  | 0xB258 => .bsg r1 r2
  | 0xB259 => .iesbe r1 r2
  | 0xB25A => .bsa r1 r2
  | 0xB905 => .lurag r1 r2
  | 0xB90E => .eregg r1 r2
  | 0xB925 => .sturg r1 r2
  | 0xB98D => .epsw r1 r2
  | _ => .esea r1

/-- The decoder on a word of an RRE opcode looks at the two register fields alone. -/
theorem decode_rreInstr {op : Nat} (u : Byte) (r1 r2 : Reg)
    (hop : op ∈ [0xB240, 0xB249, 0xB24A, 0xB254, 0xB258, 0xB259, 0xB25A, 0xB905, 0xB90E, 0xB925, 0xB98D, 0xB99D]) :
    decode (toBytes 4 (op * 65536 + u.toNat * 256 + r1.toNat * 16 + r2.toNat)) = .ok (rreInstr op r1 r2, []) := by
  rw [← List.append_nil (toBytes _ _)]
  simp only [List.mem_cons, List.not_mem_nil, or_false] at hop
  obtain rfl | rfl | rfl | rfl | rfl | rfl | rfl | rfl | rfl | rfl | rfl | rfl := hop
  all_goals
    exact decode_wordRRE u [] (by decide) (by decide) fun w ho hl h1 h2 => by
      simp [rreInstr, decode4, decode4Long, ho, hl, h1, h2]

theorem encode_rreInstr {op : Nat} (r1 r2 : Reg)
    (hop : op ∈ [0xB240, 0xB249, 0xB24A, 0xB254, 0xB258, 0xB259, 0xB25A, 0xB905, 0xB90E, 0xB925, 0xB98D, 0xB99D])
    (hne : op ≠ 0xB99D) : encode (rreInstr op r1 r2) = formRRE op r1 r2 := by
  simp only [List.mem_cons, List.not_mem_nil, or_false] at hop
  obtain rfl | rfl | rfl | rfl | rfl | rfl | rfl | rfl | rfl | rfl | rfl | rfl := hop
  any_goals rfl
  exact absurd rfl hne

theorem formRRE_eq (op : Nat) (r1 r2 : Reg) :
    formRRE op r1 r2 = toBytes 4 (op * 65536 + (0#8).toNat * 256 + r1.toNat * 16 + r2.toNat) := by
  rw [BitVec.toNat_ofNat, Nat.zero_mod, Nat.zero_mul, Nat.add_zero]
  rfl

/-- Settles O3: the fields that the decoder reads of such a word are not among the ignored ones. -/
theorem ignoredFieldsAreIgnored : Obligations.IgnoredFieldsAreIgnored := by
  refine ⟨fun op u r1 r2 hop => ?_, fun u r1 r2 => ⟨decode_rreInstr u r1 r2 (by decide), rfl⟩,
    fun u b2 d2 hd => ⟨?_, rfl⟩, fun b2 d2 hd => ⟨?_, rfl⟩⟩
  · have hform := formRRE_eq op r1 r2 ▸ decode_rreInstr 0#8 r1 r2 hop
    exact ⟨(decode_rreInstr u r1 r2 hop).trans hform.symm, _, hform, encode_rreInstr r1 r2 hop⟩
  · rw [← List.append_nil (formRS _ _ _ _)]
    exact decode_formRS [] (by decide) (by decide) u.isLt (decide_eq_true hd) fun w ho _ hb hd => by
      simp [decode4, ho, hb, hd]
  · rw [← List.append_nil (formS _ _ _)]
    exact decode_formS [] (by decide) (by decide) (decide_eq_true hd) fun w ho hl _ _ => by
      simp [decode4, decode4Long, ho, hl]

/-- The decoder on bytes that are an instruction's encoding. -/
theorem decode_of_encode {i : Instr} {bs : List Byte} (hwf : i.wf = true) (h : encode i = bs) :
    decode bs = .ok (i, []) := by
  rw [← h, ← List.append_nil (encode i)]
  exact decodeEncodeAgree i [] hwf

/-- Settles O4: each word is the encoding of its instruction. -/
theorem specWordsDecode : Obligations.SpecWordsDecode := by
  refine ⟨?_, ?_, ?_, ?_, ?_, ?_, ?_, ?_, ?_, ?_, ?_, ?_⟩
  all_goals exact decode_of_encode (by decide) (by decide)

end Sys2Proof
end

section
/-! The obligations about the machine: what every instruction and every step keeps. -/

namespace Sys2Proof.Machine

open Sys2Proof

/-! ## Validity of the PSW after each update -/

/-- A PSW with another mode and an address that fits it is valid. -/
theorem pswValid_withAddress_withMode {p : Quad} {a : DWord} {m : AMode} (h : pswValid p = true)
    (ha : m.fits a = true) : pswValid (pswWithMode (pswWithAddress p a) m) = true := by
  rw [pswValid_iff] at h ⊢
  obtain ⟨h1, h2, h3, h4, h5, _, _⟩ := h
  have e : ∀ b k, b + k ≤ 31 ∨ (33 ≤ b ∧ b + k ≤ 64) →
      bits (pswWithMode (pswWithAddress p a) m) b k = bits p b k := fun b k hb =>
    (bits_setBits_apart _ 31 m.code b k (by omega) (by omega) (by omega)).trans
      (bits_setBits_apart p 64 a b k (by omega) (by omega) (by omega))
  simp (disch := omega) only [e, bits_pswWithMode]
  refine ⟨h1, h2, h3, h4, h5, ?_, by simpa using ha⟩
  cases m <;> decide

theorem pswAddress_expand (v : DWord) : pswAddress (expand v) = 0#33 ++ bits v 33 31 := by
  have h := bits_append_bits (expand v) 64 33 31 (by omega)
  rw [bits_expand_zeros v 64 33 (by omega) (by omega), bits_expand_address] at h
  exact h.symm

theorem pswMode_expand_shorten (p : Quad) : pswMode (expand (shorten p)) = pswMode p :=
  pswMode_eq ((bits_expand_middle _ 31 2 (by omega) (by omega)).trans
    (bits_shorten_middle p 31 2 (by omega) (by omega)))

/-- The low-order 31 bits of an address that fits a mode fit it. -/
theorem fits_low31 {m : AMode} {p : Quad} (h : m.fits (pswAddress p) = true) :
    m.fits (0#33 ++ bits p 97 31) = true := by
  have hl : (0#33 ++ bits p 97 31).toNat = p.toNat % 2 ^ 31 := by
    rw [BitVec.toNat_append, toNat_bits]
    simp
  have ha : (pswAddress p).toNat = p.toNat % 2 ^ 64 := by
    rw [pswAddress, toNat_bits]
    simp
  cases m with
  | a24 =>
    rw [fits24_iff] at h ⊢
    omega
  | a31 =>
    rw [fits31_iff]
    omega
  | a64 => exact fits64 _

theorem pswValid_expand_shorten {p : Quad} (h : pswValid p = true) : pswValid (expand (shorten p)) = true := by
  rw [pswValid_iff] at h ⊢
  obtain ⟨h1, h2, _, h4, _, h6, h7⟩ := h
  have left : ∀ a n, a + n ≤ 12 → bits (expand (shorten p)) a n = bits p a n := fun a n hn =>
    (bits_expand_left _ a n hn).trans (bits_shorten_left p a n hn)
  have middle : ∀ a n, 13 ≤ a → a + n ≤ 33 → bits (expand (shorten p)) a n = bits p a n := fun a n ha hn =>
    (bits_expand_middle _ a n ha hn).trans (bits_shorten_middle p a n ha hn)
  rw [left 0 1 (by omega), left 2 3 (by omega), middle 24 7 (by omega) (by omega), middle 31 2 (by omega) (by omega),
    bits_expand_12, bits_expand_zeros _ 33 31 (by omega) (by omega), pswMode_expand_shorten, pswAddress_expand,
    bits_shorten_address]
  exact ⟨h1, h2, rfl, h4, rfl, h6, fits_low31 h7⟩

/-! ## What the body of an instruction keeps -/

/-- The state that a body computes, if it completes, has the property. -/
def BodyGives (P : State → Prop) (r : Res State) : Prop := ∀ t, r = .ok t → P t

section
variable {P : State → Prop}

theorem BodyGives.ok {t : State} (h : P t) : BodyGives P (.ok t) := fun _ ht => Except.ok.inj ht ▸ h

theorem BodyGives.error {e : Stop} : BodyGives P (.error e) := fun _ ht => nomatch ht

theorem BodyGives.bind {α : Type} {x : Res α} {f : α → Res State} (h : ∀ a, x = .ok a → BodyGives P (f a)) :
    BodyGives P (x >>= f) := fun t ht =>
  have ⟨a, ha, hf⟩ := res_bind_eq_ok ht
  h a ha t hf

/-- A step of the body that keeps the state it starts from: a check, or the fetch of an operand. -/
theorem BodyGives.after {α : Type} {x : Res α} {f : α → Res State} (h : ∀ a, BodyGives P (f a)) :
    BodyGives P (x >>= f) := .bind fun a _ => h a

theorem BodyGives.ite {c : Prop} [Decidable c] {x y : Res State} (hx : BodyGives P x) (hy : BodyGives P y) :
    BodyGives P (if c then x else y) := by
  split
  · exact hx
  · exact hy

end

/-- What every update but SIGP's and SPX's keeps: the configuration, storage's form and record, a valid PSW. -/
structure Kept (s t : State) : Prop extends Keeps s t where
  psw : pswValid s.psw = true → pswValid t.psw = true

theorem Kept.refl (s : State) : Kept s s := { Keeps.refl s with psw := id }

theorem Kept.trans {s t u : State} (h : Kept s t) (k : Kept t u) : Kept s u :=
  { h.toKeeps.trans k.toKeeps with psw := fun v => k.psw (h.psw v) }

/-- An update that leaves the PSW alone. -/
theorem Keeps.kept {s t : State} (h : Keeps s t) (hp : t.psw = s.psw) : Kept s t :=
  { h with psw := fun v => hp ▸ v }

theorem kept_withPsw {s : State} {p : Quad} (h : pswValid s.psw = true → pswValid p = true) : Kept s (s.withPsw p) :=
  { keeps_withPsw s p with psw := h }

theorem kept_setCc (s : State) (c : BitVec 2) : Kept s (s.setCc c) :=
  kept_withPsw fun v => (pswValid_setBits (.inr (.inr (by omega)))).trans v

theorem kept_withIa {s : State} {a : DWord} (h : s.amode.fits a = true) : Kept s (s.withIa a) :=
  kept_withPsw fun v => pswValid_withAddress v h

theorem Traced.kept {s t : State} (h : Traced s t) : Kept s t := h.keeps.kept h.psw

/-- A program exception taken makes a valid PSW current. -/
theorem TakenFrom.kept {s t : State} (h : TakenFrom s t) : Kept s t := by
  obtain ⟨e, ilc, old, h⟩ := h
  obtain ⟨⟨_, _, hv⟩, rfl⟩ := programInterruption_next h
  exact { keeps_interrupted s e ilc old with psw := fun _ => (interrupted_psw s e ilc old).symm ▸ hv }

/-- So does the load of a PSW. -/
theorem kept_of_loadPsw {s t : State} {p : Quad} (h : s.loadPsw p = .next t) : Kept s t := by
  obtain ⟨hv, rfl⟩ | ⟨_, _, ⟨_, _, hv⟩, ilc, rfl⟩ := loadPsw_next h
  · exact kept_withPsw fun _ => hv
  · exact {
      ((keeps_withPsw s p).trans (keeps_drawn _)).trans (keeps_interrupted _ .specification ilc (pswAddress p)) with
      psw := fun _ => (interrupted_psw _ _ ilc _).symm ▸ hv }

theorem kept_withMode {s : State} {m : AMode} (h : m.fits s.ia = true) :
    Kept s (s.withPsw (pswWithMode s.psw m)) := kept_withPsw fun v => pswValid_withMode v h

theorem kept_takeBranch {s t : State} (h : t.psw = s.psw) (r q : Reg) :
    Kept t (t.takeBranch r (s.registerAddress q)) := by
  unfold State.takeBranch
  split
  · exact .refl t
  · refine kept_withIa ?_
    rw [State.amode, h]
    exact fits_trunc _ _

theorem kept_takeModeBranch (t : State) (r : Reg) (v : DWord) : Kept t (t.takeModeBranch r v) := by
  unfold State.takeModeBranch
  split
  · exact .refl t
  · exact kept_withPsw fun h => pswValid_withAddress_withMode h (fits_trunc _ _)

theorem keeps_saveLink (s : State) (r : Reg) : Keeps s (s.saveLink r) := by
  unfold State.saveLink
  split
  · exact keeps_setGpr s r _
  · exact keeps_setGprLow s r _

theorem kept_saveLink (s : State) (r : Reg) : Kept s (s.saveLink r) := (keeps_saveLink s r).kept (saveLink_psw s r)

theorem kept_saveLinkInformation (s : State) (r : Reg) : Kept s (s.saveLinkInformation r) := by
  refine Keeps.kept ?_ (saveLinkInformation_psw s r)
  unfold State.saveLinkInformation
  split
  · exact (keeps_setGprLow s r _).trans (keeps_drawn _)
  · exact keeps_saveLink s r

theorem kept_saveMode (s : State) (r : Reg) : Kept s (s.saveMode r) := by
  refine Keeps.kept ?_ (saveMode_psw s r)
  unfold State.saveMode
  split <;> exact keeps_setGpr s r _

theorem kept_pushEntry (s : State) (k : EntryKind) (p : Quad) : Kept s (s.pushEntry k p) :=
  (keeps_pushEntry s k p).kept (s.pushEntry_psw k p)

/-- The routine is entered at an address that fits its mode; the other bits written take no part in validity. -/
theorem kept_enterRoutine (s : State) (e : EntryTableEntry) : Kept s (s.enterRoutine e) :=
  { keeps_enterRoutine s e with
    psw := fun h => (kept_setCc (s.withPsw _) _).psw ((pswValid_setBits (.inr (.inr (by omega)))).trans
      (pswValid_withAddress_withMode h (fits_trunc _ _))) }

theorem kept_resume (s : State) : Kept s s.resume :=
  { Keeps.refl s with
    psw := fun h => (pswValid_setBits (.inr (.inr (by omega)))).trans
      (pswValid_withAddress_withMode h (fits_trunc _ _)) }

theorem kept_extractState (s : State) (r : Reg) (code : Byte) (e : StackEntry) : Kept s (s.extractState r code e) := by
  refine Keeps.kept ?_ (extractState_psw s r code e)
  have low : ∀ a b, Keeps s (s.setPairLow r a b) := fun a b => (keeps_setGprLow s r a).trans (keeps_setGprLow _ _ b)
  unfold State.extractState
  split
  · exact low _ _
  · split
    · exact keeps_setPair s r _
    · exact (low _ _).trans (keeps_drawn _)

theorem kept_setWideReal (s : State) (r : Reg) (w : Walk) : Kept s (s.setWideReal r w) := by
  refine Keeps.kept ?_ (setWideReal_psw s r w)
  cases w with
  | available | segmentInvalid | pageInvalid => exact keeps_setGpr s r _
  | other => exact keeps_setGprLow s r _

theorem kept_setCrs (s : State) (l : List (Reg × Nat)) : Kept s (s.setCrs l) := by
  obtain ⟨v, hv⟩ := setCrs_same s l
  rw [hv]
  exact { Kept.refl s with }

theorem kept_setCrsLow (s : State) (l : List (Reg × Nat)) : Kept s (s.setCrsLow l) := by
  obtain ⟨v, hv⟩ := setCrsLow_same s l
  rw [hv]
  exact { Kept.refl s with }

theorem kept_restoreGprs (s : State) (e : StackEntry) (rs : List Reg) : Kept s (s.restoreGprs e rs) := by
  obtain ⟨v, hv⟩ := restoreGprs_same s e rs
  rw [hv]
  exact { Kept.refl s with }

theorem kept_restoreGprsLow (s : State) (e : StackEntry) (rs : List Reg) : Kept s (s.restoreGprsLow e rs) := by
  obtain ⟨v, hv⟩ := restoreGprsLow_same s e rs
  rw [hv]
  exact { Kept.refl s with }

theorem kept_restoreArs (s : State) (e : StackEntry) (rs : List Reg) : Kept s (s.restoreArs e rs) := by
  obtain ⟨v, hv⟩ := restoreArs_same s e rs
  rw [hv]
  exact { Kept.refl s with }

theorem kept_storeAbsolute (s : State) (a : Nat) (bs : List Byte) : Kept s (s.storeAbsolute a bs) :=
  (keeps_storeAbsolute s a bs).kept rfl

theorem memWrite_kept (s : State) (a : DWord) (bs : List Byte) : BodyGives (Kept s) (s.memWrite a bs) :=
  .after fun abs => .ok (kept_storeAbsolute s abs bs)

theorem realWrite_kept (s : State) (r : DWord) (bs : List Byte) : BodyGives (Kept s) (s.realWrite r bs) :=
  .after fun abs => .ok (kept_storeAbsolute s abs bs)

theorem writeUnits_kept (s : State) (a : DWord) (size : Nat) (us : List (List Byte)) (k : Nat) :
    BodyGives (Kept s) (s.writeUnits a size us k) := fun _ ht => (keeps_writeUnits ht).1.kept (keeps_writeUnits ht).2

theorem move_kept (s : State) (d f : Option Space) (r : Reg) (a1 a2 : DWord) :
    BodyGives (Kept s) (s.move d f r a1 a2) := fun t ht => by
  obtain ⟨hk, m, l, c, rfl⟩ := move_ok ht
  exact { hk with psw := (kept_setCc (s.withStores m l) c).psw }

theorem setAddressingMode_kept (s : State) (m : AMode) : BodyGives (Kept s) (s.setAddressingMode m) :=
  .bind fun _ hm => .bind fun t ht => .ok (by
    have hp := traceModeSwitch_traced ht
    refine hp.kept.trans (kept_withMode ?_)
    rw [State.ia, hp.psw]
    exact require_eq_ok hm)

theorem trap_kept (s : State) (operand : Option DWord) : BodyGives (Kept s) (s.trap operand) :=
  .bind fun t ht => .ok (by
    have hk := (traceBranch_traced ht).keeps
    exact { hk with psw := fun h => pswValid_withAddress_withMode h (fits_trunc _ _) })

theorem traceExplicit_kept (s : State) (operand : Word) (entry : List Byte) :
    BodyGives (Kept s) (s.traceExplicit operand entry) :=
  .ite (.bind fun t ht => .ok ((Traced.kept (.inr ⟨entry, ht⟩)).trans ((keeps_drawn t).kept rfl))) (.ok (.refl s))

theorem loadReal_kept (s : State) (r : Reg) (w : Walk) : BodyGives (Kept s) (s.loadReal r w) := by
  unfold State.loadReal
  split
  · exact .ok ((kept_setWideReal s r w).trans (kept_setCc _ _))
  · split
    · exact .ok (((keeps_setGprLow s r _).kept rfl).trans (kept_setCc _ _))
    · exact .error

/-! ## Every instruction -/

theorem run_kept {s t : State} {len : Nat} {r : Res State} (h : s.run len r = .next t) (hr : BodyGives (Kept s) r) :
    Kept s t := (run_next h).elim (hr t) TakenFrom.kept

theorem runThen_loadPsw_kept {s t : State} {len : Nat} {r : Res Quad} (h : s.runThen len r s.loadPsw = .next t) :
    Kept s t := by
  obtain ⟨p, _, hp⟩ | ht := runThen_next h
  · exact kept_of_loadPsw hp
  · exact ht.kept

/-- The two instructions that change what Kept says is unchanged. -/
def reconfigures : Instr → Bool
  | .spx _ _ | .sigp _ _ _ _ => true
  | _ => false

/-- Every instruction but SPX and SIGP: its body's updates keep the configuration and a valid PSW, and so does an
exception. -/
theorem exec_kept {i : Instr} {s t : State} (hi : reconfigures i = false) (h : exec i s = .next t) : Kept s t := by
  cases i with
  | spx | sigp => cases hi
  | bsa | bsg | plo => cases h
  | iesbe => exact (raise_taken h).kept
  | lpsw | lpswe => exact runThen_loadPsw_kept h
  | epsw r1 r2 =>
    obtain rfl := Host.Outcome.next.inj h
    split
    · exact (keeps_setGprLow s r1 _).kept rfl
    · exact ((keeps_setGprLow s r1 _).trans (keeps_setGprLow _ r2 _)).kept rfl
  | sam24 | sam31 | sam64 => exact run_kept h (setAddressingMode_kept s _)
  | lra => exact run_kept h (.after fun _ => .after fun w => loadReal_kept s _ w)
  | lrag r1 =>
    exact run_kept h (.after fun _ => .after fun w => .ok ((kept_setWideReal s r1 w).trans (kept_setCc _ _)))
  | strag =>
    refine run_kept h (.after fun _ => .after fun _ => .after fun w => ?_)
    cases w with
    | available => exact memWrite_kept s _ _
    | segmentInvalid | pageInvalid | other => exact .error
  | tprot =>
    refine run_kept h (.after fun _ => .after fun found => ?_)
    cases found with
    | none => exact .ok (kept_setCc s _)
    | some => exact .after fun _ => .after fun _ => .ok (kept_setCc s _)
  | lurag r1 =>
    exact run_kept h (.after fun _ => .after fun _ => .after fun _ => .ok ((keeps_setGpr s r1 _).kept rfl))
  | sturg => exact run_kept h (.after fun _ => .after fun _ => .after fun abs => .ok (kept_storeAbsolute s abs _))
  | lctl => exact run_kept h (.after fun _ => .after fun _ => .after fun _ => .ok (kept_setCrsLow s _))
  | lctlg => exact run_kept h (.after fun _ => .after fun _ => .after fun _ => .ok (kept_setCrs s _))
  | stctl | stctg => exact run_kept h (.after fun _ => .after fun _ => writeUnits_kept s _ _ _ _)
  | esea r1 =>
    exact run_kept h (.after fun _ => .ok (((keeps_setGpr s r1 _).trans (keeps_setCr _ 8#4 _)).kept rfl))
  | stfl => exact run_kept h (.after fun _ => .after fun _ => realWrite_kept s _ _)
  | pc =>
    refine run_kept h (.after fun _ => .bind fun u hu => .ok ((traceModeSwitch_traced hu).kept.trans
      (.trans ?_ (kept_enterRoutine _ _))))
    split
    · exact kept_pushEntry u _ _
    · exact .refl u
  | bakr r1 r2 =>
    refine run_kept h (.bind fun u hu => .ok ((traceRegisterBranch_traced hu).kept.trans
      ((kept_pushEntry u _ _).trans (kept_takeBranch ?_ r2 r2))))
    exact (u.pushEntry_psw _ _).trans (traceRegisterBranch_traced hu).psw
  | pr =>
    obtain ⟨⟨u, p⟩, hu, hp⟩ | ht := runThen_next h
    · obtain ⟨e, _, hu⟩ := res_bind_eq_ok hu
      obtain ⟨v, hv, hu⟩ := res_bind_eq_ok hu
      cases hu
      exact (traceModeSwitch_traced hv).kept.trans ((kept_restoreGprs v e _).trans ((kept_restoreArs _ e _).trans
        (((keeps_drawn _).trans (keeps_popEntry _ e)).kept rfl |>.trans (kept_of_loadPsw hp))))
    · exact ht.kept
  | esta r1 =>
    exact run_kept h (.after fun _ => .after fun _ => .after fun e => .ok ((kept_extractState s r1 _ e).trans
      (kept_setCc _ _)))
  | ereg =>
    exact run_kept h (.after fun e => .ok ((kept_restoreGprsLow s e _).trans (kept_restoreArs _ e _)))
  | eregg => exact run_kept h (.after fun e => .ok ((kept_restoreGprs s e _).trans (kept_restoreArs _ e _)))
  | balr r1 r2 =>
    refine run_kept h (.bind fun u hu => .ok ((traceRegisterBranch_traced hu).kept.trans
      ((kept_saveLinkInformation u r1).trans (kept_takeBranch ?_ r2 r2))))
    exact (saveLinkInformation_psw u r1).trans (traceRegisterBranch_traced hu).psw
  | basr r1 r2 =>
    refine run_kept h (.bind fun u hu => .ok ((traceRegisterBranch_traced hu).kept.trans
      ((kept_saveLink u r1).trans (kept_takeBranch ?_ r2 r2))))
    exact (saveLink_psw u r1).trans (traceRegisterBranch_traced hu).psw
  | bassm r1 r2 =>
    exact run_kept h (.ite (.ok ((kept_saveLink s r1).trans (kept_takeModeBranch _ _ _)))
      (.bind fun u hu => .ok ((traceModeBranch_traced hu).kept.trans
        ((kept_saveLink u r1).trans (kept_takeModeBranch _ _ _)))))
  | bsm r1 r2 =>
    exact run_kept h (.ite (.ok ((kept_saveMode s r1).trans (kept_takeModeBranch _ _ _)))
      (.bind fun u hu => .ok ((traceModeSwitch_traced hu).kept.trans
        ((kept_saveMode u r1).trans (kept_takeModeBranch _ _ _)))))
  | rp => exact run_kept h (.bind fun u hu => .ok ((traceModeBranch_traced hu).kept.trans (kept_resume u)))
  | trace | tracg => exact run_kept h (.after fun _ => .after fun _ => .after fun _ => traceExplicit_kept s _ _)
  | trap2 | trap4 => exact run_kept h (trap_kept s _)
  | mc => exact run_kept h (.after fun _ => .ite .error (.ok (.refl s)))
  | mvcp | mvcs => exact run_kept h (.after fun _ => .after fun _ => move_kept s _ _ _ _ _)
  | mvck => exact run_kept h (.after fun _ => move_kept s _ _ _ _ _)
  | lpq r1 =>
    exact run_kept h (.after fun _ => .after fun _ => .after fun _ => .ok ((keeps_setPair s r1 _).kept rfl))
  | stpq => exact run_kept h (.after fun _ => .after fun _ => memWrite_kept s _ _)
  | cdsg r1 =>
    exact run_kept h (.after fun _ => .after fun _ => .after fun _ => .after fun _ => .after fun abs =>
      .ite (.ok ((kept_storeAbsolute s abs _).trans (kept_setCc _ _)))
        (.ok (((keeps_setPair s r1 _).kept rfl).trans (kept_setCc _ _))))
  | mvpg =>
    exact run_kept h (.after fun _ => .after fun _ => .after fun dst => .ok
      ((kept_storeAbsolute s dst _).trans ((kept_setCc _ _).trans ((keeps_drawn _).kept rfl))))

/-- What every step keeps: the configuration but for a switch to z/Architecture mode, the record of stores, and the
parts of the invariant. -/
structure StepKeeps (s t : State) : Prop where
  params : t.params = s.params
  entryTable : t.entryTable = s.entryTable
  otherCpus : t.otherCpus = s.otherCpus
  cpuStatus : t.cpuStatus = s.cpuStatus
  archMode : t.archMode = s.archMode ∨ (s.archMode = .esa390 ∧ t.archMode = .zArch)
  stored : ∀ a, a ∈ s.stored → a ∈ t.stored
  changed : ∀ a, readByte t.mem a = readByte s.mem a ∨ a ∈ t.stored
  inv : s.Inv → t.Inv

theorem Kept.inv {s t : State} (h : Kept s t) (hs : s.Inv) : t.Inv := by
  obtain ⟨hm, hp, hx⟩ := hs
  exact ⟨h.wf hm, h.psw hp, h.toKeeps.prefixWf.trans hx⟩

theorem Kept.stepKeeps {s t : State} (h : Kept s t) : StepKeeps s t :=
  { h with archMode := .inl h.archMode, inv := h.inv }

theorem Kept.trans_stepKeeps {s t u : State} (h : Kept s t) (k : StepKeeps t u) : StepKeeps s u where
  params := k.params.trans h.params
  entryTable := k.entryTable.trans h.entryTable
  otherCpus := k.otherCpus.trans h.otherCpus
  cpuStatus := k.cpuStatus.trans h.cpuStatus
  archMode := h.archMode ▸ k.archMode
  stored a x := k.stored a (h.stored a x)
  changed a := (k.changed a).elim (fun e => (h.changed a).imp e.trans (k.stored a)) .inr
  inv x := k.inv (h.inv x)

/-- The area of the assigned locations begins at bits 33-50 of its register (20_memory.md rule R77). -/
theorem prefixArea_eq (p : DWord) : prefixArea p = 0#33 ++ bits p 33 18 ++ 0#13 := by
  apply BitVec.eq_of_getLsbD_eq
  intro i hi
  rw [getLsbD_prefixArea, BitVec.getLsbD_append, BitVec.getLsbD_append, bits, BitVec.getLsbD_extractLsb']
  by_cases h1 : i < 13
  · simp [h1]
  · by_cases h2 : i < 31
    · simp [h1, h2, show i - 13 < 18 by omega, show 13 ≤ i by omega, show 64 - 33 - 18 + (i - 13) = i by omega]
    · simp [h1, h2, show ¬i - 13 < 18 by omega]

/-- What SPX sets is legal in both architectural modes. -/
theorem prefixArea_prefixOfWord (w : Word) : prefixArea (prefixOfWord w) = prefixOfWord w := by
  rw [prefixArea_eq, prefixOfWord, bits_append_left _ _ _ _ (by omega), bits_append_right _ _ _ _ (by omega) (by omega)]
  exact congrArg (fun x => 0#33 ++ x ++ 0#13) (bits_all _)

theorem prefixArea390_prefixArea (p : DWord) : prefixArea390 (prefixArea p) = prefixArea p := by
  unfold prefixArea390 prefixArea
  rw [BitVec.and_assoc]
  rfl

theorem exec_spx_next {b : Reg} {d : Nat} {s t : State} (h : exec (.spx b d) s = .next t) :
    (∃ w, t = { s with pfx := prefixOfWord w }) ∨ TakenFrom s t := by
  refine (run_next h).imp_left fun hb => ?_
  obtain ⟨_, _, hb⟩ := res_bind_eq_ok hb
  obtain ⟨_, _, hb⟩ := res_bind_eq_ok hb
  obtain ⟨w, _, hb⟩ := res_bind_eq_ok hb
  obtain ⟨_, _, hb⟩ := res_bind_eq_ok hb
  exact ⟨_, (Except.ok.inj hb).symm⟩

theorem exec_sigp_next {r1 r3 b : Reg} {d : Nat} {s t : State} (h : exec (.sigp r1 r3 b d) s = .next t) :
    (∃ status, t = s.orderStatus r1 status) ∨ (s.archMode = .esa390 ∧ t = s.switchToZ.setCc (orderCc true))
      ∨ TakenFrom s t := by
  obtain hb | ht := run_next h
  · obtain ⟨_, _, hb⟩ := res_bind_eq_ok hb
    split at hb
    · unfold State.setArchitecture at hb
      split at hb
      · split at hb
        · next hz => exact .inr (.inl ⟨hz, (Except.ok.inj hb).symm⟩)
        · cases hb
        · exact .inl ⟨_, (Except.ok.inj hb).symm⟩
      · exact .inl ⟨_, (Except.ok.inj hb).symm⟩
    · cases hb
  · exact .inr (.inr ht)

theorem stepKeeps_setPrefix (s : State) (w : Word) : StepKeeps s { s with pfx := prefixOfWord w } :=
  { Keeps.refl s with
    archMode := .inl rfl
    inv := fun ⟨hm, hp, _⟩ => by
      refine ⟨hm, hp, ?_⟩
      have hw := prefixArea_prefixOfWord w
      unfold State.prefixWf
      split
      · simp [hw]
      · rw [← hw]
        simp [prefixArea390_prefixArea] }

theorem kept_orderStatus (s : State) (r : Reg) (status : Word) : Kept s (s.orderStatus r status) :=
  ((keeps_setGprLow s r status).kept rfl).trans (kept_setCc _ _)

theorem stepKeeps_switchToZ {s : State} (h : s.archMode = .esa390) (c : BitVec 2) :
    StepKeeps s (s.switchToZ.setCc c) :=
  { Keeps.refl s with
    archMode := .inr ⟨h, rfl⟩
    inv := fun ⟨hm, hp, _⟩ =>
      ⟨hm, (kept_setCc s.switchToZ c).psw (pswValid_expand_shorten hp), by
        simp [State.prefixWf, State.setCc, State.withPsw, State.switchToZ, prefixArea_idem]⟩ }

/-- Every instruction, SPX and SIGP with the others. -/
theorem exec_stepKeeps {i : Instr} {s t : State} (h : exec i s = .next t) : StepKeeps s t := by
  cases hi : reconfigures i with
  | false => exact (exec_kept hi h).stepKeeps
  | true =>
    cases i with
    | spx b d =>
      obtain ⟨w, rfl⟩ | ht := exec_spx_next h
      · exact stepKeeps_setPrefix s w
      · exact ht.kept.stepKeeps
    | sigp r1 r3 b d =>
      obtain ⟨status, rfl⟩ | ⟨hz, rfl⟩ | ht := exec_sigp_next h
      · exact (kept_orderStatus s r1 status).stepKeeps
      · exact stepKeeps_switchToZ hz _
      · exact ht.kept.stepKeeps
    | _ => cases hi

/-- No instruction but SIGP changes the architectural mode. -/
theorem exec_archMode {i : Instr} {s t : State} (hi : ∀ r1 r3 b d, i ≠ .sigp r1 r3 b d) (h : exec i s = .next t) :
    t.archMode = s.archMode := by
  cases hr : reconfigures i with
  | false => exact (exec_kept hr h).archMode
  | true =>
    cases i with
    | spx b d =>
      obtain ⟨w, rfl⟩ | ht := exec_spx_next h
      · rfl
      · exact ht.kept.archMode
    | sigp r1 r3 b d => exact absurd rfl (hi r1 r3 b d)
    | _ => cases hr

/-! ## Every step -/

theorem kept_pending (s : State) (l : List PendingInterruption) : Kept s { s with pending := l } := { Kept.refl s with }

/-- An interruption of any class makes a valid PSW current. -/
theorem kept_interrupt {s t : State} {c : InterruptClass} {old : Quad} (h : s.interrupt c old id = .next t) :
    Kept s t := by
  obtain ⟨_, _, p, _, hv, rfl⟩ := interrupt_next h
  exact (kept_storeAbsolute s _ _).trans (kept_withPsw fun _ => hv)

theorem kept_takeInterruption {s t : State} {c : PendingInterruption} (h : s.takeInterruption c = .next t) :
    Kept s t := by
  obtain ⟨k, hk⟩ | ⟨e, _, hk⟩ := takeInterruption_cases s c <;> rw [hk] at h
  · exact kept_interrupt h
  · exact ((keeps_drawn s).kept rfl).trans (TakenFrom.kept ⟨e, _, _, h⟩)

theorem kept_takePending {s t : State} (h : s.takePending = some (.next t)) : Kept s t := by
  unfold State.takePending at h
  split at h
  · next c hc => exact (kept_pending s _).trans (kept_takeInterruption (Option.some.inj h))
  · cases h

theorem kept_fetchStopped {s t : State} {stop : FetchStop} (h : s.fetchStopped stop = .next t) : Kept s t := by
  unfold State.fetchStopped at h
  split at h
  · cases h
  · cases h
  · exact TakenFrom.kept ⟨_, _, _, h⟩
  · exact ((keeps_drawn s).kept rfl).trans (TakenFrom.kept ⟨_, _, _, h⟩)

theorem kept_advance (s : State) (len : Nat) : Kept s (s.advance len) := kept_withIa (fits_trunc _ _)

/-- A step is a pending interruption, an exception of the fetch, or an instruction with the address moved past it. -/
theorem step_stepKeeps {s t : State} (h : step s = .next t) : StepKeeps s t := by
  obtain ⟨_, hp | ⟨_, _, hrun⟩⟩ := step_next h
  · exact (kept_takePending hp).stepKeeps
  · obtain ⟨stop, _, hstop⟩ | ⟨bs, i, rest, _, _, _, hexec⟩ := fetchAndRun_next hrun
    · exact (kept_fetchStopped hstop).stepKeeps
    · exact (kept_advance s _).trans_stepKeeps (exec_stepKeeps hexec)

/-- Settles O7. -/
theorem stepKeepsInvariant : Obligations.StepKeepsInvariant := fun _ _ hs h => (step_stepKeeps h).inv hs

/-- Settles O8. -/
theorem stepKeepsConfiguration : Obligations.StepKeepsConfiguration := by
  refine ⟨fun s t h => ?_, fun i s t h hm => ?_⟩
  · have k := step_stepKeeps h
    exact ⟨k.params, k.entryTable, k.otherCpus, k.cpuStatus, k.archMode, k.stored,
      fun a ha => (k.changed a).resolve_left ha⟩
  · by_contra hi
    exact hm (exec_archMode (fun r1 r3 b d e => hi ⟨r1, r3, b, d, e⟩) h)

/-- Settles O6: no storage is listed, the two PSWs are valid and the area of the assigned locations begins at zero. -/
theorem resetMeetsInvariant : Obligations.ResetMeetsInvariant := by
  refine ⟨⟨rfl, ?_, ?_⟩, ⟨rfl, ?_, ?_⟩, rfl, rfl⟩
  all_goals decide

/-- Settles O5. -/
theorem stepRunsDecodedInstruction : Obligations.StepRunsDecodedInstruction := by
  refine ⟨fun s bs rest i ho hp hn hf hd hr => ?_, fun s a bs x => mem_addPlaces, fun s a abs ha => ?_⟩
  · simp only [step, State.act, if_pos ho, hp, hn, State.fetchAndRun, hf, State.runBytes, hd, hr]
    rfl
  · have hopen : s.fetchIsOpen abs 2 = true
        ↔ s.params.streamStores = .unsettled ∧ (abs ∈ s.stored ∨ abs + 1 ∈ s.stored) := by
      rw [fetchIsOpen_iff]
      refine and_congr_right fun _ => ⟨?_, ?_⟩
      · rintro ⟨x, hx, h1, h2⟩
        obtain rfl | rfl : x = abs ∨ x = abs + 1 := by omega
        · exact .inl hx
        · exact .inr hx
      · rintro (hx | hx)
        · exact ⟨_, hx, by omega, by omega⟩
        · exact ⟨_, hx, by omega, by omega⟩
    exact ⟨fun h => fetchHalf_open ha (hopen.2 h),
      fun h => fetchHalf_eq ha (Bool.eq_false_iff.2 fun k => h (hopen.1 k))⟩

/-! ## The checks that an instruction makes first -/

/-- A privileged instruction's body begins with the check of the problem state. -/
theorem runThen_problem {α : Type} {s : State} (h : s.problem = true) (len : Nat) (f : Unit → Res α) (k : α → Result) :
    s.runThen len (s.requireSupervisor >>= f) k = s.raise len .privileged := by
  rw [requireSupervisor_error h]
  rfl

theorem runThen_misaligned {α : Type} {s : State} {a : DWord} {n : Nat} (h : a.toNat % n ≠ 0) (len : Nat)
    (f : Unit → Res α) (k : α → Result) :
    s.runThen len (requireAligned a n >>= f) k = s.raise len .specification := by
  rw [requireAligned_error h]
  rfl

theorem runThen_supervisor {α : Type} {s : State} (h : s.problem = false) (len : Nat) (f : Unit → Res α)
    (k : α → Result) : s.runThen len (s.requireSupervisor >>= f) k = s.runThen len (f ()) k := by
  rw [requireSupervisor_ok h]
  rfl

theorem runThen_odd {α : Type} {s : State} {r : Reg} (h : r.getLsbD 0 = true) (len : Nat) (f : Unit → Res α)
    (k : α → Result) : s.runThen len (requireEven r >>= f) k = s.raise len .specification := by
  rw [requireEven_error h]
  rfl

theorem runThen_even {α : Type} {s : State} {r : Reg} (h : r.getLsbD 0 = false) (len : Nat) (f : Unit → Res α)
    (k : α → Result) : s.runThen len (requireEven r >>= f) k = s.runThen len (f ()) k := by
  rw [requireEven_ok h]
  rfl

/-- STFL apart, the check of the problem state is the first of a privileged instruction. -/
theorem exec_privileged {i : Instr} {s : State} (hi : privileged i = true) (hne : i ≠ .stfl) (h : s.problem = true) :
    exec i s = s.raise (instrBytes i) .privileged := by
  cases i with
  | stfl => exact absurd rfl hne
  | lpsw | lpswe | lra | lrag | strag | tprot | lurag | sturg | lctl | stctl | lctlg | stctg | esea | spx | sigp
  | trace | tracg | mvcp | mvcs | mvck => exact runThen_problem h _ _ _
  | epsw | sam24 | sam31 | sam64 | pc | bakr | pr | esta | ereg | eregg | balr | basr | bassm | bsm | bsa | bsg | rp
  | trap2 | trap4 | mc | lpq | stpq | cdsg | plo | mvpg | iesbe => cases hi

theorem exec_stfl_withoutN3 {s : State} (h : bit s.params.fac 0 = false) : exec .stfl s = s.raise 4 .operation := by
  have hb : require s.n3Installed .operation = .error (.exception .operation) := require_false h _
  show s.run 4 (require s.n3Installed .operation >>= _) = _
  rw [hb]
  rfl

theorem exec_stfl_withN3 {s : State} (h : bit s.params.fac 0 = true) :
    exec .stfl s = s.run 4 (s.requireSupervisor >>= fun _ => s.realWrite 200#64 (toBytes 4 s.facilities.toNat)) := by
  have hb : require s.n3Installed .operation = .ok () := require_true h _
  show s.run 4 (require s.n3Installed .operation >>= _) = _
  rw [hb]
  rfl

/-- Settles O10. -/
theorem privilegedInstructionsTrap : Obligations.PrivilegedInstructionsTrap := by
  intro i s hi h
  by_cases hs : i = .stfl
  · subst hs
    cases hf : bit s.params.fac 0 with
    | false => exact exec_stfl_withoutN3 hf
    | true => exact (exec_stfl_withN3 hf).trans (runThen_problem h 4 _ _)
  · rw [if_neg fun k => hs k.1]
    exact exec_privileged hi hs h

/-- The boundary of a storage operand is tested after the checks of the problem state and of even registers. -/
theorem exec_misaligned {i : Instr} {s : State} {a : DWord} {n : Nat} (ho : alignedOperand i s = some (a, n))
    (ha : a.toNat % n ≠ 0) (hp : privileged i = true → s.problem = false)
    (he : ∀ r ∈ pairRegisters i, r.getLsbD 0 = false) : exec i s = s.raise (instrBytes i) .specification := by
  cases i with
  | lpsw | lpswe | strag | lurag | sturg | lctl | stctl | lctlg | stctg | spx | trace | tracg =>
    cases ho
    exact (runThen_supervisor (hp rfl) _ _ _).trans (runThen_misaligned ha _ _ _)
  | lpq r1 | stpq r1 =>
    cases ho
    exact (runThen_even (he r1 (by simp [pairRegisters])) _ _ _).trans (runThen_misaligned ha _ _ _)
  | cdsg r1 r3 =>
    cases ho
    exact (runThen_even (he r1 (by simp [pairRegisters])) _ _ _).trans
      ((runThen_even (he r3 (by simp [pairRegisters])) _ _ _).trans (runThen_misaligned ha _ _ _))
  | _ => cases ho

theorem exec_oddPair {i : Instr} (s : State) {r : Reg} (hr : r ∈ pairRegisters i) (ho : r.getLsbD 0 = true) :
    exec i s = s.raise (instrBytes i) .specification := by
  cases i with
  | lpq | stpq | esta =>
    obtain rfl := List.mem_singleton.1 hr
    exact runThen_odd ho _ _ _
  | cdsg r1 r3 =>
    cases h1 : r1.getLsbD 0 with
    | true => exact runThen_odd h1 _ _ _
    | false =>
      obtain rfl | rfl : r = r1 ∨ r = r3 := by simpa [pairRegisters] using hr
      · exact absurd (h1.symm.trans ho) (by decide)
      · exact (runThen_even h1 _ _ _).trans (runThen_odd ho _ _ _)
  | _ => cases hr

theorem bit63_iff (a : DWord) : bit a 63 = true ↔ a.toNat % 2 = 1 := by
  simp [bit, BitVec.getMsbD, BitVec.getLsbD, Nat.testBit_zero]

/-- Settles O11. -/
theorem specificationExceptions : Obligations.SpecificationExceptions := by
  refine ⟨fun i s a n ho ha hp he => exec_misaligned ho ha hp he, fun s h => ?_,
    fun i s r hr ho => exec_oddPair s hr ((odd_iff r).2 ho)⟩
  rw [State.fetchInstruction, if_pos ((bit63_iff s.ia).2 h)]

end Sys2Proof.Machine
end

section
/-! The obligations of 20_memory.md about storage, prefixing and translation. -/

namespace Sys2Proof.Machine

open Sys2Proof

/-! ## Operands with DAT off -/

theorem operandSpace_off {s : State} (h : s.dat = false) : s.operandSpace = none := by
  simp [State.operandSpace, h]

/-- A place that can be stored into with DAT off is that of the real address. -/
theorem storeAddress_real {s : State} {a : DWord} {n abs : Nat} (h : s.storeAddress none a n = .ok abs) :
    s.realAddress a n = .ok abs := fetchAddress_of_storeAddress h

/-- The fetch of a real operand that fits configured storage, or the addressing exception. -/
theorem memRead_off {s : State} (h : s.dat = false) (a : DWord) (n : Nat) :
    s.memRead a n = s.realAddress a n >>= fun abs => .ok (readBytes s.mem abs n) := by
  rw [State.memRead, operandSpace_off h]
  rfl

/-- Settles O13: with DAT off the bytes go to the absolute address of the operand's real address, and an operand apart
from them is read from other bytes. -/
theorem storedOperandReadsBack : Obligations.StoredOperandReadsBack := by
  intro s t a bs _ hd h
  obtain ⟨abs, hs, rfl⟩ := memWrite_ok h
  rw [operandSpace_off hd] at hs
  have hreal := storeAddress_real hs
  obtain ⟨rfl, hfit⟩ := realAddress_ok hreal
  have hread : ∀ (b : DWord) (n : Nat), (s.storeAbsolute (s.toAbsolute a).toNat bs).memRead b n
      = s.realAddress b n >>= fun x => .ok (readBytes (writeBytes s.mem (s.toAbsolute a).toNat bs) x n) :=
    fun b n => memRead_off (s := s.storeAbsolute (s.toAbsolute a).toNat bs) hd b n
  refine ⟨?_, fun k hk => mem_addPlaces.2 (.inr ⟨by omega, by omega⟩), fun b n hap => ?_⟩
  · rw [hread, hreal, res_bind_ok, readBytes_writeBytes_same]
  · rw [hread, memRead_off hd]
    cases hb : s.realAddress b n with
    | error e => rfl
    | ok x =>
      obtain ⟨rfl, _⟩ := realAddress_ok hb
      rw [res_bind_ok, res_bind_ok, readBytes_writeBytes_apart _ _ _ hap]

/-! ## Prefixing -/

/-- The block number of a real address. -/
theorem and_not_blockMask (r : DWord) : r &&& ~~~0x0000000000001FFF#64 = bits r 0 51 ++ 0#13 := by
  apply BitVec.eq_of_getLsbD_eq
  intro i hi
  rw [BitVec.getLsbD_and, BitVec.getLsbD_not, blockMask_bits i hi, BitVec.getLsbD_append, bits,
    BitVec.getLsbD_extractLsb']
  by_cases h : i < 13
  · simp [h]
  · simp [h, hi, show i - 13 < 51 by omega, show 64 - 0 - 51 + (i - 13) = i by omega]

/-- The place of a real address in its block. -/
theorem and_blockMask (r : DWord) : r &&& 0x0000000000001FFF#64 = 0#51 ++ bits r 51 13 := by
  apply BitVec.eq_of_getLsbD_eq
  intro i hi
  rw [BitVec.getLsbD_and, blockMask_bits i hi, BitVec.getLsbD_append, bits, BitVec.getLsbD_extractLsb']
  by_cases h : i < 13
  · simp [h]
  · simp [h]

theorem block_eq_zero_iff (r : DWord) : bits r 0 51 ++ 0#13 = 0#64 ↔ bits r 0 51 = 0#51 := by
  constructor
  · intro h
    have hb := bits_append_left (bits r 0 51) 0#13 0 51 (by omega)
    rw [h, bits_all] at hb
    rw [← hb]
    rfl
  · intro h
    rw [h]
    rfl

/-- The swap maps every address back to itself if p is the address of a block. -/
theorem swapBlock_swapBlock {mask p : DWord} (hp : p &&& mask = 0#64) (r : DWord) :
    swapBlock mask p (swapBlock mask p r) = r := by
  have hbit : ∀ i, i < 64 → (p.getLsbD i && mask.getLsbD i) = false := fun i _ => by
    rw [← BitVec.getLsbD_and, hp, BitVec.getLsbD_zero]
  have hhigh : (p ||| (r &&& mask)) &&& ~~~mask = p := by
    apply BitVec.eq_of_getLsbD_eq
    intro i hi
    have := hbit i hi
    simp only [BitVec.getLsbD_and, BitVec.getLsbD_or, BitVec.getLsbD_not, hi, decide_true, Bool.true_and]
    cases h1 : p.getLsbD i <;> cases h2 : mask.getLsbD i <;> simp_all
  have hlow : (p ||| (r &&& mask)) &&& mask = r &&& mask := by
    apply BitVec.eq_of_getLsbD_eq
    intro i hi
    have := hbit i hi
    simp only [BitVec.getLsbD_and, BitVec.getLsbD_or]
    cases h1 : p.getLsbD i <;> cases h2 : mask.getLsbD i <;> simp_all
  have hzero : (r &&& mask) &&& ~~~mask = 0#64 := by
    rw [BitVec.and_assoc, BitVec.and_not_self]
    exact BitVec.and_zero
  have hwhole : r &&& ~~~mask ||| r &&& mask = r := by
    apply BitVec.eq_of_getLsbD_eq
    intro i hi
    simp only [BitVec.getLsbD_and, BitVec.getLsbD_or, BitVec.getLsbD_not, hi, decide_true, Bool.true_and]
    cases mask.getLsbD i <;> simp
  have htwice : (r &&& mask) &&& mask = r &&& mask := by rw [BitVec.and_assoc, BitVec.and_self]
  by_cases h0 : r &&& ~~~mask = 0#64
  · have hr : r &&& mask = r := by simpa [h0] using hwhole
    rw [hr] at hhigh hlow
    by_cases hp0 : p = 0#64
    · simp [swapBlock, h0, hp0, hr]
    · simp [swapBlock, h0, hp0, hr, hhigh, hlow]
  · by_cases h1 : r &&& ~~~mask = p
    · rw [h1] at hwhole
      have hp0 : p ≠ 0#64 := fun e => h0 (h1.trans e)
      simp [swapBlock, h1, hp0, hzero, htwice, hwhole]
    · simp [swapBlock, h0, h1]

theorem prefixArea_and_blockMask (p : DWord) : prefixArea p &&& 0x0000000000001FFF#64 = 0#64 := by
  apply BitVec.eq_of_getLsbD_eq
  intro i hi
  rw [BitVec.getLsbD_and, getLsbD_prefixArea, blockMask_bits i hi]
  by_cases h : i < 13
  · simp [h]
  · simp [h]

theorem toAbsolute_zArch {s : State} (h : s.archMode = .zArch) (r : DWord) :
    s.toAbsolute r = swapBlock 0x0000000000001FFF#64 (prefixArea s.pfx) r := by
  rw [State.toAbsolute, h]

theorem toAbsolute_involutive {s : State} (h : s.archMode = .zArch) (r : DWord) :
    s.toAbsolute (s.toAbsolute r) = r := by
  rw [toAbsolute_zArch h, toAbsolute_zArch h]
  exact swapBlock_swapBlock (prefixArea_and_blockMask _) r

theorem toAbsolute_firstBlock {s : State} (hz : s.archMode = .zArch) {r : DWord} (h : bits r 0 51 = 0#51) :
    s.toAbsolute r = prefixArea s.pfx + (0#51 ++ bits r 51 13) := by
  have hr : r.toNat < 8192 := (bits_eq_zero_iff r 51 (by omega)).1 h
  apply BitVec.eq_of_toNat_eq
  have hp := prefixArea_lt s.pfx
  rw [toAbsolute_low hz hr, BitVec.toNat_add, BitVec.toNat_append, toNat_bits]
  simp
  omega

theorem toAbsolute_prefixBlock {s : State} (hz : s.archMode = .zArch) {r : DWord} (h : bits r 0 51 ≠ 0#51)
    (hp : bits r 0 51 ++ 0#13 = prefixArea s.pfx) : s.toAbsolute r = 0#51 ++ bits r 51 13 := by
  rw [toAbsolute_zArch hz, swapBlock, and_not_blockMask, if_neg fun k => h ((block_eq_zero_iff r).1 k), if_pos hp,
    and_blockMask]

theorem toAbsolute_otherBlock {s : State} (hz : s.archMode = .zArch) {r : DWord} (h : bits r 0 51 ≠ 0#51)
    (hp : bits r 0 51 ++ 0#13 ≠ prefixArea s.pfx) : s.toAbsolute r = r := by
  rw [toAbsolute_zArch hz, swapBlock, and_not_blockMask, if_neg fun k => h ((block_eq_zero_iff r).1 k), if_neg hp]

theorem toAbsolute_zeroPrefix {s : State} (hz : s.archMode = .zArch) (h : prefixArea s.pfx = 0#64) (r : DWord) :
    s.toAbsolute r = r := by
  by_cases h0 : bits r 0 51 = 0#51
  · have hr : r.toNat < 8192 := (bits_eq_zero_iff r 51 (by omega)).1 h0
    apply BitVec.eq_of_toNat_eq
    rw [toAbsolute_low hz hr, h]
    exact Nat.zero_add _
  · exact toAbsolute_otherBlock hz h0 fun k => h0 ((block_eq_zero_iff r).1 (k.trans h))

/-- Settles O14. -/
theorem prefixing : Obligations.Prefixing :=
  ⟨fun p => ⟨prefixArea_eq p, prefixArea_aligned p, prefixArea_lt p⟩, fun _ r hz =>
    ⟨toAbsolute_firstBlock hz, toAbsolute_prefixBlock hz, toAbsolute_otherBlock hz,
      fun h => toAbsolute_zeroPrefix hz h r, toAbsolute_involutive hz r⟩⟩

/-! ## The spaces -/

theorem bit_eq_bits {w : Nat} (v : BitVec w) (a n k : Nat) (h : a + n ≤ w) (hk : k < n) :
    bit v (a + k) = (bits v a n).getMsbD k := by
  rw [getMsbD_bits _ _ _ _ h]
  simp [hk]

/-- The bits of a field of two. -/
theorem bits_two {w : Nat} {v : BitVec w} {a : Nat} {x : BitVec 2} (h : a + 2 ≤ w) (hx : bits v a 2 = x) :
    bit v a = x.getMsbD 0 ∧ bit v (a + 1) = x.getMsbD 1 := by
  subst hx
  exact ⟨bit_eq_bits v a 2 0 h (by omega), bit_eq_bits v a 2 1 h (by omega)⟩

theorem walk_real {s : State} {asce : DWord} (h : bit asce 58 = true) (va : DWord) :
    s.walk va asce = .ok (.available va false) := by
  rw [State.walk, if_pos h]

theorem walkSpace_eq {s : State} {sp : Space} {asce : DWord} (h : s.asceOf sp = .ok asce) (va : DWord) :
    s.walkSpace sp va = s.walk va asce := by
  rw [State.walkSpace, h]
  rfl

theorem translate_unprotected {s : State} {sp : Space} {va real : DWord}
    (h : s.walkSpace sp va = .ok (.available real false)) (acc : Access) : s.translate acc sp va = .ok real := by
  rw [State.translate, h]
  simp

theorem fetchAddress_translated {s : State} {sp : Space} {va real : DWord} (h : s.translate .fetch sp va = .ok real)
    (n : Nat) : s.fetchAddress (some sp) va n = s.realAddress real n := by
  simp [State.fetchAddress, h]

/-- The space that PSW bits 16-17 select. -/
theorem space_eq {s : State} {x : BitVec 2} (h : bits s.psw 16 2 = x) :
    s.space = match x.getMsbD 0, x.getMsbD 1 with
      | false, false => .primary
      | false, true => .accessRegister
      | true, false => .secondary
      | true, true => .home := by
  obtain ⟨h0, h1⟩ := bits_two (by omega) h
  unfold State.space
  rw [h0, h1]
  all_goals rfl

theorem spaces_on {s : State} (h : bit s.psw 5 = true) :
    s.operandSpace = some s.space
      ∧ s.fetchSpace = some (match s.space with | .home => .home | _ => .primary) := by
  have hd : s.dat = true := h
  simp only [State.operandSpace, State.fetchSpace, hd, if_true, true_and]
  all_goals rfl

/-- Settles O15. -/
theorem realSpaceTranslatesToItself : Obligations.RealSpaceTranslatesToItself := by
  refine ⟨fun s sp asce va acc n ha hr => ?_, fun s h => ?_, fun s h => ?_,
    fun s a n => ⟨rfl, rfl, rfl, rfl, rfl⟩⟩
  · have hw := (walkSpace_eq ha va).trans (walk_real hr va)
    exact ⟨walk_real hr va, translate_unprotected hw acc, fetchAddress_translated (translate_unprotected hw .fetch) n⟩
  · have hd : s.dat = false := h
    simp [State.operandSpace, State.fetchSpace, hd]
  · obtain ⟨ho, hf⟩ := spaces_on h
    rw [ho, hf]
    refine ⟨fun hb => ?_, fun hb => ?_, fun hb => ?_, fun hb => ?_⟩ <;> rw [space_eq hb] <;> exact ⟨rfl, rfl⟩

/-! ## The table walk -/

theorem tableIndex_eq (va : DWord) {level : Nat} (h : level < 4) :
    tableIndex va level = bits va (33 - 11 * level) 11 := by
  obtain rfl | rfl | rfl | rfl : level = 0 ∨ level = 1 ∨ level = 2 ∨ level = 3 := by omega
  all_goals rfl

theorem entryAddress_carry {origin : DWord} {k : Nat} (h : 2 ^ 64 ≤ origin.toNat + k * 8) :
    entryAddress origin k = .error (.fault .tableAddressCarry) := by
  rw [entryAddress, if_neg (by omega)]

section
variable {s : State} {va origin : DWord} {level : Nat} {tf tl : BitVec 2}

theorem lookup_outside (h : tl < bits (tableIndex va level) 0 2 ∨ bits (tableIndex va level) 0 2 < tf) :
    s.lookup va level origin tf tl = .ok (.stopped (.other (levelException level))) := by
  rw [State.lookup, if_pos h]

theorem lookup_carry (h : ¬(tl < bits (tableIndex va level) 0 2 ∨ bits (tableIndex va level) 0 2 < tf))
    (hc : 2 ^ 64 ≤ origin.toNat + (tableIndex va level).toNat * 8) :
    s.lookup va level origin tf tl = .error (.fault .tableAddressCarry) := by
  rw [State.lookup, if_neg h, entryAddress_carry hc, res_bind_error]

/-- With the entry read, the lookup is decided by the entry's invalid bit and type. -/
theorem lookup_read {ea e : DWord}
    (h : ¬(tl < bits (tableIndex va level) 0 2 ∨ bits (tableIndex va level) 0 2 < tf))
    (ha : ea.toNat = origin.toNat + (tableIndex va level).toNat * 8) (he : s.tableRead ea = .ok e) :
    s.lookup va level origin tf tl
      = if bit e 58 then .ok (.stopped (if level = 0 then .segmentInvalid ea else .other (levelException level)))
        else if bits e 60 2 ≠ BitVec.ofNat 2 level then .error (.exception .translationSpecification)
        else .ok (.entry e) := by
  rw [State.lookup, if_neg h, entryAddress_ok ha, res_bind_ok, he, res_bind_ok]

theorem walkTables_stopped {w : Walk} (h : s.lookup va level origin tf tl = .ok (.stopped w)) :
    s.walkTables va level origin tf tl = .ok (.stopped w) := by
  cases level with
  | zero => exact h
  | succ n => rw [State.walkTables, h, res_bind_ok]

theorem walkTables_error {x : Stop} (h : s.lookup va level origin tf tl = .error x) :
    s.walkTables va level origin tf tl = .error x := by
  cases level with
  | zero => exact h
  | succ n => rw [State.walkTables, h, res_bind_error]

theorem walkTables_next {e : DWord} (h : s.lookup va (level + 1) origin tf tl = .ok (.entry e)) :
    s.walkTables va (level + 1) origin tf tl = s.walkTables va level (originOf e) (bits e 56 2) (bits e 62 2) := by
  rw [State.walkTables, h, res_bind_ok]

end

theorem type_eq_iff {x : BitVec 2} {level : Nat} (h : level < 4) : x = BitVec.ofNat 2 level ↔ x.toNat = level := by
  rw [← BitVec.toNat_inj, BitVec.toNat_ofNat]
  omega

theorem levelException_code {level : Nat} (h : level < 4) : (levelException level).code
    = (if level = 0 then 0x0010#16 else if level = 1 then 0x003B#16 else if level = 2 then 0x003A#16
      else 0x0039#16) := by
  obtain rfl | rfl | rfl | rfl : level = 0 ∨ level = 1 ∨ level = 2 ∨ level = 3 := by omega
  all_goals rfl

/-! ## Where an entry is read from -/

theorem tableRead_unsettled {s : State} {a : DWord} (hk : s.params.tableAddressKind = .unsettled)
    (hp : s.inPrefixBlocks a = true) : s.tableRead a = .error (.fault .tableAddressUnsettled) := by
  simp [State.tableRead, hk, hp]

/-- The absolute address of a table entry where the parameter settles it. -/
def State.entryPlace (s : State) (a : DWord) : DWord :=
  if s.params.tableAddressKind = .absolute then a else s.toAbsolute a

theorem tableRead_settled {s : State} {a : DWord}
    (h : ¬(s.params.tableAddressKind = .unsettled ∧ s.inPrefixBlocks a = true)) :
    s.tableRead a = if (s.entryPlace a).toNat + 8 ≤ s.params.storageSize then
        .ok (BitVec.ofNat 64 (ofBytes (readBytes s.mem (s.entryPlace a).toNat 8)))
      else .error (.exception .addressing) := by
  unfold State.tableRead State.entryPlace
  cases hk : s.params.tableAddressKind with
  | unsettled =>
    have hp : s.inPrefixBlocks a = false := Bool.eq_false_iff.2 fun k => h ⟨hk, k⟩
    simp only [hp, State.realAddress, reduceCtorEq, if_false, Bool.false_eq_true]
    split <;> rfl
  | real =>
    simp only [State.realAddress, reduceCtorEq, if_false]
    split <;> rfl
  | absolute =>
    simp only [if_true]
    split <;> rfl

theorem pageTableOrigin_unsettled {s : State} {ste : DWord} (hk : s.params.ptoLastBit = .unsettled)
    (h : bit ste 52 = false) : s.pageTableOrigin ste = .ok (bits ste 0 52 ++ 0#12) := by
  have hb : bits ste 0 53 ++ 0#11 = bits ste 0 52 ++ 0#12 := by
    have h1 := bits_append_bits ste 0 52 1 (by omega)
    have h2 : bits ste 52 1 = 0#1 := (bits_eq_zero_iff_forall ste 52 1 (by omega)).2 fun i h1 h2 => by
      obtain rfl : i = 52 := by omega
      exact h
    rw [← h1, h2, BitVec.append_assoc]
    rfl
  simp [State.pageTableOrigin, hk, h, hb]

/-- Settles O18. -/
theorem tableLookup : Obligations.TableLookup := by
  refine ⟨fun s va origin level tf tl hl => ?_, fun s a => ?_, fun s ste => ?_⟩
  · have hi := tableIndex_eq va hl
    dsimp only
    rw [← hi]
    refine ⟨fun h => walkTables_stopped (lookup_outside h), fun h hc => walkTables_error (lookup_carry h hc),
      fun ea e h ha he => ?_, levelException_code hl⟩
    have hread := lookup_read h ha he
    refine ⟨fun hb h0 => ?_, fun hb h0 => ?_, fun hb ht => ?_, fun hb ht h0 => ?_, fun next hb ht hn => ?_⟩
    · exact walkTables_stopped (by rw [hread, if_pos hb, if_pos h0])
    · exact walkTables_stopped (by rw [hread, if_pos hb, if_neg h0])
    · exact walkTables_error (by
        rw [hread, if_neg (Bool.eq_false_iff.1 hb), if_pos fun k => ht ((type_eq_iff hl).1 k)])
    · rw [if_neg (Bool.eq_false_iff.1 hb), if_neg fun k => k ((type_eq_iff hl).2 ht)] at hread
      subst h0
      exact hread
    · rw [if_neg (Bool.eq_false_iff.1 hb), if_neg fun k => k ((type_eq_iff hl).2 ht)] at hread
      subst hn
      exact walkTables_next hread
  · dsimp only
    rw [← inPrefixBlocks_iff]
    refine ⟨tableRead_unsettled, fun h => ?_⟩
    rw [tableRead_settled h]
    refine ⟨fun e hfit he => ?_, fun hfit => ?_⟩
    · rw [if_pos (show (s.entryPlace a).toNat + 8 ≤ _ from hfit)]
      exact congrArg Except.ok (ofNat_of_toBytes (by omega) he)
    · exact if_neg (show ¬(s.entryPlace a).toNat + 8 ≤ _ from Nat.not_le.2 hfit)
  · refine ⟨fun h => ?_, fun h => ?_, fun h => ⟨pageTableOrigin_unsettled h, fun hb => ?_⟩⟩
    · simp [State.pageTableOrigin, h]
    · simp [State.pageTableOrigin, h]
    · simp [State.pageTableOrigin, h, hb]

/-! ## The page table and protection -/

/-- With the entry read, the page lookup is decided by the entry's bits. -/
theorem walkPage_read {s : State} {va ste origin ea pte : DWord} (ho : s.pageTableOrigin ste = .ok origin)
    (ha : ea.toNat = origin.toNat + (bits va 44 8).toNat * 8) (he : s.tableRead ea = .ok pte) :
    s.walkPage va ste
      = if bit pte 53 then .ok (.pageInvalid ea)
        else if bit pte 52 || bit pte 55 then .error (.exception .translationSpecification)
        else .ok (.available (bits pte 0 52 ++ bits va 52 12) (bit ste 54 || bit pte 54)) := by
  rw [State.walkPage, ho, res_bind_ok, entryAddress_ok ha, res_bind_ok, he, res_bind_ok]

theorem translate_protected {s : State} {sp : Space} {va real : DWord}
    (h : s.walkSpace sp va = .ok (.available real true)) :
    s.translate .store sp va = .error (.exception (.protection (some (va, sp)))) ∧ s.translate .fetch sp va = .ok real := by
  simp [State.translate, h]

/-- Settles O19. -/
theorem pageLookupAndProtection : Obligations.PageLookupAndProtection := by
  refine ⟨fun s va ste origin ea pte ho ha he => ?_, fun s sp va real => ⟨translate_protected, fun h =>
    ⟨translate_unprotected h .store, translate_unprotected h .fetch⟩⟩⟩
  rw [walkPage_read ho ha he]
  refine ⟨fun h => if_pos h, fun h h2 => ?_, fun h h2 h5 => ?_⟩
  · obtain h2 | h2 := h2 <;> simp [h, h2]
  · simp [h, h2, h5]

/-- Settles O17: a valid entry of each of the two tables. -/
theorem twoLevelTranslation : Obligations.TwoLevelTranslation := by
  intro s va asce ste pte pto hr hd hva hlen hca hste hi ht hpto hcp hpte h52 h53 h55
  have htype : asceTypeViolation va asce = false := by
    rw [Bool.eq_false_iff, ne_eq, asceTypeViolation_iff, hd]
    simp
    omega
  have horigin : (originOf asce).toNat = (bits asce 0 52).toNat * 4096 := by
    rw [originOf, BitVec.toNat_append, Nat.shiftLeft_eq]
    simp
  have hindex : bits (tableIndex va 0) 0 2 = bits va 33 2 := bits_bits va 33 11 0 2 (by omega) (by omega)
  have hlookup : s.lookup va 0 (originOf asce) 0#2 (bits asce 62 2) = .ok (.entry ste) := by
    rw [lookup_read _ _ hste, if_neg (Bool.eq_false_iff.1 hi), if_neg fun k => k ht]
    · rw [hindex, BitVec.lt_def, BitVec.lt_def, BitVec.toNat_ofNat]
      omega
    · rw [BitVec.toNat_ofNat, Nat.mod_eq_of_lt hca, horigin]
      rfl
  have hpage := walkPage_read (va := va) hpto (by rw [BitVec.toNat_ofNat, Nat.mod_eq_of_lt hcp]) hpte
  rw [State.walk, if_neg (Bool.eq_false_iff.1 hr), if_neg (Bool.eq_false_iff.1 htype), hd,
    show (0b00#2).toNat = 0 from rfl, State.walkTables, hlookup, res_bind_ok]
  simpa [h52, h53, h55] using hpage

/-! ## Low-address protection -/

theorem lowAddress_iff {a : DWord} {n : Nat} (hn : 0 < n) :
    lowAddress a n = true ↔ ∃ k, k < n ∧ (a.toNat + k < 512 ∨ (4096 ≤ a.toNat + k ∧ a.toNat + k < 4608)) := by
  simp only [lowAddress, Bool.or_eq_true, decide_eq_true_eq]
  constructor
  · rintro (h | ⟨h1, h2⟩)
    · exact ⟨0, hn, .inl h⟩
    · by_cases h : 4096 ≤ a.toNat
      · exact ⟨0, hn, .inr ⟨h, h1⟩⟩
      · exact ⟨4096 - a.toNat, by omega, .inr ⟨by omega, by omega⟩⟩
  · rintro ⟨k, hk, h | h⟩ <;> omega

theorem lowProtected_true {s : State} {sp : Option Space} {a : DWord} {n : Nat} (hc : bit (s.cr 0#4) 35 = true)
    (hl : lowAddress a n = true) (hs : ∀ x, sp = some x → ∃ asce, s.asceOf x = .ok asce ∧ bit asce 55 = false) :
    s.lowProtected sp a n = .ok true := by
  cases sp with
  | none => simp [State.lowProtected, hc, hl]
  | some x =>
    obtain ⟨asce, ha, hb⟩ := hs x rfl
    simp [State.lowProtected, hc, hl, ha, hb]

theorem lowProtected_false {s : State} {a : DWord} {n : Nat} (h : bit (s.cr 0#4) 35 = false ∨ lowAddress a n = false)
    (sp : Option Space) : s.lowProtected sp a n = .ok false := by
  obtain h | h := h <;> simp [State.lowProtected, h]

theorem lowProtected_private {s : State} {x : Space} {asce : DWord} (ha : s.asceOf x = .ok asce)
    (hb : bit asce 55 = true) (a : DWord) (n : Nat) : s.lowProtected (some x) a n = .ok false := by
  unfold State.lowProtected
  split
  · simp [ha, hb]
  · rfl

/-- Settles O20. -/
theorem lowAddressProtection : Obligations.LowAddressProtection := by
  intro s sp a n hn
  refine ⟨fun hc hk hs => ?_, ?_⟩
  · rw [State.storeAddress, lowProtected_true hc ((lowAddress_iff hn).2 hk) hs]
    rfl
  · rintro (hc | hk | ⟨x, asce, rfl, ha, hb⟩)
    · exact lowProtected_false (.inl hc) sp
    · refine lowProtected_false (.inr (Bool.eq_false_iff.2 fun h => ?_)) sp
      obtain ⟨k, hlt, hr⟩ := (lowAddress_iff hn).1 h
      have := hk k hlt
      omega
    · exact lowProtected_private ha hb a n

end Sys2Proof.Machine
end

section
/-! The obligations of 60_exceptions.md about interruptions, and of 10_state.md about invalid PSWs. -/

namespace Sys2Proof.Machine

open Sys2Proof

/-! ## What a program interruption stores -/

theorem bits_pswWithAddress (p : Quad) (a : DWord) :
    bits (pswWithAddress p a) 0 64 = bits p 0 64 ∧ bits (pswWithAddress p a) 64 64 = a :=
  ⟨bits_setBits_apart p 64 a 0 64 (by omega) (by omega) (.inl (by omega)), bits_setBits_same p 64 a (by omega)⟩

/-- The identification of the exception stands at real 140 after the interruption. -/
theorem interrupted_identification {s : State} (hz : s.archMode = .zArch) (e : ProgException) (ilc : BitVec 2)
    (old : DWord) :
    readBytes (s.interrupted e ilc old).mem (s.toAbsolute 140#64).toNat 4 = identificationBytes ilc e.code := by
  rw [interrupted_read s hz e ilc old 140#64 4 (by decide) (by decide)]
  exact informationMem_identification s hz e ilc

/-- Settles O21. -/
theorem programInterruptionEntry : Obligations.ProgramInterruptionEntry := by
  intro s e ilc old _ hc
  obtain ⟨h1, h2⟩ := bits_pswWithAddress s.psw old
  refine ⟨_, programInterruption_eq hc e ilc old, interrupted_psw s e ilc old, ?_, ?_,
    interrupted_identification hc.1 e ilc old, interrupted_only s e ilc old⟩
  · rw [interrupted_oldPsw, h1]
  · rw [interrupted_oldPsw, h2]

theorem failing_eq_some {e : ProgException} {va : DWord} {sp : Space}
    (h : (∃ k, e = .translation k va sp) ∨ e = .protection (some (va, sp))) : e.failing = some (va, sp) := by
  obtain ⟨k, rfl⟩ | rfl := h <;> rfl

theorem failing_eq_none {e : ProgException} (h : ∀ k va sp, e ≠ .translation k va sp)
    (h' : ∀ p, e ≠ .protection (some p)) : e.failing = none := by
  cases e with
  | translation k va sp => exact absurd rfl (h k va sp)
  | protection page =>
    cases page with
    | none => rfl
    | some p => exact absurd rfl (h' p)
  | _ => rfl

theorem monitor_eq_none {e : ProgException} (h : ∀ number code, e ≠ .monitorEvent number code) : e.monitor = none := by
  cases e with
  | monitorEvent number code => exact absurd rfl (h number code)
  | _ => rfl

/-- A failing address and a monitor event never stand in one exception. -/
theorem failing_none_of_monitor {e : ProgException} {p : BitVec 4 × DWord} (h : e.monitor = some p) :
    e.failing = none := by
  cases e with
  | monitorEvent number code => rfl
  | _ => cases h

/-- The assigned locations that identify an exception, as numbers. -/
theorem assigned_places {s : State} (hz : s.archMode = .zArch) :
    (s.toAbsolute 140#64).toNat = (prefixArea s.pfx).toNat + 140
      ∧ (s.toAbsolute 148#64).toNat = (prefixArea s.pfx).toNat + 148
      ∧ (s.toAbsolute 168#64).toNat = (prefixArea s.pfx).toNat + 168
      ∧ (s.toAbsolute 176#64).toNat = (prefixArea s.pfx).toNat + 176 :=
  ⟨toAbsolute_low hz (by decide), toAbsolute_low hz (by decide), toAbsolute_low hz (by decide),
    toAbsolute_low hz (by decide)⟩

theorem informationMem_failing (s : State) {e : ProgException} (ilc : BitVec 2) {va : DWord} {sp : Space}
    (h : e.failing = some (va, sp)) :
    readBytes (s.informationMem e ilc) (s.toAbsolute 168#64).toNat 8
      = toBytes 8 (translationIdentification s.draws va sp).toNat := by
  have hm : e.monitor = none := by
    cases hm : e.monitor with
    | none => rfl
    | some p => rw [failing_none_of_monitor hm] at h; cases h
  have hw := fun m => readBytes_writeBytes_same m (s.toAbsolute 168#64).toNat
    (toBytes 8 (translationIdentification s.draws va sp).toNat)
  rw [toBytes_length] at hw
  simp only [State.informationMem, h, hm, hw]

section
variable {s : State} (hz : s.archMode = .zArch) (e : ProgException) (ilc : BitVec 2)
include hz

theorem informationMem_noFailing (h : e.failing = none) :
    readBytes (s.informationMem e ilc) (s.toAbsolute 168#64).toNat 8
      = readBytes s.mem (s.toAbsolute 168#64).toNat 8 := by
  obtain ⟨h140, h148, h168, h176⟩ := assigned_places hz
  have hid : (identificationBytes ilc e.code).length = 4 := rfl
  simp only [State.informationMem, h, h140, h148, h168, h176]
  cases e.monitor with
  | none => exact readBytes_writeBytes_apart _ _ _ (by omega)
  | some p =>
    dsimp only
    rw [readBytes_writeBytes_apart _ _ _ (.inl (by omega)), readBytes_writeBytes_apart _ _ _ (by simp),
      readBytes_writeBytes_apart _ _ _ (by omega)]

theorem informationMem_monitor {number : BitVec 4} {code : DWord} (h : e.monitor = some (number, code)) :
    readBytes (s.informationMem e ilc) (s.toAbsolute 148#64).toNat 2 = [0#8, 0#4 ++ number]
      ∧ readBytes (s.informationMem e ilc) (s.toAbsolute 176#64).toNat 8 = toBytes 8 code.toNat := by
  obtain ⟨h140, h148, h168, h176⟩ := assigned_places hz
  have hw := fun m => readBytes_writeBytes_same m (s.toAbsolute 176#64).toNat (toBytes 8 code.toNat)
  have hn := fun m => readBytes_writeBytes_same m (s.toAbsolute 148#64).toNat [0#8, 0#4 ++ number]
  rw [toBytes_length] at hw
  simp only [State.informationMem, h, failing_none_of_monitor h]
  refine ⟨?_, hw _⟩
  rw [readBytes_writeBytes_apart _ _ _ (.inl (by omega))]
  exact hn _

theorem informationMem_noMonitor (h : e.monitor = none) :
    readBytes (s.informationMem e ilc) (s.toAbsolute 148#64).toNat 2 = readBytes s.mem (s.toAbsolute 148#64).toNat 2
      ∧ readBytes (s.informationMem e ilc) (s.toAbsolute 176#64).toNat 8
        = readBytes s.mem (s.toAbsolute 176#64).toNat 8 := by
  obtain ⟨h140, h148, h168, h176⟩ := assigned_places hz
  have hid : (identificationBytes ilc e.code).length = 4 := rfl
  simp only [State.informationMem, h, h140, h148, h168, h176]
  cases e.failing with
  | none =>
    exact ⟨readBytes_writeBytes_apart _ _ _ (by omega), readBytes_writeBytes_apart _ _ _ (by omega)⟩
  | some p =>
    dsimp only
    constructor
    · rw [readBytes_writeBytes_apart _ _ _ (.inl (by omega)), readBytes_writeBytes_apart _ _ _ (by omega)]
    · rw [readBytes_writeBytes_apart _ _ _ (.inr (by rw [toBytes_length])), readBytes_writeBytes_apart _ _ _ (by omega)]

end

/-- The parts of the identification that are not free. -/
theorem bits_translationIdentification (n : Nat) (va : DWord) (sp : Space) :
    bits (translationIdentification n va sp) 0 52 = bits va 0 52
      ∧ bits (translationIdentification n va sp) 62 2 = sp.code := by
  unfold translationIdentification
  rw [bits_append_left _ _ _ _ (by omega), bits_append_left _ _ _ _ (by omega), bits_all,
    bits_append_right _ _ _ _ (by omega) (by omega)]
  exact ⟨rfl, bits_all _⟩

/-- What is read of the identification of an exception after its interruption (60_exceptions.md rule R327). -/
theorem interrupted_failing {s : State} (hz : s.archMode = .zArch) {e : ProgException} (ilc : BitVec 2) (old : DWord)
    {va : DWord} {sp : Space} (h : (∃ k, e = .translation k va sp) ∨ e = .protection (some (va, sp))) :
    ∃ v : DWord, readBytes (s.interrupted e ilc old).mem (s.toAbsolute 168#64).toNat 8 = toBytes 8 v.toNat
      ∧ bits v 0 52 = bits va 0 52 ∧ bits v 62 2 = sp.code := by
  refine ⟨_, ?_, bits_translationIdentification s.draws va sp⟩
  rw [interrupted_read s hz e ilc old 168#64 8 (by decide) (by decide)]
  exact informationMem_failing s ilc (failing_eq_some h)

theorem interrupted_monitor {s : State} (hz : s.archMode = .zArch) {e : ProgException} (ilc : BitVec 2) (old : DWord)
    {number : BitVec 4} {code : DWord} (h : e = .monitorEvent number code) :
    readBytes (s.interrupted e ilc old).mem (s.toAbsolute 148#64).toNat 2 = [0#8, 0#4 ++ number]
      ∧ readBytes (s.interrupted e ilc old).mem (s.toAbsolute 176#64).toNat 8 = toBytes 8 code.toNat := by
  rw [interrupted_read s hz e ilc old 148#64 2 (by decide) (by decide),
    interrupted_read s hz e ilc old 176#64 8 (by decide) (by decide)]
  exact informationMem_monitor hz e ilc (h ▸ rfl)

/-- Settles O22. -/
theorem interruptionIdentification : Obligations.InterruptionIdentification := by
  intro s t e ilc old _ h
  obtain ⟨⟨hz, _, _⟩, rfl⟩ := programInterruption_next h
  refine ⟨fun va sp hf => interrupted_failing hz ilc old hf, fun hk hp => ?_,
    fun number code hm => interrupted_monitor hz ilc old hm, fun hm => ?_⟩
  · rw [interrupted_read s hz e ilc old 168#64 8 (by decide) (by decide)]
    exact informationMem_noFailing hz e ilc (failing_eq_none hk hp)
  · rw [interrupted_read s hz e ilc old 148#64 2 (by decide) (by decide),
      interrupted_read s hz e ilc old 176#64 8 (by decide) (by decide)]
    exact informationMem_noMonitor hz e ilc (monitor_eq_none hm)

/-! ## Where the old PSW points -/

theorem lengthCode_byte (n : Nat) : 0#5 ++ BitVec.ofNat 2 n ++ 0#1 = BitVec.ofNat 8 (n % 4 * 2) := by
  apply BitVec.eq_of_toNat_eq
  rw [BitVec.toNat_append, BitVec.toNat_append]
  simp
  omega

/-- Settles O25. -/
theorem oldPswByEnding : Obligations.OldPswByEnding := by
  intro s len e _ hc he
  refine ⟨_, programInterruption_eq hc e _ _, ?_, ?_⟩
  · rw [interrupted_oldPsw, (bits_pswWithAddress _ _).2]
    cases e with
    | stack => exact absurd rfl he
    | _ => rfl
  · rw [interrupted_identification hc.1, ← lengthCode_byte]
    rfl

/-! ## Which PSW is invalid -/

theorem bits_one_eq_zero_iff (p : Quad) (a : Nat) (h : a + 1 ≤ 128) : bits p a 1 = 0#1 ↔ bit p a = false := by
  rw [bits_eq_zero_iff_forall p a 1 h]
  constructor
  · intro k
    exact k a (le_refl a) (by omega)
  · intro k i h1 h2
    obtain rfl : i = a := by omega
    exact k

theorem bits_mode_ne_iff (p : Quad) : bits p 31 2 ≠ 0b10#2 ↔ ¬(bit p 31 = true ∧ bit p 32 = false) := by
  have h31 := bit_eq_bits p 31 2 0 (by omega) (by omega)
  have h32 := bit_eq_bits p 31 2 1 (by omega) (by omega)
  rw [h31, h32]
  generalize bits p 31 2 = x
  revert x
  decide

/-- The leftmost bits of an instruction address. -/
theorem pswAddress_lt_iff (p : Quad) (n : Nat) (h : n ≤ 64) :
    (pswAddress p).toNat < 2 ^ (64 - n) ↔ ∀ i, 64 ≤ i → i < 64 + n → bit p i = false := by
  rw [← bits_eq_zero_iff _ n h, pswAddress, bits_bits p 64 64 0 n (by omega) (by omega)]
  exact bits_eq_zero_iff_forall p 64 n (by omega)

theorem pswMode_fits_iff (p : Quad) :
    (pswMode p).fits (pswAddress p) = true ↔
      (bit p 31 = false → bit p 32 = false → ∀ i, 64 ≤ i → i ≤ 103 → bit p i = false)
        ∧ (bit p 31 = false → bit p 32 = true → ∀ i, 64 ≤ i → i ≤ 96 → bit p i = false) := by
  have h24 := (fits24_iff (pswAddress p)).trans (pswAddress_lt_iff p 40 (by omega))
  have h31 := (fits31_iff (pswAddress p)).trans (pswAddress_lt_iff p 33 (by omega))
  unfold pswMode
  cases bit p 31 with
  | true => simp
  | false =>
    cases bit p 32 with
    | true => simpa [Nat.lt_succ_iff] using h31
    | false => simpa [Nat.lt_succ_iff] using h24

theorem pswValid_iff_bits (p : Quad) :
    pswValid p = true ↔
      (bit p 0 = false ∧ (∀ i, 2 ≤ i → i ≤ 4 → bit p i = false) ∧ bit p 12 = false
        ∧ (∀ i, 24 ≤ i → i ≤ 30 → bit p i = false) ∧ (∀ i, 33 ≤ i → i ≤ 63 → bit p i = false)
        ∧ ¬(bit p 31 = true ∧ bit p 32 = false)
        ∧ (bit p 31 = false → bit p 32 = false → ∀ i, 64 ≤ i → i ≤ 103 → bit p i = false)
        ∧ (bit p 31 = false → bit p 32 = true → ∀ i, 64 ≤ i → i ≤ 96 → bit p i = false)) := by
  have field : ∀ a n, a + n + 1 ≤ 128 → (bits p a (n + 1) = 0#(n + 1) ↔ ∀ i, a ≤ i → i ≤ a + n → bit p i = false) :=
    fun a n h => (bits_eq_zero_iff_forall p a (n + 1) (by omega)).trans
      (forall_congr' fun i => imp_congr_right fun _ => by rw [← Nat.lt_succ_iff]; rfl)
  rw [pswValid_iff, bits_one_eq_zero_iff p 0 (by omega), field 2 2 (by omega), bits_one_eq_zero_iff p 12 (by omega),
    field 24 6 (by omega), field 33 30 (by omega), bits_mode_ne_iff, pswMode_fits_iff]

theorem loadPsw_invalid {s : State} {p : Quad} (hs : s.params.invalidPsw = .stop) (hp : pswValid p = false) :
    s.loadPsw p = .fault .invalidPsw := by
  simp [State.loadPsw, hp, hs]

/-- Settles O24. -/
theorem invalidPswStops : Obligations.InvalidPswStops := by
  refine ⟨pswValid_iff_bits, fun s p => loadPsw_invalid, fun s e ilc old hz hp hv => ?_⟩
  obtain ⟨⟨_, _, hv'⟩, _⟩ | ⟨hz', _⟩ | ⟨_, hp', _⟩ | ⟨_, _, _, h⟩ := programInterruption_cases s e ilc old
  · rw [hv] at hv'; cases hv'
  · rw [hz] at hz'; cases hz'
  · rw [hp] at hp'; cases hp'
  · exact h

/-! ## The return from an interruption -/

/-- The frame of an update of the PSW after other updates. -/
theorem Writes.Only.withPsw {w : Writes} {ps : List (Nat × Nat)} {s t : State}
    (h : Writes.Only { w with psw := ps } s t) {p : Quad}
    (hp : ∀ i, i < 128 → ¬inRanges w.psw i → bit p i = bit s.psw i) : w.Only s (t.withPsw p) :=
  { h with psw := hp }

/-- Two doublewords next to each other are a quadword. -/
theorem ofBytes_quad {hi lo : List Byte} (h : hi.length = 8) (h' : lo.length = 8) :
    BitVec.ofNat 64 (ofBytes hi) ++ BitVec.ofNat 64 (ofBytes lo) = BitVec.ofNat 128 (ofBytes (hi ++ lo)) := by
  have h1 := ofBytes_lt hi
  have h2 := ofBytes_lt lo
  rw [h] at h1
  rw [h'] at h2
  apply BitVec.eq_of_toNat_eq
  rw [BitVec.toNat_append, ofBytes_append, h', BitVec.toNat_ofNat, BitVec.toNat_ofNat, BitVec.toNat_ofNat,
    Nat.mod_eq_of_lt (by omega), Nat.mod_eq_of_lt (by omega), ← Nat.shiftLeft_add_eq_or_of_lt (by omega),
    Nat.shiftLeft_eq]
  omega

/-- LPSWE with its two doublewords fetched. -/
theorem exec_lpswe {s : State} {b : Reg} {d abs1 abs2 : Nat} (hp : s.problem = false)
    (ha : (s.address b d).toNat % 8 = 0) (h1 : s.fetchAddress s.operandSpace (s.address b d) 8 = .ok abs1)
    (h2 : s.fetchAddress s.operandSpace (s.offset (s.address b d) 8) 8 = .ok abs2) :
    exec (.lpswe b d) s = s.loadPsw (BitVec.ofNat 64 (ofBytes (readBytes s.mem abs1 8))
      ++ BitVec.ofNat 64 (ofBytes (readBytes s.mem abs2 8))) := by
  refine (runThen_supervisor hp 4 _ _).trans ?_
  simp only [requireAligned_ok ha, memValue_eq h1, memValue_eq h2, res_bind_ok, runThen_ok]

theorem trunc_low (m : AMode) {v : DWord} (h : v.toNat < 2 ^ 24) : m.trunc v = v := by
  rw [← fits_iff]
  cases m with
  | a24 => exact (fits24_iff v).2 h
  | a31 => exact (fits31_iff v).2 (by omega)
  | a64 => exact fits64 v

theorem baseValue_zero (s : State) : s.baseValue 0#4 = 0#64 := if_pos rfl

/-- Settles O23: real 336 and 344 hold the old PSW, which is valid. -/
theorem lpsweReturnsFromInterruption : Obligations.LpsweReturnsFromInterruption := by
  intro s t e ilc old hs h hp hd hold
  obtain ⟨⟨hz, hpa, _⟩, rfl⟩ := programInterruption_next h
  have hold336 := interrupted_oldPsw s e ilc old
  have hframe := interrupted_only s e ilc old
  generalize s.interrupted e ilc old = t at *
  have hzt : t.archMode = .zArch := hframe.archMode.trans hz
  have hsize : (prefixArea t.pfx).toNat + 8192 ≤ t.params.storageSize := by
    rw [hframe.pfx rfl, hframe.params]
    exact of_decide_eq_true hpa
  have h336 := toAbsolute_low hzt (r := 336#64) (by decide)
  have h344 := toAbsolute_low hzt (r := 344#64) (by decide)
  have hn336 : (336#64 : DWord).toNat = 336 := rfl
  have hn344 : (344#64 : DWord).toNat = 344 := rfl
  have haddr : t.address 0#4 (336 : Nat) = 336#64 := by
    rw [State.address, State.indexedAddress, baseValue_zero]
    exact trunc_low _ (by decide)
  have hoff : t.offset 336#64 8 = 344#64 := trunc_low _ (by decide)
  have hvalid : pswValid (pswWithAddress s.psw old) = true :=
    pswValid_withAddress hs.2.1 ((fits_iff _ _).2 hold)
  have hexec : exec (.lpswe 0#4 336) t = .next (t.withPsw (pswWithAddress s.psw old)) := by
    rw [exec_lpswe hp (by rw [haddr]; decide) (by
      rw [haddr, operandSpace_off hd]; exact realAddress_eq (by omega)) (by
      rw [haddr, hoff, operandSpace_off hd]; exact realAddress_eq (by omega))]
    rw [ofBytes_quad (readBytes_length _ _ _) (readBytes_length _ _ _),
      show (t.toAbsolute 344#64).toNat = (t.toAbsolute 336#64).toNat + 8 by omega, ← readBytes_add, ← State.pswAt_eq,
      hold336]
    exact loadPsw_eq hvalid
  exact ⟨_, hexec, pswAddress_pswWithAddress _ _, hframe.withPsw fun i hi hr =>
    bit_pswWithAddress_outside _ _ (by
      by_contra hc
      exact hr (inRanges_of_mem (List.mem_singleton.2 rfl) (Nat.not_lt.1 hc) hi))⟩

/-! ## Pending interruptions -/

theorem only_pending {w : Writes} (h : w.pending = true) (s : State) (l : List PendingInterruption) :
    w.Only s { s with pending := l } :=
  { Writes.Only.refl w s with pending := fun k => absurd (h.symm.trans k) (by decide) }

/-- A step of a CPU that operates, where an enabled interruption is pending. -/
theorem step_pending {s : State} {c : PendingInterruption} (ho : s.cpuStatus = .operating)
    (hc : s.pending.find? s.enabled = some c) :
    step s = { s with pending := s.pending.erase c }.takeInterruption c := by
  simp only [step, State.act, if_pos ho, State.takePending, hc]

/-- A whole PSW that becomes current. -/
theorem only_wholePsw {w : Writes} (h : (0, 128) ∈ w.psw) (s : State) (p : Quad) : w.Only s (s.withPsw p) :=
  only_withPsw s p fun i hi hr => absurd (inRanges_of_mem h (Nat.zero_le i) (by simpa using hi)) hr

theorem pswAt_withPsw (s : State) (p : Quad) (r : DWord) : (s.withPsw p).pswAt r = s.pswAt r := rfl

/-- A PSW reads back where it has been stored. -/
theorem pswAt_storeAssigned (s : State) (r : DWord) (p : Quad) :
    (s.storeAssigned r (toBytes 16 p.toNat)).pswAt r = p := by
  have hw := readBytes_writeBytes_same s.mem (s.toAbsolute r).toNat (toBytes 16 p.toNat)
  rw [toBytes_length] at hw
  rw [State.pswAt_eq, State.toAbsolute_storeAssigned, State.storeAssigned_mem, hw]
  exact ofNat_of_toBytes (by omega) (Eq.refl (toBytes 16 p.toNat))

/-- The interruption of a class of which the old PSW alone is stored. -/
theorem interrupt_class {s : State} {k : InterruptClass} (hz : s.archMode = .zArch) (hp : s.prefixAreaPresent = true)
    (hn : s.newPswOf k = .ok (s.pswAt k.newPsw)) (hv : pswValid (s.pswAt k.newPsw) = true) :
    ∃ t, s.interrupt k s.psw id = .next t ∧ t.psw = s.pswAt k.newPsw ∧ t.pending = s.pending
      ∧ t.pswAt k.oldPsw = s.psw
      ∧ Writes.Only { psw := [(0, 128)], mem := [((s.toAbsolute k.oldPsw).toNat, 16)] } s t := by
  have honly : Writes.Only { psw := [(0, 128)], mem := [((s.toAbsolute k.oldPsw).toNat, 16)] } s
      ((s.storeAssigned k.oldPsw (toBytes 16 s.psw.toNat)).withPsw (s.pswAt k.newPsw)) := by
    refine (only_storeAbsolute ?_ s).trans (only_wholePsw (List.mem_singleton.2 rfl) _ _)
    rw [toBytes_length]
    exact List.mem_singleton.2 rfl
  exact ⟨_, interrupt_eq s.psw id hz hp hn hv, State.withPsw_psw _ _, honly.pending rfl,
    (pswAt_withPsw _ _ _).trans (pswAt_storeAssigned s k.oldPsw s.psw), honly⟩

/-- The same as a step, where an interruption of the class is pending. -/
theorem step_class {s : State} {c : PendingInterruption} {k : InterruptClass}
    (hk : ∀ s : State, s.takeInterruption c = s.interrupt k s.psw id)
    (hn : ∀ s : State, s.newPswOf k = .ok (s.pswAt k.newPsw)) (ho : s.cpuStatus = .operating)
    (hz : s.archMode = .zArch) (hp : s.prefixAreaPresent = true) (hc : s.pending.find? s.enabled = some c)
    (hv : pswValid (s.pswAt k.newPsw) = true) :
    ∃ t, step s = .next t ∧ t.psw = s.pswAt k.newPsw ∧ t.pending = s.pending.erase c ∧ (s.Inv → t.pswAt k.oldPsw = s.psw)
      ∧ Writes.Only { psw := [(0, 128)], mem := [((s.toAbsolute k.oldPsw).toNat, 16)], pending := true } s t := by
  obtain ⟨t, ht, hpsw, hpend, hold, honly⟩ :=
    interrupt_class (s := { s with pending := s.pending.erase c }) hz hp (hn _) hv
  exact ⟨t, (step_pending ho hc).trans ((hk _).trans ht), hpsw, hpend, fun _ => hold,
    (only_pending rfl s (s.pending.erase c)).trans (honly.mono (by simp) (by simp) (by simp) (by simp) (by simp)
      (by simp) (by simp) (by simp) (by simp))⟩

/-- A pending program interruption: everything that its interruption stores, with a free instruction-length code. -/
theorem step_program {s : State} {e : ProgException} (ho : s.cpuStatus = .operating) (hc : s.canInterrupt)
    (hf : s.pending.find? s.enabled = some (.program e)) :
    ∃ t ilc, step s = .next t ∧ t.psw = s.pswAt 464#64 ∧ t.pending = s.pending.erase (.program e)
      ∧ ilc ∈ [1#2, 2#2, 3#2] ∧ (s.Inv → t.pswAt 336#64 = s.psw
        ∧ readBytes t.mem (s.toAbsolute 140#64).toNat 4 = [0#8, 0#5 ++ ilc ++ 0#1, bits e.code 0 8, bits e.code 8 8]
        ∧ (∀ va sp, (∃ k, e = .translation k va sp) ∨ e = .protection (some (va, sp)) → ∃ v : DWord,
          readBytes t.mem (s.toAbsolute 168#64).toNat 8 = toBytes 8 v.toNat
            ∧ bits v 0 52 = bits va 0 52 ∧ bits v 62 2 = sp.code)
        ∧ ∀ number code, e = .monitorEvent number code →
          readBytes t.mem (s.toAbsolute 148#64).toNat 2 = [0#8, 0#4 ++ number]
            ∧ readBytes t.mem (s.toAbsolute 176#64).toNat 8 = toBytes 8 code.toNat)
      ∧ Writes.Only { psw := [(0, 128)], mem := s.interruptionStores, pending := true } s t := by
  let u : State := { s with pending := s.pending.erase (.program e) }.drawn
  have hu : u.canInterrupt := hc
  have honly := interrupted_only u e (anyLengthCode s.draws) s.ia
  refine ⟨u.interrupted e (anyLengthCode s.draws) s.ia, anyLengthCode s.draws,
    (step_pending ho hf).trans (programInterruption_eq hu e _ _), interrupted_psw u e _ _, honly.pending rfl,
    anyLengthCode_mem _, fun _ => ⟨?_, interrupted_identification hu.1 e _ _,
      fun va sp h => interrupted_failing hu.1 _ _ h, fun number code h => interrupted_monitor hu.1 _ _ h⟩, ?_⟩
  · rw [interrupted_oldPsw]
    exact pswWithAddress_self s.psw
  · exact ((only_pending rfl s _).trans (only_drawn _ _)).trans (honly.mono (by simp) (by simp) (by simp) (by simp)
      (fun _ h => h) (by simp) (by simp) (by simp) (by simp))

/-- Without an enabled interruption, the wait state stops the machine. -/
theorem step_waiting {s : State} (ho : s.cpuStatus = .operating) (hf : s.pending.find? s.enabled = none)
    (hv : pswValid s.psw = true) (hw : bit s.psw 14 = true) : step s = .fault .waitState := by
  have hwait : s.waiting = true := hw
  simp [step, State.act, ho, State.takePending, hf, State.notFetching, hv, hwait]

/-- Settles O12. -/
theorem pendingInterruptionIsTaken : Obligations.PendingInterruptionIsTaken := by
  refine ⟨fun s c old new hmem ho hz hp hf hv => ?_, fun s e => step_program, fun s => step_waiting,
    fun s => ⟨rfl, rfl, rfl, fun _ => rfl, rfl, rfl⟩⟩
  simp only [List.mem_cons, Prod.mk.injEq, List.not_mem_nil, or_false] at hmem
  obtain ⟨rfl, rfl, rfl⟩ | ⟨rfl, rfl, rfl⟩ | ⟨rfl, rfl, rfl⟩ | ⟨rfl, rfl, rfl⟩ := hmem
  · exact step_class (k := .external) (fun _ => rfl) (fun _ => rfl) ho hz hp hf hv
  · exact step_class (k := .supervisorCall) (fun _ => rfl) (fun _ => rfl) ho hz hp hf hv
  · exact step_class (k := .machineCheck) (fun _ => rfl) (fun _ => rfl) ho hz hp hf hv
  · exact step_class (k := .inputOutput) (fun _ => rfl) (fun _ => rfl) ho hz hp hf hv

end Sys2Proof.Machine
end

section
/-! The obligations of 40_psw_instructions.md and 41_translation_instructions.md. -/

namespace Sys2Proof.Machine

open Sys2Proof

/-! ## LPSW and LPSWE -/

/-- LPSW with its operand fetched. -/
theorem exec_lpsw {s : State} {b : Reg} {d abs : Nat} (hp : s.problem = false) (ha : (s.address b d).toNat % 8 = 0)
    (hf : s.fetchAddress s.operandSpace (s.address b d) 8 = .ok abs) :
    exec (.lpsw b d) s
      = s.runThen 4 (s.shortOperandPsw (BitVec.ofNat 64 (ofBytes (readBytes s.mem abs 8)))) s.loadPsw := by
  refine (runThen_supervisor hp 4 _ _).trans ?_
  simp only [requireAligned_ok ha, memValue_eq hf, res_bind_ok]

/-- Settles O26. -/
theorem lpswLoadsShortPsw : Obligations.LpswLoadsShortPsw := by
  intro s b2 d2 abs v hp ha hf hv
  have hexec := exec_lpsw hp ha hf
  rw [ofNat_of_toBytes (by omega) hv] at hexec
  refine ⟨fun h12 hval => ?_, fun h12 hu => ?_⟩
  · have hshort : s.shortOperandPsw v = .ok (expand v) := by simp [State.shortOperandPsw, h12]
    rw [hshort, runThen_ok, loadPsw_eq hval] at hexec
    exact ⟨_, hexec, ⟨bits_expand_left v 0 12 (by omega), (bits_one_eq_zero_iff _ 12 (by omega)).1 (bits_expand_12 v),
      bits_expand_middle v 13 20 (by omega) (by omega), bits_expand_zeros v 33 64 (by omega) (by omega),
      bits_expand_address v⟩, only_wholePsw (List.mem_singleton.2 rfl) s _⟩
  · have hshort : s.shortOperandPsw v = .error (.fault .lpswBit12Unsettled) := by
      simp [State.shortOperandPsw, h12, hu]
    rw [hexec, hshort, runThen_fault]

/-- Settles O27. -/
theorem lpsweLoadsPsw : Obligations.LpsweLoadsPsw := by
  intro s b2 d2 abs1 abs2 hi lo hp ha h1 hhi h2 hlo
  have hexec := exec_lpswe hp ha h1 h2
  rw [ofNat_of_toBytes (by omega) hhi, ofNat_of_toBytes (by omega) hlo] at hexec
  refine ⟨fun hv => ?_, fun hv hs => hexec.trans (loadPsw_invalid hs hv)⟩
  exact ⟨_, hexec.trans (loadPsw_eq hv), State.withPsw_psw _ _, only_wholePsw (List.mem_singleton.2 rfl) s _⟩

/-! ## EPSW -/

/-- A doubleword is its two words. -/
theorem dword_append (v : DWord) : bits v 0 32 ++ bits v 32 32 = v := by
  rw [bits_append_bits v 0 32 32 (by omega)]
  exact bits_all v

theorem setBits_low (v : DWord) (x : Word) : setBits v 32 x = bits v 0 32 ++ x := by
  rw [← dword_append (setBits v 32 x), bits_setBits_high, bits_setBits_low]

/-- A low-order half that has been replaced. -/
theorem gpr_setGprLow (s : State) (r : Reg) (x : Word) : (s.setGprLow r x).gpr r = bits (s.gpr r) 0 32 ++ x := by
  rw [State.gpr_setGprLow_same, setBits_low]

/-- Settles O28. -/
theorem epswExtractsPsw : Obligations.EpswExtractsPsw := by
  intro s r1 r2
  by_cases h2 : r2 = 0#4
  · refine ⟨_, rfl, ⟨fun _ => ?_, fun k => absurd h2 k⟩, ?_⟩
    · rw [if_pos h2, gpr_setGprLow]
    · simpa only [if_pos h2] using only_setGprLow (by simp) s _
  · refine ⟨_, rfl, ⟨fun k => ?_, fun _ => ?_⟩, ?_⟩
    · rw [if_neg h2, State.gpr_setGprLow_other _ _ (k.resolve_right h2), gpr_setGprLow]
    · rw [if_neg h2, gpr_setGprLow]
      by_cases hr : r2 = r1
      · subst hr
        rw [gpr_setGprLow, bits_append_left _ _ _ _ (by omega), bits_all]
      · rw [State.gpr_setGprLow_other _ _ hr]
    · simpa only [if_neg h2] using (only_setGprLow (by simp) s _).trans (only_setGprLow (by simp) _ _)

/-! ## SAM24, SAM31, SAM64 -/

/-- The mode is set where the instruction address fits it. -/
theorem run_setAddressingMode {s u : State} {m : AMode} (hm : m.fits s.ia = true) (hu : s.traceModeSwitch m = .ok u) :
    s.run 2 (s.setAddressingMode m) = .next (u.withPsw (pswWithMode u.psw m)) := by
  rw [State.setAddressingMode, require_true hm, res_bind_ok, hu]
  rfl

theorem run_setAddressingMode_unfit {s : State} {m : AMode} (hm : m.fits s.ia = false) :
    s.run 2 (s.setAddressingMode m) = s.raise 2 .specification := by
  rw [State.setAddressingMode, require_false hm]
  rfl

/-- Settles O29. -/
theorem setAddressingModes : Obligations.SetAddressingModes := by
  intro s u
  have only : ∀ m, Writes.Only { psw := [modeBits] } u (u.withPsw (pswWithMode u.psw m)) := fun m =>
    only_withMode (List.mem_singleton.2 rfl) u m
  refine ⟨fun h hu => ?_, fun h => ?_, fun h hu => ?_, fun h => ?_, fun hu => ?_⟩
  · exact ⟨_, run_setAddressingMode ((fits24_iff _).2 h) ((tracedTo_sam24 h).1 hu), bits_pswWithMode _ .a24, only .a24⟩
  · exact run_setAddressingMode_unfit (Bool.eq_false_iff.2 fun k => Nat.not_le.2 ((fits24_iff _).1 k) h)
  · exact ⟨_, run_setAddressingMode ((fits31_iff _).2 h) ((tracedTo_sam31 h).1 hu), bits_pswWithMode _ .a31, only .a31⟩
  · exact run_setAddressingMode_unfit (Bool.eq_false_iff.2 fun k => Nat.not_le.2 ((fits31_iff _).1 k) h)
  · exact ⟨_, run_setAddressingMode (fits64 _) (tracedTo_sam64.1 hu), bits_pswWithMode _ .a64, only .a64⟩

/-! ## The address of an operand -/

/-- An address in the addressing mode of the PSW, as a number. -/
theorem trunc_toNat (s : State) (v : DWord) :
    (s.amode.trunc v).toNat
      = v.toNat % 2 ^ (if bit s.psw 31 = true then 64 else if bit s.psw 32 = true then 31 else 24) := by
  have hv := v.isLt
  unfold State.amode pswMode
  split
  · exact (Nat.mod_eq_of_lt hv).symm
  · split
    · exact trunc31_toNat v
    · exact trunc24_toNat v

theorem baseValue_toNat (s : State) (r : Reg) : (s.baseValue r).toNat = if r = 0#4 then 0 else (s.gpr r).toNat := by
  unfold State.baseValue
  split <;> rfl

/-- Base, index and displacement are added as numbers, then reduced to the addressing mode (30_encoding.md rule R146). -/
theorem indexedAddress_toNat (s : State) (b x : Reg) (d : Int) :
    ((s.indexedAddress b x d).toNat : Int)
      = (((s.baseValue b).toNat : Int) + ((s.baseValue x).toNat : Int) + d)
        % 2 ^ (if bit s.psw 31 = true then 64 else if bit s.psw 32 = true then 31 else 24) := by
  have hsum : ((s.baseValue b + s.baseValue x + BitVec.ofInt 64 d).toNat : Int)
      = (((s.baseValue b).toNat : Int) + ((s.baseValue x).toNat : Int) + d) % 2 ^ 64 := by
    rw [BitVec.toNat_add, BitVec.toNat_add, BitVec.toNat_ofInt]
    omega
  rw [State.indexedAddress, trunc_toNat]
  push_cast
  rw [hsum]
  split
  · omega
  · split <;> omega

/-! ## LRA and LRAG -/

theorem exceptionWord_append (v : Word) (c : Half) : v ++ exceptionWord c = v ++ 1#1 ++ 0#15 ++ c := by
  apply BitVec.eq_of_toNat_eq
  simp only [exceptionWord, BitVec.toNat_append, Nat.shiftLeft_or_distrib, ← Nat.shiftLeft_add, Nat.or_assoc]

/-- What a walk leaves in the register, in the 64-bit form (41_translation_instructions.md rules R190, R191). -/
theorem gpr_setWideReal (s : State) (r : Reg) (w : Walk) :
    (s.setWideReal r w).gpr r = match w with
      | .available real _ => real
      | .segmentInvalid e => e
      | .pageInvalid e => e
      | .other k => bits (s.gpr r) 0 32 ++ 1#1 ++ 0#15 ++ k.code := by
  cases w with
  | other k => rw [State.setWideReal, gpr_setGprLow, exceptionWord_append]
  | _ => exact State.gpr_setGpr_same _ _ _

theorem only_setWideReal {w : Writes} {r : Reg} (h : r ∈ w.gprs) (s : State) (x : Walk) :
    w.Only s (s.setWideReal r x) := by
  cases x with
  | other => exact only_setGprLow h s _
  | _ => exact only_setGpr h s _

theorem only_wideResult (s : State) (r : Reg) (x : Walk) :
    Writes.Only { gprs := [r], psw := [ccBits] } s ((s.setWideReal r x).setCc (walkCc x)) :=
  (only_setWideReal (by simp) s x).trans (only_setCc (by simp) _ _)

/-- LRAG with the walk of its operand done. -/
theorem exec_lrag {s : State} {r x b : Reg} {d : Int} {w : Walk} (hp : s.problem = false)
    (hw : s.translateOperand (s.indexedAddress b x d) = .ok w) :
    exec (.lrag r x b d) s = .next ((s.setWideReal r w).setCc (walkCc w)) := by
  refine (runThen_supervisor hp 6 _ _).trans ?_
  rw [hw]
  rfl

/-- Settles O31. -/
theorem lragLoadsRealAddress : Obligations.LragLoadsRealAddress := by
  intro s r1 x2 b2 d2 w hp hw
  refine ⟨_, exec_lrag hp hw, ?_, only_wideResult s r1 w⟩
  have h := (State.gpr_setCc (s.setWideReal r1 w) (walkCc w) r1).trans (gpr_setWideReal s r1 w)
  cases w <;> exact ⟨h, State.cc_setCc _ _⟩

/-- LRA with the walk of its operand done. -/
theorem exec_lra {s : State} {r x b : Reg} {d : Nat} {w : Walk} (hp : s.problem = false)
    (hw : s.translateOperand (s.indexedAddress b x d) = .ok w) :
    exec (.lra r x b d) s = s.run 4 (s.loadReal r w) := by
  refine (runThen_supervisor hp 4 _ _).trans ?_
  rw [hw]
  rfl

theorem fits31_iff_lt (a : DWord) : fits31 a = true ↔ a.toNat < 2 ^ 31 := by
  rw [fits31, beq_iff_eq]
  exact bits_eq_zero_iff a 33 (by omega)

theorem loadReal_wide {s : State} (h : s.amode.is64 = true) (r : Reg) (w : Walk) :
    s.loadReal r w = .ok ((s.setWideReal r w).setCc (walkCc w)) := by
  rw [State.loadReal, if_pos h]

theorem loadReal_narrow {s : State} (h : s.amode.is64 = false) {w : Walk} {v : Word} (hv : narrowWord w = some v)
    (r : Reg) : s.loadReal r w = .ok ((s.setGprLow r v).setCc (narrowWalkCc w)) := by
  simp [State.loadReal, h, hv]

theorem loadReal_unfit {s : State} (h : s.amode.is64 = false) {w : Walk} (hv : narrowWord w = none) (r : Reg) :
    s.loadReal r w = .error (.exception .specialOperation) := by
  simp [State.loadReal, h, hv]

/-- The word and the condition code of LRA in 24/31-bit mode. -/
theorem narrow_result {w : Walk} (h : ∀ real p, w = .available real p → real.toNat < 2 ^ 31) :
    ∃ v, narrowWord w = some v ∧
      match w with
      | .available real _ => v = bits real 32 32 ∧ narrowWalkCc w = 0#2
      | .segmentInvalid e => if e.toNat < 2 ^ 31 then v = bits e 32 32 ∧ narrowWalkCc w = 1#2
          else v = 0x80000010#32 ∧ narrowWalkCc w = 3#2
      | .pageInvalid e => if e.toNat < 2 ^ 31 then v = bits e 32 32 ∧ narrowWalkCc w = 2#2
          else v = 0x80000011#32 ∧ narrowWalkCc w = 3#2
      | .other k => v = 1#1 ++ 0#15 ++ k.code ∧ narrowWalkCc w = 3#2 := by
  cases w with
  | available real p => exact ⟨_, by rw [narrowWord, if_pos ((fits31_iff_lt real).2 (h real p rfl))], rfl, rfl⟩
  | segmentInvalid e =>
    refine ⟨_, rfl, ?_⟩
    simp only [narrowWalkCc, fits31_iff_lt]
    split
    · exact ⟨rfl, rfl⟩
    · exact ⟨rfl, rfl⟩
  | pageInvalid e =>
    refine ⟨_, rfl, ?_⟩
    simp only [narrowWalkCc, fits31_iff_lt]
    split
    · exact ⟨rfl, rfl⟩
    · exact ⟨rfl, rfl⟩
  | other k => exact ⟨_, rfl, rfl, rfl⟩

/-- The ASCE of the operands' space, by PSW bits 16-17 (20_memory.md rule R99). -/
theorem asceOf_space {s : State} {asce : DWord}
    (h : (bits s.psw 16 2 = 0b00#2 ∧ asce = s.cr 1#4) ∨ (bits s.psw 16 2 = 0b10#2 ∧ asce = s.cr 7#4)
      ∨ (bits s.psw 16 2 = 0b11#2 ∧ asce = s.cr 13#4)) : s.asceOf s.space = .ok asce := by
  obtain ⟨h, rfl⟩ | ⟨h, rfl⟩ | ⟨h, rfl⟩ := h <;> rw [space_eq h] <;> rfl

/-- Settles O30. -/
theorem lraLoadsRealAddress : Obligations.LraLoadsRealAddress := by
  intro s r1 x2 b2 d2 va asce w hp part hva hasce hwalk
  have haddr : va = s.indexedAddress b2 x2 d2 := by
    apply BitVec.eq_of_toNat_eq
    have h := indexedAddress_toNat s b2 x2 d2
    rw [baseValue_toNat, baseValue_toNat] at h
    rw [hva]
    exact_mod_cast h.symm
  have hw : s.translateOperand (s.indexedAddress b2 x2 d2) = .ok w := by
    rw [← haddr, State.translateOperand, walkSpace_eq (asceOf_space hasce), hwalk]
  have hexec := exec_lra (r := r1) hp hw
  refine ⟨fun h64 => ?_, fun h64 hfit => ?_, fun real p h64 hreal hbig => ?_⟩
  · rw [loadReal_wide h64] at hexec
    refine ⟨_, hexec, ?_, only_wideResult s r1 w⟩
    have h := (State.gpr_setCc (s.setWideReal r1 w) (walkCc w) r1).trans (gpr_setWideReal s r1 w)
    cases w <;> exact ⟨h, State.cc_setCc _ _⟩
  · obtain ⟨v, hv, hres⟩ := narrow_result hfit
    rw [loadReal_narrow h64 hv] at hexec
    have hg : ((s.setGprLow r1 v).setCc (narrowWalkCc w)).gpr r1 = setBits (s.gpr r1) 32 v :=
      State.gpr_setGprLow_same s r1 v
    refine ⟨_, hexec, ⟨?_, ?_⟩, (only_setGprLow (by simp) s v).trans (only_setCc (by simp) _ _)⟩
    · rw [hg, bits_setBits_high]
    · rw [hg, bits_setBits_low, State.cc_setCc]
      cases w <;> exact hres
  · subst hreal
    have hv : narrowWord (.available real p) = none := by
      rw [narrowWord, if_neg fun k => Nat.not_le.2 ((fits31_iff_lt real).1 k) hbig]
    rw [hexec, loadReal_unfit h64 hv, run_exception]

/-! ## STRAG -/

/-- Settles O32. -/
theorem stragStoresRealAddress : Obligations.StragStoresRealAddress := by
  intro s b1 b2 d1 d2 hp ha
  refine ⟨fun real p abs hw hs => ?_, fun w k hw hk => ?_⟩
  · have hexec : exec (.strag b1 d1 b2 d2) s = .next (s.storeAbsolute abs (toBytes 8 real.toNat)) := by
      refine (runThen_supervisor hp 6 _ _).trans ?_
      simp only [requireAligned_ok ha, hw, res_bind_ok]
      rw [memWrite_eq (by rw [toBytes_length]; exact hs)]
      rfl
    refine ⟨_, hexec, ⟨State.storeAbsolute_psw _ _ _, fun _ => ?_⟩, only_storeAbsolute ?_ s⟩
    · have hr := readBytes_writeBytes_same s.mem abs (toBytes 8 real.toNat)
      rwa [toBytes_length] at hr
    · rw [toBytes_length]
      exact List.mem_singleton.2 rfl
  · refine (runThen_supervisor hp 6 _ _).trans ?_
    simp only [requireAligned_ok ha, hw, res_bind_ok]
    cases w with
    | available => cases hk
    | segmentInvalid | pageInvalid | other =>
      cases hk
      rfl

/-! ## TPROT -/

theorem only_cc (s : State) (c : BitVec 2) : Writes.Only { psw := [ccBits] } s (s.setCc c) :=
  only_setCc (List.mem_singleton.2 rfl) s c

/-- TPROT where its first operand can be translated. -/
theorem exec_tprot {s : State} {b1 b2 : Reg} {d1 d2 abs : Nat} {real : DWord} {p low : Bool} (hp : s.problem = false)
    (hprobe : s.probe (s.address b1 d1) = .ok (some (real, p))) (hr : s.realAddress real 1 = .ok abs)
    (hl : s.lowProtected s.operandSpace (s.address b1 d1) 1 = .ok low) :
    Completes (.tprot b1 d1 b2 d2) s { psw := [ccBits] } fun t => t.cc = if p || low then 1#2 else 0#2 := by
  refine ⟨_, (runThen_supervisor hp 6 _ _).trans ?_, State.cc_setCc s (protectionCc (p || low)), only_cc s _⟩
  simp only [hprobe, hr, hl, res_bind_ok, runThen_ok]

theorem probe_unavailable {s : State} {sp : Space} {a : DWord} {w : Walk} {k : TranslationKind}
    (ho : s.operandSpace = some sp) (hw : s.walkSpace sp a = .ok w) (hk : w.exception = some k) :
    s.probe a = .ok none := by
  simp only [State.probe, ho, hw, res_bind_ok]
  cases w with
  | available => cases hk
  | _ => rfl

/-- Settles O33. -/
theorem tprotSetsConditionCode : Obligations.TprotSetsConditionCode := by
  intro s b1 b2 d1 d2 hp
  refine ⟨fun abs low ho hr hl => ?_, fun sp real p low abs ho hw hr hl => ?_, fun sp w k ho hw hk => ?_⟩
  · have hprobe : s.probe (s.address b1 d1) = .ok (some (s.address b1 d1, false)) := by
      simp only [State.probe, ho]
    exact exec_tprot hp hprobe hr (ho ▸ hl)
  · have hprobe : s.probe (s.address b1 d1) = .ok (some (real, p)) := by
      simp only [State.probe, ho, hw, res_bind_ok]
    exact exec_tprot hp hprobe hr (ho ▸ hl)
  · refine ⟨_, (runThen_supervisor hp 6 _ _).trans ?_, State.cc_setCc s notAvailableCc, only_cc s _⟩
    simp only [probe_unavailable ho hw hk, res_bind_ok, runThen_ok]

/-! ## LURAG and STURG -/

/-- A store of bytes, as an instruction's whole effect. -/
theorem stored_completes (s : State) (abs : Nat) {bs : List Byte} {n : Nat} (h : bs.length = n) :
    readBytes (s.storeAbsolute abs bs).mem abs n = bs
      ∧ Writes.Only { mem := [(abs, n)] } s (s.storeAbsolute abs bs) := by
  subst h
  exact ⟨readBytes_writeBytes_same s.mem abs bs, only_storeAbsolute (List.mem_singleton.2 rfl) s⟩

/-- Settles O34. -/
theorem realAddressLoadAndStore : Obligations.RealAddressLoadAndStore := by
  intro s r1 r2 abs hp ha
  refine ⟨fun hr => ?_, fun hs => ?_⟩
  · refine ⟨s.setGpr r1 (BitVec.ofNat 64 (ofBytes (readBytes s.mem abs 8))), (runThen_supervisor hp 4 _ _).trans ?_, ?_,
      only_setGpr (by simp) s _⟩
    · simp only [requireAligned_ok ha, State.realRead, hr, res_bind_ok, runThen_ok]
    · show toBytes 8 (State.gpr _ r1).toNat = _
      rw [State.gpr_setGpr_same, toBytes_of_ofNat (by omega) (readBytes_length _ _ _)]
  · obtain ⟨hread, honly⟩ := stored_completes s abs (toBytes_length 8 (s.gpr r1).toNat)
    refine ⟨_, (runThen_supervisor hp 4 _ _).trans ?_, fun _ => hread, honly⟩
    simp only [requireAligned_ok ha, hs, res_bind_ok, runThen_ok]

end Sys2Proof.Machine
end

section
/-! The obligations of 42_control_instructions.md. -/

namespace Sys2Proof.Machine

open Sys2Proof

/-! ## LCTL and LCTLG -/

/-- Consecutive operands that can be fetched, one for each register of a range. -/
theorem readUnits_range {s : State} {a : DWord} {size : Nat} {g : Nat → Nat} {r1 r3 : Reg}
    (h : ∀ k, k < (r3 - r1).toNat + 1 → s.fetchAddress s.operandSpace (s.offset a (k * size)) size = .ok (g k)) :
    s.readUnits a size (rangeCount r1 r3) 0
      = .ok ((List.range' 0 (rangeCount r1 r3)).map fun j => ofBytes (readBytes s.mem (g j) size)) :=
  readUnits_eq fun j _ hj => h j (by rwa [Nat.zero_add] at hj)

theorem range'_map_getElem? (f : Nat → Nat) {n k : Nat} (h : k < n) : ((List.range' 0 n).map f)[k]? = some (f k) := by
  simp [h]

theorem mem_zip_registerRange {r1 r3 : Reg} {vs : List Nat} :
    ∀ p ∈ (registerRange r1 r3).zip vs, p.1 ∈ registerRange r1 r3 := fun _ hp => (List.of_mem_zip hp).1

theorem exec_lctl {s : State} {r1 r3 b : Reg} {d : Nat} {vs : List Nat} (hp : s.problem = false)
    (ha : (s.address b d).toNat % 4 = 0) (hr : s.readUnits (s.address b d) 4 (rangeCount r1 r3) 0 = .ok vs) :
    exec (.lctl r1 r3 b d) s = .next (s.setCrsLow ((registerRange r1 r3).zip vs)) := by
  refine (runThen_supervisor hp 4 _ _).trans ?_
  simp only [requireAligned_ok ha, hr, res_bind_ok, runThen_ok]

theorem exec_lctlg {s : State} {r1 r3 b : Reg} {d : Int} {vs : List Nat} (hp : s.problem = false)
    (ha : (s.address b d).toNat % 8 = 0) (hr : s.readUnits (s.address b d) 8 (rangeCount r1 r3) 0 = .ok vs) :
    exec (.lctlg r1 r3 b d) s = .next (s.setCrs ((registerRange r1 r3).zip vs)) := by
  refine (runThen_supervisor hp 6 _ _).trans ?_
  simp only [requireAligned_ok ha, hr, res_bind_ok, runThen_ok]

/-- Settles O35. -/
theorem loadControlRegisters : Obligations.LoadControlRegisters := by
  intro s r1 r3 b2 g hp
  have hn := rangeCount_le r1 r3
  refine ⟨fun d2 ha hf => ⟨_, exec_lctl hp ha (readUnits_range hf), fun k hk => ?_,
      only_setCrsLow mem_zip_registerRange s⟩,
    fun d2 ha hf => ⟨_, exec_lctlg hp ha (readUnits_range hf), fun k hk => ?_, only_setCrs mem_zip_registerRange s⟩⟩
  · have hk : k < rangeCount r1 r3 := hk
    rw [registerRange, cr_setCrsLow s r1 _ _ k hn hk _ (range'_map_getElem? _ hk), bits_setBits_high, bits_setBits_low]
    exact ⟨rfl, toBytes_of_ofNat (by omega) (readBytes_length _ _ _)⟩
  · have hk : k < rangeCount r1 r3 := hk
    rw [registerRange, cr_setCrs s r1 _ _ k hn hk _ (range'_map_getElem? _ hk)]
    exact toBytes_of_ofNat (by omega) (readBytes_length _ _ _)

/-! ## STCTL and STCTG -/

/-- Units, one for each register of a range, that can be stored at the places f gives. -/
theorem writeUnits_range {s : State} {a : DWord} {size : Nat} {f : Nat → Nat} {r1 r3 : Reg} {u : Reg → List Byte}
    (h : s.StoresAt s.operandSpace a size ((r3 - r1).toNat + 1) f) (hu : ∀ r, (u r).length = size) :
    ∃ t, s.writeUnits a size ((registerRange r1 r3).map u) 0 = .ok t
      ∧ t.mem = storeUnits f s.mem ((registerRange r1 r3).map u) 0
      ∧ Writes.Only { mem := unitPlaces f size ((r3 - r1).toNat + 1) } s t := by
  have hlen : 0 + ((registerRange r1 r3).map u).length ≤ (r3 - r1).toNat + 1 := by
    rw [Nat.zero_add, List.length_map, registerRange, registersFrom_length]
    exact le_refl _
  have hsize : ∀ v ∈ (registerRange r1 r3).map u, v.length = size := fun v hv => by
    obtain ⟨r, _, rfl⟩ := List.mem_map.1 hv
    exact hu r
  obtain ⟨l, hw, hl⟩ := writeUnits_eq (m := s.mem) (l := s.stored) h (SameOutside.refl _ _) hlen hsize
  exact ⟨_, hw, State.withStores_mem _ _ _, only_withStores (storeUnits_same s.mem hlen hsize) hl⟩

theorem toBytes_lowWord (v : DWord) : toBytes 4 (bits v 32 32).toNat = toBytes 4 (v.toNat % 2 ^ 32) := by
  rw [toNat_bits]
  simp

/-- Settles O36. -/
theorem storeControlRegisters : Obligations.StoreControlRegisters := by
  intro s r1 r3 b2 f hp
  refine ⟨fun d2 ha hs => ?_, fun d2 ha hs => ?_⟩
  · obtain ⟨t, hw, hm, ho⟩ := writeUnits_range (u := fun r => toBytes 4 (bits (s.cr r) 32 32).toNat) hs
      fun r => toBytes_length _ _
    refine ⟨t, (runThen_supervisor hp 4 _ _).trans ?_, ?_, ho⟩
    · simp only [requireAligned_ok ha, hw, res_bind_ok, runThen_ok]
    · simpa only [toBytes_lowWord] using hm
  · obtain ⟨t, hw, hm, ho⟩ := writeUnits_range (u := fun r => toBytes 8 (s.cr r).toNat) hs fun r => toBytes_length _ _
    refine ⟨t, (runThen_supervisor hp 6 _ _).trans ?_, hm, ho⟩
    simp only [requireAligned_ok ha, hw, res_bind_ok, runThen_ok]

/-! ## ESEA -/

theorem setBits_middle (v : DWord) (x : Half) : setBits v 32 x = bits v 0 32 ++ x ++ bits v 48 16 := by
  have h1 := bits_append_bits (setBits v 32 x) 0 32 16 (by omega)
  have h2 := bits_append_bits (setBits v 32 x) 0 48 16 (by omega)
  rw [← bits_all (setBits v 32 x), ← h2, ← h1, bits_setBits_same v 32 x (by omega),
    bits_setBits_apart v 32 x 0 32 (by omega) (by omega) (.inl (by omega)),
    bits_setBits_apart v 32 x 48 16 (by omega) (by omega) (.inr (by omega))]

/-- Settles O37. -/
theorem eseaExchangesAuthority : Obligations.EseaExchangesAuthority := by
  intro s r1 hp
  refine ⟨_, (runThen_supervisor hp 4 _ _).trans rfl, ⟨?_, ?_⟩,
    (only_setGpr (by simp) s _).trans (only_setCr (by simp) _ _)⟩
  · rw [State.gpr_setCr, State.gpr_setGpr_same, setBits_middle]
  · rw [State.cr_setCr_same, setBits_middle]

/-! ## SPX -/

theorem only_prefix {w : Writes} (h : w.pfx = true) (s : State) (p : DWord) : w.Only s { s with pfx := p } :=
  { Writes.Only.refl w s with pfx := fun k => absurd (h.symm.trans k) (by decide) }

/-- SPX with its operand fetched: the new area of the assigned locations has to lie in storage. -/
theorem exec_spx {s : State} {b : Reg} {d abs : Nat} {w : Word} (hp : s.problem = false)
    (ha : (s.address b d).toNat % 4 = 0) (hf : s.fetchAddress s.operandSpace (s.address b d) 4 = .ok abs)
    (hw : toBytes 4 w.toNat = readBytes s.mem abs 4) :
    exec (.spx b d) s
      = s.run 4 (require (decide ((prefixOfWord w).toNat + 8192 ≤ s.params.storageSize)) .addressing >>= fun _ =>
        .ok { s with pfx := prefixOfWord w }) := by
  refine (runThen_supervisor hp 4 _ _).trans ?_
  simp only [requireAligned_ok ha, memValue_eq hf, ofNat_of_toBytes (w := 32) (n := 4) (by omega) hw, res_bind_ok]
  rfl

/-- Settles O38. -/
theorem spxSetsPrefix : Obligations.SpxSetsPrefix := by
  intro s b2 d2 abs w hp ha hf hw
  have hexec := exec_spx hp ha hf hw
  refine ⟨fun (h : (prefixOfWord w).toNat + 8192 ≤ _) => ⟨_, ?_, rfl, only_prefix rfl s (prefixOfWord w)⟩,
    fun (h : _ < (prefixOfWord w).toNat + 8192) => ?_⟩
  · rw [hexec, require_true (decide_eq_true h)]
    rfl
  · rw [hexec, require_false (decide_eq_false (Nat.not_le.2 h))]
    rfl

/-! ## STFL -/

theorem bit_or {w : Nat} (x y : BitVec w) (i : Nat) : bit (x ||| y) i = (bit x i || bit y i) := BitVec.getMsbD_or

theorem bit_and {w : Nat} (x y : BitVec w) (i : Nat) : bit (x &&& y) i = (bit x i && bit y i) := BitVec.getMsbD_and

theorem modeBits_zArch : ∀ i, i < 32 → bit (0x60000000#32) i = decide (i = 1 ∨ i = 2) := by decide

theorem modeBits_esa390 : ∀ i, i < 32 → bit (0xDFFFFFFF#32) i = decide (i ≠ 2) := by decide

/-- The facility list, bit by bit (10_state.md rules R47, R55). -/
theorem bit_facilities (s : State) {i : Nat} (h : i < 32) :
    bit s.facilities i = match s.archMode with
      | .zArch => bit s.params.fac i || decide (i = 1 ∨ i = 2)
      | .esa390 => bit s.params.fac i && decide (i ≠ 2) := by
  unfold State.facilities
  cases s.archMode with
  | zArch => rw [bit_or, modeBits_zArch i h]
  | esa390 => rw [bit_and, modeBits_esa390 i h]

/-- Settles O39. -/
theorem stflStoresFacilities : Obligations.StflStoresFacilities := by
  refine ⟨fun s h => exec_stfl_withoutN3 h, fun s abs hn hp hr => ?_⟩
  obtain ⟨hread, honly⟩ := stored_completes s abs (toBytes_length 4 s.facilities.toNat)
  refine ⟨_, (exec_stfl_withN3 hn).trans ((runThen_supervisor hp 4 _ _).trans ?_),
    ⟨s.facilities, fun _ => hread, fun hz => ?_, fun he => ?_, fun i hi h1 h2 => ?_⟩, honly⟩
  · rw [realWrite_eq (by rw [toBytes_length]; exact hr)]
    rfl
  · rw [bit_facilities s (by omega), bit_facilities s (by omega), hz]
    simp
  · rw [bit_facilities s (by omega), bit_facilities s (by omega), he]
    simp
  · rw [bit_facilities s hi]
    cases s.archMode <;> simp [h1, h2]

/-! ## SIGP -/

theorem exec_sigp {s : State} (hp : s.problem = false) (r1 r3 b : Reg) (d : Nat) :
    exec (.sigp r1 r3 b d) s
      = s.run 4 (if bits (s.address b d) 56 8 = 0x12#8 then s.setArchitecture r1 else .error (.refused .sigpOrder)) :=
  runThen_supervisor hp 4 _ _

theorem atRest_iff (s : State) :
    s.otherCpus.all CpuStatus.atRest = true ↔ ∀ c ∈ s.otherCpus, c = .stopped ∨ c = .checkStop := by
  rw [List.all_eq_true]
  refine forall_congr' fun c => imp_congr_right fun _ => ?_
  cases c <;> simp [CpuStatus.atRest]

theorem setArchitecture_busy {s : State} (h : s.otherCpus.all CpuStatus.atRest = false) (r : Reg) :
    s.setArchitecture r = .ok (s.orderStatus r Config.sigpIncorrectState) := by
  simp [State.setArchitecture, h]

/-- The order where the other CPUs do not run: the switch, its refusal, or a status. -/
theorem setArchitecture_atRest {s : State} (h : s.otherCpus.all CpuStatus.atRest = true) (r : Reg) :
    s.setArchitecture r
      = if s.orderParameter r = 1#8 ∧ s.archMode = .esa390 then .ok (s.switchToZ.setCc (orderCc true))
        else if s.orderParameter r = 0#8 ∧ s.archMode = .zArch then .error (.refused .switchToEsa390)
        else .ok (s.orderStatus r Config.sigpInvalidParameter) := by
  unfold State.setArchitecture
  rw [if_pos h]
  split
  · next h1 hz => rw [if_pos ⟨BitVec.eq_of_toNat_eq h1, hz⟩]
  · next h0 hz =>
    rw [if_neg fun k => absurd (hz.symm.trans k.2) (by decide), if_pos ⟨BitVec.eq_of_toNat_eq h0, hz⟩]
  · next h1 h0 =>
    rw [if_neg fun k => h1 (congrArg BitVec.toNat k.1) k.2, if_neg fun k => h0 (congrArg BitVec.toNat k.1) k.2]

/-- What an end with a status leaves. -/
theorem orderStatus_result (s : State) (r : Reg) (status : Word) :
    (s.orderStatus r status).cc = 1#2 ∧ bits ((s.orderStatus r status).gpr r) 0 32 = bits (s.gpr r) 0 32
      ∧ Writes.Only { gprs := [r], psw := [ccBits] } s (s.orderStatus r status) := by
  refine ⟨State.cc_setCc _ _, ?_, (only_setGprLow (by simp) s status).trans (only_setCc (by simp) _ _)⟩
  rw [State.orderStatus, State.gpr_setCc, State.gpr_setGprLow_same, bits_setBits_high]

/-- A valid PSW with an address below 2^31 is what its short format expands to. -/
theorem expand_shorten_eq {p : Quad} (hv : pswValid p = true) (ha : bits p 64 33 = 0#33) : expand (shorten p) = p := by
  obtain ⟨_, _, h12, _, h33, _⟩ := (pswValid_iff p).1 hv
  have hleft : bits (expand (shorten p)) 0 12 = bits p 0 12 :=
    (bits_expand_left _ 0 12 (by omega)).trans (bits_shorten_left p 0 12 (by omega))
  have hzero : bits (expand (shorten p)) 12 1 = bits p 12 1 := (bits_expand_12 _).trans h12.symm
  have hmiddle : bits (expand (shorten p)) 13 20 = bits p 13 20 :=
    (bits_expand_middle _ 13 20 (by omega) (by omega)).trans (bits_shorten_middle p 13 20 (by omega) (by omega))
  have hzeros : bits (expand (shorten p)) 33 31 = bits p 33 31 :=
    (bits_expand_zeros _ 33 31 (by omega) (by omega)).trans h33.symm
  have hhigh : bits (expand (shorten p)) 64 33 = bits p 64 33 :=
    (bits_expand_zeros _ 64 33 (by omega) (by omega)).trans ha.symm
  have hlow : bits (expand (shorten p)) 97 31 = bits p 97 31 := (bits_expand_address _).trans (bits_shorten_address p)
  apply BitVec.eq_of_getMsbD_eq
  intro i hi
  have field : ∀ a n, bits (expand (shorten p)) a n = bits p a n → a + n ≤ 128 → a ≤ i ∧ i < a + n →
      (expand (shorten p)).getMsbD i = p.getMsbD i := fun a n h hn hr => (bits_eq_iff_forall _ _ a n hn).1 h i hr.1 hr.2
  obtain h | h | h | h | h | h : i < 12 ∨ i = 12 ∨ (13 ≤ i ∧ i < 33) ∨ (33 ≤ i ∧ i < 64) ∨ (64 ≤ i ∧ i < 97) ∨ 97 ≤ i := by
    omega
  · exact field 0 12 hleft (by omega) (by omega)
  · exact field 12 1 hzero (by omega) (by omega)
  · exact field 13 20 hmiddle (by omega) (by omega)
  · exact field 33 31 hzeros (by omega) (by omega)
  · exact field 64 33 hhigh (by omega) (by omega)
  · exact field 97 31 hlow (by omega) (by omega)

theorem and_lowMask (v : DWord) : v &&& 0x00000000FFFFFFFF#64 = 0#32 ++ bits v 32 32 := by
  have hm : ∀ i, i < 64 → (0x00000000FFFFFFFF#64).getLsbD i = decide (i < 32) := by decide
  apply BitVec.eq_of_getLsbD_eq
  intro i hi
  rw [BitVec.getLsbD_and, hm i hi, BitVec.getLsbD_append, bits, BitVec.getLsbD_extractLsb']
  by_cases h : i < 32
  · simp [h]
  · simp [h]

theorem cr_switchToZ (s : State) (r : Reg) : s.switchToZ.cr r = 0#32 ++ bits (s.cr r) 32 32 := by
  rw [← and_lowMask]
  show (s.crs.map _).get r.toFin = s.crs.get r.toFin &&& _
  rw [get_toFin, get_toFin, Vector.getElem_map]

/-- Settles O40. -/
theorem sigpSetsArchitecture : Obligations.SigpSetsArchitecture := by
  intro s r1 r3 b2 d2 hp parameter atRest
  have hexec := exec_sigp hp r1 r3 b2 d2
  have hpar : s.orderParameter r1 = parameter := rfl
  have hrest : s.otherCpus.all CpuStatus.atRest = true ↔ atRest := atRest_iff s
  refine ⟨fun h => ?_, fun h => ?_⟩
  · rw [hexec, if_neg h, run_refused]
  rw [if_pos h] at hexec
  refine ⟨fun hbusy => ?_, fun hr h1 h0 => ?_, fun hr h0 hz => ?_, fun hr h1 hz => ?_⟩
  · rw [setArchitecture_busy (Bool.eq_false_iff.2 fun k => hbusy (hrest.1 k))] at hexec
    obtain ⟨hcc, hhigh, honly⟩ := orderStatus_result s r1 Config.sigpIncorrectState
    exact ⟨_, hexec, ⟨hcc, hhigh⟩, honly⟩
  · rw [setArchitecture_atRest (hrest.2 hr), hpar, if_neg h1, if_neg h0] at hexec
    obtain ⟨hcc, hhigh, honly⟩ := orderStatus_result s r1 Config.sigpInvalidParameter
    exact ⟨_, hexec, ⟨hcc, hhigh⟩, honly⟩
  · rw [setArchitecture_atRest (hrest.2 hr), hpar, if_neg fun k => absurd (hz.symm.trans k.2) (by decide),
      if_pos ⟨h0, hz⟩] at hexec
    exact hexec
  · rw [setArchitecture_atRest (hrest.2 hr), hpar, if_pos ⟨h1, hz⟩] at hexec
    refine ⟨_, hexec, rfl, State.cc_setCc _ _, prefixArea_eq s.pfx,
      fun r => (State.cr_setCc _ _ r).trans (cr_switchToZ s r), fun hv ha i hi hc => ?_,
      rfl, rfl, rfl, rfl, rfl, rfl⟩
    have hbits : s.switchToZ.psw = s.psw := expand_shorten_eq hv ha
    rw [(only_cc s.switchToZ (orderCc true)).psw i hi hc, hbits]

end Sys2Proof.Machine
end

section
/-! The obligations of 43_linkage_instructions.md. -/

namespace Sys2Proof.Machine

open Sys2Proof

/-! ## After a trace entry -/

theorem Traced.gpr {s t : State} (h : Traced s t) (r : Reg) : t.gpr r = s.gpr r := by
  rw [State.gpr, State.gpr, h.gprs]

theorem Traced.ia {s t : State} (h : Traced s t) : t.ia = s.ia := congrArg pswAddress h.psw

theorem Traced.amode {s t : State} (h : Traced s t) : t.amode = s.amode := congrArg pswMode h.psw

/-! ## PSWs with another address and mode -/

theorem not_mem_range {rs : List (Nat × Nat)} {r : Nat × Nat} {i : Nat} (h : ¬inRanges rs i) (hr : r ∈ rs) :
    ¬(r.1 ≤ i ∧ i < r.1 + r.2) := fun k => h (inRanges_of_mem hr k.1 k.2)

/-- A PSW field that may change. -/
theorem bit_setBits_of_range {rs : List (Nat × Nat)} {n : Nat} {a : Nat} (p : Quad) (x : BitVec n) (hn : a + n ≤ 128)
    (hr : (a, n) ∈ rs) {i : Nat} (hi : i < 128) (h : ¬inRanges rs i) : bit (setBits p a x) i = bit p i :=
  bit_setBits_outside p a x i hn hi (not_mem_range h hr)

theorem bit_withAddress_withMode {rs : List (Nat × Nat)} (p : Quad) (a : DWord) (m : AMode) (ha : iaBits ∈ rs)
    (hm : modeBits ∈ rs) {i : Nat} (hi : i < 128) (h : ¬inRanges rs i) :
    bit (pswWithMode (pswWithAddress p a) m) i = bit p i :=
  (bit_setBits_of_range _ m.code (by omega) hm hi h).trans (bit_setBits_of_range p a (by omega) ha hi h)

theorem pswAddress_withAddress_withMode (p : Quad) (a : DWord) (m : AMode) :
    pswAddress (pswWithMode (pswWithAddress p a) m) = a := by simp

theorem amode_is64 (s : State) : s.amode.is64 = bit s.psw 31 := by
  unfold State.amode pswMode
  cases bit s.psw 31 with
  | true => rfl
  | false => cases bit s.psw 32 <;> rfl

/-! ## PC -/

/-- The entry that an instruction has added, over the state that tracing leaves. -/
theorem addedBetween_pushEntry {s u t : State} {k : EntryKind} {p : Quad} (hu : Traced s u)
    (hl : t.linkageStack = (u.pushEntry k p).linkageStack) (hc : t.cr 15#4 = (u.pushEntry k p).cr 15#4) :
    (u.newEntry k p).AddedBetween s t k p := by
  have hcr : t.cr 15#4 = designatorOf (Config.stackDesignator u.draws) := by rw [hc, State.pushEntry_cr15]; rfl
  refine ⟨?_, hcr.symm, ?_, ?_, rfl, hu.gprs, hu.ars, rfl⟩
  · rw [hl, State.pushEntry_linkageStack, hu.linkageStack]
  · rw [hcr, designatorOf_eq, bits_append_right _ _ _ _ (by omega) (by omega)]
    exact bits_all _
  · rw [← designatorOf_eq, ← hu.cr (by decide)]
    rfl

/-- The PSW with which a routine is entered. -/
theorem enterRoutine_psw (s : State) (e : EntryTableEntry) :
    (s.enterRoutine e).psw
      = setBits (setBits (pswWithMode (pswWithAddress s.psw (e.mode.trunc e.address)) e.mode) 15
        (BitVec.ofBool e.problem)) 18 (Config.calledCc s.draws) := rfl

theorem bits_enterRoutine (s : State) (e : EntryTableEntry) (a n : Nat) (hn : a + n ≤ 128) (h : 20 ≤ a) :
    bits (s.enterRoutine e).psw a n = bits (pswWithMode (pswWithAddress s.psw (e.mode.trunc e.address)) e.mode) a n := by
  rw [enterRoutine_psw, bits_setBits_apart _ _ _ _ _ (by omega) hn (by omega),
    bits_setBits_apart _ _ _ _ _ (by omega) hn (by omega)]

theorem enterRoutine_mode (s : State) (e : EntryTableEntry) :
    bits (s.enterRoutine e).psw 31 2
      = (if e.g = true then 0b11#2 else if e.mode31 = true then 0b01#2 else 0b00#2) := by
  rw [bits_enterRoutine s e 31 2 (by omega) (by omega), bits_pswWithMode, EntryTableEntry.mode]
  split
  · rfl
  · split <;> rfl

theorem enterRoutine_ia (s : State) (e : EntryTableEntry) :
    (s.enterRoutine e).ia = (s.enterRoutine e).amode.trunc e.address := by
  have hm : (s.enterRoutine e).amode = e.mode :=
    (pswMode_eq (bits_enterRoutine s e 31 2 (by omega) (by omega))).trans (pswMode_pswWithMode _ _)
  rw [hm]
  exact (bits_enterRoutine s e 64 64 (by omega) (by omega)).trans (pswAddress_withAddress_withMode _ _ _)

theorem enterRoutine_problem (s : State) (e : EntryTableEntry) : (s.enterRoutine e).problem = e.problem := by
  have h : (s.enterRoutine e).problem
      = bit (setBits (pswWithMode (pswWithAddress s.psw (e.mode.trunc e.address)) e.mode) 15
        (BitVec.ofBool e.problem)) 15 :=
    bit_setBits_outside _ 18 _ 15 (by omega) (by omega) (by omega)
  rw [h, bit_eq_bits _ 15 1 0 (by omega) (by omega), bits_setBits_same _ _ _ (by omega)]
  cases e.problem <;> rfl

theorem only_enterRoutine {w : Writes} (hg : ∀ r, r ∈ w.gprs) (hp : (15, 1) ∈ w.psw) (hc : ccBits ∈ w.psw)
    (hm : modeBits ∈ w.psw) (ha : iaBits ∈ w.psw) (s : State) (e : EntryTableEntry) :
    w.Only s (s.enterRoutine e) :=
  { Writes.Only.refl w s with
    gpr := fun r hr => absurd (hg r) hr
    psw := fun i hi hr => (bit_setBits_of_range _ _ (by omega) hc hi hr).trans
      ((bit_setBits_of_range _ _ (by omega) hp hi hr).trans (bit_withAddress_withMode _ _ _ ha hm hi hr)) }

/-- Settles O41. -/
theorem programCall : Obligations.ProgramCall := by
  intro s b2 d2 e
  refine ⟨fun x hx => ?_, fun hs hg => ?_, fun u hok hu => ?_⟩
  · show s.findEntry (s.address b2 d2) = x
    rw [State.findEntry, hx]
    rfl
  · have hr : (e.stacking || e.g == s.amode.is64) = false := by
      rw [amode_is64, hs, Bool.false_or]
      exact beq_eq_false_iff_ne.2 hg
    show s.run 4 (require (e.stacking || e.g == s.amode.is64) .specialOperation >>= _) = _
    rw [require_false hr]
    rfl
  · have hok : e.stacking = true ∨ e.g = s.amode.is64 := by rwa [amode_is64]
    have hr : (e.stacking || e.g == s.amode.is64) = true := by
      rw [Bool.or_eq_true, beq_iff_eq]
      exact hok
    have htr : s.traceModeSwitch e.mode = .ok u := (tracedTo_pc hok).1 hu
    have hexec : exec (.pc b2 d2) s
        = .next ((if e.stacking then u.pushEntry .programCall s.psw else u).enterRoutine e) := by
      show s.run 4 (require (e.stacking || e.g == s.amode.is64) .specialOperation >>= _) = _
      rw [require_true hr, res_bind_ok]
      show s.run 4 (s.traceModeSwitch e.mode >>= _) = _
      rw [htr]
      rfl
    refine ⟨_, hexec, ⟨enterRoutine_mode _ e, enterRoutine_problem _ e, enterRoutine_ia _ e, fun hs => ?_⟩, .trans ?_
      (only_enterRoutine mem_allRegs (by simp) (by simp) (by simp) (by simp) _ e)⟩
    · rw [if_pos hs]
      exact ⟨_, addedBetween_pushEntry hu.traced rfl rfl⟩
    · split
      · next hs => exact only_pushEntry hs (by simp) u _ _
      · exact .refl _ u

/-! ## Branches -/

theorem takeBranch_ia {t : State} (r : Reg) (a : DWord) : (t.takeBranch r a).ia = if r = 0#4 then t.ia else a := by
  unfold State.takeBranch
  split
  · rfl
  · exact State.ia_withIa _ _

theorem only_takeBranch {w : Writes} (h : iaBits ∈ w.psw) (t : State) (r : Reg) (a : DWord) :
    w.Only t (t.takeBranch r a) := by
  unfold State.takeBranch
  split
  · exact .refl w t
  · exact only_withIa h t a

theorem gpr_takeBranch (t : State) (r q : Reg) (a : DWord) : (t.takeBranch r a).gpr q = t.gpr q := by
  unfold State.takeBranch
  split <;> rfl

theorem takeBranch_cr (t : State) (r q : Reg) (a : DWord) : (t.takeBranch r a).cr q = t.cr q := by
  unfold State.takeBranch
  split <;> rfl

theorem takeBranch_linkageStack (t : State) (r : Reg) (a : DWord) :
    (t.takeBranch r a).linkageStack = t.linkageStack := by
  unfold State.takeBranch
  split <;> rfl

/-- Where a branch of an instruction with an R2 field goes. -/
theorem branched_ia {s t : State} (h : t.psw = s.psw) (r : Reg) :
    (t.takeBranch r (s.registerAddress r)).ia = if r = 0#4 then s.ia else s.amode.trunc (s.gpr r) := by
  rw [takeBranch_ia, State.ia, h]
  rfl

/-! ## BAKR -/

theorem exec_bakr {s u : State} {r1 r2 : Reg} (hu : s.traceRegisterBranch r2 = .ok u) :
    exec (.bakr r1 r2) s
      = .next ((u.pushEntry .branch (s.stackedPsw r1)).takeBranch r2 (s.registerAddress r2)) := by
  show s.run 4 (s.traceRegisterBranch r2 >>= _) = _
  rw [hu]
  rfl

/-- The PSW that BAKR saves for an R1 field that is not 0. -/
theorem stackedPsw_register {s : State} {r : Reg} (h : r ≠ 0#4) :
    pswAddress (s.stackedPsw r) = addressOfRegister (s.gpr r) ∧ pswMode (s.stackedPsw r) = modeOfRegister (s.gpr r)
      ∧ ∀ i, i < 128 → ¬inRanges [modeBits, iaBits] i → bit (s.stackedPsw r) i = bit s.psw i := by
  rw [State.stackedPsw, if_neg h]
  exact ⟨pswAddress_withAddress_withMode _ _ _, pswMode_pswWithMode _ _, fun i hi hr =>
    bit_withAddress_withMode _ _ _ (by simp) (by simp) hi hr⟩

/-- Settles O42. -/
theorem branchAndStack : Obligations.BranchAndStack := by
  intro s u r1 r2 hu
  refine ⟨_, exec_bakr (tracedTo_bakr.1 hu), ⟨?_, _, _, addedBetween_pushEntry hu.traced ?_ ?_, ?_,
    stackedPsw_register⟩, (only_pushEntry rfl (by simp) u _ _).trans (only_takeBranch (by simp) _ _ _)⟩
  · exact branched_ia ((u.pushEntry_psw _ _).trans hu.traced.psw) r2
  · exact takeBranch_linkageStack _ _ _
  · exact takeBranch_cr _ _ _ _
  · intro h
    rw [State.stackedPsw, if_pos h]

/-! ## The current state entry -/

theorem currentEntry_none {s : State} (h : s.designatedEntry = none) :
    s.currentEntry = .error (.exception .stack) := by rw [currentEntry_eq, h]

theorem currentEntry_some {s : State} {e : StackEntry} (h : s.designatedEntry = some e) : s.currentEntry = .ok e := by
  rw [currentEntry_eq, h]

/-! ## PR -/

/-- The registers that PR restores, and the entry removed. -/
def State.returned (s : State) (e : StackEntry) : State :=
  (((s.restoreGprs e (registerRange 2#4 14#4)).restoreArs e (registerRange 2#4 14#4)).drawn).popEntry e

theorem exec_pr {s u : State} {e : StackEntry} (he : s.currentEntry = .ok e)
    (hu : s.traceModeSwitch (pswMode e.psw) = .ok u) : exec .pr s = (u.returned e).loadPsw (s.returnedPsw e) := by
  show s.runThen 2 (s.currentEntry >>= _) _ = _
  rw [he, res_bind_ok]
  show s.runThen 2 (s.traceModeSwitch (pswMode e.psw) >>= _) _ = _
  rw [hu]
  rfl

theorem only_returned {w : Writes} (hg : ∀ r ∈ registerRange 2#4 14#4, r ∈ w.gprs)
    (ha : ∀ r ∈ registerRange 2#4 14#4, r ∈ w.ars) (hc : 15#4 ∈ w.crs) (hs : w.stack = true) (s : State)
    (e : StackEntry) : w.Only s (s.returned e) :=
  ((only_restoreGprs hg s e).trans (only_restoreArs ha _ e)).trans ((only_drawn w _).trans (only_popEntry hs hc _ e))

theorem gpr_returned {s : State} {e : StackEntry} {r : Reg} (h : r ∈ registerRange 2#4 14#4) :
    (s.returned e).gpr r = e.gr.get r.toFin := by
  rw [State.returned, State.gpr_popEntry, State.gpr_drawn, gpr_restoreArs, gpr_restoreGprs, if_pos h]

theorem ar_returned {s : State} {e : StackEntry} {r : Reg} (h : r ∈ registerRange 2#4 14#4) :
    (s.returned e).ar r = e.ar.get r.toFin := by
  rw [State.returned, State.ar_popEntry, State.ar_drawn, ar_restoreArs, if_pos h]

theorem restoreGprs_linkageStack (s : State) (e : StackEntry) (rs : List Reg) :
    (s.restoreGprs e rs).linkageStack = s.linkageStack := by
  obtain ⟨v, hv⟩ := restoreGprs_same s e rs
  rw [hv]

theorem restoreArs_linkageStack (s : State) (e : StackEntry) (rs : List Reg) :
    (s.restoreArs e rs).linkageStack = s.linkageStack := by
  obtain ⟨v, hv⟩ := restoreArs_same s e rs
  rw [hv]

theorem returned_linkageStack (s : State) (e : StackEntry) :
    (s.returned e).linkageStack = s.linkageStack.erase e := by
  rw [State.returned, State.popEntry_linkageStack, State.drawn_linkageStack, restoreArs_linkageStack,
    restoreGprs_linkageStack]

theorem returnedPsw_valid {s : State} {e : StackEntry} (h : pswValid e.psw = true) :
    pswValid (s.returnedPsw e) = true := by
  rw [State.returnedPsw, pswValid_setBits (.inr (.inr (by omega))), pswValid_setBits (.inl (by omega)), h]

/-- The PER mask stays, the condition code is free, every other bit is the saved one. -/
theorem bit_returnedPsw (s : State) (e : StackEntry) :
    bit (s.returnedPsw e) 1 = bit s.psw 1
      ∧ ∀ i, i < 128 → i ≠ 1 → ¬inRanges [ccBits] i → bit (s.returnedPsw e) i = bit e.psw i := by
  refine ⟨?_, fun i hi h1 hr => ?_⟩
  · rw [State.returnedPsw, bit_setBits_outside _ 18 _ 1 (by omega) (by omega) (by omega),
      bit_eq_bits _ 1 1 0 (by omega) (by omega), bits_setBits_same _ _ _ (by omega)]
    exact (bit_eq_bits s.psw 1 1 0 (by omega) (by omega)).symm
  · exact (bit_setBits_of_range _ _ (by omega) (by simp [ccBits]) hi hr).trans
      (bit_setBits_outside _ 1 _ i (by omega) hi (by omega))

/-- Settles O43. -/
theorem programReturn : Obligations.ProgramReturn := by
  intro s
  refine ⟨fun h => ?_, fun u e he hu hv => ?_⟩
  · show s.runThen 2 (s.currentEntry >>= _) _ = _
    rw [currentEntry_none h]
    rfl
  · have hc := currentEntry_some he
    have hexec := (exec_pr hc ((tracedTo_pr hc).1 hu)).trans (loadPsw_eq (returnedPsw_valid hv))
    obtain ⟨hper, hrest⟩ := bit_returnedPsw s e
    refine ⟨_, hexec, ⟨fun r hr => ⟨?_, ?_⟩, ?_, ?_, hper, hrest⟩,
      (only_returned (fun _ h => h) (fun _ h => h) (by simp) rfl u e).trans (only_wholePsw (by simp) _ _)⟩
    · rw [State.gpr_withPsw, gpr_returned hr]
    · rw [State.ar_withPsw, ar_returned hr]
    · rw [State.withPsw_linkageStack, returned_linkageStack, hu.traced.linkageStack]
    · rw [State.cr_withPsw, State.returned, State.popEntry_cr15]

/-! ## ESTA -/

/-- ESTA where R1 is even: the code is tested before the linkage stack. -/
theorem exec_esta {s : State} {r1 : Reg} (h : r1.toNat % 2 = 0) (r2 : Reg) :
    exec (.esta r1 r2) s
      = s.run 4 (require (decide ((bits (s.gpr r2) 56 8).toNat ≤ 4)) .specification >>= fun _ =>
        s.currentEntry >>= fun e => .ok ((s.extractState r1 (bits (s.gpr r2) 56 8) e).setCc (entryCc e.kind))) :=
  runThen_even ((even_iff r1).2 h) 4 _ _

theorem exec_esta_entry {s : State} {r1 r2 : Reg} {e : StackEntry} (h : r1.toNat % 2 = 0)
    (hc : (bits (s.gpr r2) 56 8).toNat ≤ 4) (he : s.designatedEntry = some e) :
    exec (.esta r1 r2) s = .next ((s.extractState r1 (bits (s.gpr r2) 56 8) e).setCc (entryCc e.kind)) := by
  rw [exec_esta h, require_true (decide_eq_true hc), res_bind_ok, currentEntry_some he, res_bind_ok, run_ok]

theorem only_extractState {w : Writes} {r : Reg} (h : r ∈ w.gprs) (h' : r + 1#4 ∈ w.gprs) (s : State) (code : Byte)
    (e : StackEntry) : w.Only s (s.extractState r code e) := by
  unfold State.extractState
  split
  · exact only_setPairLow h h' s _ _
  · split
    · exact only_setPair h h' s _
    · exact (only_setPairLow h h' s _ _).trans (only_drawn w _)

theorem compatibleSecondWord_eq (p : Quad) :
    compatibleSecondWord p = if (bits p 64 64).toNat < 2 ^ 31 then bits p 32 1 ++ bits p 97 31
      else bits p 32 1 ++ bits p 97 30 ++ 1#1 := by
  have h : bits p 64 33 = 0#33 ↔ (bits p 64 64).toNat < 2 ^ 31 := by
    rw [← bits_bits p 64 64 0 33 (by omega) (by omega)]
    exact bits_eq_zero_iff _ 33 (by omega)
  simp only [compatibleSecondWord, h]

/-- The high-order halves after a pair of words has been extracted. -/
theorem setPairLow_high (s : State) (r : Reg) (a b : Word) :
    bits ((s.setPairLow r a b).gpr r) 0 32 = bits (s.gpr r) 0 32
      ∧ bits ((s.setPairLow r a b).gpr (r + 1#4)) 0 32 = bits (s.gpr (r + 1#4)) 0 32 := by
  obtain ⟨h1, h2⟩ := gpr_setPairLow s r a b
  rw [h1, h2, bits_setBits_high, bits_setBits_high]
  exact ⟨rfl, rfl⟩

theorem setPairLow_low (s : State) (r : Reg) (a b : Word) :
    bits ((s.setPairLow r a b).gpr r) 32 32 = a ∧ bits ((s.setPairLow r a b).gpr (r + 1#4)) 32 32 = b := by
  obtain ⟨h1, h2⟩ := gpr_setPairLow s r a b
  rw [h1, h2, bits_setBits_low, bits_setBits_low]
  exact ⟨rfl, rfl⟩

/-- Settles O44. -/
theorem extractStackedState : Obligations.ExtractStackedState := by
  intro s r1 r2 e hr code first kindCode
  have hcode : bits (s.gpr r2) 56 8 = code := rfl
  have hcc : ∀ t : State, (t.setCc (entryCc e.kind)).cc = kindCode := fun t => by
    rw [State.cc_setCc]
    show entryCc e.kind = match e.kind with | .branch => 0#2 | .programCall => 1#2
    cases e.kind <;> rfl
  have only : Writes.Only { gprs := [r1, r1 + 1#4], psw := [ccBits] } s
      ((s.extractState r1 code e).setCc (entryCc e.kind)) :=
    (only_extractState (by simp) (by simp) s code e).trans (only_setCc (by simp) _ _)
  refine ⟨fun h => ?_, fun h hn => ?_, fun h he => ?_, fun h he => ?_, fun h he => ?_⟩
  · rw [exec_esta hr, hcode, require_false (decide_eq_false (Nat.not_le.2 h)), res_bind_error, run_exception]
  · rw [exec_esta hr, hcode, require_true (decide_eq_true h), res_bind_ok, currentEntry_none hn, res_bind_error,
      run_exception]
  · refine ⟨_, exec_esta_entry hr (by rw [hcode, h]; decide) he, ?_, only⟩
    have hex : s.extractState r1 code e = s.setPairLow r1 (bits e.psw 0 32) (compatibleSecondWord e.psw) := if_pos h
    obtain ⟨hlow1, hlow2⟩ := setPairLow_low s r1 (bits e.psw 0 32) (compatibleSecondWord e.psw)
    rw [hcode, hex]
    exact ⟨setPairLow_high s r1 _ _, hlow1, hlow2.trans (compatibleSecondWord_eq e.psw), hcc _⟩
  · refine ⟨_, exec_esta_entry hr (by rw [hcode, h]; decide) he, ?_, only⟩
    have hex : s.extractState r1 code e = s.setPair r1 e.psw := by
      rw [State.extractState, h, if_neg (by decide), if_pos rfl]
    obtain ⟨h1, h2⟩ := gpr_setPair s r1 e.psw
    rw [hcode, hex]
    exact ⟨h1, h2, hcc _⟩
  · have hle : code.toNat ≤ 4 ∧ code ≠ 1#8 ∧ code ≠ 4#8 := by
      obtain h | h | h := h <;> rw [h] <;> decide
    refine ⟨_, exec_esta_entry hr hle.1 he, ?_, only⟩
    have hex : s.extractState r1 code e = (s.setPairLow r1 (bits (Config.extractedState s.draws code) 0 32)
        (bits (Config.extractedState s.draws code) 32 32)).drawn := by
      rw [State.extractState, if_neg hle.2.1, if_neg hle.2.2]
    rw [hcode, hex]
    exact ⟨setPairLow_high s r1 _ _, hcc _⟩

/-! ## EREG and EREGG -/

theorem run_currentEntry_none {s : State} (h : s.designatedEntry = none) (len : Nat) (f : StackEntry → Res State) :
    s.run len (s.currentEntry >>= f) = s.raise len .stack := by
  rw [currentEntry_none h]
  rfl

theorem run_currentEntry_some {s : State} {e : StackEntry} (h : s.designatedEntry = some e) (len : Nat)
    (f : StackEntry → Res State) : s.run len (s.currentEntry >>= f) = s.run len (f e) := by
  rw [currentEntry_some h]
  rfl

/-- Settles O45. -/
theorem extractStackedRegisters : Obligations.ExtractStackedRegisters := by
  intro s r1 r2
  refine ⟨fun h => ⟨run_currentEntry_none h 4 _, run_currentEntry_none h 4 _⟩, fun e he =>
    ⟨⟨_, run_currentEntry_some he 4 _, fun k hk => ⟨?_, ?_⟩,
        (only_restoreGprsLow (fun _ h => h) s e).trans (only_restoreArs (fun _ h => h) _ e)⟩,
      ⟨_, run_currentEntry_some he 4 _, fun k hk => ⟨?_, ?_⟩,
        (only_restoreGprs (fun _ h => h) s e).trans (only_restoreArs (fun _ h => h) _ e)⟩⟩⟩
  · rw [gpr_restoreArs, gpr_restoreGprsLow, if_pos (mem_registerRange hk), setBits_low]
  · rw [ar_restoreArs, if_pos (mem_registerRange hk)]
  · rw [gpr_restoreArs, gpr_restoreGprs, if_pos (mem_registerRange hk)]
  · rw [ar_restoreArs, if_pos (mem_registerRange hk)]

/-! ## BALR and BASR -/

theorem only_saveLink {w : Writes} {r : Reg} (h : r ∈ w.gprs) (s : State) : w.Only s (s.saveLink r) := by
  unfold State.saveLink
  split
  · exact only_setGpr h s _
  · exact only_setGprLow h s _

theorem only_saveLinkInformation {w : Writes} {r : Reg} (h : r ∈ w.gprs) (s : State) :
    w.Only s (s.saveLinkInformation r) := by
  unfold State.saveLinkInformation
  split
  · exact (only_setGprLow h s _).trans (only_drawn w _)
  · exact only_saveLink h s

theorem append_word (h : Word) (a : BitVec 1) (b : BitVec 31) : h ++ (a ++ b) = h ++ a ++ b := by
  apply BitVec.eq_of_toNat_eq
  simp only [BitVec.toNat_append, Nat.shiftLeft_or_distrib, ← Nat.shiftLeft_add, Nat.or_assoc]

/-- The link information of BASR and BASSM (43_linkage_instructions.md rule R241). -/
theorem gpr_saveLink (s : State) (r : Reg) :
    (s.saveLink r).gpr r = if s.amode.is64 then s.ia else bits (s.gpr r) 0 32 ++ bits s.psw 32 1 ++ bits s.ia 33 31 := by
  unfold State.saveLink
  split
  · exact State.gpr_setGpr_same _ _ _
  · rw [gpr_setGprLow, append_word]

/-- The same over the state that tracing leaves. -/
theorem Traced.gpr_saveLink {s u : State} (h : Traced s u) (r : Reg) :
    (u.saveLink r).gpr r = if s.amode.is64 then s.ia else bits (s.gpr r) 0 32 ++ bits s.psw 32 1 ++ bits s.ia 33 31 := by
  rw [Machine.gpr_saveLink, h.amode, h.ia, h.gpr, h.psw]

theorem saveLinkInformation_of_ne {s : State} (h : s.amode ≠ .a24) (r : Reg) : s.saveLinkInformation r = s.saveLink r := by
  unfold State.saveLinkInformation
  split
  · next h24 => exact absurd h24 h
  · rfl

theorem gpr_saveLinkInformation_24 {s : State} (h : s.amode = .a24) (r : Reg) :
    (s.saveLinkInformation r).gpr r = bits (s.gpr r) 0 32 ++ (Config.linkByte s.draws ++ bits s.ia 40 24) := by
  unfold State.saveLinkInformation
  rw [h]
  exact gpr_setGprLow s r _

theorem exec_balr {s u : State} {r1 r2 : Reg} (hu : s.traceRegisterBranch r2 = .ok u) :
    exec (.balr r1 r2) s = .next ((u.saveLinkInformation r1).takeBranch r2 (s.registerAddress r2)) := by
  show s.run 2 (s.traceRegisterBranch r2 >>= _) = _
  rw [hu]
  rfl

theorem exec_basr {s u : State} {r1 r2 : Reg} (hu : s.traceRegisterBranch r2 = .ok u) :
    exec (.basr r1 r2) s = .next ((u.saveLink r1).takeBranch r2 (s.registerAddress r2)) := by
  show s.run 2 (s.traceRegisterBranch r2 >>= _) = _
  rw [hu]
  rfl

/-- Settles O46. -/
theorem branchAndLink : Obligations.BranchAndLink := by
  intro s u r1 r2
  refine ⟨fun hu => ⟨_, exec_balr (tracedTo_balr.1 hu), ⟨?_, ?_⟩,
      (only_saveLinkInformation (by simp) u).trans (only_takeBranch (by simp) _ _ _)⟩,
    fun hu => ⟨_, exec_basr (tracedTo_basr.1 hu), ⟨?_, ?_⟩,
      (only_saveLink (by simp) u).trans (only_takeBranch (by simp) _ _ _)⟩⟩
  · exact branched_ia ((saveLinkInformation_psw u r1).trans hu.traced.psw) r2
  · rw [gpr_takeBranch]
    cases hm : s.amode with
    | a24 =>
      show bits _ 0 32 = _ ∧ bits _ 40 24 = _
      rw [gpr_saveLinkInformation_24 (hu.traced.amode.trans hm), hu.traced.gpr, hu.traced.ia]
      rw [bits_append_left _ _ _ _ (by omega), bits_append_right _ _ _ _ (by omega) (by omega),
        bits_append_right _ _ _ _ (by omega) (by omega)]
      exact ⟨bits_all _, bits_all _⟩
    | a31 =>
      rw [saveLinkInformation_of_ne (by rw [hu.traced.amode, hm]; decide), hu.traced.gpr_saveLink, hm]
      rfl
    | a64 =>
      rw [saveLinkInformation_of_ne (by rw [hu.traced.amode, hm]; decide), hu.traced.gpr_saveLink, hm]
      rfl
  · exact branched_ia ((saveLink_psw u r1).trans hu.traced.psw) r2
  · rw [gpr_takeBranch, hu.traced.gpr_saveLink]

/-! ## BASSM and BSM -/

theorem trunc31_eq (v : DWord) : AMode.a31.trunc v = 0#33 ++ bits v 33 31 := by
  apply BitVec.eq_of_toNat_eq
  rw [trunc31_toNat, BitVec.toNat_append, toNat_bits]
  simp

theorem trunc24_eq (v : DWord) : AMode.a24.trunc v = 0#40 ++ bits v 40 24 := by
  apply BitVec.eq_of_toNat_eq
  rw [trunc24_toNat, BitVec.toNat_append, toNat_bits]
  simp

theorem clearLast_eq (v : DWord) : v &&& 0xFFFFFFFFFFFFFFFE#64 = bits v 0 63 ++ 0#1 := by
  have hm : ∀ i, i < 64 → (0xFFFFFFFFFFFFFFFE#64).getMsbD i = decide (i < 63) := by decide
  apply BitVec.eq_of_getMsbD_eq
  intro i hi
  rw [BitVec.getMsbD_and, hm i hi, BitVec.getMsbD_append]
  by_cases h : i < 63
  · simp [h, getMsbD_bits v 0 63 i (by omega), show ¬63 ≤ i by omega]
  · simp [h, show 63 ≤ i by omega]

theorem clearLast_even {v : DWord} (h : bit v 63 = false) : v &&& 0xFFFFFFFFFFFFFFFE#64 = v := by
  have h63 : bits v 63 1 = 0#1 := (bits_eq_zero_iff_forall v 63 1 (by omega)).2 fun i h1 h2 => by
    obtain rfl : i = 63 := by omega
    exact h
  rw [clearLast_eq, ← h63, bits_append_bits v 0 63 1 (by omega)]
  exact bits_all v

/-- The mode and the address that an address register selects (43_linkage_instructions.md rule R242). -/
theorem registerMode_cases (v : DWord) :
    (bit v 63 = true → modeOfRegister v = .a64 ∧ addressOfRegister v = bits v 0 63 ++ 0#1)
      ∧ (bit v 63 = false → bit v 32 = true → modeOfRegister v = .a31 ∧ addressOfRegister v = 0#33 ++ bits v 33 31)
      ∧ (bit v 63 = false → bit v 32 = false →
        modeOfRegister v = .a24 ∧ addressOfRegister v = 0#40 ++ bits v 40 24) := by
  refine ⟨fun h => ?_, fun h h32 => ?_, fun h h32 => ?_⟩
  · have hm : modeOfRegister v = .a64 := by simp [modeOfRegister, h]
    exact ⟨hm, by rw [addressOfRegister, hm, trunc64, clearLast_eq]⟩
  · have hm : modeOfRegister v = .a31 := by simp [modeOfRegister, h, h32]
    exact ⟨hm, by rw [addressOfRegister, hm, clearLast_even h, trunc31_eq]⟩
  · have hm : modeOfRegister v = .a24 := by simp [modeOfRegister, h, h32]
    exact ⟨hm, by rw [addressOfRegister, hm, clearLast_even h, trunc24_eq]⟩

theorem takeModeBranch_zero {t : State} {r : Reg} (h : r = 0#4) (v : DWord) : t.takeModeBranch r v = t := if_pos h

theorem takeModeBranch_result {t : State} {r : Reg} (h : r ≠ 0#4) (v : DWord) :
    bits (t.takeModeBranch r v).psw 31 2 = (modeOfRegister v).code
      ∧ (t.takeModeBranch r v).ia = addressOfRegister v := by
  rw [State.takeModeBranch, if_neg h]
  exact ⟨bits_pswWithMode _ _, pswAddress_withAddress_withMode _ _ _⟩

theorem only_takeModeBranch {w : Writes} (hm : modeBits ∈ w.psw) (ha : iaBits ∈ w.psw) (t : State) (r : Reg)
    (v : DWord) : w.Only t (t.takeModeBranch r v) := by
  unfold State.takeModeBranch
  split
  · exact .refl w t
  · exact only_withPsw t _ fun i hi hr => bit_withAddress_withMode _ _ _ ha hm hi hr

theorem gpr_takeModeBranch (t : State) (r q : Reg) (v : DWord) : (t.takeModeBranch r v).gpr q = t.gpr q := by
  unfold State.takeModeBranch
  split <;> rfl

/-- The mode and the address after BASSM or BSM: those of the register, or none for an R2 field of 0. -/
theorem takeModeBranch_cases {s t : State} (h : t.psw = s.psw) (r : Reg) (v : DWord) :
    (r = 0#4 → (t.takeModeBranch r v).psw = s.psw)
      ∧ (r ≠ 0#4 → bit v 63 = true →
        bits (t.takeModeBranch r v).psw 31 2 = 0b11#2 ∧ (t.takeModeBranch r v).ia = bits v 0 63 ++ 0#1)
      ∧ (r ≠ 0#4 → bit v 63 = false → bit v 32 = true →
        bits (t.takeModeBranch r v).psw 31 2 = 0b01#2 ∧ (t.takeModeBranch r v).ia = 0#33 ++ bits v 33 31)
      ∧ (r ≠ 0#4 → bit v 63 = false → bit v 32 = false →
        bits (t.takeModeBranch r v).psw 31 2 = 0b00#2 ∧ (t.takeModeBranch r v).ia = 0#40 ++ bits v 40 24) := by
  obtain ⟨h64, h31, h24⟩ := registerMode_cases v
  have apply : ∀ {m : AMode} {a : DWord}, r ≠ 0#4 → modeOfRegister v = m ∧ addressOfRegister v = a →
      bits (t.takeModeBranch r v).psw 31 2 = m.code ∧ (t.takeModeBranch r v).ia = a := by
    rintro m a hr ⟨rfl, rfl⟩
    exact takeModeBranch_result hr v
  exact ⟨fun hr => by rw [takeModeBranch_zero hr, h], fun hr h63 => apply hr (h64 h63),
    fun hr h63 h32 => apply hr (h31 h63 h32), fun hr h63 h32 => apply hr (h24 h63 h32)⟩

theorem only_saveMode {w : Writes} {r : Reg} (h : r ∈ w.gprs) (s : State) : w.Only s (s.saveMode r) := by
  unfold State.saveMode
  split <;> exact only_setGpr h s _

theorem setBits_last (v : DWord) (x : BitVec 1) : setBits v 63 x = bits v 0 63 ++ x := by
  have h := bits_append_bits (setBits v 63 x) 0 63 1 (by omega)
  rw [← bits_all (setBits v 63 x), ← h, bits_setBits_same v 63 x (by omega),
    bits_setBits_apart v 63 x 0 63 (by omega) (by omega) (.inl (by omega))]

theorem setBits_basicMode (v : DWord) (x : BitVec 1) : setBits v 32 x = bits v 0 32 ++ x ++ bits v 33 31 := by
  have h1 := bits_append_bits (setBits v 32 x) 0 32 1 (by omega)
  have h2 := bits_append_bits (setBits v 32 x) 0 33 31 (by omega)
  rw [← bits_all (setBits v 32 x), ← h2, ← h1, bits_setBits_same v 32 x (by omega),
    bits_setBits_apart v 32 x 0 32 (by omega) (by omega) (.inl (by omega)),
    bits_setBits_apart v 32 x 33 31 (by omega) (by omega) (.inr (by omega))]

theorem Traced.gpr_saveMode {s u : State} (h : Traced s u) (r : Reg) :
    (u.saveMode r).gpr r = if s.amode.is64 then bits (s.gpr r) 0 63 ++ 1#1
      else bits (s.gpr r) 0 32 ++ bits s.psw 32 1 ++ bits (s.gpr r) 33 31 := by
  unfold State.saveMode
  rw [h.amode, h.gpr, h.psw]
  split
  · rw [State.gpr_setGpr_same, setBits_last]
  · rw [State.gpr_setGpr_same, setBits_basicMode]

theorem exec_bassm {s u : State} {r1 r2 : Reg}
    (hu : (if r2 = 0#4 then (.ok s : Res State)
      else s.traceModeBranch (modeOfRegister (s.gpr r2)) (addressOfRegister (s.gpr r2))) = .ok u) :
    exec (.bassm r1 r2) s = .next ((u.saveLink r1).takeModeBranch r2 (s.gpr r2)) := by
  simp only [exec, execBassm]
  split
  · next h => rw [if_pos h] at hu; cases hu; rfl
  · next h => rw [if_neg h] at hu; rw [hu]; rfl

theorem exec_bsm {s u : State} {r1 r2 : Reg}
    (hu : (if r2 = 0#4 then (.ok s : Res State) else s.traceModeSwitch (modeOfRegister (s.gpr r2))) = .ok u) :
    exec (.bsm r1 r2) s = .next ((u.saveMode r1).takeModeBranch r2 (s.gpr r2)) := by
  simp only [exec, execBsm]
  split
  · next h => rw [if_pos h] at hu; cases hu; rfl
  · next h => rw [if_neg h] at hu; rw [hu]; rfl

/-- Settles O47. -/
theorem branchAndSetMode : Obligations.BranchAndSetMode := by
  intro s u r1 r2 v branched
  refine ⟨fun hu => ⟨_, exec_bassm (tracedTo_bassm.1 hu), ⟨?_, ?_⟩,
      (only_saveLink (by simp) u).trans (only_takeModeBranch (by simp) (by simp) _ _ _)⟩,
    fun hu => ⟨_, exec_bsm (tracedTo_bsm.1 hu), ⟨?_, ?_⟩,
      (only_saveMode (by simp) u).trans (only_takeModeBranch (by simp) (by simp) _ _ _)⟩⟩
  · exact takeModeBranch_cases ((saveLink_psw u r1).trans hu.traced.psw) r2 v
  · rw [gpr_takeModeBranch, hu.traced.gpr_saveLink]
  · exact takeModeBranch_cases ((saveMode_psw u r1).trans hu.traced.psw) r2 v
  · rw [gpr_takeModeBranch, hu.traced.gpr_saveMode]

/-! ## RP, and the instructions named only -/

theorem exec_rp {s u : State} {b : Reg} {d : Nat} (hu : s.traceModeBranch s.resumedMode s.resumedAddress = .ok u) :
    exec (.rp b d) s = .next u.resume := by
  show s.run 4 (s.traceModeBranch s.resumedMode s.resumedAddress >>= _) = _
  rw [hu]
  rfl

theorem bits_resume (s : State) (a n : Nat) (hn : a + n ≤ 128) (h : 24 ≤ a) :
    bits s.resume.psw a n = bits (pswWithMode (pswWithAddress s.psw s.resumedAddress) s.resumedMode) a n :=
  bits_setBits_apart _ 16 _ a n (by omega) hn (by omega)

theorem only_resume {w : Writes} (hg : ∀ r, r ∈ w.gprs) (ha : ∀ r, r ∈ w.ars) (hf : (16, 8) ∈ w.psw)
    (hm : modeBits ∈ w.psw) (hi : iaBits ∈ w.psw) (s : State) : w.Only s s.resume :=
  { Writes.Only.refl w s with
    gpr := fun r hr => absurd (hg r) hr
    ar := fun r hr => absurd (ha r) hr
    psw := fun i h hr => (bit_setBits_of_range _ _ (by omega) hf h hr).trans
      (bit_withAddress_withMode _ _ _ hi hm h hr) }

/-- Settles O48. -/
theorem resumeProgram : Obligations.ResumeProgram := by
  intro s u b2 d2 hu
  have hmode := bits_resume u 31 2 (by omega) (by omega)
  have hamode : u.resume.amode = u.resumedMode := (pswMode_eq hmode).trans (pswMode_pswWithMode _ _)
  have hia : u.resume.ia = u.resumedAddress :=
    (bits_resume u 64 64 (by omega) (by omega)).trans (pswAddress_withAddress_withMode _ _ _)
  refine ⟨_, exec_rp (tracedTo_rp.1 hu), ⟨?_, ?_⟩,
    only_resume mem_allRegs mem_allRegs (by simp) (by simp) (by simp) u⟩
  · rw [hmode, bits_pswWithMode]
    cases u.resumedMode <;> decide
  · rw [hamode, hia, State.resumedAddress, trunc_trunc]

/-- Settles O49: the three meanings are refusals. -/
theorem namedOnlyInstructionsAreRefused : Obligations.NamedOnlyInstructionsAreRefused :=
  fun _ _ _ _ _ _ _ _ => ⟨rfl, rfl, rfl⟩

end Sys2Proof.Machine
end

section
/-! The obligations of 44_trace_trap_monitor.md. -/

namespace Sys2Proof.Machine

open Sys2Proof

/-! ## Layouts of trace entries -/

theorem append_toNat {n m : Nat} (x : BitVec n) (y : BitVec m) : (x ++ y).toNat = x.toNat * 2 ^ m + y.toNat := by
  rw [BitVec.toNat_append, ← Nat.shiftLeft_add_eq_or_of_lt y.isLt, Nat.shiftLeft_eq]

/-- A number in two parts, as bytes. -/
theorem toBytes_parts {n k v p q : Nat} (hv : v = p * 256 ^ k + q) (hq : q < 256 ^ k) :
    toBytes (n + k) v = toBytes n p ++ toBytes k q := by
  have hp : v / 256 ^ k = p := by
    rw [hv, Nat.mul_comm, Nat.mul_add_div (Nat.pow_pos (by omega)), Nat.div_eq_of_lt hq, Nat.add_zero]
  have hr : v % 256 ^ k = q := by rw [hv, Nat.mul_comm, Nat.mul_add_mod, Nat.mod_eq_of_lt hq]
  rw [toBytes_add, hp, ← toBytes_mod k v k (Nat.le_refl k), hr]

/-- The first word of an entry of two or three words: a byte, four bits and zeros. -/
theorem entryHead_toNat (x : Byte) (y : BitVec 4) : (x ++ y ++ 0#20).toNat = x.toNat * 2 ^ 24 + y.toNat * 2 ^ 20 := by
  rw [append_toNat, append_toNat, BitVec.toNat_ofNat]
  omega

theorem bits_low31_toNat (a : DWord) : (bits a 33 31).toNat = a.toNat % 2 ^ 31 := by
  rw [toNat_bits]
  omega

theorem bits_low32_toNat (a : DWord) : (bits a 32 32).toNat = a.toNat % 2 ^ 32 := by
  rw [toNat_bits]
  omega

/-- The 31-bit branch entry: bit 0 one and the address. -/
theorem word31_toNat (a : DWord) : (1#1 ++ bits a 33 31).toNat = 2 ^ 31 + a.toNat % 2 ^ 31 := by
  rw [append_toNat, bits_low31_toNat]
  rfl

/-- A long entry: three words. -/
theorem longEntry_bytes (x : Byte) (y : BitVec 4) (a : DWord) :
    toBytes 12 (x ++ y ++ 0#20 ++ a).toNat
      = toBytes 4 (x.toNat * 2 ^ 24 + y.toNat * 2 ^ 20) ++ toBytes 8 a.toNat := by
  refine toBytes_parts (n := 4) (k := 8) ?_ a.isLt
  rw [append_toNat, entryHead_toNat]
  rfl

/-- A short entry: two words, the second an address. -/
theorem shortEntry_bytes (x : Byte) (y : BitVec 4) (a : Word) :
    toBytes 8 (x ++ y ++ 0#20 ++ a).toNat
      = toBytes 4 (x.toNat * 2 ^ 24 + y.toNat * 2 ^ 20) ++ toBytes 4 a.toNat := by
  refine toBytes_parts (n := 4) (k := 4) ?_ a.isLt
  rw [append_toNat, entryHead_toNat]
  rfl

/-- A short entry whose second word holds the A bit and a 31-bit address. -/
theorem modeEntry_bytes (x : Byte) (y : BitVec 4) (m : BitVec 1) (a : DWord) :
    toBytes 8 (x ++ y ++ 0#20 ++ m ++ bits a 33 31).toNat
      = toBytes 4 (x.toNat * 2 ^ 24 + y.toNat * 2 ^ 20) ++ toBytes 4 (m.toNat * 2 ^ 31 + a.toNat % 2 ^ 31) := by
  have hm := m.isLt
  refine toBytes_parts (n := 4) (k := 4) ?_ (by omega)
  rw [append_toNat, append_toNat, entryHead_toNat, bits_low31_toNat]
  omega

theorem modeEntry_a24 (x : Byte) (y : BitVec 4) (a : DWord) :
    toBytes 8 (x ++ y ++ 0#20 ++ 0#1 ++ bits a 33 31).toNat
      = toBytes 4 (x.toNat * 2 ^ 24 + y.toNat * 2 ^ 20) ++ toBytes 4 (a.toNat % 2 ^ 31) := by
  rw [modeEntry_bytes, show (0#1).toNat = 0 from rfl, Nat.zero_mul, Nat.zero_add]

/-- An address whose leftmost 32 bits are zero is its low-order half. -/
theorem short_iff (a : DWord) : bits a 0 32 = 0#32 ↔ a.toNat < 2 ^ 32 := bits_eq_zero_iff a 32 (by omega)

theorem branchEntry_a24 (a : DWord) : branchEntry .a24 a = toBytes 4 (a.toNat % 2 ^ 24) := by
  have h : (0#8 ++ bits a 40 24).toNat = a.toNat % 2 ^ 24 := by
    rw [append_toNat, toNat_bits, BitVec.toNat_ofNat]
    omega
  rw [← h]
  rfl

theorem branchEntry_a31 (a : DWord) : branchEntry .a31 a = toBytes 4 (2 ^ 31 + a.toNat % 2 ^ 31) := by
  rw [← word31_toNat]
  rfl

theorem branchEntry_a64 (a : DWord) :
    branchEntry .a64 a = if a.toNat < 2 ^ 31 then toBytes 4 (2 ^ 31 + a.toNat)
      else [0x52#8, 0xC0#8, 0#8, 0#8] ++ toBytes 8 a.toNat := by
  simp only [branchEntry, fits31_iff_lt]
  split
  · next h => rw [word31_toNat, Nat.mod_eq_of_lt h]
  · exact longEntry_bytes 0x52#8 0xC#4 a

/-- The two 64-bit forms of an entry with a mode switch. -/
theorem modeEntry_a64 (y z : BitVec 4) (a : DWord) :
    (if bits a 0 32 = 0#32 then toBytes 8 (0x51#8 ++ y ++ 0#20 ++ bits a 32 32).toNat
      else toBytes 12 (0x52#8 ++ z ++ 0#20 ++ a).toNat)
    = if a.toNat < 2 ^ 32 then toBytes 4 (0x51 * 2 ^ 24 + y.toNat * 2 ^ 20) ++ toBytes 4 a.toNat
      else toBytes 4 (0x52 * 2 ^ 24 + z.toNat * 2 ^ 20) ++ toBytes 8 a.toNat := by
  simp only [short_iff]
  split
  · next h =>
    have hs := shortEntry_bytes 0x51#8 y (bits a 32 32)
    rwa [bits_low32_toNat, Nat.mod_eq_of_lt h] at hs
  · exact longEntry_bytes 0x52#8 z a

/-- Settles O50. -/
theorem traceEntryLayouts : Obligations.TraceEntryLayouts := by
  intro a
  refine ⟨branchEntry_a24 a, branchEntry_a31 a, branchEntry_a64 a, ?_, ?_, ?_, ?_, ?_, ?_⟩
  · exact modeEntry_a24 0x51#8 0x3#4 a
  · exact modeEntry_bytes 0x51#8 0x3#4 1#1 a
  · exact modeEntry_a64 0x2#4 0x6#4 a
  · exact modeEntry_a24 0x51#8 0xA#4 a
  · exact modeEntry_bytes 0x51#8 0xA#4 1#1 a
  · exact modeEntry_a64 0xB#4 0xF#4 a

/-! ## The entry that an instruction makes -/

/-- The entry of the table stored, or nothing where there is none. -/
def tracing (i : Instr) (s : State) : Res State := ((tracedEntry i s).map s.appendTrace).getD (.ok s)

theorem tracing_none {i : Instr} {s : State} (h : tracedEntry i s = none) : tracing i s = .ok s := by
  rw [tracing, h]
  rfl

theorem tracing_some {i : Instr} {s : State} {entry : List Byte} (h : tracedEntry i s = some entry) :
    tracing i s = s.appendTrace entry := by
  rw [tracing, h]
  rfl

theorem tracing_registerBranch {i : Instr} {s : State} {r : Reg}
    (h : tracedEntry i s = if s.branchTraceOn ∧ r ≠ 0#4 then some (branchEntry s.amode (s.registerAddress r)) else none) :
    s.traceRegisterBranch r = tracing i s := by
  unfold tracing State.traceRegisterBranch State.traceBranch
  rw [h]
  by_cases hr : r = 0#4 <;> by_cases hb : s.branchTraceOn = true <;> simp [hr, hb]

theorem tracing_modeSwitch {i : Instr} {s : State} {m : AMode}
    (h : tracedEntry i s
      = if s.modeTraceOn ∧ s.amode.is64 ≠ m.is64 then some (modeSwitchEntry s.amode s.ia) else none) :
    s.traceModeSwitch m = tracing i s := by
  unfold tracing State.traceModeSwitch switches64
  rw [h]
  by_cases hm : s.modeTraceOn = true <;> by_cases hs : s.amode.is64 = m.is64 <;> simp [hm, hs]

theorem tracing_modeBranch {i : Instr} {s : State} {m : AMode} {a : DWord}
    (h : tracedEntry i s
      = if s.modeTraceOn ∧ s.amode.is64 ≠ m.is64 then
          some (if s.branchTraceOn then modeSwitchingBranchEntry m a else modeSwitchEntry s.amode s.ia)
        else if s.branchTraceOn then some (branchEntry m a) else none) :
    s.traceModeBranch m a = tracing i s := by
  unfold tracing State.traceModeBranch State.traceModeSwitch switches64
  rw [h]
  by_cases hb : s.branchTraceOn = true <;> by_cases hm : s.modeTraceOn = true <;>
    by_cases hs : s.amode.is64 = m.is64 <;> simp [hb, hm, hs]

/-- t has the storage and the control register 12 of s. -/
def SameTrace (s t : State) : Prop := t.mem = s.mem ∧ t.cr 12#4 = s.cr 12#4

theorem SameTrace.refl (s : State) : SameTrace s s := ⟨rfl, rfl⟩

theorem SameTrace.trans {s t u : State} (h : SameTrace s t) (k : SameTrace t u) : SameTrace s u :=
  ⟨k.1.trans h.1, k.2.trans h.2⟩

/-- What follows the trace entry of an instruction leaves storage and control register 12. -/
def KeepsTrace (k : State → Result) : Prop := ∀ u t, k u = .next t → u.params.invalidPsw = .stop → SameTrace u t

/-- An instruction traces first and then leaves storage and control register 12, or takes an exception without an entry. -/
def TracesFirst (i : Instr) (s : State) : Prop :=
  (∃ k, exec i s = s.runThen (instrBytes i) (tracing i s) k ∧ KeepsTrace k)
    ∨ (tracedEntry i s = none ∧ ∃ x, exec i s = s.raise (instrBytes i) x)

/-- A computation, then a function of its result. -/
theorem runThen_map {α β : Type} (s : State) (len : Nat) (r : Res α) (f : α → β) (k : β → Result) :
    s.runThen len (r >>= fun u => .ok (f u)) k = s.runThen len r fun u => k (f u) := by
  cases r with
  | ok u => rfl
  | error e => cases e <;> rfl

/-- The body of an instruction whose meaning is one state after the trace entry. -/
theorem tracesFirst_run {i : Instr} {s : State} {r : Res State} {f : State → State}
    (h : exec i s = s.run (instrBytes i) (r >>= fun u => .ok (f u))) (hr : r = tracing i s) (hf : ∀ u, SameTrace u (f u)) :
    TracesFirst i s := by
  subst hr
  exact .inl ⟨fun u => .next (f u), h.trans (runThen_map s _ _ f .next), fun u t ht _ => Host.Outcome.next.inj ht ▸ hf u⟩

theorem sameTrace_takeBranch (t : State) (r : Reg) (a : DWord) : SameTrace t (t.takeBranch r a) := by
  unfold State.takeBranch
  split <;> exact ⟨rfl, rfl⟩

theorem sameTrace_takeModeBranch (t : State) (r : Reg) (v : DWord) : SameTrace t (t.takeModeBranch r v) := by
  unfold State.takeModeBranch
  split <;> exact ⟨rfl, rfl⟩

theorem sameTrace_saveLink (s : State) (r : Reg) : SameTrace s (s.saveLink r) := by
  unfold State.saveLink
  split <;> exact ⟨rfl, rfl⟩

theorem sameTrace_saveLinkInformation (s : State) (r : Reg) : SameTrace s (s.saveLinkInformation r) := by
  unfold State.saveLinkInformation
  split
  · exact ⟨rfl, rfl⟩
  · exact sameTrace_saveLink s r

theorem sameTrace_saveMode (s : State) (r : Reg) : SameTrace s (s.saveMode r) := by
  unfold State.saveMode
  split <;> exact ⟨rfl, rfl⟩

theorem sameTrace_pushEntry (s : State) (k : EntryKind) (p : Quad) : SameTrace s (s.pushEntry k p) :=
  ⟨rfl, State.cr_setCr_other _ _ (by decide)⟩

theorem sameTrace_returned (s : State) (e : StackEntry) : SameTrace s (s.returned e) := by
  obtain ⟨v, hv⟩ := restoreGprs_same s e (registerRange 2#4 14#4)
  obtain ⟨w, hw⟩ := restoreArs_same { s with gprs := v } e (registerRange 2#4 14#4)
  rw [State.returned, hv, hw]
  exact ⟨rfl, State.cr_setCr_other _ _ (by decide)⟩

theorem returned_params (s : State) (e : StackEntry) : (s.returned e).params = s.params :=
  (only_returned (w := { gprs := allRegs, ars := allRegs, crs := [15#4], stack := true }) (fun r _ => mem_allRegs r)
    (fun r _ => mem_allRegs r) (by simp) rfl s e).params

/-- A PSW that is loaded, where the machine stops at an invalid one. -/
theorem keepsTrace_loadPsw (f : State → State) (p : Quad) (hf : ∀ u, SameTrace u (f u))
    (hp : ∀ u, (f u).params = u.params) : KeepsTrace fun u => (f u).loadPsw p := by
  intro u t ht hs
  obtain ⟨_, rfl⟩ | ⟨_, hearly, _⟩ := loadPsw_next ht
  · exact (hf u).trans ⟨rfl, rfl⟩
  · rw [hp, hs] at hearly
    cases hearly

/-! ### Instruction by instruction -/

theorem tracesFirst_bakr (r1 r2 : Reg) (s : State) : TracesFirst (.bakr r1 r2) s :=
  tracesFirst_run rfl (tracing_registerBranch rfl) fun u =>
    (sameTrace_pushEntry u _ _).trans (sameTrace_takeBranch _ _ _)

theorem tracesFirst_balr (r1 r2 : Reg) (s : State) : TracesFirst (.balr r1 r2) s :=
  tracesFirst_run rfl (tracing_registerBranch rfl) fun u =>
    (sameTrace_saveLinkInformation u _).trans (sameTrace_takeBranch _ _ _)

theorem tracesFirst_basr (r1 r2 : Reg) (s : State) : TracesFirst (.basr r1 r2) s :=
  tracesFirst_run rfl (tracing_registerBranch rfl) fun u =>
    (sameTrace_saveLink u _).trans (sameTrace_takeBranch _ _ _)

theorem tracesFirst_bassm (r1 r2 : Reg) (s : State) : TracesFirst (.bassm r1 r2) s := by
  have body : ∀ u : State, SameTrace u ((u.saveLink r1).takeModeBranch r2 (s.gpr r2)) := fun u =>
    (sameTrace_saveLink u _).trans (sameTrace_takeModeBranch _ _ _)
  by_cases h : r2 = 0#4
  · subst h
    exact tracesFirst_run (r := .ok s) rfl (tracing_none rfl).symm body
  · refine tracesFirst_run (r := s.traceModeBranch (modeOfRegister (s.gpr r2)) (addressOfRegister (s.gpr r2))) ?_
      (tracing_modeBranch (if_neg h)) body
    simp only [exec, execBassm, if_neg h]
    rfl

theorem tracesFirst_bsm (r1 r2 : Reg) (s : State) : TracesFirst (.bsm r1 r2) s := by
  have body : ∀ u : State, SameTrace u ((u.saveMode r1).takeModeBranch r2 (s.gpr r2)) := fun u =>
    (sameTrace_saveMode u _).trans (sameTrace_takeModeBranch _ _ _)
  by_cases h : r2 = 0#4
  · subst h
    exact tracesFirst_run (r := .ok s) rfl (tracing_none (by simp [tracedEntry])).symm body
  · refine tracesFirst_run (r := s.traceModeSwitch (modeOfRegister (s.gpr r2))) ?_ (tracing_modeSwitch ?_) body
    · simp only [exec, execBsm, if_neg h]
      rfl
    · simp [tracedEntry, h]

/-- The three instructions that set the addressing mode. -/
theorem tracesFirst_setAddressingMode {i : Instr} {s : State} {m : AMode}
    (hi : exec i s = s.run (instrBytes i) (s.setAddressingMode m))
    (hfit : m.fits s.ia = true → tracedEntry i s
      = if s.modeTraceOn ∧ s.amode.is64 ≠ m.is64 then some (modeSwitchEntry s.amode s.ia) else none)
    (hunfit : m.fits s.ia = false → tracedEntry i s = none) : TracesFirst i s := by
  cases h : m.fits s.ia with
  | true =>
    refine tracesFirst_run (r := s.traceModeSwitch m) (f := fun t => t.withPsw (pswWithMode t.psw m)) ?_
      (tracing_modeSwitch (hfit h)) fun u => ⟨rfl, rfl⟩
    rw [hi, State.setAddressingMode, require_true h]
    rfl
  | false =>
    refine .inr ⟨hunfit h, .specification, ?_⟩
    rw [hi, State.setAddressingMode, require_false h]
    rfl

theorem tracesFirst_sam24 (s : State) : TracesFirst .sam24 s := by
  refine tracesFirst_setAddressingMode (m := .a24) rfl (fun h => ?_) fun h => ?_
  · have hlt : s.ia.toNat < 2 ^ 24 := (fits24_iff _).1 h
    simp only [tracedEntry, hlt, true_and]
    cases hm : s.amode <;> simp
  · have hn : ¬s.ia.toNat < 2 ^ 24 := fun k => by simp [(fits24_iff s.ia).2 k] at h
    exact if_neg fun k => hn k.1

theorem tracesFirst_sam31 (s : State) : TracesFirst .sam31 s := by
  refine tracesFirst_setAddressingMode (m := .a31) rfl (fun h => ?_) fun h => ?_
  · have hlt : s.ia.toNat < 2 ^ 31 := (fits31_iff _).1 h
    simp only [tracedEntry, hlt, true_and]
    cases hm : s.amode <;> simp
  · have hn : ¬s.ia.toNat < 2 ^ 31 := fun k => by simp [(fits31_iff s.ia).2 k] at h
    exact if_neg fun k => hn k.1

theorem tracesFirst_sam64 (s : State) : TracesFirst .sam64 s := by
  refine tracesFirst_setAddressingMode (m := .a64) rfl (fun _ => ?_) fun h => ?_
  · simp [tracedEntry]
  · rw [fits64] at h
    cases h

theorem tracesFirst_pr (s : State) : TracesFirst .pr s := by
  cases he : s.currentEntry with
  | error x =>
    obtain rfl : x = .exception .stack := by
      rw [currentEntry_eq] at he
      split at he
      · exact (Except.error.inj he).symm
      · cases he
    refine .inr ⟨?_, .stack, ?_⟩
    · simp [tracedEntry, he]
    · show s.runThen 2 (s.currentEntry >>= _) _ = _
      rw [he]
      rfl
  | ok e =>
    refine .inl ⟨fun u => (u.returned e).loadPsw (s.returnedPsw e), ?_,
      keepsTrace_loadPsw (·.returned e) _ (sameTrace_returned · e) (returned_params · e)⟩
    have htr : s.traceModeSwitch (pswMode e.psw) = tracing .pr s := tracing_modeSwitch (by simp [tracedEntry, he])
    rw [← htr]
    show s.runThen 2 (s.currentEntry >>= _) _ = _
    rw [he, res_bind_ok]
    exact runThen_map s 2 _ (fun u : State => (u.returned e, s.returnedPsw e)) _

theorem tracesFirst_pc (b : Reg) (d : Nat) (s : State) : TracesFirst (.pc b d) s := by
  have htable : tracedEntry (.pc b d) s
      = if (s.findEntry (s.address b d)).stacking ∧ s.modeTraceOn ∧ s.amode.is64 ≠ (s.findEntry (s.address b d)).g then
          some (modeSwitchEntry s.amode s.ia) else none := rfl
  have hexec : exec (.pc b d) s = s.run 4
      (require ((s.findEntry (s.address b d)).stacking || (s.findEntry (s.address b d)).g == s.amode.is64)
        .specialOperation >>= fun _ => s.traceModeSwitch (s.findEntry (s.address b d)).mode >>= fun t =>
          .ok ((if (s.findEntry (s.address b d)).stacking then t.pushEntry .programCall s.psw else t).enterRoutine
            (s.findEntry (s.address b d)))) := rfl
  generalize s.findEntry (s.address b d) = e at htable hexec
  cases hok : e.stacking || e.g == s.amode.is64 with
  | false =>
    obtain ⟨hs, hg⟩ := Bool.or_eq_false_iff.1 hok
    refine .inr ⟨?_, .specialOperation, ?_⟩
    · rw [htable, hs]
      exact if_neg fun k => Bool.noConfusion k.1
    · rw [hexec, require_false hok]
      rfl
  | true =>
    rw [require_true hok, res_bind_ok] at hexec
    refine tracesFirst_run hexec (tracing_modeSwitch ?_) fun u => ?_
    · rw [htable, mode_is64]
      cases hs : e.stacking with
      | true => simp
      | false =>
        rw [hs, Bool.false_or, beq_iff_eq] at hok
        simp [hok]
    · split
      · exact (sameTrace_pushEntry u _ _).trans ⟨rfl, rfl⟩
      · exact ⟨rfl, rfl⟩

/-- The state in which a trap routine is entered, from that which tracing leaves. -/
def State.trapped (s : State) (operand : Option DWord) (t : State) : State :=
  ({ t with trapArea := some { s.currentTrapArea with saved := some (s.trapStatus s.currentTrapArea operand) } }.withPsw
    (pswWithMode (pswWithAddress s.psw (AMode.a31.trunc s.currentTrapArea.routine)) .a31)).freeTrapRegisters

theorem trap_eq (s : State) (operand : Option DWord) :
    s.trap operand = s.traceBranch .a31 (AMode.a31.trunc s.currentTrapArea.routine) >>= fun t =>
      .ok (s.trapped operand t) := rfl

theorem tracing_trap {i : Instr} {s : State} (h : tracedEntry i s = tracedEntry .trap2 s) :
    s.traceBranch .a31 (AMode.a31.trunc s.currentTrapArea.routine) = tracing i s := by
  unfold tracing State.traceBranch
  rw [h]
  by_cases hb : s.branchTraceOn = true <;> simp [tracedEntry, hb]

theorem tracesFirst_trap2 (s : State) : TracesFirst .trap2 s :=
  tracesFirst_run (f := s.trapped none) rfl (tracing_trap rfl) fun _ => ⟨rfl, rfl⟩

theorem tracesFirst_trap4 (b : Reg) (d : Nat) (s : State) : TracesFirst (.trap4 b d) s :=
  tracesFirst_run (f := s.trapped (some (s.address b d))) rfl (tracing_trap rfl) fun _ => ⟨rfl, rfl⟩

theorem tracesFirst_rp (b : Reg) (d : Nat) (s : State) : TracesFirst (.rp b d) s :=
  tracesFirst_run (f := State.resume) rfl (tracing_modeBranch rfl) fun _ => ⟨rfl, rfl⟩

/-- A refused instruction of the table. -/
theorem tracesFirst_refused {i : Instr} {s : State} {r : Refusal} (h : exec i s = .refused r)
    (hn : tracedEntry i s = none) : TracesFirst i s := by
  refine .inl ⟨fun _ => .refused r, ?_, fun _ _ k _ => by cases k⟩
  rw [h, tracing_none hn]
  rfl

/-- Every instruction of the table (44_trace_trap_monitor.md rule R265). -/
theorem tracesFirst_of_inTraceTable {i : Instr} (h : inTraceTable i = true) (s : State) : TracesFirst i s := by
  cases i with
  | bakr r1 r2 => exact tracesFirst_bakr r1 r2 s
  | balr r1 r2 => exact tracesFirst_balr r1 r2 s
  | basr r1 r2 => exact tracesFirst_basr r1 r2 s
  | bassm r1 r2 => exact tracesFirst_bassm r1 r2 s
  | bsm r1 r2 => exact tracesFirst_bsm r1 r2 s
  | bsa r1 r2 => exact tracesFirst_refused rfl rfl
  | bsg r1 r2 => exact tracesFirst_refused rfl rfl
  | pc b d => exact tracesFirst_pc b d s
  | pr => exact tracesFirst_pr s
  | rp b d => exact tracesFirst_rp b d s
  | sam24 => exact tracesFirst_sam24 s
  | sam31 => exact tracesFirst_sam31 s
  | sam64 => exact tracesFirst_sam64 s
  | trap2 => exact tracesFirst_trap2 s
  | trap4 b d => exact tracesFirst_trap4 b d s
  | _ => cases h

/-- Only instructions of the table make an entry. -/
theorem inTraceTable_of_some {i : Instr} {s : State} {entry : List Byte} (h : tracedEntry i s = some entry) :
    inTraceTable i = true := by
  cases i with
  | bakr | balr | basr | bassm | bsm | pc | pr | rp | sam24 | sam31 | sam64 | trap2 | trap4 => rfl
  | _ => cases h

/-- An instruction that makes an entry. -/
theorem exec_of_tracedEntry {i : Instr} {s : State} {entry : List Byte} (h : tracedEntry i s = some entry) :
    ∃ k, exec i s = s.runThen (instrBytes i) (s.appendTrace entry) k ∧ KeepsTrace k := by
  obtain hk | ⟨hn, _⟩ := tracesFirst_of_inTraceTable (inTraceTable_of_some h) s
  · rwa [tracing_some h] at hk
  · rw [h] at hn
    cases hn

theorem only_appended (s : State) (abs : Nat) (entry : List Byte) :
    Writes.Only { crs := [12#4], mem := [(abs, entry.length)] } s
      ((s.storeAbsolute abs entry).setCr 12#4 (s.advancedTrace entry.length)) :=
  (only_storeAbsolute (by simp) s).trans (only_setCr (by simp) _ _)

theorem traceAddress_appended (s : State) (abs : Nat) (entry : List Byte) :
    ((s.storeAbsolute abs entry).setCr 12#4 (s.advancedTrace entry.length)).traceAddress
      = (s.traceAddress + BitVec.ofNat 64 entry.length) &&& s.params.trace.address := by
  rw [State.traceAddress, State.cr_setCr_same]
  exact advancedTrace_address s entry.length

/-- Settles O51: what an instruction of the table does is its trace entry and then a meaning that leaves storage and
control register 12. -/
theorem modeAndBranchTracing : Obligations.ModeAndBranchTracing := by
  refine ⟨fun s entry abs => ⟨fun hc ha => ?_, appendTrace_crossing⟩, fun i s entry x h hx => ?_,
    fun i s t u entry h hu ht hs => ?_, fun i s t hi h ht hs => ?_⟩
  · exact ⟨_, appendTrace_eq hc ha, rfl, traceAddress_appended s abs entry, only_appended s abs entry⟩
  · obtain ⟨k, hk, _⟩ := exec_of_tracedEntry h
    rw [hk, hx]
    rfl
  · obtain ⟨k, hk, keeps⟩ := exec_of_tracedEntry h
    rw [hk, hu] at ht
    have hp : u.params = s.params := by
      obtain ⟨_, abs, _, rfl⟩ := appendTrace_ok hu
      rfl
    exact keeps u t ht (by rw [hp, hs])
  · obtain ⟨k, hk, keeps⟩ | ⟨_, x, hx⟩ := tracesFirst_of_inTraceTable hi s
    · rw [hk, tracing_none h] at ht
      exact .inl (keeps s t ht hs)
    · exact .inr (raise_taken (hx ▸ ht))

/-! ## TRACE and TRACG -/

/-- The bits of control register 12 beside the trace-entry address stay. -/
theorem advancedTrace_rest (s : State) (n : Nat) :
    s.advancedTrace n &&& ~~~s.params.trace.address = s.cr 12#4 &&& ~~~s.params.trace.address := by
  unfold State.advancedTrace
  ext i hi
  simp only [BitVec.getElem_and, BitVec.getElem_or, BitVec.getElem_not]
  cases s.params.trace.address[i] <;> simp

theorem traceExplicit_off {s : State} {w : Word} (h : s.explicitTraceOn = false ∨ bit w 0 = true) (entry : List Byte) :
    s.traceExplicit w entry = .ok s := by
  unfold State.traceExplicit
  obtain h | h := h <;> simp [h]

theorem traceExplicit_on {s : State} {w : Word} {entry : List Byte} {abs : Nat} (he : s.explicitTraceOn = true)
    (hw : bit w 0 = false) (hc : s.traceAddress.toNat % 4096 + entry.length ≤ 4096)
    (ha : s.realAddress s.traceAddress entry.length = .ok abs) :
    s.traceExplicit w entry
      = .ok ((s.storeAbsolute abs entry).setCr 12#4 (s.advancedTrace entry.length)).drawn := by
  simp only [State.traceExplicit, he, hw, appendTrace_eq hc ha]
  rfl

/-- An instruction whose whole effect is an explicit trace entry. -/
theorem traceExplicit_completes {i : Instr} {s : State} {len n abs : Nat} {w : Word} {entry : List Byte}
    (hi : exec i s = s.run len (s.traceExplicit w entry)) (hn : entry.length = n) (he : s.explicitTraceOn = true)
    (hw : bit w 0 = false) (hc : s.traceAddress.toNat % 4096 + n ≤ 4096)
    (ha : s.realAddress s.traceAddress n = .ok abs) :
    Completes i s { crs := [12#4], mem := [(abs, n)] } fun t =>
      (t.traceAddress = (s.traceAddress + BitVec.ofNat 64 n) &&& s.params.trace.address
        ∧ t.cr 12#4 &&& ~~~s.params.trace.address = s.cr 12#4 &&& ~~~s.params.trace.address)
      ∧ readBytes t.mem abs n = entry := by
  subst hn
  refine ⟨((s.storeAbsolute abs entry).setCr 12#4 (s.advancedTrace entry.length)).drawn, ?_,
    ⟨⟨traceAddress_appended s abs entry, ?_⟩, ?_⟩, (only_appended s abs entry).trans (only_drawn _ _)⟩
  · rw [hi, traceExplicit_on he hw hc ha, run_ok]
  · rw [State.cr_drawn, State.cr_setCr_same]
    exact advancedTrace_rest s entry.length
  · exact readBytes_writeBytes_same s.mem abs entry

theorem exec_trace {s : State} {r1 r3 b2 : Reg} {d2 src : Nat} {w : Word} (hp : s.problem = false)
    (ha : (s.address b2 d2).toNat % 4 = 0) (hf : s.fetchAddress s.operandSpace (s.address b2 d2) 4 = .ok src)
    (hw : toBytes 4 w.toNat = readBytes s.mem src 4) :
    exec (.trace r1 r3 b2 d2) s
      = s.run 4 (s.traceExplicit w (traceEntry (Config.todClock s.draws) w (s.rangeValues r1 r3))) := by
  refine (runThen_supervisor hp 4 _ _).trans ?_
  simp only [requireAligned_ok ha, memValue_eq hf, res_bind_ok, ofNat_of_toBytes (by omega) hw]
  rfl

theorem exec_tracg {s : State} {r1 r3 b2 : Reg} {d2 : Int} {src : Nat} {w : Word} (hp : s.problem = false)
    (ha : (s.address b2 d2).toNat % 4 = 0) (hf : s.fetchAddress s.operandSpace (s.address b2 d2) 4 = .ok src)
    (hw : toBytes 4 w.toNat = readBytes s.mem src 4) :
    exec (.tracg r1 r3 b2 d2) s
      = s.run 6 (s.traceExplicit w (tracgEntry (Config.todClock s.draws) w (s.rangeValues r1 r3))) := by
  refine (runThen_supervisor hp 6 _ _).trans ?_
  simp only [requireAligned_ok ha, memValue_eq hf, res_bind_ok, ofNat_of_toBytes (by omega) hw]
  rfl

theorem rangeValues_length (s : State) (r1 r3 : Reg) : (s.rangeValues r1 r3).length = (r3 - r1).toNat + 1 := by
  rw [State.rangeValues, List.length_map, registerRange, registersFrom_length, rangeCount]

theorem rangeValues_flatMap (s : State) (r1 r3 : Reg) (f : DWord → List Byte) :
    (s.rangeValues r1 r3).flatMap f = (registerRange r1 r3).flatMap fun r => f (s.gpr r) := List.flatMap_map ..

theorem traceEntry_length (tod : BitVec 80) (w : Word) (regs : List DWord) :
    (traceEntry tod w regs).length = 12 + 4 * regs.length := by
  simp [traceEntry, List.length_flatMap]
  omega

theorem tracgEntry_length (tod : BitVec 80) (w : Word) (regs : List DWord) :
    (tracgEntry tod w regs).length = 16 + 8 * regs.length := by
  simp [tracgEntry, List.length_flatMap]
  omega

/-- The first two bytes of a TRACE entry (44_trace_trap_monitor.md rule R266). -/
theorem traceHead_bytes : ∀ n : BitVec 4, toBytes 2 (0x7#4 ++ BitVec.ofNat 4 n.toNat ++ 0#8).toNat
    = [0x70#8 + BitVec.ofNat 8 n.toNat, 0#8] := by decide

/-- The TRACE entry of a register range. -/
theorem traceEntry_bytes (s : State) (tod : BitVec 80) (w : Word) (r1 r3 : Reg) :
    traceEntry tod w (s.rangeValues r1 r3)
      = [0x70#8 + BitVec.ofNat 8 (r3 - r1).toNat, 0#8] ++ toBytes 6 (bits tod 16 48).toNat ++ toBytes 4 w.toNat
        ++ (registerRange r1 r3).flatMap fun r => toBytes 4 ((s.gpr r).toNat % 2 ^ 32) := by
  have hhead : toBytes 8 (0x7#4 ++ BitVec.ofNat 4 (r3 - r1).toNat ++ 0#8 ++ bits tod 16 48).toNat
      = toBytes 2 (0x7#4 ++ BitVec.ofNat 4 (r3 - r1).toNat ++ 0#8).toNat ++ toBytes 6 (bits tod 16 48).toNat :=
    toBytes_parts (n := 2) (k := 6) (append_toNat _ _) (bits tod 16 48).isLt
  rw [traceEntry, rangeValues_length, rangeValues_flatMap, Nat.add_sub_cancel, hhead, traceHead_bytes]
  simp only [toBytes_lowWord]

/-- The TRACG entry of a register range (44_trace_trap_monitor.md rule R268). -/
theorem tracgEntry_bytes (s : State) (tod : BitVec 80) (w : Word) (r1 r3 : Reg) :
    tracgEntry tod w (s.rangeValues r1 r3)
      = [Config.tracgFirstByte (r3 - r1).toNat, 0x80#8] ++ toBytes 10 tod.toNat ++ toBytes 4 w.toNat
        ++ (registerRange r1 r3).flatMap fun r => toBytes 8 (s.gpr r).toNat := by
  rw [tracgEntry, rangeValues_length, rangeValues_flatMap, Nat.add_sub_cancel]
  rfl

/-- Settles O52. -/
theorem explicitTracing : Obligations.ExplicitTracing := by
  intro s r1 r3 b2 w src abs hp n nByte mask advanced
  refine ⟨fun d2 ha hf hw => ⟨fun h => ?_, fun he hb hc hr => ?_⟩,
    fun d2 ha hf hw => ⟨fun h => ?_, fun he hb hc hr => ?_⟩⟩
  · rw [exec_trace hp ha hf hw, traceExplicit_off h, run_ok]
  · obtain ⟨t, ht, ⟨hadv, hread⟩, only⟩ := traceExplicit_completes (exec_trace hp ha hf hw)
      (by rw [traceEntry_length, rangeValues_length]) he hb hc hr
    exact ⟨t, ht, ⟨hadv, fun _ => ⟨_, toBytes_length 6 _, hread.trans (traceEntry_bytes s _ w r1 r3)⟩⟩, only⟩
  · rw [exec_tracg hp ha hf hw, traceExplicit_off h, run_ok]
  · obtain ⟨t, ht, ⟨hadv, hread⟩, only⟩ := traceExplicit_completes (exec_tracg hp ha hf hw)
      (by rw [tracgEntry_length, rangeValues_length]) he hb hc hr
    exact ⟨t, ht, ⟨hadv, fun _ => ⟨_, _, toBytes_length 10 _, hread.trans (tracgEntry_bytes s _ w r1 r3)⟩⟩, only⟩

/-! ## TRAP2 and TRAP4 -/

/-- The status that a trap stores (44_trace_trap_monitor.md rule R270). -/
theorem trapStatus_cases (s : State) (area : TrapArea) (operand : Option DWord) :
    (s.trapStatus area operand).operand = operand
      ∧ (area.registers64 = true → (s.trapStatus area operand).registers = .full s.gprs)
      ∧ (area.registers64 = false → ∃ low : Vector Word 16, (s.trapStatus area operand).registers = .low low
        ∧ ∀ r : Reg, low.get r.toFin = bits (s.gpr r) 32 32)
      ∧ (area.psw128 = true → (s.trapStatus area operand).psw = .full s.psw)
      ∧ (area.psw128 = false → ∃ v, (s.trapStatus area operand).psw = .short v ∧ bit v 12 = true
        ∧ bits v 0 12 = bits s.psw 0 12 ∧ bits v 13 20 = bits s.psw 13 20 ∧ bits v 33 31 = bits s.psw 97 31) := by
  refine ⟨rfl, fun h => if_pos h, fun h => ⟨_, if_neg (by simp [h]), fun r => ?_⟩, fun h => if_pos h,
    fun h => ⟨_, if_neg (by simp [h]), ?_, bits_shorten_left _ 0 12 (by omega),
      bits_shorten_middle _ 13 20 (by omega) (by omega), bits_shorten_address _⟩⟩
  · simp [State.gpr, Vector.get]
  · rw [bit_eq_bits _ 12 1 0 (by omega) (by omega), bits_shorten_12]
    rfl

theorem only_trapped {w : Writes} (hg : ∀ r, r ∈ w.gprs) (ht : w.trap = true) (hm : modeBits ∈ w.psw)
    (ha : iaBits ∈ w.psw) {s u : State} (h : u.psw = s.psw) (operand : Option DWord) :
    w.Only u (s.trapped operand u) :=
  { Writes.Only.refl w u with
    gpr := fun r hr => absurd (hg r) hr
    trap := fun k => absurd (ht.symm.trans k) (by decide)
    psw := fun i hi hr => h ▸ bit_withAddress_withMode s.psw _ .a31 ha hm hi hr }

/-- Settles O53. -/
theorem trapEntersRoutine : Obligations.TrapEntersRoutine := by
  intro s u b2 d2 area entered
  have result : ∀ operand, entered operand (s.trapped operand u) := fun operand =>
    ⟨bits_pswWithMode _ .a31, (pswAddress_withAddress_withMode _ _ _).trans (trunc31_eq _), _, rfl,
      trapStatus_cases s area operand⟩
  have body : ∀ {operand i len}, exec i s = s.run len (s.trap operand) → TracedTo i s u →
      s.traceBranch .a31 (AMode.a31.trunc s.currentTrapArea.routine) = .ok u →
      CompletesFrom i s u { gprs := allRegs, psw := [modeBits, iaBits], trap := true } (entered operand) := by
    intro operand i len hi hu hb
    refine ⟨_, ?_, result operand, only_trapped mem_allRegs rfl (by simp) (by simp) hu.traced.psw operand⟩
    rw [hi, trap_eq, hb, res_bind_ok, run_ok]
  refine ⟨fun a ha => ?_, fun hu => body rfl hu (tracedTo_trap2.1 hu), fun hu => body rfl hu (tracedTo_trap4.1 hu)⟩
  show s.currentTrapArea = a
  rw [State.currentTrapArea, ha]
  rfl

/-! ## MC -/

/-- A suppressing or completing exception, taken. -/
theorem raise_completed {s : State} {e : ProgException} (hc : s.canInterrupt) (hn : e.nullifies = false) (len : Nat) :
    s.raise len e = .next (s.interrupted e (BitVec.ofNat 2 (len / 2)) s.ia) := by
  have ho : s.oldAddress e len = s.ia := by simp [State.oldAddress, hn]
  rw [State.raise, programInterruption_eq hc, ho]

/-- What stands where after such an exception: the new PSW, and the old one with the next instruction's address. -/
theorem interrupted_completed (s : State) (e : ProgException) (ilc : BitVec 2) :
    (s.interrupted e ilc s.ia).psw = s.pswAt 464#64 ∧ (s.interrupted e ilc s.ia).pswAt 336#64 = s.psw :=
  ⟨interrupted_psw s e ilc s.ia, (interrupted_oldPsw s e ilc s.ia).trans (pswWithAddress_self s.psw)⟩

/-- A monitor class is four bits with four zeros before it. -/
theorem class_of_zeros {i : Byte} (h : bits i 0 4 = 0#4) : 0#4 ++ bits i 4 4 = i := by
  rw [← h, bits_append_bits i 0 4 4 (by omega)]
  exact bits_all i

theorem class_toNat {i : Byte} (h : bits i 0 4 = 0#4) : (bits i 4 4).toNat = i.toNat := by
  conv_rhs => rw [← class_of_zeros h, append_toNat]
  simp

theorem exec_mc {s : State} {b1 : Reg} {d1 : Nat} {i2 : Byte} (h : bits i2 0 4 = 0#4) :
    exec (.mc b1 d1 i2) s
      = if bit (s.cr 8#4) (48 + i2.toNat) = true then s.raise 4 (.monitorEvent (bits i2 4 4) (s.address b1 d1))
        else .next s := by
  have hm : s.monitorOn (bits i2 4 4) = bit (s.cr 8#4) (48 + i2.toNat) := by rw [State.monitorOn, class_toNat h]
  show s.run 4 (require (bits i2 0 4 == 0#4) .specification >>= _) = _
  rw [require_true (beq_iff_eq.2 h), res_bind_ok, hm]
  split <;> rfl

/-- Settles O54. -/
theorem monitorCall : Obligations.MonitorCall := by
  intro s b1 d1 i2
  refine ⟨fun h => ?_, fun h hoff => ?_, fun h hon _ hc => ?_⟩
  · show s.run 4 (require (bits i2 0 4 == 0#4) .specification >>= _) = _
    rw [require_false (beq_eq_false_iff_ne.2 h)]
    rfl
  · rw [exec_mc h, hoff]
    rfl
  · obtain ⟨hpsw, hold⟩ := interrupted_completed s (.monitorEvent (bits i2 4 4) (s.address b1 d1)) 2#2
    obtain ⟨hclass, hcode⟩ := interrupted_monitor hc.1 2#2 s.ia (e := .monitorEvent (bits i2 4 4) (s.address b1 d1)) rfl
    refine ⟨_, ?_, ⟨hpsw, hold, (interrupted_identification hc.1 _ _ _).trans ?_, ?_, hcode⟩, interrupted_only s _ _ _⟩
    · rw [exec_mc h, hon]
      exact raise_completed hc rfl 4
    · show identificationBytes 2#2 0x0040#16 = _
      decide
    · rw [hclass, class_of_zeros h]

end Sys2Proof.Machine
end

section
/-! The obligations of 45_move_and_consistency.md. -/

namespace Sys2Proof.Machine

open Sys2Proof

/-! ## MVCP, MVCS and MVCK -/

theorem trueLength_eq (s : State) (r : Reg) :
    s.trueLength r = if s.amode.is64 then (s.gpr r).toNat else (s.gpr r).toNat % 2 ^ 32 := by
  rw [State.trueLength, bits_low32_toNat]

/-- A move whose bytes can be fetched and stored. -/
theorem move_eq {s : State} {dest source : Option Space} {r : Reg} {a1 a2 : DWord} {f g : Nat → Nat} {n : Nat}
    (hn : moveCount (s.trueLength r) = n) (hg : s.FetchesAt source a2 n g (unitPlaces f 1 n))
    (hf : s.StoresAt dest a1 1 n f) :
    ∃ l, s.move dest source r a1 a2
        = .ok ((s.withStores (movedBytes f g s.mem n 0) l).setCc (moveCc (s.trueLength r)))
      ∧ RecordsWithin (unitPlaces f 1 n) s.stored l := by
  obtain ⟨l, hmove, hl⟩ := moveBytes_eq (m := s.mem) (l := s.stored) (j := n) (k := 0) hg hf (.refl _ _) (by omega)
  have hself : s.withStores s.mem s.stored = s := rfl
  rw [hself] at hmove
  refine ⟨l, ?_, hl⟩
  simp only [State.move, hn, checkFetch_eq hg (Nat.le_of_eq (Nat.zero_add n)), hmove, res_bind_ok]

/-- An instruction whose whole effect is such a move. -/
theorem move_completes {i : Instr} {s : State} {len : Nat} {dest source : Option Space} {r : Reg} {a1 a2 : DWord}
    {f g : Nat → Nat} {length : Nat} (hi : exec i s = s.run len (s.move dest source r a1 a2))
    (hlen : s.trueLength r = length)
    (hg : s.FetchesAt source a2 (min length 256) g (unitPlaces f 1 (min length 256)))
    (hf : s.StoresAt dest a1 1 (min length 256) f) :
    Completes i s { mem := unitPlaces f 1 (min length 256), psw := [ccBits] } fun t =>
      t.mem = movedBytes f g s.mem (min length 256) 0 ∧ t.cc = if length ≤ 256 then 0#2 else 3#2 := by
  subst hlen
  obtain ⟨l, hmove, hl⟩ := move_eq rfl hg hf
  refine ⟨(s.withStores (movedBytes f g s.mem (min (s.trueLength r) 256) 0) l).setCc (moveCc (s.trueLength r)), ?_,
    ⟨rfl, State.cc_setCc _ _⟩, ?_⟩
  · rw [hi, hmove]
    rfl
  · exact (only_withStores (movedBytes_same s.mem (by omega)) hl).trans (only_setCc (by simp) _ _)

/-- What MVCP and MVCS require: DAT, primary-space or secondary-space mode, the secondary-space control. -/
theorem twoSpaces_iff (s : State) :
    s.twoSpaces = true
      ↔ s.dat = true ∧ bit s.psw 17 = false ∧ s.cr 0#4 &&& s.params.secondarySpaceControl ≠ 0#64 := by
  have hspace : (s.space == .primary || s.space == .secondary) = true ↔ bit s.psw 17 = false := by
    unfold State.space
    cases bit s.psw 16 <;> cases bit s.psw 17 <;> decide
  rw [State.twoSpaces, Bool.and_eq_true, Bool.and_eq_true, hspace, bne_iff_ne, and_assoc]

theorem exec_mvcp_eq {s : State} (hp : s.problem = false) (r1 r3 b1 b2 : Reg) (d1 d2 : Nat) :
    exec (.mvcp r1 r3 b1 d1 b2 d2) s = s.run 6 (require s.twoSpaces .specialOperation >>= fun _ =>
      s.move (some .primary) (some .secondary) r1 (s.address b1 d1) (s.address b2 d2)) :=
  runThen_supervisor hp 6 _ _

theorem exec_mvcs_eq {s : State} (hp : s.problem = false) (r1 r3 b1 b2 : Reg) (d1 d2 : Nat) :
    exec (.mvcs r1 r3 b1 d1 b2 d2) s = s.run 6 (require s.twoSpaces .specialOperation >>= fun _ =>
      s.move (some .secondary) (some .primary) r1 (s.address b1 d1) (s.address b2 d2)) :=
  runThen_supervisor hp 6 _ _

/-- Settles O55. -/
theorem movesBetweenSpaces : Obligations.MovesBetweenSpaces := by
  intro s r1 r3 b1 b2 d1 d2 f g hp length n enabled moved
  have hlen : s.trueLength r1 = length := trueLength_eq s r1
  have on : ∀ h : enabled, ∀ x : ProgException, require s.twoSpaces x = .ok () := fun h x =>
    require_true ((twoSpaces_iff s).2 h) x
  refine ⟨fun h => ?_, fun h hg hf => move_completes (len := 6) ?_ hlen hg hf,
    fun h hg hf => move_completes (len := 6) ?_ hlen hg hf⟩
  · have off : s.twoSpaces = false := Bool.eq_false_iff.2 fun k => h ((twoSpaces_iff s).1 k)
    rw [exec_mvcp_eq hp, exec_mvcs_eq hp, require_false off]
    exact ⟨rfl, rfl⟩
  · rw [exec_mvcp_eq hp, on h, res_bind_ok]
  · rw [exec_mvcs_eq hp, on h, res_bind_ok]

/-- Settles O56. -/
theorem moveWithKey : Obligations.MoveWithKey := by
  intro s r1 r3 b1 b2 d1 d2 f g hp length n hg hf
  exact move_completes (runThen_supervisor hp 6 _ _) (trueLength_eq s r1) hg hf

/-! ## Quadwords -/

/-- A register pair as bytes. -/
theorem pair_bytes (s : State) (r : Reg) :
    toBytes 16 (s.pair r).toNat = toBytes 8 (s.gpr r).toNat ++ toBytes 8 (s.gpr (r + 1#4)).toNat := by
  rw [toBytes_quad, State.pair, bits_append_left _ _ _ _ (by omega), bits_append_right _ _ _ _ (by omega) (by omega),
    bits_all, bits_all]

/-- A pair that a quadword has been loaded into. -/
theorem setPair_bytes (s : State) (r : Reg) (q : Quad) :
    toBytes 8 ((s.setPair r q).gpr r).toNat ++ toBytes 8 ((s.setPair r q).gpr (r + 1#4)).toNat = toBytes 16 q.toNat := by
  obtain ⟨h1, h2⟩ := gpr_setPair s r q
  rw [h1, h2, toBytes_quad]

theorem quadAt_bytes (s : State) (a : Nat) : toBytes 16 (s.quadAt a).toNat = readBytes s.mem a 16 :=
  toBytes_of_ofNat (by omega) (readBytes_length _ _ _)

theorem quadAt_eq_iff (s : State) (a : Nat) (q : Quad) : s.quadAt a = q ↔ readBytes s.mem a 16 = toBytes 16 q.toNat :=
  ⟨fun h => h ▸ (quadAt_bytes s a).symm, fun h => ofNat_of_toBytes (by omega) h.symm⟩

theorem readBytes_storedPair (s : State) (r : Reg) (abs : Nat) :
    readBytes (s.storeAbsolute abs (toBytes 16 (s.pair r).toNat)).mem abs 16
      = toBytes 8 (s.gpr r).toNat ++ toBytes 8 (s.gpr (r + 1#4)).toNat :=
  (stored_completes s abs (toBytes_length 16 (s.pair r).toNat)).1.trans (pair_bytes s r)

theorem only_storedPair {w : Writes} {abs : Nat} (h : (abs, 16) ∈ w.mem) (s : State) (q : Quad) :
    w.Only s (s.storeAbsolute abs (toBytes 16 q.toNat)) :=
  only_storeAbsolute (by rwa [toBytes_length]) s

/-- Settles O57. -/
theorem quadwordLoadAndStore : Obligations.QuadwordLoadAndStore := by
  refine ⟨fun s x2 b2 d2 => ?_, fun s r1 x2 b2 d2 abs hr ha => ⟨fun hf => ?_, fun hs => ?_⟩⟩
  · intro part
    refine ⟨?_, rfl⟩
    rw [indexedAddress_toNat, baseValue_toNat, baseValue_toNat]
  · refine ⟨s.setPair r1 (s.quadAt abs), (runThen_even ((even_iff r1).2 hr) 6 _ _).trans ?_, ?_,
      only_setPair (by simp) (by simp) s _⟩
    · simp only [requireAligned_ok ha, memValue_eq hf, res_bind_ok, runThen_ok]
      rfl
    · show toBytes 8 (State.gpr _ r1).toNat ++ toBytes 8 (State.gpr _ (r1 + 1#4)).toNat = _
      rw [setPair_bytes, quadAt_bytes]
  · have hw : s.memWrite (s.indexedAddress b2 x2 d2) (toBytes 16 (s.pair r1).toNat) = .ok _ :=
      memWrite_eq (by rwa [toBytes_length])
    refine ⟨_, (runThen_even ((even_iff r1).2 hr) 6 _ _).trans ?_, fun _ => readBytes_storedPair s r1 abs,
      only_storedPair (by simp) s _⟩
    simp only [requireAligned_ok ha, hw, res_bind_ok, runThen_ok]

/-! ## CDSG -/

/-- CDSG after the checks of its registers and of its address. -/
theorem exec_cdsg {s : State} {r1 r3 b2 : Reg} {d2 : Int} (h1 : r1.toNat % 2 = 0) (h3 : r3.toNat % 2 = 0)
    (ha : (s.address b2 d2).toNat % 16 = 0) :
    exec (.cdsg r1 r3 b2 d2) s
      = s.run 6 (s.fetchAddress s.operandSpace (s.address b2 d2) 16 >>= fun _ =>
        s.storeAddress s.operandSpace (s.address b2 d2) 16 >>= fun abs =>
        if s.quadAt abs = s.pair r1 then
          .ok ((s.storeAbsolute abs (toBytes 16 (s.pair r3).toNat)).setCc (compareCc true))
        else .ok ((s.setPair r1 (s.quadAt abs)).setCc (compareCc false))) := by
  refine (runThen_even ((even_iff r1).2 h1) 6 _ _).trans ((runThen_even ((even_iff r3).2 h3) 6 _ _).trans ?_)
  simp only [requireAligned_ok ha, res_bind_ok]
  rfl

/-- CDSG where the quadword can be stored into and equals the first pair. -/
theorem exec_cdsg_equal {s : State} {r1 r3 b2 : Reg} {d2 : Int} {abs : Nat} (h1 : r1.toNat % 2 = 0)
    (h3 : r3.toNat % 2 = 0) (ha : (s.address b2 d2).toNat % 16 = 0)
    (hs : s.storeAddress s.operandSpace (s.address b2 d2) 16 = .ok abs) (hq : s.quadAt abs = s.pair r1) :
    exec (.cdsg r1 r3 b2 d2) s = .next ((s.storeAbsolute abs (toBytes 16 (s.pair r3).toNat)).setCc 0#2) := by
  rw [exec_cdsg h1 h3 ha, fetchAddress_of_storeAddress hs, hs, res_bind_ok, res_bind_ok, if_pos hq]
  rfl

/-- CDSG where it does not equal the first pair. -/
theorem exec_cdsg_unequal {s : State} {r1 r3 b2 : Reg} {d2 : Int} {abs : Nat} (h1 : r1.toNat % 2 = 0)
    (h3 : r3.toNat % 2 = 0) (ha : (s.address b2 d2).toNat % 16 = 0)
    (hs : s.storeAddress s.operandSpace (s.address b2 d2) 16 = .ok abs) (hq : s.quadAt abs ≠ s.pair r1) :
    exec (.cdsg r1 r3 b2 d2) s = .next ((s.setPair r1 (s.quadAt abs)).setCc 1#2) := by
  rw [exec_cdsg h1 h3 ha, fetchAddress_of_storeAddress hs, hs, res_bind_ok, res_bind_ok, if_neg hq]
  rfl

/-- Settles O58. -/
theorem compareDoubleAndSwap : Obligations.CompareDoubleAndSwap := by
  intro s r1 r3 b2 d2 abs h1 h3 ha
  refine ⟨fun x hf => ?_, fun x hf hs => ?_, fun hs => ⟨fun h => ?_, fun h => ?_⟩⟩
  · rw [exec_cdsg h1 h3 ha, hf]
    rfl
  · rw [exec_cdsg h1 h3 ha, hf, hs]
    rfl
  · have heq : s.quadAt abs = s.pair r1 := (quadAt_eq_iff s abs _).2 (h.trans (pair_bytes s r1).symm)
    refine ⟨_, exec_cdsg_equal h1 h3 ha hs heq, ⟨State.cc_setCc _ _, fun _ => ?_⟩,
      (only_storedPair (by simp) s _).trans (only_setCc (by simp) _ _)⟩
    rw [State.setCc_mem]
    exact readBytes_storedPair s r3 abs
  · have hne : s.quadAt abs ≠ s.pair r1 := fun k => h (((quadAt_eq_iff s abs _).1 k).trans (pair_bytes s r1))
    refine ⟨_, exec_cdsg_unequal h1 h3 ha hs hne, ⟨State.cc_setCc _ _, ?_⟩,
      (only_setPair (by simp) (by simp) s _).trans (only_setCc (by simp) _ _)⟩
    rw [State.gpr_setCc, State.gpr_setCc, setPair_bytes, quadAt_bytes]

/-! ## MVPG -/

/-- The page of an address: its leftmost 52 bits. -/
theorem registerPage_eq (s : State) (r : Reg) : s.registerPage r = bits (s.amode.trunc (s.gpr r)) 0 52 ++ 0#12 := by
  have hm : ∀ i, i < 64 → (0xFFFFFFFFFFFFF000#64).getMsbD i = decide (i < 52) := by decide
  apply BitVec.eq_of_getMsbD_eq
  intro i hi
  rw [State.registerPage, State.registerAddress, BitVec.getMsbD_and, hm i hi, BitVec.getMsbD_append]
  by_cases h : i < 52
  · simp [h, getMsbD_bits (s.amode.trunc (s.gpr r)) 0 52 i (by omega), show ¬52 ≤ i by omega]
  · simp [h, show 52 ≤ i by omega]

theorem exec_mvpg {s : State} {r1 r2 : Reg} {source destination : Res Nat} (h : s.gpr 0#4 = 0#64)
    (hs : s.fetchAddress s.operandSpace (bits (s.amode.trunc (s.gpr r2)) 0 52 ++ 0#12) 4096 = source)
    (hd : s.storeAddress s.operandSpace (bits (s.amode.trunc (s.gpr r1)) 0 52 ++ 0#12) 4096 = destination) :
    exec (.mvpg r1 r2) s = s.run 4 (source >>= fun src => destination >>= fun dst =>
      .ok (((s.storeAbsolute dst (readBytes s.mem src 4096)).setCc (Config.movePageCc s.draws)).drawn)) := by
  have hn : s.requireNoOptions = .ok () := if_pos h
  rw [← registerPage_eq] at hs hd
  show s.run 4 (s.requireNoOptions >>= _) = _
  rw [hn, res_bind_ok, ← hs, ← hd]

/-- A copied range of bytes, byte by byte. -/
theorem readByte_copied (m : Memory) (dst src : Nat) {n k : Nat} (h : k < n) :
    readByte (writeBytes m dst (readBytes m src n)) (dst + k) = readByte m (src + k) := by
  have hread := readBytes_writeBytes_same m dst (readBytes m src n)
  rw [readBytes_length] at hread
  have hk := congrArg (·[k]?) hread
  rw [readBytes_getElem? _ _ _ _ h, readBytes_getElem? _ _ _ _ h] at hk
  exact Option.some.inj hk

/-- Settles O59. -/
theorem movePage : Obligations.MovePage := by
  intro s r1 r2 source destination
  refine ⟨fun h => ?_, fun h => ⟨fun x hx => ?_, fun src hsrc => ⟨fun x hx => ?_, fun dst hdst => ?_⟩⟩⟩
  · have hn : s.requireNoOptions = .error (.refused .movePageOptions) := if_neg h
    show s.run 4 (s.requireNoOptions >>= _) = _
    rw [hn]
    rfl
  · rw [exec_mvpg h hx rfl]
    rfl
  · rw [exec_mvpg h hsrc hx]
    rfl
  · refine ⟨((s.storeAbsolute dst (readBytes s.mem src 4096)).setCc (Config.movePageCc s.draws)).drawn,
      exec_mvpg h hsrc hdst, fun _ k hk => ?_, ?_⟩
    · rw [State.drawn_mem, State.setCc_mem, State.storeAbsolute_mem]
      exact readByte_copied s.mem dst src hk
    · have hp : (dst, (readBytes s.mem src 4096).length) ∈ [(dst, 4096)] := by
        rw [readBytes_length]
        exact List.mem_singleton.2 rfl
      exact ((only_storeAbsolute hp s).trans (only_setCc (by simp) _ _)).trans (only_drawn _ _)

/-! ## IESBE -/

/-- Settles O60. -/
theorem iesbeIsDropped : Obligations.IesbeIsDropped := by
  intro s r1 r2 _ hc
  obtain ⟨hpsw, hold⟩ := interrupted_completed s .operation 2#2
  refine ⟨_, raise_completed hc rfl 4, ⟨hpsw, hold, (interrupted_identification hc.1 _ _ _).trans ?_⟩,
    interrupted_only s _ _ _⟩
  decide

end Sys2Proof.Machine
end
